-- ==== Sys2Proof/Word.lean ====
section
/-! DEFINITION. The word types of the KX8-1280 (R17, R45): bytes, 32-bit words, 64-bit pairs and lane masks. -/

namespace Sys2Proof

/-- A byte of memory. -/
abbrev Byte := BitVec 8

/-- A 32-bit register (R17). -/
abbrev Word := BitVec 32

/-- A 64-bit value: a register pair, an address, a program counter (R17). -/
abbrev DWord := BitVec 64

/-- A set of the 64 lanes of a gang (R10). -/
abbrev Mask := BitVec 64

/-- Bits [31:0] of a 64-bit value, held in the even register of a pair (R17). -/
def loWord (x : DWord) : Word := x.setWidth 32

/-- Bits [63:32] of a 64-bit value, held in the odd register of a pair (R17). -/
def hiWord (x : DWord) : Word := (x >>> 32).setWidth 32

/-- The 64-bit value of a pair: low word first (R17). -/
def pairOf (lo hi : Word) : DWord := hi ++ lo

end Sys2Proof
end

