-- ==== Sys2Proof/Syntax.lean ====
section
/-! DEFINITION. The instructions and events of the KX8-1280: one constructor of `Instr` per row of the opcode table.
Register fields are the numbers the word holds; immediates are the unsigned field values, extended by the meanings (R64). -/

namespace Sys2Proof

/-- Conditions of iset and kset (R87). -/
inductive IsetCond | eq | ne | lt | le | gt | ge | ltu | leu | gtu | geu
  deriving DecidableEq, Repr

/-- Conditions of iseti (R88). -/
inductive ImmCond | eq | ne | lt | le | gt | ge | ltu | geu
  deriving DecidableEq, Repr

/-- Element kinds of idot (R90). -/
inductive IdotKind | s8 | us8 | s8w | s4 | us4
  deriving DecidableEq, Repr

/-- The two products of imulw (R91). -/
inductive WideSign | signed | unsigned
  deriving DecidableEq, Repr

/-- Conditions of fset (R120). -/
inductive FsetCond | eq | lt | le | un
  deriving DecidableEq, Repr

/-- Rounding directions of frnd and of the float-to-integer conversions (R122, R125). -/
inductive Direction | ne | z | dn | up
  deriving DecidableEq, Repr

/-- Conversion codes of cvt (R125). -/
inductive CvtCode
  | f32F16 | f32Bf16 | f32E4m3 | f32E5m2 | f32E2m1
  | f16F32 | bf16F32 | e4m3F32 | e5m2F32
  | s32F32 (m : Direction) | u32F32 (m : Direction) | f32S32 | f32U32
  deriving DecidableEq, Repr

/-- Target formats of fpack (R127). -/
inductive PackFmt | f16 | bf16 | e4m3 | e5m2
  deriving DecidableEq, Repr

/-- Input formats of fdot2 (R124). -/
inductive DotFmt | f16 | bf16
  deriving DecidableEq, Repr

/-- Selectors of lshfl (R134). -/
inductive ShflMode | idx | up | down | xor
  deriving DecidableEq, Repr

/-- Operations of lscan and lred (R71). -/
inductive LaneOp | iadd | fadd | imin | imax | and | or | xor | fmax
  deriving DecidableEq, Repr

/-- Scopes (R72, R217). -/
inductive Scope | core | cl | pk | sy
  deriving DecidableEq, Repr

/-- The scopes an ordering suffix of an access can name (R66). -/
inductive OrdScope | cl | pk | sy
  deriving DecidableEq, Repr

/-- Ordering codes of ldg (R66). -/
inductive LdOrd | plain | acq (s : OrdScope) | fresh
  deriving DecidableEq, Repr

/-- Ordering codes of stg (R66). -/
inductive StOrd | plain | rel (s : OrdScope) | stream
  deriving DecidableEq, Repr

/-- Ordering codes of atom and red (R66). -/
inductive AtOrd | plain | acq (s : OrdScope) | rel (s : OrdScope) | arPk
  deriving DecidableEq, Repr

/-- Operations of red (R67). -/
inductive RedOp | add | min | max | and | or | xor | fadd | add64
  deriving DecidableEq, Repr

/-- Operations of satom (R150). -/
inductive SatomOp | add | min | max | and | or | xor | xchg | cas | fadd
  deriving DecidableEq, Repr

/-- Path classes that a fence names (R72). -/
inductive FenceClass | strand | copy | matrix | pantry | message | host
  deriving DecidableEq, Repr

/-- A barrier: b0 to b15 of the crew, c0 to c7 of the cohort, n0 to n3 of the launch (R72). -/
inductive BarRef | crew (n : Nat) | cohort (n : Nat) | launch (n : Nat)
  deriving DecidableEq, Repr

/-- The special registers of R23. -/
inductive SpecialReg
  | lane | gidx | widLo | widHi | rtcLo | rtcHi | cycLo | cycHi | fmt | fpf | pass | rdyLo | rdyHi | rngLo | rngHi
  | rxs | rxr | wbase | temp | tmode | prio | dmode | core | cluster | die | part | splits | sgidx | srseedLo | srseedHi
  deriving DecidableEq, Repr

/-- Shapes of a matrix instruction (R69). -/
inductive MatShape | m128n128 | m128n64 | m64n128 | m64n64 | m32n128 | m32n64 | m128n128k2
  deriving DecidableEq, Repr

/-- The counter add of a copy: none, plain, or with release (R68). -/
inductive CtrAdd | none | plain | release
  deriving DecidableEq, Repr

/-- A ring that carries commands (R342). -/
inductive RingRef | host | supervisor (part : Nat)
  deriving DecidableEq, Repr

/-- A fault queue: a partition's, or the device firmware's (R36, R291). -/
inductive QueueRef | partition (part : Nat) | firmware
  deriving DecidableEq, Repr

/-- A link: the ring link from die `d` to die `d + 1`, a fabric port, the Skafen link (R334). -/
inductive LinkRef | ring (die : Nat) | fabric (port : Nat) | skafen
  deriving DecidableEq, Repr

/-- Where an uncorrectable error is found (the rows of R296). -/
inductive ErrorPlace
  | clean | observedLine (core : Nat) | context (cluster : Nat) | tables (cluster : Nat) | slotGranule (cluster : Nat) (slotB : Bool)
  | onlyCopy (part : Nat) (pa : Nat)
  deriving DecidableEq, Repr

/-- The outcome of the boot ROM's checks (R351). -/
inductive BootCheck | good | fetch | hash | signature | version
  deriving DecidableEq, Repr

/-- What the controller acts on at a sample of one cluster (R324): per core the issue and fifo-full cycles, the mean current in
0.1 A, and the front-end cycles of the interval. -/
structure ClusterSample where
  current : Nat
  deriving DecidableEq, Repr

/-- The operands of configure (R343). -/
structure ConfigureOps where
  root : Nat
  queueArea : Nat
  queueRecords : Nat
  faultBase : Nat
  faultEntries : Nat
  saveBase : Nat
  saveGiB : Nat
  ringBase : Nat
  ringEntries : Nat
  dirtyBudget : Nat
  retentionUs : Nat
  deriving DecidableEq, Repr

/-- An agent that waits on a fault buffer without a place in it (R274). -/
inductive HeldAgent | gang (id : Nat) | mcc (cohort : Nat) | copy (id : Nat)
  deriving DecidableEq, Repr

/-- A message that arrives: one sent on this device, or one from a fabric peer (R192, R339). -/
inductive Arrival
  | inFlight (id : Nat)
  | fabric (port : Nat) (senderPart : Nat) (part : Nat) (die : Nat) (record : List Byte) (payload : List Byte)
  deriving DecidableEq, Repr

/-- One constructor per row of the opcode table: 227 instruction words, then 65 events. -/
inductive Instr
  -- sys, trap, special registers, window (R97 to R115)
  | nop | exit | yield | brk
  | eret (a : Nat)
  | icinv (s : Scope)
  | pfence (cl : Bool)
  | phase | halt
  | ret (a : Nat)
  | trap (i : Nat)
  | srd (d : Nat) (r : SpecialReg)
  | swr (a : Nat) (r : SpecialReg)
  | setfmt (a : Nat)
  | winb (i : Nat)
  | bra (x : Nat)
  | brz (a x : Nat) | brnz (a x : Nat) | brany (a x : Nat) | brall (a x : Nat) | bkz (a x : Nat) | bknz (a x : Nat)
  | call (a x : Nat)
  | jmpk (a : Nat)
  | callk (d a : Nat)
  -- ialu (R84)
  | iadd (d a b : Nat) | isub (d a b : Nat) | imul (d a b : Nat) | imulh (d a b : Nat) | imulhu (d a b : Nat)
  | imin (d a b : Nat) | imax (d a b : Nat) | iminu (d a b : Nat) | and (d a b : Nat) | or (d a b : Nat)
  | xor (d a b : Nat) | shl (d a b : Nat) | shr (d a b : Nat) | sra (d a b : Nat) | rot (d a b : Nat) | andn (d a b : Nat)
  -- ialx (R85)
  | imad (d a b : Nat) | iabsd (d a b : Nat) | sel (d a b : Nat) | bfe (d a b : Nat) | bfi (d a b : Nat)
  | popc (d a : Nat) | clz (d a : Nat) | ctz (d a : Nat) | brev (d a : Nat) | iabs (d a : Nat) | ineg (d a : Nat)
  | not (d a : Nat)
  | iadd64 (d a b : Nat) | isub64 (d a b : Nat) | imul64 (d a b : Nat) | shf (d a b : Nat)
  -- compares, immediates, moves, dot products (R87 to R91)
  | iset (c : IsetCond) (d a b : Nat)
  | iaddi (d a i : Nat) | andi (d a i : Nat) | ori (d a i : Nat) | xori (d a i : Nat)
  | shli (d a i : Nat) | shri (d a i : Nat) | shriA (d a i : Nat)
  | iseti (c : ImmCond) (d a i : Nat)
  | movi (d i : Nat)
  | movk (d a : Nat) | mov (d a : Nat)
  | idot (k : IdotKind) (d a b : Nat)
  | imulw (g : WideSign) (d a b : Nat)
  -- uniform registers (R92 to R96)
  | kadd (d a b : Nat) | ksub (d a b : Nat) | kmul (d a b : Nat) | kmulh (d a b : Nat) | kmulhu (d a b : Nat)
  | kmin (d a b : Nat) | kmax (d a b : Nat) | kminu (d a b : Nat) | kand (d a b : Nat) | kor (d a b : Nat)
  | kxor (d a b : Nat) | kshl (d a b : Nat) | kshr (d a b : Nat) | ksra (d a b : Nat) | krot (d a b : Nat)
  | kandn (d a b : Nat)
  | kmad (d a b : Nat) | ksel (d a b : Nat) | kbfe (d a b : Nat) | kbfi (d a b : Nat)
  | kpopc (d a : Nat) | kclz (d a : Nat)
  | kadd64 (d a b : Nat) | ksub64 (d a b : Nat) | kmul64 (d a b : Nat) | kmulw (d a b : Nat)
  | kdivu (d a b : Nat) | kremu (d a b : Nat)
  | kset (c : IsetCond) (d a b : Nat)
  | kaddi (d a i : Nat) | kmovi (d i : Nat)
  | kshlImm (d a i : Nat) | kshrImm (d a i : Nat) | ksraImm (d a i : Nat)
  | kldt (d i : Nat)
  | kread (d a b : Nat)
  | kvoteAny (d a : Nat) | kvoteAll (d a : Nat) | kvoteBallot (d a : Nat)
  | kfirst (d a : Nat)
  -- tasks (R188 to R191)
  | spawn (d a i : Nat)
  | chunk (d a : Nat)
  | msgsend (d a b : Nat)
  | join (a : Nat)
  -- floating point (R118 to R128)
  | fadd (d a b : Nat) | fsub (d a b : Nat) | fmul (d a b : Nat) | ffma (d a b : Nat) | fmin (d a b : Nat)
  | fmax (d a b : Nat)
  | fset (c : FsetCond) (d a b : Nat)
  | fclass (d a : Nat)
  | frnd (m : Direction) (d a : Nat)
  | cvt (c : CvtCode) (d a : Nat)
  | fpack (f : PackFmt) (d a b : Nat)
  | fscale (d a b : Nat)
  | fdot2 (f : DotFmt) (d a b : Nat)
  | fq4 (d a : Nat)
  -- relaxation regions and sample groups (R193 to R210)
  | rxcfg (a : Nat) | rxbody | rxend | rxabort
  | sgfork (d a b : Nat) | sgreward (d b : Nat) | sgcancel (d a b : Nat) | sgstat (d a : Nat)
  -- special functions and divides, with lookahead l (R129 to R132)
  | rcp (d a l : Nat) | rsqrt (d a l : Nat) | sqrt (d a l : Nat) | exp2 (d a l : Nat) | log2 (d a l : Nat)
  | sinpi (d a l : Nat) | cospi (d a l : Nat) | tanh (d a l : Nat) | sigmoid (d a l : Nat) | erf (d a l : Nat)
  | texp (d a l : Nat)
  | idiv (d a b l : Nat) | idivu (d a b l : Nat) | irem (d a b l : Nat) | iremu (d a b l : Nat) | fdiv (d a b l : Nat)
  -- determinism (R211 to R214)
  | digest (a b : Nat) | stepmark (d a : Nat) | qend
  -- cross-lane and random numbers (R134 to R139)
  | lshfl (m : ShflMode) (d a b : Nat)
  | lbcast (d a i : Nat)
  | leqm (d a : Nat)
  | lscan (o : LaneOp) (ex : Bool) (d a : Nat)
  | lred (o : LaneOp) (d a : Nat)
  | lrank (d a : Nat) | lpopm (d a : Nat)
  | rngnext (d : Nat) | rngsplit (a : Nat) | rngu (d : Nat)
  -- global memory (R143)
  | ldgB (d a kb : Nat) (o : LdOrd) (l : Nat) | ldgH (d a kb : Nat) (o : LdOrd) (l : Nat)
  | ldgW (d a kb : Nat) (o : LdOrd) (l : Nat) | ldgD (d a kb : Nat) (o : LdOrd) (l : Nat)
  | ldgQ (d a kb : Nat) (o : LdOrd) (l : Nat)
  | stgB (d a kb : Nat) (o : StOrd) | stgH (d a kb : Nat) (o : StOrd) | stgW (d a kb : Nat) (o : StOrd)
  | stgD (d a kb : Nat) (o : StOrd) | stgQ (d a kb : Nat) (o : StOrd)
  -- scratchpad (R146)
  | ldsB (d a kb l : Nat) | ldsH (d a kb l : Nat) | ldsW (d a kb l : Nat) | ldsD (d a kb l : Nat) | ldsQ (d a kb l : Nat)
  | stsB (d a kb : Nat) | stsH (d a kb : Nat) | stsW (d a kb : Nat) | stsD (d a kb : Nat) | stsQ (d a kb : Nat)
  -- atomics (R147 to R150)
  | atomAdd (d a kb : Nat) (o : AtOrd) (l : Nat) | atomMin (d a kb : Nat) (o : AtOrd) (l : Nat)
  | atomMax (d a kb : Nat) (o : AtOrd) (l : Nat) | atomAnd (d a kb : Nat) (o : AtOrd) (l : Nat)
  | atomOr (d a kb : Nat) (o : AtOrd) (l : Nat) | atomXor (d a kb : Nat) (o : AtOrd) (l : Nat)
  | atomXchg (d a kb : Nat) (o : AtOrd) (l : Nat) | atomCas (d a kb : Nat) (o : AtOrd) (l : Nat)
  | atomFadd (d a kb : Nat) (o : AtOrd) (l : Nat)
  | red (p : RedOp) (d a kb : Nat) (o : AtOrd)
  | satom (f : SatomOp) (d a b : Nat)
  | fence (first second : FenceClass) (s : Scope)
  -- copies, tags, barriers, counters (R152 to R164)
  | cpyin (tag : Option Nat) (ka kl bar : Nat) (c : CtrAdd) | cpyout (tag : Option Nat) (ka kl bar : Nat) (c : CtrAdd)
  | cpyatt (tag : Option Nat) (ka kl bar : Nat) (c : CtrAdd) | cpyg (tag : Option Nat) (ka kl bar : Nat) (c : CtrAdd)
  | tagwany (a : Nat) | tagwall (a : Nat) | tagff (d a : Nat) | tagclr (a : Nat)
  | barr (d a : Nat) (b : BarRef) | barw (d a : Nat) (b : BarRef) | barwait (d a : Nat) (b : BarRef)
  | barx (d a : Nat) (b : BarRef) | bart (d a : Nat) (b : BarRef) | barp (a : Nat) (b : BarRef) | barq (d : Nat) (b : BarRef)
  | barcfg (a : Nat) (b : BarRef)
  | waitc (a b : Nat) | sigc (a b : Nat) | readc (d a : Nat)
  -- matrix and generators (R165 to R184)
  | mma (sh : MatShape) (acc ka kb : Nat) (side add tsp : Bool)
  | mmag (sh : MatShape) (acc ka g : Nat) (side add tsp : Bool)
  | mzero (j : Nat) | mdrain (d a j : Nat) (z : Bool) | mwait
  | gset (g a : Nat)
  | mccRdv
  | fork (a : Nat)
  | rdv
  | geval (d a b g : Nat)
  -- events
  | heldFaultRecordPost (q : QueueRef)
  | crewLimit
  | copyCompletion (copy : Nat)
  | copyFault (copy : Nat)
  | arrayExecute (cohort : Nat)
  | pantryRequestServe (cluster : Nat)
  | faultBufferRetry (agent : HeldAgent)
  | schedulerPlacement (part die : Nat)
  | recordAging (range : Nat)
  | headRecordSpill (range : Nat)
  | clusterReservation (range : Nat)
  | reservationPreempt (range : Nat)
  | preemptSave (cohort : Nat)
  | cohortRestore (cohort : Nat)
  | gangQuantumEnd (gang : Nat)
  | quantumEnd (range : Nat)
  | idleQuantumEnd (range : Nat)
  | sgDeadline (group : Nat)
  | messageArrival (m : Arrival)
  | portBufferMessageEntry (part die : Nat)
  | heldRecordEntry (part die : Nat)
  | remoteAccess (port senderPart part : Nat) (va : DWord) (len : Nat) (data : Option (List Byte))
  | replicaDigestArrival (part : Nat) (step : DWord) (digest : List Byte)
  | replicaTimeout (part : Nat)
  | seal (cluster cause : Nat)
  | dirtyBudget (cluster : Nat)
  | supplyFailure (cluster : Nat) (torn : Bool)
  | cellarResume (cluster : Nat) (badA badB tablesLost : Bool)
  | uncorrectableError (p : ErrorPlace)
  | clockGate (cluster : Nat)
  | retentionEntry (cluster : Nat)
  | powerGating (cluster : Nat)
  | clusterWake (cluster : Nat) (parityGood badA badB : Bool)
  | powerSample (die : Nat) (samples : List ClusterSample) (stackCurrents : List Nat) (hot : Bool)
  | supplyDroop (cluster : Nat)
  | railSettled (cluster : Nat)
  | leaseExpiry
  | flitCrcFailure (l : LinkRef)
  | linkDown (l : LinkRef)
  | linkTraining (port : Nat) (peer : List Byte)
  | boot (c : BootCheck)
  | managementRegisterWrite (offset : Nat) (value : DWord)
  | hostMemoryWrite (part pa : Nat) (data : List Byte)
  | hostMemoryRead (part pa len : Nat)
  | create (part dieMask : Nat) (carveGiB : List Nat) (period usageBase usageEntries : Nat)
  | configure (part : Nat) (ops : ConfigureOps)
  | place (ring : RingRef) (part : Nat) (record : DWord) (die : Nat) (super : Bool)
  | map (ring : RingRef) (part : Nat) (va len : DWord) (invalidate : Bool)
  | setRoot (ring : RingRef) (part root : Nat)
  | hostHalt (part : Nat)
  | resume (part : Nat)
  | setRoute (part entry : Nat) (bytes : List Byte)
  | setReplica (part peer replica timeoutUs : Nat)
  | operatingPoint (ring : RingRef) (part mask mhz ratio mv : Nat)
  | budgetToken (seq watts leaseMs : Nat)
  | readTelemetry (hostAddr : Nat)
  | attest (ring : RingRef) (part : Nat) (nonce : List Byte) (addr : DWord)
  | destroy (part : Nat)
  | usagePeriodEnd (part : Nat)
  | heldUsageRecordPost (part : Nat)
  | heldEventPost
  | nonInstructionWord (w : Nat)
  | instructionFetchFault
  | publicationAcknowledgement (pub : Nat)
  | linkRetrained (l : LinkRef)
  deriving DecidableEq, Repr

end Sys2Proof
end

