-- ==== Sys2Proof/WellFormed.lean ====
section
/-! DEFINITION. Which instructions an instruction word can hold: field widths, even pairs, blocks and limits (R62 to R72). -/

namespace Sys2Proof

/-- A 7-bit register field (R63). -/
def okReg (n : Nat) : Bool := n < 128

/-- A field that names a pair holds an even number (R18, R19). -/
def okPair (n : Nat) : Bool := n < 128 && n % 2 == 0

/-- A field that names the first of `k` registers: the block ends at register 127 (R63). -/
def okBlock (n k : Nat) : Bool := n + k ≤ 128

/-- A 4-bit field: a lookahead, a base pair (R62). -/
def okNib (n : Nat) : Bool := n < 16

/-- An 8-bit immediate (R62). -/
def okImm (n : Nat) : Bool := n < 256

/-- An 18-bit displacement field (R62). -/
def okDisp (n : Nat) : Bool := n < 262144

/-- Barrier numbers: 16 of the crew, 8 of the cohort, 4 of the launch (R72). -/
def BarRef.ok : BarRef → Bool
  | .crew n => n < 16
  | .cohort n => n < 8
  | .launch n => n < 4

/-- A copy's tag, k block, layout pair and barrier (R68, R152): `len` registers from an even `ka`. -/
def okCopy (len : Nat) (tag : Option Nat) (ka kl bar : Nat) : Bool :=
  (match tag with
   | none => true
   | some t => decide (t < 64)) && ka % 2 == 0 && okBlock ka len && okNib kl && bar < 8

/-- The row of the opcode table is an event: it has no instruction word. -/
def Instr.isEvent : Instr → Bool
  | .heldFaultRecordPost _ | .crewLimit | .copyCompletion _ | .copyFault _ | .arrayExecute _ | .pantryRequestServe _
  | .faultBufferRetry _ | .schedulerPlacement _ _ | .recordAging _ | .headRecordSpill _ | .clusterReservation _
  | .reservationPreempt _ | .preemptSave _ | .cohortRestore _ | .gangQuantumEnd _ | .quantumEnd _ | .idleQuantumEnd _
  | .sgDeadline _ | .messageArrival _ | .portBufferMessageEntry _ _ | .heldRecordEntry _ _ | .remoteAccess _ _ _ _ _ _
  | .replicaDigestArrival _ _ _ | .replicaTimeout _ | .seal _ _ | .dirtyBudget _ | .supplyFailure _ _
  | .cellarResume _ _ _ _ | .uncorrectableError _ | .clockGate _ | .retentionEntry _ | .powerGating _
  | .clusterWake _ _ _ _ | .powerSample _ _ _ _ | .supplyDroop _ | .railSettled _ | .leaseExpiry | .flitCrcFailure _
  | .linkDown _ | .linkTraining _ _ | .boot _ | .managementRegisterWrite _ _ | .hostMemoryWrite _ _ _
  | .hostMemoryRead _ _ _ | .create _ _ _ _ _ _ | .configure _ _ | .place _ _ _ _ _ | .map _ _ _ _ _ | .setRoot _ _ _
  | .hostHalt _ | .resume _ | .setRoute _ _ _ | .setReplica _ _ _ _ | .operatingPoint _ _ _ _ _ _ | .budgetToken _ _ _
  | .readTelemetry _ | .attest _ _ _ _ | .destroy _ | .usagePeriodEnd _ | .heldUsageRecordPost _ | .heldEventPost
  | .nonInstructionWord _ | .instructionFetchFault | .publicationAcknowledgement _ | .linkRetrained _ => true
  | _ => false

/-- The fields of an instruction word are in range and pass the checks of R74 that the word alone decides.
An event holds no word, so nothing is asked of it. -/
def Instr.wf : Instr → Bool
  | .nop | .exit | .yield | .brk | .phase | .halt | .icinv _ | .pfence _ => true
  | .eret a | .ret a | .jmpk a => okPair a
  | .trap i | .winb i => okImm i
  | .srd d _ => okReg d
  | .swr a _ | .setfmt a => okReg a
  | .bra x => okDisp x
  | .brz a x | .brnz a x | .brany a x | .brall a x | .bkz a x | .bknz a x => okReg a && okDisp x
  | .call a x => okPair a && okDisp x
  | .callk d a => okPair d && okPair a
  | .iadd d a b | .isub d a b | .imul d a b | .imulh d a b | .imulhu d a b | .imin d a b | .imax d a b
  | .iminu d a b | .and d a b | .or d a b | .xor d a b | .shl d a b | .shr d a b | .sra d a b | .rot d a b
  | .andn d a b | .imad d a b | .iabsd d a b | .sel d a b | .bfe d a b | .bfi d a b => okReg d && okReg a && okReg b
  | .popc d a | .clz d a | .ctz d a | .brev d a | .iabs d a | .ineg d a | .not d a => okReg d && okReg a
  | .iadd64 d a b | .isub64 d a b | .imul64 d a b => okPair d && okPair a && okPair b
  | .shf d a b => okReg d && okPair a && okReg b
  | .iset _ d a b | .idot _ d a b => okReg d && okReg a && okReg b
  | .iaddi d a i | .andi d a i | .ori d a i | .xori d a i | .iseti _ d a i => okReg d && okReg a && okImm i
  | .shli d a i | .shri d a i | .shriA d a i => okReg d && okReg a && i < 32
  | .movi d i => okReg d && okImm i
  | .movk d a | .mov d a => okReg d && okReg a
  | .imulw _ d a b => okPair d && okReg a && okReg b
  | .kadd d a b | .ksub d a b | .kmul d a b | .kmulh d a b | .kmulhu d a b | .kmin d a b | .kmax d a b
  | .kminu d a b | .kand d a b | .kor d a b | .kxor d a b | .kshl d a b | .kshr d a b | .ksra d a b | .krot d a b
  | .kandn d a b | .kmad d a b | .ksel d a b | .kbfe d a b | .kbfi d a b | .kdivu d a b | .kremu d a b =>
      okReg d && okReg a && okReg b
  | .kpopc d a | .kclz d a => okReg d && okReg a
  | .kadd64 d a b | .ksub64 d a b | .kmul64 d a b => okPair d && okPair a && okPair b
  | .kmulw d a b => okPair d && okReg a && okReg b
  | .kset _ d a b => okReg d && okReg a && okReg b
  | .kaddi d a i => okReg d && okReg a && okImm i
  | .kmovi d i | .kldt d i => okReg d && okImm i
  | .kshlImm d a i | .kshrImm d a i | .ksraImm d a i => okReg d && okReg a && i < 32
  | .kread d a b => okReg d && okReg a && okReg b
  | .kvoteAny d a | .kvoteAll d a | .kfirst d a => okReg d && okReg a
  | .kvoteBallot d a => okPair d && okReg a
  | .spawn d a i => okReg d && okPair a && okImm i
  | .chunk d a => okPair d && okPair a
  | .msgsend d a b => okReg d && okPair a && okBlock b 16
  | .join a => okPair a
  | .fadd d a b | .fsub d a b | .fmul d a b | .ffma d a b | .fmin d a b | .fmax d a b | .fset _ d a b
  | .fpack _ d a b | .fscale d a b | .fdot2 _ d a b => okReg d && okReg a && okReg b
  | .fclass d a | .frnd _ d a | .cvt _ d a | .fq4 d a => okReg d && okReg a
  | .rxcfg a => okBlock a 14
  | .rxbody | .rxend | .rxabort => true
  | .sgfork d a b => okReg d && okPair a && okBlock b 8
  | .sgreward d b => okPair d && okReg b
  | .sgcancel d a b => okReg d && okPair a && okReg b
  | .sgstat d a => okPair d && okPair a
  | .rcp d a l | .rsqrt d a l | .sqrt d a l | .exp2 d a l | .log2 d a l | .sinpi d a l | .cospi d a l | .tanh d a l
  | .sigmoid d a l | .erf d a l | .texp d a l => okReg d && okReg a && okNib l
  | .idiv d a b l | .idivu d a b l | .irem d a b l | .iremu d a b l | .fdiv d a b l =>
      okReg d && okReg a && okReg b && okNib l
  | .digest a b => okPair a && okPair b
  | .stepmark d a => okReg d && okPair a
  | .qend => true
  | .lshfl _ d a b => okReg d && okReg a && okReg b
  | .lbcast d a i => okReg d && okReg a && i < 64
  | .leqm d a => okPair d && okReg a
  | .lscan _ _ d a | .lred _ d a | .lrank d a | .lpopm d a => okReg d && okReg a
  | .rngnext d | .rngu d => okReg d
  | .rngsplit a => okPair a
  | .ldgB d a k _ l | .ldgH d a k _ l | .ldgW d a k _ l => okReg d && okReg a && okNib k && okNib l
  | .ldgD d a k _ l => okPair d && okReg a && okNib k && okNib l
  | .ldgQ d a k _ l => okReg d && d % 4 == 0 && okReg a && okNib k && okNib l
  | .stgB d a k _ | .stgH d a k _ | .stgW d a k _ => okReg d && okReg a && okNib k
  | .stgD d a k _ => okPair d && okReg a && okNib k
  | .stgQ d a k _ => okReg d && d % 4 == 0 && okReg a && okNib k
  | .ldsB d a k l | .ldsH d a k l | .ldsW d a k l => okReg d && okReg a && okNib k && okNib l
  | .ldsD d a k l => okPair d && okReg a && okNib k && okNib l
  | .ldsQ d a k l => okReg d && d % 4 == 0 && okReg a && okNib k && okNib l
  | .stsB d a k | .stsH d a k | .stsW d a k => okReg d && okReg a && okNib k
  | .stsD d a k => okPair d && okReg a && okNib k
  | .stsQ d a k => okReg d && d % 4 == 0 && okReg a && okNib k
  | .atomAdd d a k _ l | .atomMin d a k _ l | .atomMax d a k _ l | .atomAnd d a k _ l | .atomOr d a k _ l
  | .atomXor d a k _ l | .atomXchg d a k _ l | .atomFadd d a k _ l => okReg d && okReg a && okNib k && okNib l
  | .atomCas d a k _ l => okPair d && okReg a && okNib k && okNib l
  | .red p d a k _ => okReg d && (p != .add64 || d % 2 == 0) && okReg a && okNib k
  | .satom f d a b => okReg d && okReg a && okReg b && (f != .cas || b % 2 == 0)
  | .fence _ _ _ => true
  | .cpyin t ka kl b _ | .cpyout t ka kl b _ | .cpyatt t ka kl b _ => okCopy 10 t ka kl b
  | .cpyg t ka kl b _ => okCopy 12 t ka kl b
  | .tagwany a | .tagwall a | .tagclr a => okPair a
  | .tagff d a => okReg d && okPair a
  | .barr d a b | .barw d a b | .barwait d a b | .barx d a b | .bart d a b => okReg d && okReg a && b.ok
  | .barp a b | .barcfg a b => okReg a && b.ok
  | .barq d b => okReg d && b.ok
  | .waitc a b | .sigc a b => okPair a && okPair b
  | .readc d a => okPair d && okPair a
  | .mma _ acc ka kb _ _ _ => okNib acc && okReg ka && okReg kb
  | .mmag _ acc ka g _ _ _ => okNib acc && okBlock ka 3 && g < 8
  | .mzero j => okNib j
  | .mdrain d a j _ => okPair d && okReg a && okNib j
  | .mwait | .mccRdv | .rdv => true
  | .gset g a => g < 8 && okBlock a 8
  | .fork a => okPair a
  | .geval d a b g => okReg d && okReg a && okReg b && g < 8
  | i => i.isEvent

end Sys2Proof
end

