-- ==== Sys2Proof/Decode.lean ====
section
/-! DEFINITION. Decoding and encoding of the 32-bit words (R62 to R74).  A word is cut once into five fields,
major [31:25], d [24:18], a [17:11], b [10:4] and f [3:0]; every other field of R62 is a view of these. -/

namespace Sys2Proof

/-! ### Codes -/

/-- Condition codes of iset and kset (R87). -/
def isetOf : Nat → Option IsetCond
  | 0 => some .eq | 1 => some .ne | 2 => some .lt | 3 => some .le | 4 => some .gt | 5 => some .ge
  | 6 => some .ltu | 7 => some .leu | 8 => some .gtu | 9 => some .geu | _ => none

/-- The code of a condition of iset and kset (R87). -/
def isetCode : IsetCond → Nat
  | .eq => 0 | .ne => 1 | .lt => 2 | .le => 3 | .gt => 4 | .ge => 5 | .ltu => 6 | .leu => 7 | .gtu => 8 | .geu => 9

/-- Condition codes of iseti (R88): all eight values of f3. -/
def immCondOf : Nat → Option ImmCond
  | 0 => some .eq | 1 => some .ne | 2 => some .lt | 3 => some .le | 4 => some .gt | 5 => some .ge
  | 6 => some .ltu | 7 => some .geu | _ => none

/-- The code of a condition of iseti (R88). -/
def immCondCode : ImmCond → Nat
  | .eq => 0 | .ne => 1 | .lt => 2 | .le => 3 | .gt => 4 | .ge => 5 | .ltu => 6 | .geu => 7

/-- Function codes of idot (R90). -/
def idotOf : Nat → Option IdotKind
  | 0 => some .s8 | 1 => some .us8 | 2 => some .s8w | 3 => some .s4 | 4 => some .us4 | _ => none

/-- The function code of an idot (R90). -/
def idotCode : IdotKind → Nat
  | .s8 => 0 | .us8 => 1 | .s8w => 2 | .s4 => 3 | .us4 => 4

/-- Function codes of imulw (R91). -/
def wideOf : Nat → Option WideSign
  | 0 => some .signed | 1 => some .unsigned | _ => none

/-- The function code of an imulw (R91). -/
def wideCode : WideSign → Nat
  | .signed => 0 | .unsigned => 1

/-- Condition codes of fset (R120). -/
def fsetOf : Nat → Option FsetCond
  | 0 => some .eq | 1 => some .lt | 2 => some .le | 3 => some .un | _ => none

/-- The code of a condition of fset (R120). -/
def fsetCode : FsetCond → Nat
  | .eq => 0 | .lt => 1 | .le => 2 | .un => 3

/-- Direction codes (R122, R125). -/
def directionOf : Nat → Option Direction
  | 0 => some .ne | 1 => some .z | 2 => some .dn | 3 => some .up | _ => none

/-- The code of a direction (R122, R125). -/
def directionCode : Direction → Nat
  | .ne => 0 | .z => 1 | .dn => 2 | .up => 3

/-- Conversion codes of cvt (R125). -/
def cvtOf : Nat → Option CvtCode
  | 0x00 => some .f32F16 | 0x01 => some .f32Bf16 | 0x02 => some .f32E4m3 | 0x03 => some .f32E5m2 | 0x04 => some .f32E2m1
  | 0x08 => some .f16F32 | 0x09 => some .bf16F32 | 0x0A => some .e4m3F32 | 0x0B => some .e5m2F32
  | 0x10 => some (.s32F32 .ne) | 0x11 => some (.s32F32 .z) | 0x12 => some (.s32F32 .dn) | 0x13 => some (.s32F32 .up)
  | 0x14 => some (.u32F32 .ne) | 0x15 => some (.u32F32 .z) | 0x16 => some (.u32F32 .dn) | 0x17 => some (.u32F32 .up)
  | 0x18 => some .f32S32 | 0x19 => some .f32U32 | _ => none

/-- The code of a conversion (R125). -/
def cvtCode : CvtCode → Nat
  | .f32F16 => 0x00 | .f32Bf16 => 0x01 | .f32E4m3 => 0x02 | .f32E5m2 => 0x03 | .f32E2m1 => 0x04
  | .f16F32 => 0x08 | .bf16F32 => 0x09 | .e4m3F32 => 0x0A | .e5m2F32 => 0x0B
  | .s32F32 m => 0x10 + directionCode m | .u32F32 m => 0x14 + directionCode m | .f32S32 => 0x18 | .f32U32 => 0x19

/-- Format codes of fpack (R127). -/
def packOf : Nat → Option PackFmt
  | 1 => some .f16 | 2 => some .bf16 | 3 => some .e4m3 | 4 => some .e5m2 | _ => none

/-- The format code of an fpack (R127). -/
def packCode : PackFmt → Nat
  | .f16 => 1 | .bf16 => 2 | .e4m3 => 3 | .e5m2 => 4

/-- Format codes of fdot2 (R124). -/
def dotOf : Nat → Option DotFmt
  | 1 => some .f16 | 2 => some .bf16 | _ => none

/-- The format code of an fdot2 (R124). -/
def dotCode : DotFmt → Nat
  | .f16 => 1 | .bf16 => 2

/-- Mode codes of lshfl (R134). -/
def shflOf : Nat → Option ShflMode
  | 0 => some .idx | 1 => some .up | 2 => some .down | 3 => some .xor | _ => none

/-- The mode code of an lshfl (R134). -/
def shflCode : ShflMode → Nat
  | .idx => 0 | .up => 1 | .down => 2 | .xor => 3

/-- Operation codes of lscan and lred (R71). -/
def laneOpOf : Nat → Option LaneOp
  | 0 => some .iadd | 1 => some .fadd | 2 => some .imin | 3 => some .imax | 4 => some .and | 5 => some .or
  | 6 => some .xor | 7 => some .fmax | _ => none

/-- The code of an operation of lscan and lred (R71). -/
def laneOpCode : LaneOp → Nat
  | .iadd => 0 | .fadd => 1 | .imin => 2 | .imax => 3 | .and => 4 | .or => 5 | .xor => 6 | .fmax => 7

/-- Scope codes (R72). -/
def scopeOf : Nat → Option Scope
  | 0 => some .core | 1 => some .cl | 2 => some .pk | 3 => some .sy | _ => none

/-- The code of a scope (R72). -/
def scopeCode : Scope → Nat
  | .core => 0 | .cl => 1 | .pk => 2 | .sy => 3

/-- Ordering codes of loads (R66). -/
def ldOrdOf : Nat → Option LdOrd
  | 0 => some .plain | 1 => some (.acq .cl) | 2 => some (.acq .pk) | 3 => some (.acq .sy) | 7 => some .fresh | _ => none

/-- The ordering code of a load (R66). -/
def ldOrdCode : LdOrd → Nat
  | .plain => 0 | .acq .cl => 1 | .acq .pk => 2 | .acq .sy => 3 | .fresh => 7

/-- Ordering codes of stores (R66). -/
def stOrdOf : Nat → Option StOrd
  | 0 => some .plain | 4 => some (.rel .cl) | 5 => some (.rel .pk) | 6 => some (.rel .sy) | 7 => some .stream | _ => none

/-- The ordering code of a store (R66). -/
def stOrdCode : StOrd → Nat
  | .plain => 0 | .rel .cl => 4 | .rel .pk => 5 | .rel .sy => 6 | .stream => 7

/-- Ordering codes of atomics and reductions (R66). -/
def atOrdOf : Nat → Option AtOrd
  | 0 => some .plain | 1 => some (.acq .cl) | 2 => some (.acq .pk) | 3 => some (.acq .sy)
  | 4 => some (.rel .cl) | 5 => some (.rel .pk) | 6 => some (.rel .sy) | 7 => some .arPk | _ => none

/-- The ordering code of an atomic or a reduction (R66). -/
def atOrdCode : AtOrd → Nat
  | .plain => 0 | .acq .cl => 1 | .acq .pk => 2 | .acq .sy => 3 | .rel .cl => 4 | .rel .pk => 5 | .rel .sy => 6
  | .arPk => 7

/-- Operation codes of red (R67). -/
def redOf : Nat → Option RedOp
  | 0 => some .add | 1 => some .min | 2 => some .max | 3 => some .and | 4 => some .or | 5 => some .xor
  | 6 => some .fadd | 7 => some .add64 | _ => none

/-- The operation code of a red (R67). -/
def redCode : RedOp → Nat
  | .add => 0 | .min => 1 | .max => 2 | .and => 3 | .or => 4 | .xor => 5 | .fadd => 6 | .add64 => 7

/-- Function codes of satom (R150). -/
def satomOf : Nat → Option SatomOp
  | 0 => some .add | 1 => some .min | 2 => some .max | 3 => some .and | 4 => some .or | 5 => some .xor
  | 6 => some .xchg | 7 => some .cas | 8 => some .fadd | _ => none

/-- The function code of a satom (R150). -/
def satomCode : SatomOp → Nat
  | .add => 0 | .min => 1 | .max => 2 | .and => 3 | .or => 4 | .xor => 5 | .xchg => 6 | .cas => 7 | .fadd => 8

/-- Fence classes (R72). -/
def classOf : Nat → Option FenceClass
  | 0 => some .strand | 1 => some .copy | 2 => some .matrix | 3 => some .pantry | 4 => some .message | 5 => some .host
  | _ => none

/-- The code of a fence class (R72). -/
def classCode : FenceClass → Nat
  | .strand => 0 | .copy => 1 | .matrix => 2 | .pantry => 3 | .message => 4 | .host => 5

/-- The barrier that the imm8 of the bar family names: [7:6] level, [5:2] number, [1:0] zero (R72). -/
def barOf (i : Nat) : Option BarRef :=
  if i % 4 ≠ 0 then none
  else match i / 64 with
    | 0 => some (.crew (i / 4 % 16))
    | 1 => if i / 4 % 16 < 8 then some (.cohort (i / 4 % 16)) else none
    | 2 => if i / 4 % 16 < 4 then some (.launch (i / 4 % 16)) else none
    | _ => none

/-- The imm8 that names a barrier (R72). -/
def barCode : BarRef → Nat
  | .crew n => 4 * n | .cohort n => 64 + 4 * n | .launch n => 128 + 4 * n

/-- Special-register numbers (R23). -/
def specialOf : Nat → Option SpecialReg
  | 0x00 => some .lane | 0x01 => some .gidx | 0x02 => some .widLo | 0x03 => some .widHi | 0x04 => some .rtcLo
  | 0x05 => some .rtcHi | 0x06 => some .cycLo | 0x07 => some .cycHi | 0x08 => some .fmt | 0x09 => some .fpf
  | 0x0A => some .pass | 0x0B => some .rdyLo | 0x0C => some .rdyHi | 0x0D => some .rngLo | 0x0E => some .rngHi
  | 0x0F => some .rxs | 0x10 => some .rxr | 0x11 => some .wbase | 0x12 => some .temp | 0x13 => some .tmode
  | 0x14 => some .prio | 0x15 => some .dmode | 0x16 => some .core | 0x17 => some .cluster | 0x18 => some .die
  | 0x19 => some .part | 0x1A => some .splits | 0x1B => some .sgidx | 0x1C => some .srseedLo | 0x1D => some .srseedHi
  | _ => none

/-- The number of a special register (R23). -/
def specialCode : SpecialReg → Nat
  | .lane => 0x00 | .gidx => 0x01 | .widLo => 0x02 | .widHi => 0x03 | .rtcLo => 0x04 | .rtcHi => 0x05 | .cycLo => 0x06
  | .cycHi => 0x07 | .fmt => 0x08 | .fpf => 0x09 | .pass => 0x0A | .rdyLo => 0x0B | .rdyHi => 0x0C | .rngLo => 0x0D
  | .rngHi => 0x0E | .rxs => 0x0F | .rxr => 0x10 | .wbase => 0x11 | .temp => 0x12 | .tmode => 0x13 | .prio => 0x14
  | .dmode => 0x15 | .core => 0x16 | .cluster => 0x17 | .die => 0x18 | .part => 0x19 | .splits => 0x1A | .sgidx => 0x1B
  | .srseedLo => 0x1C | .srseedHi => 0x1D

/-- Shape codes of a matrix instruction (R69). -/
def shapeOf : Nat → Option MatShape
  | 0 => some .m128n128 | 1 => some .m128n64 | 2 => some .m64n128 | 3 => some .m64n64 | 4 => some .m32n128
  | 5 => some .m32n64 | 6 => some .m128n128k2 | _ => none

/-- The code of a shape (R69). -/
def shapeCode : MatShape → Nat
  | .m128n128 => 0 | .m128n64 => 1 | .m64n128 => 2 | .m64n64 => 3 | .m32n128 => 4 | .m32n64 => 5 | .m128n128k2 => 6

/-- The tag field of a copy: bit 6 set means no tag, and then the rest is zero (R68). -/
def tagOf (tg : Nat) : Option (Option Nat) :=
  if tg < 64 then some (some tg) else if tg = 64 then some none else none

/-- The tag field of a copy (R68). -/
def tagCode : Option Nat → Nat
  | some t => t | none => 64

/-- cflag of a copy: [3] counter add, [2] with release, [1:0] zero (R68). -/
def ctrOf : Nat → Option CtrAdd
  | 0 => some .none | 8 => some .plain | 12 => some .release | _ => none

/-- The cflag of a copy (R68). -/
def ctrCode : CtrAdd → Nat
  | .none => 0 | .plain => 8 | .release => 12

/-! ### Guards -/

/-- `x` when the check holds. -/
def guarded (c : Bool) (x : Instr) : Option Instr := if c then some x else none

/-- An even field (R18, R19). -/
def ev (n : Nat) : Bool := n % 2 == 0

/-! ### Families -/

/-- Three-operand functions of a major whose f field selects the function; the register checks are `guarded` by `f`'s row. -/
def decodeSys (d a b f : Nat) : Option Instr :=
  match f with
  | 0 => guarded (d == 0 && a == 0 && b == 0) .nop
  | 1 => guarded (d == 0 && a == 0 && b == 0) .exit
  | 2 => guarded (d == 0 && a == 0 && b == 0) .yield
  | 3 => guarded (d == 0 && a == 0 && b == 0) .brk
  | 4 => guarded (d == 0 && b == 0 && ev a) (.eret a)
  | 5 => if d == 0 && b == 0 then (scopeOf a).map .icinv else none
  | 6 => guarded (d == 0 && b == 0 && a < 2) (.pfence (a == 1))
  | 7 => guarded (d == 0 && a == 0 && b == 0) .phase
  | 8 => guarded (d == 0 && a == 0 && b == 0) .halt
  | 9 => guarded (d == 0 && b == 0 && ev a) (.ret a)
  | _ => none

/-- ialu (R84). -/
def decodeIalu (d a b f : Nat) : Option Instr :=
  match f with
  | 0 => some (.iadd d a b) | 1 => some (.isub d a b) | 2 => some (.imul d a b) | 3 => some (.imulh d a b)
  | 4 => some (.imulhu d a b) | 5 => some (.imin d a b) | 6 => some (.imax d a b) | 7 => some (.iminu d a b)
  | 8 => some (.and d a b) | 9 => some (.or d a b) | 10 => some (.xor d a b) | 11 => some (.shl d a b)
  | 12 => some (.shr d a b) | 13 => some (.sra d a b) | 14 => some (.rot d a b) | 15 => some (.andn d a b)
  | _ => none

/-- ialx (R85). -/
def decodeIalx (d a b f : Nat) : Option Instr :=
  match f with
  | 0 => some (.imad d a b) | 1 => some (.iabsd d a b) | 2 => some (.sel d a b) | 3 => some (.bfe d a b)
  | 4 => some (.bfi d a b)
  | 5 => guarded (b == 0) (.popc d a) | 6 => guarded (b == 0) (.clz d a) | 7 => guarded (b == 0) (.ctz d a)
  | 8 => guarded (b == 0) (.brev d a) | 9 => guarded (b == 0) (.iabs d a) | 10 => guarded (b == 0) (.ineg d a)
  | 11 => guarded (b == 0) (.not d a)
  | 12 => guarded (ev d && ev a && ev b) (.iadd64 d a b)
  | 13 => guarded (ev d && ev a && ev b) (.isub64 d a b)
  | 14 => guarded (ev d && ev a && ev b) (.imul64 d a b)
  | 15 => guarded (ev a) (.shf d a b)
  | _ => none

/-- kalu (R92). -/
def decodeKalu (d a b f : Nat) : Option Instr :=
  match f with
  | 0 => some (.kadd d a b) | 1 => some (.ksub d a b) | 2 => some (.kmul d a b) | 3 => some (.kmulh d a b)
  | 4 => some (.kmulhu d a b) | 5 => some (.kmin d a b) | 6 => some (.kmax d a b) | 7 => some (.kminu d a b)
  | 8 => some (.kand d a b) | 9 => some (.kor d a b) | 10 => some (.kxor d a b) | 11 => some (.kshl d a b)
  | 12 => some (.kshr d a b) | 13 => some (.ksra d a b) | 14 => some (.krot d a b) | 15 => some (.kandn d a b)
  | _ => none

/-- kalx (R93). -/
def decodeKalx (d a b f : Nat) : Option Instr :=
  match f with
  | 0 => some (.kmad d a b) | 1 => some (.ksel d a b) | 2 => some (.kbfe d a b) | 3 => some (.kbfi d a b)
  | 4 => guarded (b == 0) (.kpopc d a) | 5 => guarded (b == 0) (.kclz d a)
  | 6 => guarded (ev d && ev a && ev b) (.kadd64 d a b)
  | 7 => guarded (ev d && ev a && ev b) (.ksub64 d a b)
  | 8 => guarded (ev d && ev a && ev b) (.kmul64 d a b)
  | 9 => guarded (ev d) (.kmulw d a b)
  | 10 => some (.kdivu d a b) | 11 => some (.kremu d a b)
  | _ => none

/-- sfu: b is the function, f the lookahead (R129). -/
def decodeSfu (d a b f : Nat) : Option Instr :=
  match b with
  | 0 => some (.rcp d a f) | 1 => some (.rsqrt d a f) | 2 => some (.sqrt d a f) | 3 => some (.exp2 d a f)
  | 4 => some (.log2 d a f) | 5 => some (.sinpi d a f) | 6 => some (.cospi d a f) | 7 => some (.tanh d a f)
  | 8 => some (.sigmoid d a f) | 9 => some (.erf d a f) | 10 => some (.texp d a f)
  | _ => none

/-- The bar family, by f3; `i` is the imm8 (R161). -/
def decodeBar (d a i f3 : Nat) : Option Instr :=
  match f3 with
  | 0 => (barOf i).map (.barr d a)
  | 1 => (barOf i).map (.barw d a)
  | 2 => (barOf i).map (.barwait d a)
  | 3 => (barOf i).map (.barx d a)
  | 4 => (barOf i).map (.bart d a)
  | 5 => if d == 0 then (barOf i).map (.barp a) else none
  | 6 => if a == 0 then (barOf i).map (.barq d) else none
  | _ => none

/-- mctl, by f3; `i` is the imm8 (R176). -/
def decodeMctl (d a i f3 : Nat) : Option Instr :=
  match f3 with
  | 0 => guarded (d == 0 && a == 0 && i < 16) (.mzero i)
  | 1 => guarded (ev d && i < 32) (.mdrain d a (i % 16) (i / 16 == 1))
  | 2 => guarded (d == 0 && a == 0 && i == 0) .mwait
  | 3 => guarded (d < 8 && okBlock a 8 && i == 0) (.gset d a)
  | 4 => guarded (d == 0 && a == 0 && i == 0) .mccRdv
  | _ => none

/-- mma and mmag (R69): shape and accumulator from d, ka from a, kb from b, the four flags from f. -/
def decodeMat (d a b f : Nat) : Option Instr :=
  match shapeOf (d / 16) with
  | none => none
  | some sh =>
    if f / 4 % 2 = 0 then some (.mma sh (d % 16) a b (f / 8 == 1) (f / 2 % 2 == 1) (f % 2 == 1))
    else guarded (b < 8 && okBlock a 3) (.mmag sh (d % 16) a b (f / 8 == 1) (f / 2 % 2 == 1) (f % 2 == 1))

/-- A copy of the C format (R68); `len` is the length of its k block (R152). -/
def decodeCopy (mk : Option Nat → Nat → Nat → Nat → CtrAdd → Instr) (len d a b f : Nat) : Option Instr :=
  match tagOf d, ctrOf f with
  | some t, some c => guarded (ev a && okBlock a len) (mk t a (b / 8) (b % 8) c)
  | _, _ => none

/-- The instruction with major `m` and fields `d`, `a`, `b`, `f`, or none where R74 refuses the word by itself. -/
def decodeFields (m d a b f : Nat) : Option Instr :=
  let i := b * 2 + f / 8          -- imm8 [10:3]
  let f3 := f % 8                 -- f3 [2:0]
  let x := a * 2048 + b * 16 + f  -- disp18 [17:0]
  let kb := b / 8                 -- kb [10:7]
  let o := b % 8                  -- o [6:4]
  match m with
  | 0x00 => decodeSys d a b f
  | 0x01 => guarded (d == 0 && a == 0 && f3 == 0) (.trap i)
  | 0x02 => if a == 0 && f3 == 0 then (specialOf i).map (.srd d) else none
  | 0x03 => if d == 0 && f3 == 0 then (specialOf i).map (.swr a) else none
  | 0x04 => guarded (d == 0 && b == 0 && f == 0) (.setfmt a)
  | 0x05 => guarded (d == 0 && a == 0 && f3 == 0) (.winb i)
  | 0x06 => guarded (d == 0) (.bra x)
  | 0x07 => some (.brz d x)
  | 0x08 => some (.brnz d x)
  | 0x09 => some (.brany d x)
  | 0x0A => some (.brall d x)
  | 0x0B => some (.bkz d x)
  | 0x0C => some (.bknz d x)
  | 0x0D => guarded (ev d) (.call d x)
  | 0x0E => guarded (d == 0 && b == 0 && f == 0 && ev a) (.jmpk a)
  | 0x0F => guarded (b == 0 && f == 0 && ev d && ev a) (.callk d a)
  | 0x10 => decodeIalu d a b f
  | 0x11 => decodeIalx d a b f
  | 0x12 => (isetOf f).map fun c => .iset c d a b
  | 0x13 => guarded (f3 == 0) (.iaddi d a i)
  | 0x14 => guarded (f3 == 0) (.andi d a i)
  | 0x15 => guarded (f3 == 0) (.ori d a i)
  | 0x16 => guarded (f3 == 0) (.xori d a i)
  | 0x17 => guarded (f3 == 0 && i < 32) (.shli d a i)
  | 0x18 => if f3 = 0 then guarded (i < 32) (.shri d a i) else guarded (f3 == 1 && i < 32) (.shriA d a i)
  | 0x19 => (immCondOf f3).map fun c => .iseti c d a i
  | 0x1A => guarded (a == 0 && f3 == 0) (.movi d i)
  | 0x1B => guarded (b == 0 && f == 0) (.movk d a)
  | 0x1C => guarded (b == 0 && f == 0) (.mov d a)
  | 0x1D => (idotOf f).map fun k => .idot k d a b
  | 0x1E => if ev d then (wideOf f).map fun g => .imulw g d a b else none
  | 0x20 => decodeKalu d a b f
  | 0x21 => decodeKalx d a b f
  | 0x22 => (isetOf f).map fun c => .kset c d a b
  | 0x23 => guarded (f3 == 0) (.kaddi d a i)
  | 0x24 => guarded (a == 0 && f3 == 0) (.kmovi d i)
  | 0x25 =>
    match f3 with
    | 0 => guarded (i < 32) (.kshlImm d a i)
    | 1 => guarded (i < 32) (.kshrImm d a i)
    | 2 => guarded (i < 32) (.ksraImm d a i)
    | _ => none
  | 0x26 => guarded (a == 0 && f3 == 0) (.kldt d i)
  | 0x27 => guarded (f == 0) (.kread d a b)
  | 0x28 =>
    match f with
    | 0 => guarded (b == 0) (.kvoteAny d a)
    | 1 => guarded (b == 0) (.kvoteAll d a)
    | 2 => guarded (b == 0 && ev d) (.kvoteBallot d a)
    | _ => none
  | 0x29 => guarded (b == 0 && f == 0) (.kfirst d a)
  | 0x2A => guarded (ev a && f3 == 0) (.spawn d a i)
  | 0x2B => guarded (ev d && ev a && b == 0 && f == 0) (.chunk d a)
  | 0x2C => guarded (ev a && okBlock b 16 && f == 0) (.msgsend d a b)
  | 0x2D => guarded (d == 0 && b == 0 && f == 0 && ev a) (.join a)
  | 0x30 => guarded (f == 0) (.fadd d a b)
  | 0x31 => guarded (f == 0) (.fsub d a b)
  | 0x32 => guarded (f == 0) (.fmul d a b)
  | 0x33 => guarded (f == 0) (.ffma d a b)
  | 0x34 => guarded (f == 0) (.fmin d a b)
  | 0x35 => guarded (f == 0) (.fmax d a b)
  | 0x36 => (fsetOf f).map fun c => .fset c d a b
  | 0x37 => guarded (b == 0 && f == 0) (.fclass d a)
  | 0x38 => if i == 0 then (directionOf f3).map fun r => .frnd r d a else none
  | 0x39 => if f3 == 0 then (cvtOf i).map fun c => .cvt c d a else none
  | 0x3A => (packOf f).map fun p => .fpack p d a b
  | 0x3B => guarded (f == 0) (.fscale d a b)
  | 0x3C => (dotOf f).map fun p => .fdot2 p d a b
  | 0x3D => guarded (b == 0 && f == 0) (.fq4 d a)
  | 0x3E =>
    match f3 with
    | 0 => guarded (d == 0 && i == 0 && okBlock a 14) (.rxcfg a)
    | 1 => guarded (d == 0 && a == 0 && i == 0) .rxbody
    | 2 => guarded (d == 0 && a == 0 && i == 0) .rxend
    | 3 => guarded (d == 0 && a == 0 && i == 0) .rxabort
    | _ => none
  | 0x3F =>
    match f with
    | 0 => guarded (ev a && okBlock b 8) (.sgfork d a b)
    | 1 => guarded (ev d && a == 0) (.sgreward d b)
    | 2 => guarded (ev a) (.sgcancel d a b)
    | 3 => guarded (ev d && ev a && b == 0) (.sgstat d a)
    | _ => none
  | 0x40 => decodeSfu d a b f
  | 0x41 => some (.idiv d a b f)
  | 0x42 => some (.idivu d a b f)
  | 0x43 => some (.irem d a b f)
  | 0x44 => some (.iremu d a b f)
  | 0x45 => some (.fdiv d a b f)
  | 0x46 =>
    match f with
    | 0 => guarded (d == 0 && ev a && ev b) (.digest a b)
    | 1 => guarded (ev a && b == 0) (.stepmark d a)
    | 2 => guarded (d == 0 && a == 0 && b == 0) .qend
    | _ => none
  | 0x48 => (shflOf f).map fun m => .lshfl m d a b
  | 0x49 => guarded (f3 == 0 && i < 64) (.lbcast d a i)
  | 0x4A => guarded (ev d && b == 0 && f == 0) (.leqm d a)
  | 0x4B => if b == 0 then (laneOpOf (f % 8)).map fun p => .lscan p (f / 8 == 1) d a else none
  | 0x4C => if b == 0 && f < 8 then (laneOpOf f).map fun p => .lred p d a else none
  | 0x4D => guarded (b == 0 && f == 0) (.lrank d a)
  | 0x4E => guarded (b == 0 && f == 0) (.lpopm d a)
  | 0x4F =>
    match f with
    | 0 => guarded (a == 0 && b == 0) (.rngnext d)
    | 1 => guarded (d == 0 && b == 0 && ev a) (.rngsplit a)
    | 2 => guarded (a == 0 && b == 0) (.rngu d)
    | _ => none
  | 0x50 => (ldOrdOf o).map fun q => .ldgB d a kb q f
  | 0x51 => (ldOrdOf o).map fun q => .ldgH d a kb q f
  | 0x52 => (ldOrdOf o).map fun q => .ldgW d a kb q f
  | 0x53 => if ev d then (ldOrdOf o).map fun q => .ldgD d a kb q f else none
  | 0x54 => if d % 4 == 0 then (ldOrdOf o).map fun q => .ldgQ d a kb q f else none
  | 0x55 => if f == 0 then (stOrdOf o).map fun q => .stgB d a kb q else none
  | 0x56 => if f == 0 then (stOrdOf o).map fun q => .stgH d a kb q else none
  | 0x57 => if f == 0 then (stOrdOf o).map fun q => .stgW d a kb q else none
  | 0x58 => if f == 0 && ev d then (stOrdOf o).map fun q => .stgD d a kb q else none
  | 0x59 => if f == 0 && d % 4 == 0 then (stOrdOf o).map fun q => .stgQ d a kb q else none
  | 0x5A => guarded (o == 0) (.ldsB d a kb f)
  | 0x5B => guarded (o == 0) (.ldsH d a kb f)
  | 0x5C => guarded (o == 0) (.ldsW d a kb f)
  | 0x5D => guarded (o == 0 && ev d) (.ldsD d a kb f)
  | 0x5E => guarded (o == 0 && d % 4 == 0) (.ldsQ d a kb f)
  | 0x5F => guarded (o == 0 && f == 0) (.stsB d a kb)
  | 0x60 => guarded (o == 0 && f == 0) (.stsH d a kb)
  | 0x61 => guarded (o == 0 && f == 0) (.stsW d a kb)
  | 0x62 => guarded (o == 0 && f == 0 && ev d) (.stsD d a kb)
  | 0x63 => guarded (o == 0 && f == 0 && d % 4 == 0) (.stsQ d a kb)
  | 0x64 => (atOrdOf o).map fun q => .atomAdd d a kb q f
  | 0x65 => (atOrdOf o).map fun q => .atomMin d a kb q f
  | 0x66 => (atOrdOf o).map fun q => .atomMax d a kb q f
  | 0x67 => (atOrdOf o).map fun q => .atomAnd d a kb q f
  | 0x68 => (atOrdOf o).map fun q => .atomOr d a kb q f
  | 0x69 => (atOrdOf o).map fun q => .atomXor d a kb q f
  | 0x6A => (atOrdOf o).map fun q => .atomXchg d a kb q f
  | 0x6B => if ev d then (atOrdOf o).map fun q => .atomCas d a kb q f else none
  | 0x6C => (atOrdOf o).map fun q => .atomFadd d a kb q f
  | 0x6D =>
    match redOf f with
    | none => none
    | some p => if p != .add64 || ev d then (atOrdOf o).map fun q => .red p d a kb q else none
  | 0x6E =>
    match satomOf f with
    | none => none
    | some p => guarded (p != .cas || ev b) (.satom p d a b)
  | 0x6F =>
    if d == 0 && a == 0 && f3 == 0 then
      match classOf (i % 8), classOf (i / 8 % 8), scopeOf (i / 64) with
      | some p1, some p2, some s => some (.fence p1 p2 s)
      | _, _, _ => none
    else none
  | 0x70 => decodeCopy .cpyin 10 d a b f
  | 0x71 => decodeCopy .cpyout 10 d a b f
  | 0x72 => decodeCopy .cpyatt 10 d a b f
  | 0x73 => decodeCopy .cpyg 12 d a b f
  | 0x74 =>
    match f with
    | 0 => guarded (d == 0 && b == 0 && ev a) (.tagwany a)
    | 1 => guarded (d == 0 && b == 0 && ev a) (.tagwall a)
    | 2 => guarded (b == 0 && ev a) (.tagff d a)
    | 3 => guarded (d == 0 && b == 0 && ev a) (.tagclr a)
    | _ => none
  | 0x75 => decodeBar d a i f3
  | 0x76 => if d == 0 && f3 == 0 then (barOf i).map (.barcfg a) else none
  | 0x77 =>
    match f with
    | 0 => guarded (d == 0 && ev a && ev b) (.waitc a b)
    | 1 => guarded (d == 0 && ev a && ev b) (.sigc a b)
    | 2 => guarded (b == 0 && ev d && ev a) (.readc d a)
    | _ => none
  | 0x78 => decodeMat d a b f
  | 0x7A => decodeMctl d a i f3
  | 0x7B =>
    match f3 with
    | 0 => guarded (d == 0 && i == 0 && ev a) (.fork a)
    | 1 => guarded (d == 0 && a == 0 && i == 0) .rdv
    | _ => none
  | 0x7C => guarded (f < 8) (.geval d a b f)
  | _ => none

/-- The instruction a 32-bit word encodes, or none where the word by itself is no instruction (R74). -/
def decodeWord (w : Nat) : Option Instr :=
  decodeFields (w / 33554432 % 128) (w / 262144 % 128) (w / 2048 % 128) (w / 16 % 128) (w % 16)

/-- The 32-bit word at the head of a list of bytes, little-endian (R7, R62). -/
def wordOfBytes : List Byte → Option Nat
  | b0 :: b1 :: b2 :: b3 :: _ => some (b0.toNat + 256 * b1.toNat + 65536 * b2.toNat + 16777216 * b3.toNat)
  | _ => none

/-- The four bytes of a 32-bit word, the first at the lowest address (R7). -/
def bytesOfWord (w : Nat) : List Byte :=
  [BitVec.ofNat 8 w, BitVec.ofNat 8 (w / 256), BitVec.ofNat 8 (w / 65536), BitVec.ofNat 8 (w / 16777216)]

/-- Decoding of a list of bytes: one instruction and the bytes after it, or none. -/
def decode (bs : List Byte) : Option (Instr × List Byte) :=
  match wordOfBytes bs with
  | none => none
  | some w => (decodeWord w).map fun i => (i, bs.drop 4)

/-- The instruction the decoder reads from a row's word, numbered as the opcode table numbers it.
Every row with a word has 32 bits; a row without one has no word to decode. -/
def decodeTableWord (nbits w : Nat) : Option Instr :=
  if 0 < nbits && nbits ≤ 32 then (decode (bytesOfWord w)).map Prod.fst else none

/-! ### Encoding -/

/-- The word of five fields (R62). -/
def packWord (m d a b f : Nat) : Nat := m * 33554432 + d * 262144 + a * 2048 + b * 16 + f

/-- An R- or RL-format word. -/
def encR (m d a b f : Nat) : Option Nat := some (packWord m d a b f)

/-- An I-format word: imm8 lies in [10:3] and f3 in [2:0]. -/
def encI (m d a i f3 : Nat) : Option Nat := some (packWord m d a (i / 2) (i % 2 * 8 + f3))

/-- An M-format word. -/
def encM (m d a kb o la : Nat) : Option Nat := some (packWord m d a (kb * 8 + o) la)

/-- A B-format word: the displacement lies in [17:0]. -/
def encB (m a x : Nat) : Option Nat := some (packWord m a (x / 2048) (x / 16 % 128) (x % 16))

/-- A C-format word. -/
def encC (m : Nat) (t : Option Nat) (ka kl bar : Nat) (c : CtrAdd) : Option Nat :=
  some (packWord m (tagCode t) ka (kl * 8 + bar) (ctrCode c))

/-- One bit of a flag. -/
def bit (b : Bool) : Nat := if b then 1 else 0

/-- The four flags of the MM format: side, gen, add, trans (R69). -/
def matFlags (side gen add tsp : Bool) : Nat := bit side * 8 + bit gen * 4 + bit add * 2 + bit tsp

/-- The word of an instruction, from the opcode map (R70); an event has none. -/
def encode : Instr → Option Nat
  | .nop => encR 0x00 0 0 0 0
  | .exit => encR 0x00 0 0 0 1
  | .yield => encR 0x00 0 0 0 2
  | .brk => encR 0x00 0 0 0 3
  | .eret a => encR 0x00 0 a 0 4
  | .icinv s => encR 0x00 0 (scopeCode s) 0 5
  | .pfence c => encR 0x00 0 (bit c) 0 6
  | .phase => encR 0x00 0 0 0 7
  | .halt => encR 0x00 0 0 0 8
  | .ret a => encR 0x00 0 a 0 9
  | .trap i => encI 0x01 0 0 i 0
  | .srd d r => encI 0x02 d 0 (specialCode r) 0
  | .swr a r => encI 0x03 0 a (specialCode r) 0
  | .setfmt a => encR 0x04 0 a 0 0
  | .winb i => encI 0x05 0 0 i 0
  | .bra x => encB 0x06 0 x
  | .brz a x => encB 0x07 a x
  | .brnz a x => encB 0x08 a x
  | .brany a x => encB 0x09 a x
  | .brall a x => encB 0x0A a x
  | .bkz a x => encB 0x0B a x
  | .bknz a x => encB 0x0C a x
  | .call a x => encB 0x0D a x
  | .jmpk a => encR 0x0E 0 a 0 0
  | .callk d a => encR 0x0F d a 0 0
  | .iadd d a b => encR 0x10 d a b 0
  | .isub d a b => encR 0x10 d a b 1
  | .imul d a b => encR 0x10 d a b 2
  | .imulh d a b => encR 0x10 d a b 3
  | .imulhu d a b => encR 0x10 d a b 4
  | .imin d a b => encR 0x10 d a b 5
  | .imax d a b => encR 0x10 d a b 6
  | .iminu d a b => encR 0x10 d a b 7
  | .and d a b => encR 0x10 d a b 8
  | .or d a b => encR 0x10 d a b 9
  | .xor d a b => encR 0x10 d a b 10
  | .shl d a b => encR 0x10 d a b 11
  | .shr d a b => encR 0x10 d a b 12
  | .sra d a b => encR 0x10 d a b 13
  | .rot d a b => encR 0x10 d a b 14
  | .andn d a b => encR 0x10 d a b 15
  | .imad d a b => encR 0x11 d a b 0
  | .iabsd d a b => encR 0x11 d a b 1
  | .sel d a b => encR 0x11 d a b 2
  | .bfe d a b => encR 0x11 d a b 3
  | .bfi d a b => encR 0x11 d a b 4
  | .popc d a => encR 0x11 d a 0 5
  | .clz d a => encR 0x11 d a 0 6
  | .ctz d a => encR 0x11 d a 0 7
  | .brev d a => encR 0x11 d a 0 8
  | .iabs d a => encR 0x11 d a 0 9
  | .ineg d a => encR 0x11 d a 0 10
  | .not d a => encR 0x11 d a 0 11
  | .iadd64 d a b => encR 0x11 d a b 12
  | .isub64 d a b => encR 0x11 d a b 13
  | .imul64 d a b => encR 0x11 d a b 14
  | .shf d a b => encR 0x11 d a b 15
  | .iset c d a b => encR 0x12 d a b (isetCode c)
  | .iaddi d a i => encI 0x13 d a i 0
  | .andi d a i => encI 0x14 d a i 0
  | .ori d a i => encI 0x15 d a i 0
  | .xori d a i => encI 0x16 d a i 0
  | .shli d a i => encI 0x17 d a i 0
  | .shri d a i => encI 0x18 d a i 0
  | .shriA d a i => encI 0x18 d a i 1
  | .iseti c d a i => encI 0x19 d a i (immCondCode c)
  | .movi d i => encI 0x1A d 0 i 0
  | .movk d a => encR 0x1B d a 0 0
  | .mov d a => encR 0x1C d a 0 0
  | .idot k d a b => encR 0x1D d a b (idotCode k)
  | .imulw g d a b => encR 0x1E d a b (wideCode g)
  | .kadd d a b => encR 0x20 d a b 0
  | .ksub d a b => encR 0x20 d a b 1
  | .kmul d a b => encR 0x20 d a b 2
  | .kmulh d a b => encR 0x20 d a b 3
  | .kmulhu d a b => encR 0x20 d a b 4
  | .kmin d a b => encR 0x20 d a b 5
  | .kmax d a b => encR 0x20 d a b 6
  | .kminu d a b => encR 0x20 d a b 7
  | .kand d a b => encR 0x20 d a b 8
  | .kor d a b => encR 0x20 d a b 9
  | .kxor d a b => encR 0x20 d a b 10
  | .kshl d a b => encR 0x20 d a b 11
  | .kshr d a b => encR 0x20 d a b 12
  | .ksra d a b => encR 0x20 d a b 13
  | .krot d a b => encR 0x20 d a b 14
  | .kandn d a b => encR 0x20 d a b 15
  | .kmad d a b => encR 0x21 d a b 0
  | .ksel d a b => encR 0x21 d a b 1
  | .kbfe d a b => encR 0x21 d a b 2
  | .kbfi d a b => encR 0x21 d a b 3
  | .kpopc d a => encR 0x21 d a 0 4
  | .kclz d a => encR 0x21 d a 0 5
  | .kadd64 d a b => encR 0x21 d a b 6
  | .ksub64 d a b => encR 0x21 d a b 7
  | .kmul64 d a b => encR 0x21 d a b 8
  | .kmulw d a b => encR 0x21 d a b 9
  | .kdivu d a b => encR 0x21 d a b 10
  | .kremu d a b => encR 0x21 d a b 11
  | .kset c d a b => encR 0x22 d a b (isetCode c)
  | .kaddi d a i => encI 0x23 d a i 0
  | .kmovi d i => encI 0x24 d 0 i 0
  | .kshlImm d a i => encI 0x25 d a i 0
  | .kshrImm d a i => encI 0x25 d a i 1
  | .ksraImm d a i => encI 0x25 d a i 2
  | .kldt d i => encI 0x26 d 0 i 0
  | .kread d a b => encR 0x27 d a b 0
  | .kvoteAny d a => encR 0x28 d a 0 0
  | .kvoteAll d a => encR 0x28 d a 0 1
  | .kvoteBallot d a => encR 0x28 d a 0 2
  | .kfirst d a => encR 0x29 d a 0 0
  | .spawn d a i => encI 0x2A d a i 0
  | .chunk d a => encR 0x2B d a 0 0
  | .msgsend d a b => encR 0x2C d a b 0
  | .join a => encR 0x2D 0 a 0 0
  | .fadd d a b => encR 0x30 d a b 0
  | .fsub d a b => encR 0x31 d a b 0
  | .fmul d a b => encR 0x32 d a b 0
  | .ffma d a b => encR 0x33 d a b 0
  | .fmin d a b => encR 0x34 d a b 0
  | .fmax d a b => encR 0x35 d a b 0
  | .fset c d a b => encR 0x36 d a b (fsetCode c)
  | .fclass d a => encR 0x37 d a 0 0
  | .frnd m d a => encI 0x38 d a 0 (directionCode m)
  | .cvt c d a => encI 0x39 d a (cvtCode c) 0
  | .fpack p d a b => encR 0x3A d a b (packCode p)
  | .fscale d a b => encR 0x3B d a b 0
  | .fdot2 p d a b => encR 0x3C d a b (dotCode p)
  | .fq4 d a => encR 0x3D d a 0 0
  | .rxcfg a => encI 0x3E 0 a 0 0
  | .rxbody => encI 0x3E 0 0 0 1
  | .rxend => encI 0x3E 0 0 0 2
  | .rxabort => encI 0x3E 0 0 0 3
  | .sgfork d a b => encR 0x3F d a b 0
  | .sgreward d b => encR 0x3F d 0 b 1
  | .sgcancel d a b => encR 0x3F d a b 2
  | .sgstat d a => encR 0x3F d a 0 3
  | .rcp d a l => encR 0x40 d a 0 l
  | .rsqrt d a l => encR 0x40 d a 1 l
  | .sqrt d a l => encR 0x40 d a 2 l
  | .exp2 d a l => encR 0x40 d a 3 l
  | .log2 d a l => encR 0x40 d a 4 l
  | .sinpi d a l => encR 0x40 d a 5 l
  | .cospi d a l => encR 0x40 d a 6 l
  | .tanh d a l => encR 0x40 d a 7 l
  | .sigmoid d a l => encR 0x40 d a 8 l
  | .erf d a l => encR 0x40 d a 9 l
  | .texp d a l => encR 0x40 d a 10 l
  | .idiv d a b l => encR 0x41 d a b l
  | .idivu d a b l => encR 0x42 d a b l
  | .irem d a b l => encR 0x43 d a b l
  | .iremu d a b l => encR 0x44 d a b l
  | .fdiv d a b l => encR 0x45 d a b l
  | .digest a b => encR 0x46 0 a b 0
  | .stepmark d a => encR 0x46 d a 0 1
  | .qend => encR 0x46 0 0 0 2
  | .lshfl m d a b => encR 0x48 d a b (shflCode m)
  | .lbcast d a i => encI 0x49 d a i 0
  | .leqm d a => encR 0x4A d a 0 0
  | .lscan p ex d a => encR 0x4B d a 0 (bit ex * 8 + laneOpCode p)
  | .lred p d a => encR 0x4C d a 0 (laneOpCode p)
  | .lrank d a => encR 0x4D d a 0 0
  | .lpopm d a => encR 0x4E d a 0 0
  | .rngnext d => encR 0x4F d 0 0 0
  | .rngsplit a => encR 0x4F 0 a 0 1
  | .rngu d => encR 0x4F d 0 0 2
  | .ldgB d a k o l => encM 0x50 d a k (ldOrdCode o) l
  | .ldgH d a k o l => encM 0x51 d a k (ldOrdCode o) l
  | .ldgW d a k o l => encM 0x52 d a k (ldOrdCode o) l
  | .ldgD d a k o l => encM 0x53 d a k (ldOrdCode o) l
  | .ldgQ d a k o l => encM 0x54 d a k (ldOrdCode o) l
  | .stgB d a k o => encM 0x55 d a k (stOrdCode o) 0
  | .stgH d a k o => encM 0x56 d a k (stOrdCode o) 0
  | .stgW d a k o => encM 0x57 d a k (stOrdCode o) 0
  | .stgD d a k o => encM 0x58 d a k (stOrdCode o) 0
  | .stgQ d a k o => encM 0x59 d a k (stOrdCode o) 0
  | .ldsB d a k l => encM 0x5A d a k 0 l
  | .ldsH d a k l => encM 0x5B d a k 0 l
  | .ldsW d a k l => encM 0x5C d a k 0 l
  | .ldsD d a k l => encM 0x5D d a k 0 l
  | .ldsQ d a k l => encM 0x5E d a k 0 l
  | .stsB d a k => encM 0x5F d a k 0 0
  | .stsH d a k => encM 0x60 d a k 0 0
  | .stsW d a k => encM 0x61 d a k 0 0
  | .stsD d a k => encM 0x62 d a k 0 0
  | .stsQ d a k => encM 0x63 d a k 0 0
  | .atomAdd d a k o l => encM 0x64 d a k (atOrdCode o) l
  | .atomMin d a k o l => encM 0x65 d a k (atOrdCode o) l
  | .atomMax d a k o l => encM 0x66 d a k (atOrdCode o) l
  | .atomAnd d a k o l => encM 0x67 d a k (atOrdCode o) l
  | .atomOr d a k o l => encM 0x68 d a k (atOrdCode o) l
  | .atomXor d a k o l => encM 0x69 d a k (atOrdCode o) l
  | .atomXchg d a k o l => encM 0x6A d a k (atOrdCode o) l
  | .atomCas d a k o l => encM 0x6B d a k (atOrdCode o) l
  | .atomFadd d a k o l => encM 0x6C d a k (atOrdCode o) l
  | .red p d a k o => encM 0x6D d a k (atOrdCode o) (redCode p)
  | .satom p d a b => encR 0x6E d a b (satomCode p)
  | .fence p1 p2 s => encI 0x6F 0 0 (scopeCode s * 64 + classCode p2 * 8 + classCode p1) 0
  | .cpyin t ka kl b c => encC 0x70 t ka kl b c
  | .cpyout t ka kl b c => encC 0x71 t ka kl b c
  | .cpyatt t ka kl b c => encC 0x72 t ka kl b c
  | .cpyg t ka kl b c => encC 0x73 t ka kl b c
  | .tagwany a => encR 0x74 0 a 0 0
  | .tagwall a => encR 0x74 0 a 0 1
  | .tagff d a => encR 0x74 d a 0 2
  | .tagclr a => encR 0x74 0 a 0 3
  | .barr d a b => encI 0x75 d a (barCode b) 0
  | .barw d a b => encI 0x75 d a (barCode b) 1
  | .barwait d a b => encI 0x75 d a (barCode b) 2
  | .barx d a b => encI 0x75 d a (barCode b) 3
  | .bart d a b => encI 0x75 d a (barCode b) 4
  | .barp a b => encI 0x75 0 a (barCode b) 5
  | .barq d b => encI 0x75 d 0 (barCode b) 6
  | .barcfg a b => encI 0x76 0 a (barCode b) 0
  | .waitc a b => encR 0x77 0 a b 0
  | .sigc a b => encR 0x77 0 a b 1
  | .readc d a => encR 0x77 d a 0 2
  | .mma sh acc ka kb side add tsp =>
      encR 0x78 (shapeCode sh * 16 + acc) ka kb (matFlags side false add tsp)
  | .mmag sh acc ka g side add tsp =>
      encR 0x78 (shapeCode sh * 16 + acc) ka g (matFlags side true add tsp)
  | .mzero j => encI 0x7A 0 0 j 0
  | .mdrain d a j z => encI 0x7A d a (bit z * 16 + j) 1
  | .mwait => encI 0x7A 0 0 0 2
  | .gset g a => encI 0x7A g a 0 3
  | .mccRdv => encI 0x7A 0 0 0 4
  | .fork a => encI 0x7B 0 a 0 0
  | .rdv => encI 0x7B 0 0 0 1
  | .geval d a b g => encR 0x7C d a b g
  | _ => none

end Sys2Proof
end

