-- ==== Sys2Proof/Machine/Bits.lean ====
section
/-! DEFINITION. Bit fields, sign extension, byte order and the word arithmetic of R84 to R93. -/

namespace Sys2Proof.Machine

/-- Bits [lo + n − 1 : lo] of a number. -/
def fieldN (x lo n : Nat) : Nat := x / 2 ^ lo % 2 ^ n

/-- Bits [lo + n − 1 : lo] of a word, as a number. -/
def fieldW (x : Word) (lo n : Nat) : Nat := fieldN x.toNat lo n

/-- Sign extension of an 8-bit immediate to 32 bits (R64). -/
def sextImm (i : Nat) : Word := (BitVec.ofNat 8 i).signExtend 32

/-- The unsigned immediate (R64). -/
def zextImm (i : Nat) : Word := BitVec.ofNat 32 i

/-- The byte displacement of a branch: 4 × SEXT(disp18) (R64). -/
def branchOffset (x : Nat) : DWord := (BitVec.ofNat 18 x).signExtend 64 <<< 2

/-- SEXT of a 32-bit word to 64 bits. -/
def sextW (x : Word) : DWord := x.signExtend 64

/-- U32 to 64 bits. -/
def zextW (x : Word) : DWord := x.setWidth 64

/-- 1 or 0 (R87). -/
def boolW (b : Bool) : Word := if b then 1 else 0

/-- The number of one bits of `n` low bits. -/
def countOnes (x : Nat) : Nat → Nat
  | 0 => 0
  | n + 1 => x % 2 + countOnes (x / 2) n

/-- The number of trailing zeros among `n` low bits; `n` for zero. -/
def trailingZeros (x : Nat) : Nat → Nat
  | 0 => 0
  | n + 1 => if x % 2 = 1 then 0 else 1 + trailingZeros (x / 2) n

/-- popc (R85). -/
def popcW (x : Word) : Word := BitVec.ofNat 32 (countOnes x.toNat 32)

/-- ctz (R85): 32 for 0. -/
def ctzW (x : Word) : Word := BitVec.ofNat 32 (trailingZeros x.toNat 32)

/-- brev (R85): bit i moves to bit 31 − i. -/
def brevW (x : Word) : Word := x.reverse

/-- clz (R85): 32 for 0. -/
def clzW (x : Word) : Word := ctzW (brevW x)

/-- The high word of the product as S32 (R84). -/
def imulhW (x y : Word) : Word := hiWord (sextW x * sextW y)

/-- The high word of the product as U32 (R84). -/
def imulhuW (x y : Word) : Word := hiWord (zextW x * zextW y)

/-- The smaller as S32 (R84). -/
def iminW (x y : Word) : Word := if x.slt y then x else y

/-- The larger as S32 (R84). -/
def imaxW (x y : Word) : Word := if x.slt y then y else x

/-- The smaller as U32 (R84). -/
def iminuW (x y : Word) : Word := if x.ult y then x else y

/-- shl: 0 for a count of 32 or more (R84). -/
def shlW (x y : Word) : Word := if y.toNat < 32 then x <<< y.toNat else 0

/-- shr: 0 for a count of 32 or more (R84). -/
def shrW (x y : Word) : Word := if y.toNat < 32 then x >>> y.toNat else 0

/-- sra: 32 copies of the sign for a count of 32 or more (R84). -/
def sraW (x y : Word) : Word := x.sshiftRight (min y.toNat 31)

/-- rot: left by the count modulo 32 (R84). -/
def rotW (x y : Word) : Word := x.rotateLeft (y.toNat % 32)

/-- andn (R84). -/
def andnW (x y : Word) : Word := x &&& ~~~y

/-- iabsd: the exact difference's magnitude as U32 (R85). -/
def iabsdW (x y : Word) : Word := if x.slt y then y - x else x - y

/-- iabs: 0x8000_0000 gives itself (R85). -/
def iabsW (x : Word) : Word := if x.msb then 0 - x else x

/-- The descriptor fields of R86: position, length, sign. -/
def bfPos (y : Word) : Nat := fieldW y 0 5
def bfLen (y : Word) : Nat := min (fieldW y 8 6) 32
def bfSign (y : Word) : Bool := y.getLsbD 15

/-- The mask 2^len − 1 of R86. -/
def bfMask (len : Nat) : Word := BitVec.ofNat 32 (2 ^ len - 1)

/-- bfe and kbfe (R86). -/
def bfeW (x y : Word) : Word :=
  let v := (x >>> bfPos y) &&& bfMask (bfLen y)
  if bfSign y && 0 < bfLen y && v.getLsbD (bfLen y - 1) then v ||| ~~~(bfMask (bfLen y)) else v

/-- bfi and kbfi (R86): `z` is the destination's old value. -/
def bfiW (x y z : Word) : Word :=
  let m := bfMask (bfLen y)
  (z &&& ~~~(m <<< bfPos y)) ||| ((x &&& m) <<< bfPos y)

/-- shf: bits [31:0] of the pair shifted right by the count modulo 64 (R85). -/
def shfW (p : DWord) (y : Word) : Word := loWord (p >>> (y.toNat % 64))

/-- The conditions of iset and kset (R87). -/
def isetHolds (c : IsetCond) (x y : Word) : Bool :=
  match c with
  | .eq => x == y
  | .ne => x != y
  | .lt => x.slt y
  | .le => x.sle y
  | .gt => y.slt x
  | .ge => y.sle x
  | .ltu => x.ult y
  | .leu => x.ule y
  | .gtu => y.ult x
  | .geu => y.ule x

/-- The conditions of iseti (R88). -/
def immHolds (c : ImmCond) (x y : Word) : Bool :=
  match c with
  | .eq => x == y
  | .ne => x != y
  | .lt => x.slt y
  | .le => x.sle y
  | .gt => y.slt x
  | .ge => y.sle x
  | .ltu => x.ult y
  | .geu => y.ule x

/-- kdivu, idivu: 0xFFFF_FFFF for a divisor of 0 (R93, R131). -/
def divuW (x y : Word) : Word := if y = 0 then BitVec.allOnes 32 else x / y

/-- kremu, iremu: the dividend for a divisor of 0 (R93, R131). -/
def remuW (x y : Word) : Word := if y = 0 then x else x % y

/-- idiv: truncated toward zero; 0xFFFF_FFFF for a divisor of 0; −2^31 / −1 wraps to 0x8000_0000 (R131). -/
def idivW (x y : Word) : Word := if y = 0 then BitVec.allOnes 32 else x.sdiv y

/-- irem: the sign of the dividend; the dividend for a divisor of 0 (R131). -/
def iremW (x y : Word) : Word := if y = 0 then x else x.srem y

/-- The two's-complement value of an `n`-bit field. -/
def signedN (n x : Nat) : Int := if 2 * x < 2 ^ n then x else (x : Int) - 2 ^ n

/-- Clamp to a range (R52). -/
def clampInt (lo hi x : Int) : Int := max lo (min hi x)

/-- Element `i` of a packed word, `n` bits wide (R90). -/
def packedElem (x : Word) (n i : Nat) : Nat := fieldW x (n * i) n

/-- The exact sum of products of idot: `n` elements of `w` bits, the a side signed or not (R90). -/
def idotSum (w n : Nat) (aSigned : Bool) (x y : Word) : Int :=
  (List.range n).foldl (fun acc i =>
    acc + (if aSigned then signedN w (packedElem x w i) else (packedElem x w i : Int)) * signedN w (packedElem y w i)) 0

/-- idot: one saturation, or a wrap, of the exact total (R90, R46). -/
def idotW (k : IdotKind) (x y z : Word) : Word :=
  let sat (t : Int) : Word := BitVec.ofInt 32 (clampInt (-(2 ^ 31)) (2 ^ 31 - 1) t)
  match k with
  | .s8 => sat (z.toInt + idotSum 8 4 true x y)
  | .us8 => sat (z.toInt + idotSum 8 4 false x y)
  | .s8w => BitVec.ofInt 32 (z.toInt + idotSum 8 4 true x y)
  | .s4 => sat (z.toInt + idotSum 4 8 true x y)
  | .us4 => sat (z.toInt + idotSum 4 8 false x y)

/-- imulw: the full product (R91). -/
def imulwD (g : WideSign) (x y : Word) : DWord :=
  match g with
  | .signed => sextW x * sextW y
  | .unsigned => zextW x * zextW y

/-- The hash H of R179. -/
def hashH (seed row col : DWord) : DWord :=
  let z := seed ^^^ (row * 0x8F3B57A1C2D46E19#64) ^^^ (col * 0xB7E151628AED2A6B#64)
  let z := (z ^^^ (z >>> 32)) * 0xE3A19C4705F2BD3D#64
  let z := (z ^^^ (z >>> 29)) * 0x9A8C6B4F2D13E7C5#64
  z ^^^ (z >>> 32)

/-- The state every strand's generator starts with, and the one that replaces zero (R23, R139). -/
def rngSeed : DWord := 0x2545F4914F6CDD1D#64

/-- One step of the xorshift generator (R139). -/
def rngStep (x : DWord) : DWord :=
  let x := x ^^^ (x <<< 13)
  let x := x ^^^ (x >>> 7)
  x ^^^ (x <<< 17)

/-- The state a draw leaves: a zero state is replaced first (R139). -/
def rngDraw (x : DWord) : DWord := rngStep (if x = 0 then rngSeed else x)

/-! ### Byte order (R7) -/

/-- The little-endian bytes of a number. -/
def bytesLE : Nat → Nat → List Byte
  | 0, _ => []
  | n + 1, x => BitVec.ofNat 8 x :: bytesLE n (x / 256)

/-- The number that little-endian bytes hold. -/
def natLE : List Byte → Nat
  | [] => 0
  | b :: bs => b.toNat + 256 * natLE bs

/-- Little-endian bytes of `n` bytes of a list from an offset, as a number; bytes beyond the end read 0. -/
def leAt (bs : List Byte) (off n : Nat) : Nat := natLE ((bs.drop off).take n)

end Sys2Proof.Machine
end

