-- ==== Sys2Proof/Config.lean ====
section
/-! DEFINITION. The values the spec leaves open, each an uninterpreted constant applied to the counter of the state
(`ctl.free`), and the facts an implementation fixes (keys, fuses, images), uninterpreted too. -/

namespace Sys2Proof

/-- A free choice: at the site `site`, with the counter at `n`, the alternative taken is this number modulo how many
alternatives stand there.  Nothing constrains it (log entry 2). -/
opaque Config.choice (site n : Nat) : Nat

/-- A free byte: the content of a stack spill (R100) and every other byte the spec leaves open (log entry 2). -/
opaque Config.freeByte (site n : Nat) : BitVec 8

/-- A free number: a mean current, an energy, a temperature sampled by the power controller (R324, R348; log entry 2). -/
opaque Config.freeNat (site n : Nat) : Nat

/-- Reference cycles that pass before the next act of the machine (R24; log entry 2). -/
opaque Config.elapsed (n : Nat) : Nat

/-- The bytes that the contexts, barriers, tags, copies and MCC of the cohort with number `cohort` take of the save area (R299), which
the spec lists and does not size (log entry 52). -/
opaque Config.contextBytes (cohort : Nat) : BitVec 24

/-- The operand with this number of a supervisor ring's command with this code, as the 112 operand bytes of its entry give it (R342), whose
layout the spec leaves open (log entry 54). -/
opaque Config.operand (code index : Nat) (bytes : List (BitVec 8)) : Nat

/-- Whether a quiet NaN raises invalid in texp in normal mode: R61 says that it does, R130 that only a signalling one does (log entry 47). -/
opaque Config.texpNanInvalid : Bool

/-- The telemetry buffer of the counters, overflow counts and slot headers given (R343), whose layout the spec leaves open (log entry 19). -/
opaque Config.telemetry (data : List Nat) : List (BitVec 8)

/-- The 17,088-byte SLH-DSA-SHA2-128f signature of a usage record by the usage key with this number (R350; log entry 8). -/
opaque Config.usageSignature (key : Nat) (record : List (BitVec 8)) : List (BitVec 8)

/-- The 32-byte public half of the usage key with this number (R350, R352; log entry 8). -/
opaque Config.usagePublicKey (key : Nat) : List (BitVec 8)

/-- The 7,856-byte SLH-DSA-SHA2-128s signature of a report by the identity key of this boot (R352; log entry 8). -/
opaque Config.identitySignature (report : List (BitVec 8)) : List (BitVec 8)

/-- The 32-byte identity public key, derived at boot from a fused secret (R352; log entry 8). -/
opaque Config.identityPublicKey : List (BitVec 8)

/-- The 16-byte device serial number (R352; log entry 8). -/
opaque Config.serialNumber : List (BitVec 8)

/-- The SHA-256 of the boot ROM (R352; log entry 8). -/
opaque Config.bootRomDigest : List (BitVec 8)

/-- The SHA-256 of the firmware image (R352; log entry 8). -/
opaque Config.firmwareDigest : List (BitVec 8)

/-- The SHA-256 of the firmware configuration (R352; log entry 8). -/
opaque Config.firmwareConfigDigest : List (BitVec 8)

/-- The firmware security version (R352; log entry 8). -/
opaque Config.securityVersion : BitVec 32

end Sys2Proof
end

