-- ==== Sys2Proof/Machine/State.lean ====
section
/-! DEFINITION. The state of the machine as plain data, and the state right after power-on.
Tables are lists of (key, value) pairs; a list of cells lists no cell that holds zero. -/

namespace Sys2Proof.Machine

/-- Byte memory: addresses strictly rising, no entry equal to what an unlisted address reads as, which is 0 (R276, R346). -/
abbrev Memory := List Host.Cell

/-- A file of `w`-bit registers, in the form of `Memory`: an unlisted register reads 0. -/
abbrev Cells (w : Nat) := List (Nat × BitVec w)

/-- A table by key. -/
abbrev Tab (α : Type) := List (Nat × α)

/-! ### Why a run stops -/

/-- Faults: the machine stops with no next state. -/
inductive Fault
  /-- Raised by the issue prologue (`Machine/Ops.lean`) when an instruction word is executed and `ctl.cur` names no split
  or MCC that is there to issue it.  Safe: no step grants issue to a unit that is not there. -/
  | noIssuer
  deriving DecidableEq, Repr

/-- Refusals: the model gives no meaning. -/
inductive Refusal
  /-- Raised by an arm of `exec` for an instruction without a meaning yet.  Safe: a claim about it cannot be proved. -/
  | notModelled (mnemonic : String)
  deriving DecidableEq, Repr

/-! ### Traps -/

/-- The trap codes of R35. -/
inductive TrapCode
  | illegal | misalign | xlate | perm | copyRights | matrixRights | scratchRange | window | stairLimit | stairNonfinite
  | sgCancel | retentionLoss | crewLimit | trapInsn | brk | invalidParam | preempt | msgRoute
  deriving DecidableEq, Repr

/-- Access kinds of a fault record (R292). -/
inductive AccessKind | none | fetch | load | store | rmw | copyRead | copyWrite | table
  deriving DecidableEq, Repr

/-- What issues the next instruction: a split of a gang, or the MCC that runs a cohort's program (R9, R165). -/
inductive Issuer | none | gang (id : Nat) (split : Nat) | mcc (cohort : Nat)
  deriving DecidableEq, Repr

/-- The agent a fault record belongs to. -/
inductive Agent | none | gang (id : Nat) | mcc (cohort : Nat) | copy (id : Nat)
  deriving DecidableEq, Repr

/-- Privilege levels of R32 that a crew can have. -/
inductive Level | user | supervisor | firmware
  deriving DecidableEq, Repr

/-- The fields of a fault record (R292), with the agent that its answer resumes. -/
structure FaultRecord where
  code : TrapCode
  flags : Nat
  cause : Nat
  access : AccessKind
  imm : Nat
  lowLane : Nat
  split : Nat
  resume : Nat
  pc : DWord
  point : DWord
  lanes : Mask
  splitMask : Mask
  addr : DWord
  launch : DWord
  cohort : Nat
  die : Nat
  cluster : Nat
  coreGang : Nat
  slot : Nat
  owner : Agent
  deriving DecidableEq, Repr

/-! ### What synchronises -/

/-- How far a split, or a release that carries it on, has come in pub through acquires: the place up to which it is bound to
every write published at package scope, and at system scope (R222, R229, R230); `cl` holds, per gang and segment of its po, the place
up to which it comes after what that segment has published within its cluster. -/
structure Known where
  pk : Nat
  sy : Nat
  cl : Tab (Tab Nat)
  deriving DecidableEq, Repr

/-- Who writes a byte of memory, as scopes count issuers (R217): a core, the copy engine of a cluster for a crew's copy and its
completion paths (tag, crew barrier, a counter), a Pantry or another unit of the package, or an agent outside it (the host, a fabric peer). -/
inductive Source | core (c : Nat) | copy (crew cluster : Nat) (tag : Option Nat) (bar : Nat) (ctr : Bool) | pantry | outside
  deriving DecidableEq, Repr

/-- Who overwrote a byte that the array reads (R175): a strand of a gang at a segment of its po, or a copy by its number.  `seen` is set once
a rendezvous orders the copy: a gang of the cohort has seen its completion with an ordering wait, or has ordered it with a fence (R168);
`forks` are the segments of the lead gang whose later forks order it (R151, R166). -/
inductive OldBy | strand (gang seg : Nat) | copy (src : Source) (n : Nat) (seen : Bool) (forks : List Nat)
  deriving DecidableEq, Repr

/-- A release that a write carries: its scope, its issuer, and what the issuer knew (R224, R226). -/
structure Rel where
  scope : OrdScope
  source : Source
  known : Known
  deriving DecidableEq, Repr

/-! ### Launches and barriers -/

/-- A launch record as placed (R239, R240): `regs` registers per strand, `scratch` in bytes. -/
structure Launch where
  entry : DWord
  table : DWord
  seed : DWord
  widths : List Nat
  gangs : Nat
  crews : Nat
  producer : Nat
  det : Bool
  durable : Bool
  quantum : Nat
  limit : Nat
  prio : Nat
  ratio : Nat
  regs : Nat
  scratch : Nat
  tiles : Nat
  deriving DecidableEq, Repr

/-- A barrier object (R159); a payload is kept with the rank of its gang, (cohort, crew, gang) read as one number.
`copied` and `lastCopied` are the place of pub of the last copy whose bytes the current and the last phase counted (R156), `known`
and `lastKnown` what the arrivals of the current and of the last phase knew (R226). -/
structure Barrier where
  phase : Bool
  arrivals : Nat
  expected : Nat
  pending : BitVec 56
  reducer : Nat
  result : Word
  payloads : List (Nat × Word)
  copied : Option Nat
  lastCopied : Option Nat
  known : Known
  lastKnown : Known
  deriving DecidableEq, Repr

/-- A generator register (R180), with the effective seed that gset fixed (R181) and its copy of the table. -/
structure Gen where
  kind : Nat
  fmt : Nat
  seed : DWord
  p1 : Word
  p2 : Word
  table : List Word
  deriving DecidableEq, Repr

/-! ### Gangs -/

/-- The fall-through half of a reconvergence-stack entry (R98); `second` once the fall-through path runs. -/
structure StackPart where
  npc : DWord
  fall : Mask
  second : Bool
  deriving DecidableEq, Repr

/-- A divergence record, or with `stack` a reconvergence-stack entry (R98). -/
structure DivEntry where
  mp : DWord
  join : Mask
  fmt : Word
  stack : Option StackPart
  deriving DecidableEq, Repr

/-- A lookahead write that has not landed (R29): `left` following instructions are still to retire; `writes` name cells of
the gang's v file; `replies` are Pantry requests whose results are still to come, for the cells `dst`, `slots` the lanes that hold a return
slot until it lands (R257); `dead` are the cells that a write with a later landing point, or one of an earlier instruction with the same, has
written before it. -/
structure Pending where
  left : Nat
  writes : List (Nat × Word)
  flags : BitVec 5
  replies : List Nat
  dst : List Nat
  dead : List Nat
  slots : Mask
  acquire : Option OrdScope
  deriving DecidableEq, Repr

/-- Why a stalled instruction that blocks its gang waits before it is issued again (R166, R268, R277, R219). -/
inductive Retry | mcc | attic | stair | porch | copies
  deriving DecidableEq, Repr

/-- Blocking waits of a split (R29); that of pfence.cl is for the copies with names below `before` (R309). -/
inductive Wait
  | none
  | tag (all : Bool) (m : DWord)
  | bar (b : BarRef) (token : Bool) (d : Nat) (long : Bool)
  | rdv
  | retry (r : Retry)
  | reply (req : Nat)
  | pub (ids : List Nat) (refresh : Option Scope)
  | discard (ids : List Nat) (sc : Scope)
  | message (msg : Nat) (d : Nat)
  | step (n : DWord) (d : Nat)
  | drain (before : Nat)
  | answered (ws : List (Nat × Word)) (refresh : Option Scope)
  | quantum
  deriving DecidableEq, Repr

/-- A split (R11): program counter, lanes, the format of its path (R12), its records innermost first, its pending writes
oldest first, its wait, and the reference cycle in which it last issued or came out of a wait (R251).  Its po-history is its own
segment `seg` and the segments `before` it that it shares with the splits it came from (R216); `known` is what it has acquired, `acqs` the reductions with an acquire that have not been performed (R225);
`line` the 128-byte code line it runs with the place of pub its fetch is bound by (R269), `seen` the completions of copies it has observed, each with its place of pub:
tag t under t, crew barrier b under 64 + b, counters under 128 (R151, R156), `saw` the copies among them whose overwritten bytes the array may
still read, and `after` those of `saw` that come before its later accesses (R156); `near` is the last cluster-scope byte of an address that a
plain load before it in po has read, by its place (R230). -/
structure Split where
  pc : DWord
  mask : Mask
  fmt : Word
  recs : List DivEntry
  pend : List Pending
  wait : Wait
  last : Nat
  seg : Nat
  before : List Nat
  known : Known
  acqs : List Nat
  line : Option (Nat × Nat)
  seen : Tab Nat
  saw : List Nat
  after : List Nat
  near : Tab Nat
  deriving DecidableEq, Repr

/-- What a gang whose cluster has resumed knows of its publications before the resume (R312): those performed, each by rtc and event; the
rtc that lies above all of theirs; the rtc of what was still under way at the loss; and the first name that did not exist at the resume. -/
structure Replay where
  marks : List (DWord × Nat)
  top : Nat
  owed : List DWord
  since : Nat
  deriving DecidableEq, Repr

/-- The descriptor and the progress of a relaxation region (R194, R278).  Block bases are allocated registers.
`caps` holds, per captured step, the components of Y and of J;
`recs` are the records of the split at rxbody. -/
structure Region where
  len : Nat
  steps : Nat
  dim : Nat
  mode : Nat
  guess : Nat
  policy : Nat
  early : Bool
  limit : Nat
  tauA : Word
  tauR : Word
  rho : Word
  bx : Nat
  by' : Nat
  bj : Nat
  bc : Nat
  x0 : List Word
  wbase : Nat
  start : DWord
  active : Mask
  recs : List DivEntry
  slot : Nat
  fallback : Option Nat
  stalls : Nat
  passRtc : DWord
  caps : List (Nat × List Word × List Word)
  deriving DecidableEq, Repr

/-- Whether a gang runs, is parked on a record, is held at a full fault buffer (R274), or has ended (R248). -/
inductive Status | running | parked | held | ended
  deriving DecidableEq, Repr

/-- A gang of 64 strands (R9, R17, R23).  A cell of `v` is keyed register × 64 + lane; `rng` holds the strands whose
state is not the initial one; `replay` is there once its cluster has resumed (R312); `nextSeg` names the next segment of
po (R216); `copyFaults` are the refused addresses of its copies, each with its cause and access kind, that it has still to be parked for
(R369). -/
structure Gang where
  part : Nat
  range : Nat
  cohort : Nat
  crew : Nat
  index : Nat
  core : Nat
  slot : Nat
  level : Level
  nregs : Nat
  v : Cells 32
  k : Cells 32
  gens : Tab Gen
  rng : Tab DWord
  splits : Tab Split
  exited : Mask
  rtc : DWord
  fpf : BitVec 5
  wbase : Nat
  temp : Word
  prio : Nat
  srseed : DWord
  sgidx : Word
  rxs : Word
  rxr : Word
  region : Option Region
  status : Status
  needTable : Bool
  cancelled : Bool
  copyFaults : List (DWord × Nat × AccessKind)
  qCount : Nat
  qEnded : Bool
  qOut : Bool
  qLog : List Nat
  turn : Nat
  yielded : Option (List Nat × Nat)
  replay : Option Replay
  nextSeg : Nat
  deriving DecidableEq, Repr

/-! ### Crews, cohorts, MCCs, launches -/

/-- A crew on one core (R9, R22, R259).  A cell of `acc` is keyed (tile × 32 + row) × 128 + column; `olds` are the values of
scratchpad bytes overwritten by accesses that nothing orders before the array's reads yet, which the array may still read
(R168, R175); `tags` are the outstanding counts, `tagAt` the place of pub at which a tag's bit was last set (R155, R156). -/
structure Crew where
  part : Nat
  range : Nat
  cohort : Nat
  index : Nat
  core : Nat
  gangs : List Nat
  scratch : Memory
  olds : List (Nat × Byte × OldBy)
  acc : Cells 32
  bars : Tab Barrier
  rdy : DWord
  tags : Tab Nat
  tagAt : Tab Nat
  ended : Bool
  share : Bool
  deriving DecidableEq, Repr

/-- An instruction of the array queue, with what it captured at its issue (R170, R173, R175, R177). -/
inductive ArrayOp
  | mma (sh : MatShape) (acc : Nat) (aAddr bAddr : Nat) (gen : Option Gen) (side tsp add : Bool) (row0 col0 : Word)
      (fmt : Word)
  | mzero (acc : Nat)
  | mdrain (acc : Nat) (off : Nat) (z : Bool) (bands : DWord) (fmt : Word) (srseed rtc : DWord)
  deriving DecidableEq, Repr

/-- What an MCC waits for: a rendezvous, or for pfence.cl the copies with names below `before` (R167, R309). -/
inductive MccWait | none | rdv | drain (before : Nat)
  deriving DecidableEq, Repr

/-- The matrix control core's context while it belongs to a cohort (R165). -/
structure Mcc where
  running : Bool
  pc : DWord
  k : Cells 32
  gens : Tab Gen
  fmt : Word
  fpf : BitVec 5
  fpfNew : BitVec 5
  rtc : DWord
  srseed : DWord
  queue : List ArrayOp
  wait : MccWait
  status : Status
  needTable : Bool
  deriving DecidableEq, Repr

/-- An answer to a record of a cohort that is out of its cluster: it takes effect at the restore (R302).  `known` is what the handler's
release carries. -/
structure HeldAnswer where
  record : FaultRecord
  point : DWord
  abort : Bool
  known : Known
  deriving DecidableEq, Repr

/-- A cohort (R9): `cluster` counts the clusters of the device, die × 20 + cluster; `seq` is its order of placement, or while it is out
the order of its save; `preempt` while a pre-emption of it has been asked for (R298); `savedAttic` is what the Attic held when it was
saved with it (R299), `answers` what waits for its restore (R302), `ratio` the lane ratio that its crews run at for life (R319), `outAt`
the reference cycle of its save. -/
structure Cohort where
  part : Nat
  range : Nat
  index : Nat
  cluster : Nat
  crews : List Nat
  bars : Tab Barrier
  attic : Bool
  seq : Nat
  preempt : Bool
  saved : Bool
  savedAttic : Memory
  answers : List HeldAnswer
  ended : Bool
  group : Option Nat
  ratio : Nat
  outAt : Nat
  deriving DecidableEq, Repr

/-- A range record: a launch that has been placed (R187, R241 to R243); `placed` is the place of pub at which it was: what was written
before it, its programs fetch (R94). -/
structure Range where
  part : Nat
  die : Nat
  level : Nat
  entry : Nat
  time : Nat
  aged : Nat
  cursor : Nat
  count : Nat
  launch : Launch
  launchAddr : DWord
  frame : DWord
  parent : DWord
  super : Bool
  pinned : Bool
  spill : Bool
  group : Option Nat
  cancelled : List Nat
  ended : List Nat
  returned : List Nat
  bars : Tab Barrier
  barHome : Nat
  quantum : Nat
  qStart : Nat
  placed : Nat
  holds : List Nat
  queued : Bool
  done : Bool
  joined : Bool
  joinDue : Bool
  deriving DecidableEq, Repr

/-- A sample group (R204): the virtual address and the physical 64-byte blocks of its record, the die of its Pantry, its
range, and the reference cycles or retired instructions counted so far; `known` is what its arrivals knew (R226). -/
structure Group where
  part : Nat
  die : Nat
  va : DWord
  blocks : List Nat
  range : Nat
  det : Bool
  elapsed : Nat
  closed : Bool
  known : Known
  deriving DecidableEq, Repr

/-! ### Memory in motion -/

/-- A Porch entry: one 64-byte block of one split (R263).  `segs` are the segments of po its stores belong to (R216), `segAt` that of the
store of each byte, `needs` the requests that read memory before them in po (R219), `bytes` its bytes with their places in core order, `order` the rank of its
gang, `taken` the publication that covers it, `pages` the 64 KiB pages it was translated through. -/
structure PorchEntry where
  part : Nat
  gang : Nat
  split : Nat
  segs : List Nat
  segAt : Tab Nat
  needs : List Nat
  block : Nat
  bytes : List (Nat × Byte × Nat)
  order : Nat
  seq : Nat
  taken : Option Nat
  pages : List Nat
  deriving DecidableEq, Repr

/-- A publication under way (R219, R224, R263): it is performed after `after` and once the requests `waits` are served.  `seg` is
the segment of po of the instruction that made it, `hist` the segments of po before it, its own included, `known` what that knew, `release` the bytes of that instruction, which carry its
release; `event` tells its publications from those that its instruction makes at once (R312). -/
structure Pub where
  part : Nat
  core : Nat
  scope : OrdScope
  after : List Nat
  waits : List Nat
  gang : Nat
  seg : Nat
  hist : List Nat
  known : Known
  release : List Nat
  rtc : DWord
  event : Nat
  deriving DecidableEq, Repr

/-- A write of one byte at its point of coherence (R222, R231): the value it found and the value it left; `id`, the place where it
was first published; `seq`, its place in pub at package scope; who wrote it; `only` for a write that another write of its cluster
overtook before it left that cluster, which alone can read it (R219); `sys` once it is published at system scope (R217, R235);
the releases it carries (R226). -/
structure Past where
  addr : Nat
  old : Byte
  val : Byte
  id : Nat
  seq : Nat
  source : Source
  only : Option Nat
  sys : Bool
  rels : List Rel
  deriving DecidableEq, Repr

/-- A byte published at cluster scope only (R219), with the segment of po of its store, the place where it was and the releases it
carries. -/
structure Overlay where
  addr : Nat
  val : Byte
  cluster : Nat
  core : Nat
  gang : Nat
  seg : Nat
  id : Nat
  rels : List Rel
  deriving DecidableEq, Repr

/-- One lane's part of a read-modify-write of memory: the physical address, the operand and the swap value. -/
structure RmwLane where
  lane : Nat
  addr : Nat
  x : DWord
  y : DWord
  dst : Nat
  deriving DecidableEq, Repr

/-- Operations of atom and red at the Pantry (R67, R147). -/
inductive RmwOp | add | min | max | and | or | xor | xchg | cas | fadd | add64
  deriving DecidableEq, Repr

/-- A continuation record as read from memory (R187). -/
structure ContRecord where
  launch : DWord
  frame : DWord
  join : Word
  prio : Nat
  flags : Nat
  crews : Nat
  parent : DWord
  deriving DecidableEq, Repr

/-- A range about to be placed: the record, its launch record, its level of privilege. -/
structure Placement where
  cont : ContRecord
  launch : Launch
  super : Bool
  deriving DecidableEq, Repr

/-- A message (R191): record, payload, destination, privilege and priority of the sender. -/
structure Message where
  part : Nat
  gang : Nat
  die : Nat
  peer : Nat
  cont : ContRecord
  payload : List Byte
  super : Bool
  seq : Nat
  deriving DecidableEq, Repr

/-- What a request asks of a Pantry (R256), with the operands captured at issue. -/
inductive ReqKind
  | store (bytes : List (Nat × Byte))
  | rmw (op : RmwOp) (lanes : List RmwLane) (ret : Bool)
  | ctrAdd (addr : Nat) (amount : DWord)
  | waitc (addr : Nat) (threshold : DWord)
  | readc (addr : Nat) (d : Nat)
  | bar (b : BarRef) (arrives ident : Bool) (payload : Word) (pend : BitVec 56) (d : Nat) (token wait : Bool)
  | barwait (b : BarRef) (token : Bool) (d : Nat)
  | bart (b : BarRef) (token : Bool) (d : Nat)
  | barq (b : BarRef) (d : Nat)
  | barcfg (b : BarRef) (val : Word)
  | chunk (addr : Nat) (d : Nat)
  | join (va : DWord) (addr : Nat)
  | autoJoin (va : DWord) (range : Nat)
  | spawn (places : List Placement) (d : Nat)
  | sgfork (va : DWord) (blocks : List Nat) (n : Nat) (prompt : Placement) (promptVa deadline closeVa : DWord) (eps : Word) (d : Nat)
  | sgreward (reward : Word) (d : Nat)
  | sgcancel (blocks : List Nat) (i : Nat) (d : Nat)
  | sgstat (blocks : List Nat) (d : Nat)
  | message (m : Message)
  | deliver (m : Message)
  | stepmark (step : DWord) (d : Nat)
  | copyDone (copy : Nat)
  | order (sc : OrdScope)
  | discard (sc : Scope)
  | eret (record : FaultRecord) (point : DWord) (abort : Bool)
  deriving DecidableEq, Repr

/-- A request on its way to a Pantry or in its queue (R256): `home` is the cluster, `sent` the clock at which it was sent and `place` its
sender's place in the order of one cycle, `waits` the publications and requests
it is performed after, `table` once it waits in the Pantry's tables (waitc, n barriers, sgreward); `seg` is the segment of po of its
instruction (R216), `hist` the segments of po before it, its own included, `known` what a release by it carries (R224), `pages` the 64 KiB pages it was translated through (R272); `copy`, for the
counter add of a copy, is the gang that issued the copy and the copy as a writer (R155, R312). -/
structure Request where
  part : Nat
  gang : Nat
  split : Nat
  core : Nat
  home : Nat
  seq : Nat
  sent : Nat
  place : Nat
  kind : ReqKind
  acq : Option OrdScope
  rel : Option OrdScope
  waits : List Nat
  table : Bool
  seg : Nat
  hist : List Nat
  known : Known
  rtc : DWord
  pages : List Nat
  copy : Option (Nat × Source)
  deriving DecidableEq, Repr

/-- The four copies (R152). -/
inductive CopyKind | cin | cout | catt | cg
  deriving DecidableEq, Repr

/-- A copy issued and not complete (R152 to R155): the captured layout record and k block, the elements already moved, the global bytes
it has written and not yet published (`out`), the completion paths that have fired, and the fault it is held on. -/
structure Copy where
  kind : CopyKind
  part : Nat
  cohort : Nat
  crew : Nat
  gang : Nat
  super : Bool
  base : DWord
  sizes : List Nat
  strides : List Nat
  fill : Word
  box : List Nat
  fmt : Nat
  rank : Nat
  shuffle : Bool
  origin : List Int
  loc : DWord
  tag : Option Nat
  bar : Nat
  ctr : Option DWord
  ctrRel : Bool
  remote : Option Nat
  moved : List Nat
  out : List (Nat × Byte)
  ctrDone : Bool
  tagDone : Bool
  barDone : Bool
  held : Bool
  stuck : Bool
  seq : Nat
  rtc : DWord
  deriving DecidableEq, Repr

/-- An entry of a fault buffer (R274). -/
structure FaultEntry where
  key : Nat
  part : Nat
  waiters : List Agent
  deriving DecidableEq, Repr

/-- A cached leaf translation (R272). -/
structure TlbEntry where
  part : Nat
  va : Nat
  size : Nat
  pte : Nat
  deriving DecidableEq, Repr

/-! ### Cores and clusters -/

/-- A core outside its crews (R218, R221, R254, R261 to R263, R269, R277).  `obs` and `lines` are the bytes and the Larder lines
observed in the epoch, `mono` the last write of a byte that the core has read or made, by its `id` (R222 condition 4), `near` the last
cluster-scope byte of an address that a fresh load of it has read (R223); `stairWait` are the gangs that wait for the stair unit, each with the
front-end cycle of its stall (R277), which `cycle` counts; `resumed` is the place in core order of the last resume from the Cellar (R312); `half` is the gang
that took the first place of the front-end cycle, while the second is free (R251); `icBound`
and `icCluster` are the places of pub of the last discard of its instruction cache, and of the last at cluster scope or wider. -/
structure CoreSt where
  porch : List PorchEntry
  obs : List (Nat × Byte)
  lines : List Nat
  refreshCl : Nat
  refreshPk : Nat
  refreshSy : Nat
  mono : Tab Nat
  near : Tab Nat
  overflow : Nat
  icBound : Nat
  icCluster : Nat
  order : Nat
  resumed : Nat
  cycle : Nat
  lastSlot : Nat
  detTurn : Nat
  half : Option Nat
  stair : Option Nat
  stairWait : List (Nat × Nat)
  deriving DecidableEq, Repr

/-- A Cellar slot header (R307). -/
structure SlotHeader where
  generation : Nat
  boundary : Nat
  cause : Nat
  flags : Nat
  granules : Nat
  crc : Word
  deriving DecidableEq, Repr

/-- The cluster state that a seal captures (R305). -/
structure Image where
  gangs : Tab Gang
  crews : Tab Crew
  cohorts : Tab Cohort
  mccs : Tab Mcc
  copies : Tab Copy
  porches : List (Nat × List PorchEntry)
  stairs : List (Nat × Option Nat × List (Nat × Nat))
  bars : Tab (Tab Barrier)
  requests : Tab Request
  pubs : Tab Pub
  deriving DecidableEq, Repr

/-- A Cellar slot: its header and its image (R305, R307). -/
structure CellarSlot where
  header : SlotHeader
  image : Option Image
  deriving DecidableEq, Repr

/-- Cluster power states (R328). -/
inductive PowerState | active | clockGated | retention | gated
  deriving DecidableEq, Repr

/-- A cluster outside its cohorts: Attic, translation, Cellar, clocks (R268, R272, R274, R305, R318 to R329).  `ceilingMv` is 0 where the
request in force asks for the least voltage (R321); `next` is a clock and a voltage that were asked for while a change was under way (R323);
`atticWait` are the cohorts that wait for the Attic, each with the clock of its stall and the core and the slot of the gang that stalled (R268);
`failed` once its supply has failed, until it has resumed (R310, R311), `holdUp` while it seals from hold-up energy (R310); `emptyAt` is the
reference cycle since which no crew has stood on it (R328); `narrow` and `lowered` are the 50 MHz steps below the ceiling that the cluster's own
stalls and the package's budget have taken (R324, R331). -/
structure ClusterSt where
  attic : Memory
  atticOlds : List (Nat × Byte × OldBy)
  atticHolder : Option Nat
  atticWait : List (Nat × Nat × Nat)
  tlb : List TlbEntry
  faults : List FaultEntry
  heldFaults : List Agent
  heldAt : List (Agent × Nat × Nat)
  slotA : CellarSlot
  slotB : CellarSlot
  activeB : Bool
  dirtyA : Nat
  dirtyB : Nat
  retired : Nat
  mccBound : Nat
  mccCluster : Nat
  mhz : Nat
  ratio : Nat
  defaultRatio : Nat
  pendingRatio : Option Nat
  ceilingMhz : Nat
  ceilingMv : Nat
  narrow : Nat
  lowered : Nat
  mv : Nat
  targetMv : Nat
  targetMhz : Nat
  next : Option (Nat × Nat)
  pass : Nat
  issue : List Nat
  fifoFull : List Nat
  laneBusy : Nat
  arrayBusy : Nat
  current : Nat
  power : PowerState
  since : Nat
  failed : Bool
  holdUp : Bool
  emptyAt : Nat
  reserved : Option Nat
  deriving DecidableEq, Repr

/-! ### Partitions -/

/-- Partition states (R346). -/
inductive PartState | free | erasing | unconfigured | ready | running | halted
  deriving DecidableEq, Repr

/-- An entry of the fabric route table (R336). -/
structure Route where
  peer : List Byte
  remotePart : Nat
  flags : Nat
  ports : Nat
  apertureGiB : Nat
  exportGiB : Nat
  apertureBase : DWord
  remoteBase : DWord
  exportBase : DWord
  deriving DecidableEq, Repr

/-- A configured replica (R315). -/
structure Replica where
  peer : Nat
  part : Nat
  timeoutUs : Nat
  deriving DecidableEq, Repr

/-- A stepmark that waits for its replica (R213, R315). -/
structure StepWait where
  step : DWord
  digest : List Byte
  gang : Nat
  split : Nat
  since : Nat
  deriving DecidableEq, Repr

/-- A partition (R344 to R350).  `haltDue` while it is halted and event 1 has not been posted, since results of its gangs are still to
come (R115); `heldRecords` are kept each with the clock of its trap (R36); `stepWords` are the results of the steps that have closed, by their
numbers (R213, R302); `marks` the publications that durable gangs have performed (R312). -/
structure Part where
  dies : List Nat
  carveGiB : List Nat
  state : PartState
  born : Nat
  haltCause : Nat
  haltDue : Bool
  root : Nat
  queueArea : Nat
  queueRecords : Nat
  faultBase : Nat
  faultEntries : Nat
  posted : Nat
  consumed : Nat
  open' : List (Nat × FaultRecord)
  heldRecords : List (Nat × FaultRecord)
  saveBase : Nat
  saveGiB : Nat
  ringBase : Nat
  ringEntries : Nat
  dirtyBudget : Nat
  retentionUs : Nat
  routes : Tab Route
  replica : Option Replica
  peerDigests : List (DWord × List Byte)
  stepWait : Option StepWait
  lastStep : Option DWord
  stepWords : List (DWord × Word)
  digestRanges : List (DWord × DWord)
  heldPlacements : List (Nat × Placement × Option Nat)
  portMessages : List Message
  retired : Nat
  arrayBusy : Nat
  hbmBytes : Nat
  linkBytes : Nat
  microjoules : Nat
  peakWatts : Nat
  usageKey : Nat
  usageBase : Nat
  usageEntries : Nat
  usagePeriod : Nat
  usageSeq : Nat
  usageStart : Nat
  usageHash : List Byte
  usagePosted : Nat
  usageWaiting : List (List Byte)
  haltedInPeriod : Bool
  backlog : Bool
  opDigest : List Byte
  createOps : List Byte
  entrySeq : Nat
  marks : List (Nat × DWord × Nat)
  results : List (Nat × DWord × List (Nat × DWord))
  deriving DecidableEq, Repr

/-! ### The device -/

/-- A link (R334, R335): up or down, failed replays in a row, retraining, and for a port its peer's identity. -/
structure Link where
  up : Bool
  failed : Nat
  retraining : Bool
  peer : List Byte
  deriving DecidableEq, Repr

/-- A digest message between replicas of this device (R315): from the partition `src` to the partition `dest`. -/
structure DigestMsg where
  dest : Nat
  src : Nat
  step : DWord
  digest : List Byte
  deriving DecidableEq, Repr

/-- What is left of a destroyed partition's usage ring: where it lies, how many entries have been posted, and the records that wait for
room (R347, R350). -/
structure UsageLeft where
  base : Nat
  entries : Nat
  posted : Nat
  waiting : List (List Byte)
  deriving DecidableEq, Repr

/-- The device outside its clusters and partitions (R326, R327, R330, R334, R341, R351, R353).  `round` are the dies sampled in this round
of samples, `moved` once the bubble count has moved in it, and whether it rose (R326), `bubbleRest` the 64ths of a cycle of bubbles that the time
passed has left over (R326); `turnAt` is, per die, when the last turn of its wake order began, and
`raises` the clusters whose clocks are to rise in it, in their order (R329); `firmwareMem` is the firmware's own memory, in which its fault
queue stands at 0 (R32, R291). -/
structure Dev where
  bootState : Nat
  bootError : Nat
  firmwareAddr : DWord
  ringBase : DWord
  ringEntries : Word
  ringProduced : DWord
  ringDone : DWord
  eventBase : DWord
  eventEntries : Word
  eventPosted : Nat
  eventWaiting : List (List Byte)
  firmwareQueue : List (Nat × FaultRecord)
  firmwarePosted : Nat
  firmwareHeld : List (Nat × FaultRecord)
  firmwareMem : Memory
  hot : List Nat
  budget : Nat
  leaseSeq : Nat
  leaseEnd : Option Nat
  leaseMs : Nat
  bubbles : Nat
  round : List Nat
  moved : Option Bool
  bubbleRest : Nat
  turnAt : Tab Nat
  raises : List Nat
  windows : List Nat
  stackCurrents : List Nat
  links : List (Nat × Link)
  digests : List DigestMsg
  hostStatus : Nat
  hostData : List Byte
  remoteStatus : Nat
  remoteData : List Byte
  keySeq : Nat
  usageLeft : List UsageLeft
  deriving DecidableEq, Repr

/-- Memory outside registers and scratchpads: partition memory keyed partition × 2^52 + physical address (R266), the
writes that made it, newest first, which other agents may still read (R222, R235), the bytes published within a cluster only, oldest
first (R219), the number of the last place in pub (R220), and host memory. -/
structure MemSt where
  bytes : Memory
  past : List Past
  seq : Nat
  overlay : List Overlay
  host : Memory
  deriving DecidableEq, Repr

/-- What the model itself keeps: inputs due, the unit that issues next, the counter of free values, the reference clock
(R24), and the next fresh name. -/
structure Ctl where
  inputs : List Instr
  granted : Bool
  cur : Issuer
  free : Nat
  clock : Nat
  nextId : Nat
  deriving DecidableEq, Repr

/-- The whole machine. -/
structure State where
  ctl : Ctl
  mem : MemSt
  gangs : Tab Gang
  crews : Tab Crew
  cohorts : Tab Cohort
  mccs : Tab Mcc
  ranges : Tab Range
  groups : Tab Group
  copies : Tab Copy
  pubs : Tab Pub
  requests : Tab Request
  messages : Tab Message
  cores : Tab CoreSt
  clusters : Tab ClusterSt
  parts : Tab Part
  dev : Dev
  deriving DecidableEq, Repr

/-- A core at power-on: nothing in its Porch, its snapshot or its stair unit. -/
def CoreSt.reset : CoreSt :=
  { porch := [], obs := [], lines := [], refreshCl := 0, refreshPk := 0, refreshSy := 0, mono := [], near := [], overflow := 0, icBound := 0, icCluster := 0,
    order := 0, resumed := 0, cycle := 0, lastSlot := 0, detTurn := 0, half := none, stair := none, stairWait := [] }

/-- An erased Cellar slot: generation 0 (R276, R307). -/
def CellarSlot.reset : CellarSlot :=
  { header := { generation := 0, boundary := 0, cause := 0, flags := 0, granules := 0, crc := 0 }, image := none }

/-- A cluster at power-on: the power-on operating point of R319, an empty Attic, erased Cellar slots. -/
def ClusterSt.reset : ClusterSt :=
  { attic := [], atticOlds := [], atticHolder := none, atticWait := [], tlb := [], faults := [], heldFaults := [], heldAt := [],
    slotA := CellarSlot.reset, slotB := CellarSlot.reset, activeB := false, dirtyA := 0, dirtyB := 0, retired := 0,
    mccBound := 0, mccCluster := 0, mhz := 1650, ratio := 2, defaultRatio := 2, pendingRatio := none, ceilingMhz := 1650, ceilingMv := 0, narrow := 0, lowered := 0, mv := 750,
    targetMv := 750, targetMhz := 1650, next := none, pass := 1, issue := [0, 0, 0, 0], fifoFull := [0, 0, 0, 0], laneBusy := 0,
    arrayBusy := 0, current := 0, power := .active, since := 0, failed := false, holdUp := false, emptyAt := 0, reserved := none }

/-- A link that is up with no failure (log entry 4). -/
def Link.resetUp : Link := { up := true, failed := 0, retraining := false, peer := [] }

/-- A fabric port before its training (R335; log entry 4). -/
def Link.resetDown : Link := { up := false, failed := 0, retraining := false, peer := [] }

/-- The device at power-on: booting, the floor budget, base activation windows (R341, R330, R327).
Links are keyed 0 to 7 ring, 8 to 23 fabric ports, 24 Skafen. -/
def Dev.reset : Dev :=
  { bootState := 0, bootError := 0, firmwareAddr := 0, ringBase := 0, ringEntries := 0, ringProduced := 0, ringDone := 0,
    eventBase := 0, eventEntries := 0, eventPosted := 0, eventWaiting := [], firmwareQueue := [], firmwarePosted := 0, firmwareHeld := [],
    firmwareMem := [(0x11, 4)], hot := [],
    budget := 1800, leaseSeq := 0, leaseEnd := none, leaseMs := 0, bubbles := 0, round := [], moved := none, bubbleRest := 0, turnAt := [], raises := [],
    windows := List.replicate 16 16, stackCurrents := List.replicate 16 0,
    links := (List.range 8).map (fun i => (i, Link.resetUp)) ++ (List.range 16).map (fun i => (8 + i, Link.resetDown))
      ++ [(24, Link.resetUp)],
    digests := [], hostStatus := 0, hostData := [], remoteStatus := 0, remoteData := [], keySeq := 0, usageLeft := [] }

/-- The machine right after power-on: no partition, no work, memory with nothing listed.  Cores and clusters that are
not listed stand as at power-on. -/
def State.reset : State :=
  { ctl := { inputs := [], granted := false, cur := .none, free := 0, clock := 0, nextId := 1 },
    mem := { bytes := [], past := [], seq := 0, overlay := [], host := [] },
    gangs := [], crews := [], cohorts := [], mccs := [], ranges := [], groups := [], copies := [], pubs := [],
    requests := [], messages := [], cores := [], clusters := [], parts := [], dev := Dev.reset }

end Sys2Proof.Machine
end

