-- ==== Sys2Proof/Machine/Cells.lean ====
section
/-! DEFINITION. Reading and writing lists of cells, tables and byte memory, in canonical form: keys strictly rising, and
for cells no entry that holds zero, which is what an unlisted cell reads as. -/

namespace Sys2Proof.Machine

/-- Every entry but those with key `k`. -/
def dropKey {α : Type} (k : Nat) (t : Tab α) : Tab α := t.filter fun e => e.1 != k

/-- An entry put before the first entry with a larger key. -/
def putSorted {α : Type} (k : Nat) (x : α) : Tab α → Tab α
  | [] => [(k, x)]
  | e :: r => if k < e.1 then (k, x) :: e :: r else e :: putSorted k x r

/-- The value listed at a key. -/
def tget {α : Type} (t : Tab α) (k : Nat) : Option α :=
  match t with
  | [] => none
  | e :: r => if e.1 = k then some e.2 else tget r k

/-- A table with the value at a key replaced. -/
def tset {α : Type} (t : Tab α) (k : Nat) (x : α) : Tab α := putSorted k x (dropKey k t)

/-- A table without a key. -/
def tdrop {α : Type} (t : Tab α) (k : Nat) : Tab α := dropKey k t

/-- A table with the value at a key changed where it is listed. -/
def tmod {α : Type} (t : Tab α) (k : Nat) (f : α → α) : Tab α := t.map fun e => if e.1 = k then (e.1, f e.2) else e

/-- A register of a file: 0 where nothing is listed. -/
def cget {w : Nat} (c : Cells w) (k : Nat) : BitVec w := (tget c k).getD 0

/-- A file with one register written. -/
def cset {w : Nat} (c : Cells w) (k : Nat) (x : BitVec w) : Cells w :=
  if x = 0 then dropKey k c else putSorted k x (dropKey k c)

/-- A file with several registers written, in order. -/
def csets {w : Nat} (c : Cells w) (ws : List (Nat × BitVec w)) : Cells w := ws.foldl (fun c e => cset c e.1 e.2) c

/-- Keys strictly rising from a bound on. -/
def risingFrom {α : Type} (lo : Nat) : Tab α → Bool
  | [] => true
  | e :: r => decide (lo ≤ e.1) && risingFrom (e.1 + 1) r

/-- The canonical form of a list of cells. -/
def Cells.wf {w : Nat} (c : Cells w) : Bool := risingFrom 0 c && c.all fun e => e.2 != 0

/-- What an unlisted address of memory reads as: memory is zeroed when a partition is created (R276, R346). -/
def unlistedByte : Byte := 0

/-- One byte of a memory. -/
def Memory.read (m : Memory) (a : Nat) : Byte := (tget m a).getD unlistedByte

/-- A memory with one byte written; writing what an unlisted address reads as removes the entry. -/
def Memory.write (m : Memory) (a : Nat) (x : Byte) : Memory :=
  if x = unlistedByte then dropKey a m else putSorted a x (dropKey a m)

/-- A memory with several bytes written, in order. -/
def Memory.writes (m : Memory) (ws : List (Nat × Byte)) : Memory := ws.foldl (fun m e => m.write e.1 e.2) m

/-- `n` bytes from an address upward. -/
def Memory.readN (m : Memory) (a n : Nat) : List Byte := (List.range n).map fun i => m.read (a + i)

/-- A list of bytes written from an address upward. -/
def Memory.writeList (m : Memory) (a : Nat) : List Byte → Memory
  | [] => m
  | b :: bs => (m.write a b).writeList (a + 1) bs

/-- The canonical form of a memory: addresses strictly rising, no entry equal to what an unlisted address reads as. -/
def Memory.wf (m : Memory) : Bool := risingFrom 0 m && m.all fun e => e.2 != unlistedByte

/-- The entries of a memory outside [lo, hi). -/
def Memory.clear (m : Memory) (lo hi : Nat) : Memory := m.filter fun e => e.1 < lo || hi ≤ e.1

end Sys2Proof.Machine
end

