-- ==== Sys2Proof/Machine/Access.lean ====
section
/-! DEFINITION. Where things are in the state: cores, clusters, partitions, gangs; free choices; physical addresses and
their homes (R9, R244, R265, R266). -/

namespace Sys2Proof.Machine

/-! ### Tables -/

def getCore (s : State) (c : Nat) : CoreSt := (tget s.cores c).getD CoreSt.reset
def setCore (s : State) (c : Nat) (x : CoreSt) : State := { s with cores := tset s.cores c x }
def modCore (s : State) (c : Nat) (f : CoreSt → CoreSt) : State := setCore s c (f (getCore s c))

def getCluster (s : State) (c : Nat) : ClusterSt := (tget s.clusters c).getD ClusterSt.reset
def setCluster (s : State) (c : Nat) (x : ClusterSt) : State := { s with clusters := tset s.clusters c x }
def modCluster (s : State) (c : Nat) (f : ClusterSt → ClusterSt) : State := setCluster s c (f (getCluster s c))

def setGang (s : State) (g : Nat) (x : Gang) : State := { s with gangs := tset s.gangs g x }
def modGang (s : State) (g : Nat) (f : Gang → Gang) : State := { s with gangs := tmod s.gangs g f }
def modCrew (s : State) (c : Nat) (f : Crew → Crew) : State := { s with crews := tmod s.crews c f }
def modCohort (s : State) (c : Nat) (f : Cohort → Cohort) : State := { s with cohorts := tmod s.cohorts c f }
def modMcc (s : State) (c : Nat) (f : Mcc → Mcc) : State := { s with mccs := tmod s.mccs c f }
def modRange (s : State) (r : Nat) (f : Range → Range) : State := { s with ranges := tmod s.ranges r f }
def modPart (s : State) (p : Nat) (f : Part → Part) : State := { s with parts := tmod s.parts p f }
def modCopy (s : State) (c : Nat) (f : Copy → Copy) : State := { s with copies := tmod s.copies c f }
def modReq (s : State) (r : Nat) (f : Request → Request) : State := { s with requests := tmod s.requests r f }
def modGroup (s : State) (g : Nat) (f : Group → Group) : State := { s with groups := tmod s.groups g f }

/-- A fresh name. -/
def freshId (s : State) : Nat × State := (s.ctl.nextId, { s with ctl := { s.ctl with nextId := s.ctl.nextId + 1 } })

/-- The counter of free values moved on: what is drawn next is another value. -/
def bumpFree (s : State) : State := { s with ctl := { s.ctl with free := s.ctl.free + 1 } }

/-- A free choice among `n` alternatives; no value is drawn where there is only one. -/
def chooseBelow (s : State) (site salt n : Nat) : Nat :=
  if n ≤ 1 then 0 else Config.choice site (s.ctl.free * 2 ^ 64 + salt) % n

/-- A free choice of an element. -/
def chooseFrom {α : Type} (s : State) (site salt : Nat) (xs : List α) : Option α := xs[chooseBelow s site salt xs.length]?

/-! ### Places -/

/-- The cluster of a core, and its number within the cluster; a cluster's die, and its number within the die. -/
def coreCluster (c : Nat) : Nat := c / 4
def coreIndex (c : Nat) : Nat := c % 4
def clusterDie (c : Nat) : Nat := c / 20
def clusterIndex (c : Nat) : Nat := c % 20

/-- The die of the partition (0 upward) that a device die is (R344). -/
def partDie (p : Part) (die : Nat) : Nat := p.dies.idxOf die

/-- The clusters of a partition in partition cluster order (R244). -/
def partClusters (p : Part) : List Nat := p.dies.flatMap fun d => (List.range 20).map fun i => d * 20 + i

/-- The gangs that are resident: their cohort is not saved and they have not ended. -/
def isResident (s : State) (g : Gang) : Bool :=
  g.status != .ended && (match tget s.cohorts g.cohort with | some c => !c.saved | none => false)

/-- The launch record of a gang's range. -/
def launchOf (s : State) (range : Nat) : Option Launch := (tget s.ranges range).map (·.launch)

/-- A gang runs in deterministic mode (R239: the mode of its own launch record). -/
def gangDet (s : State) (g : Gang) : Bool := ((launchOf s g.range).map (·.det)).getD false

/-- A gang belongs to a durable launch (R239). -/
def gangDurable (s : State) (g : Gang) : Bool := ((launchOf s g.range).map (·.durable)).getD false

/-- The cluster a gang runs on. -/
def gangCluster (g : Gang) : Nat := coreCluster g.core

/-! ### Physical addresses -/

/-- The key of a physical byte of a partition. -/
def physKey (part pa : Nat) : Nat := part * 2 ^ 52 + pa

/-- The partition and the physical address of a key. -/
def keyPart (k : Nat) : Nat := k / 2 ^ 52
def keyPa (k : Nat) : Nat := k % 2 ^ 52

/-- HBM bytes of one die: two stacks of 80 GB (R2, R3). -/
def dieBytes : Nat := 160000000000

/-- The size of the interleaved window: the partition's HBM less its local carve-outs (R266). -/
def interleavedSize (p : Part) : Nat :=
  p.dies.length * dieBytes - (p.carveGiB.map fun c => c * 2 ^ 30).foldl (· + ·) 0

/-- The size of a die's local carve-out (R266). -/
def localSize (p : Part) (d : Nat) : Nat := (p.carveGiB[d]?.getD 0) * 2 ^ 30

/-- A physical range lies inside its window (R266). -/
def inWindow (p : Part) (pa len : Nat) : Bool :=
  if pa / 2 ^ 51 % 2 = 0 then decide (pa + len ≤ interleavedSize p)
  else
    let d := pa / 2 ^ 48 % 8
    decide (d < p.dies.length) && decide (pa % 2 ^ 48 + len ≤ localSize p d) && decide (pa < 2 ^ 52)

/-- The stack of the partition that holds a byte (R266). -/
def stackOf (p : Part) (pa : Nat) : Nat :=
  if pa / 2 ^ 51 % 2 = 0 then (fieldN pa 12 4 ^^^ fieldN pa 16 4 ^^^ fieldN pa 20 4) % (2 * p.dies.length)
  else 2 * (pa / 2 ^ 48 % 8) + (fieldN pa 12 1 ^^^ fieldN pa 16 1)

/-- The home cluster of a byte's 256-byte granule, numbered over the device (R265, R266). -/
def homeOf (p : Part) (pa : Nat) : Nat :=
  (p.dies[stackOf p pa / 2]?.getD 0) * 20 + (pa % 2 ^ 51) / 256 % 20

/-- The home cluster of a physical key. -/
def homeOfKey (s : State) (key : Nat) : Nat :=
  match tget s.parts (keyPart key) with
  | some p => homeOf p (keyPa key)
  | none => 0

end Sys2Proof.Machine
end

