-- ==== Sys2Proof/Machine/Clocks.lean ====
section
/-! DEFINITION. The clocks and the rail of a cluster: what a clock needs, and how a change is made (R318, R319, R321 to R323). -/

namespace Sys2Proof.Machine

/-- The highest 50 MHz step of the front-end clock under a ratio (R318, R319). -/
def maxFront (ratio : Nat) : Nat := if ratio = 2 then 1650 else 1800

/-- The voltage a cluster needs for its clocks, in mV (R322); the lane clock is given in half MHz. -/
def neededMv (mhz ratio : Nat) : Nat :=
  let lane := match ratio with
    | 0 => mhz
    | 1 => 2 * mhz
    | _ => 4 * mhz
  let front := if mhz ≤ 1000 then 550 else if mhz ≤ 1200 then 580 else if mhz ≤ 1400 then 620 else if mhz ≤ 1650 then 680 else 720
  let side := if lane ≤ 3300 then 550 else if lane ≤ 3600 then 580 else if lane ≤ 4800 then 620 else if lane ≤ 5600 then 680 else 750
  max front side

/-- The voltage of a cluster at a front-end clock: the one requested at the clock of the request in force, and at a lower clock what
the clocks need (R321, R322). -/
def pointMv (c : ClusterSt) (mhz : Nat) : Nat :=
  if c.ceilingMhz ≤ mhz then max c.ceilingMv (neededMv mhz c.ratio) else neededMv mhz c.ratio

/-- The front-end clock a cluster is to run: its ceiling, as far as its ratio allows it, less the steps taken below it (R319, R321,
R324, R331). -/
def wantedMhz (c : ClusterSt) : Nat := max 1000 (min c.ceilingMhz (maxFront c.ratio) - 50 * (c.narrow + c.lowered))

/-- A step of a change is under way: the rail moves (R323). -/
def stepUnderWay (c : ClusterSt) : Bool := c.mv != c.targetMv || c.mhz != c.targetMhz

/-- A clock aimed at: lowering takes effect at once and the voltage follows; raising waits until the rail has reached the voltage of the
point, unless it stands there or above; while a step is under way it is completed first (R323). -/
def aimClock (c : ClusterSt) (mhz : Nat) : ClusterSt :=
  if stepUnderWay c then c
  else if mhz ≤ c.mhz || pointMv c mhz ≤ c.mv then { c with mhz := mhz, targetMhz := mhz, targetMv := pointMv c mhz }
  else { c with targetMhz := mhz, targetMv := pointMv c mhz }

/-- A cluster's clock moves towards what it is to run. -/
def reaim (c : ClusterSt) : ClusterSt := aimClock c (wantedMhz c)

/-- A request in force from now on: its clock and its voltage are the ceiling (R321). -/
def newCeiling (c : ClusterSt) (mhz mv : Nat) : ClusterSt := { c with ceilingMhz := mhz, ceilingMv := mv, narrow := 0, next := none }

/-- The request that waited for the step under way is in force (R323). -/
def nextCeiling (c : ClusterSt) : ClusterSt :=
  match c.next with
  | some r => newCeiling c r.1 r.2
  | none => c

/-- The rail has reached its target: the clock it was raised for is applied, and with the step completed the cluster goes on to what it is
to run, a request that came during the change included (R323). -/
def settleStep (c : ClusterSt) : ClusterSt :=
  let mhz := if neededMv c.targetMhz c.ratio ≤ c.targetMv then c.targetMhz else c.mhz
  reaim (nextCeiling { c with mv := c.targetMv, mhz := mhz, targetMhz := mhz })

/-- A request: at once, or once the step under way is completed (R321, R323). -/
def requestPoint (c : ClusterSt) (mhz mv : Nat) : ClusterSt :=
  if stepUnderWay c then { c with next := some (mhz, mv) } else reaim (newCeiling c mhz mv)

/-- The first step towards a lane ratio: the front-end clock is lowered where the lane clock would be too fast, and the rail is raised
to what the new clocks need (R319, R323). -/
def towardRatio (c : ClusterSt) (ratio : Nat) : ClusterSt :=
  let mhz := min c.mhz (maxFront ratio)
  { c with mhz := mhz, targetMhz := mhz, targetMv := max c.mv (neededMv mhz ratio) }

/-- The rail stands at its target. -/
def railSettled (c : ClusterSt) : ClusterSt := { c with mv := c.targetMv }

/-- The ratio applied once the rail carries it; the clock then goes where it is to run (R319, R323). -/
def applyRatio (c : ClusterSt) (ratio : Nat) : ClusterSt :=
  reaim (nextCeiling { c with ratio := ratio })

/-- A cluster of no crew is switched to a lane ratio in the order of R323, a step under way completed first, all before the crews of the
launch that asks for it start (R319). -/
def switchRatio (c : ClusterSt) (ratio : Nat) : ClusterSt :=
  applyRatio (railSettled (towardRatio (if stepUnderWay c then settleStep c else c) ratio)) ratio

/-- The lane ratio of a launch, as an operating point names it: 0 half, 1 equal, 2 double (R239, R321). -/
def launchRatio (l : Launch) : Option Nat := if l.ratio = 0 then none else some (l.ratio - 1)

/-- The ratio of a cluster's operating point: the one pending, or the default (R319). -/
def pointRatio (c : ClusterSt) : Nat := c.pendingRatio.getD c.defaultRatio

/-- The ratio of a cluster of no crew before the crews of a launch start: the launch's, or that of the operating point (R4, R319). -/
def readyFor (c : ClusterSt) (l : Launch) : ClusterSt :=
  let d := pointRatio c
  let r := (launchRatio l).getD d
  let c1 : ClusterSt := { c with defaultRatio := d, pendingRatio := none }
  if c1.ratio = r then c1 else switchRatio c1 r

/-- One step of an empty cluster towards the ratio of its operating point: the rail is raised first where it must be (R319, R323). -/
def settlePoint (c : ClusterSt) : ClusterSt :=
  let d := pointRatio c
  let mhz := min c.mhz (maxFront d)
  if d = c.ratio then { c with defaultRatio := d, pendingRatio := none }
  else if neededMv mhz d ≤ c.mv then applyRatio { towardRatio c d with defaultRatio := d, pendingRatio := none } d
  else towardRatio c d

end Sys2Proof.Machine
end

