-- ==== Sys2Proof/Machine/Flags.lean ====
section
/-! DEFINITION. The sticky flags of fpf (R28, R55). -/

namespace Sys2Proof.Machine

/-- The five flags, bit i as R28 numbers them. -/
abbrev Flags := BitVec 5

def flNone : Flags := 0
def flInvalid : Flags := 1
def flDivZero : Flags := 2
def flOverflow : Flags := 4
def flUnderflow : Flags := 8
def flInexact : Flags := 16

/-- A flag raised under a condition. -/
def flIf (c : Bool) (f : Flags) : Flags := if c then f else flNone

/-- The union of the flags of several strands or elements. -/
def flUnion (fs : List Flags) : Flags := fs.foldl (· ||| ·) flNone

end Sys2Proof.Machine
end

