-- ==== Sys2Proof/Machine/Float.lean ====
section
/-! DEFINITION. The number formats and the one rounding of the device (R40 to R55).
A finite value is held exactly, as sign, natural mantissa and power of two; a quotient as a fraction. -/

namespace Sys2Proof.Machine

/-- How a format uses its top encodings (R40). -/
inductive FmtKind | ieee | e4m3 | e2m1
  deriving DecidableEq, Repr

/-- A floating-point format: exponent bits, mantissa bits, bias (R40). -/
structure Fmt where
  eBits : Nat
  mBits : Nat
  bias : Nat
  kind : FmtKind
  deriving DecidableEq, Repr

def fmtF32 : Fmt := ⟨8, 23, 127, .ieee⟩
def fmtF16 : Fmt := ⟨5, 10, 15, .ieee⟩
def fmtBf16 : Fmt := ⟨8, 7, 127, .ieee⟩
def fmtE4m3 : Fmt := ⟨4, 3, 7, .e4m3⟩
def fmtE5m2 : Fmt := ⟨5, 2, 15, .ieee⟩
def fmtE2m1 : Fmt := ⟨2, 1, 1, .e2m1⟩

/-- An exact value: NaN (signalling or quiet), infinity, or (−1)^neg × m × 2^e. -/
inductive FVal
  | nan (signalling : Bool)
  | inf (neg : Bool)
  | num (neg : Bool) (m : Nat) (e : Int)
  deriving DecidableEq, Repr

/-- The least exponent of a normal value: 1 − bias (R40). -/
def fmtEmin (F : Fmt) : Int := 1 - (F.bias : Int)

/-- The exponent of the top binade of finite values (R40). -/
def fmtEmax (F : Fmt) : Int :=
  match F.kind with
  | .ieee => (2 ^ F.eBits - 2 : Nat) - (F.bias : Int)
  | _ => (2 ^ F.eBits - 1 : Nat) - (F.bias : Int)

/-- The largest finite value as a multiple of the top binade's spacing (R40). -/
def fmtMaxInt (F : Fmt) : Nat :=
  match F.kind with
  | .e4m3 => 2 ^ (F.mBits + 1) - 2
  | _ => 2 ^ (F.mBits + 1) - 1

/-- The position of the sign bit. -/
def fmtSign (F : Fmt) : Nat := F.eBits + F.mBits

/-- The canonical quiet NaN (R41); E2M1 has none and gives +0 (R51). -/
def fmtNan (F : Fmt) : Nat :=
  match F.kind with
  | .ieee => (2 ^ F.eBits - 1) * 2 ^ F.mBits + 2 ^ (F.mBits - 1)
  | .e4m3 => 0x7F
  | .e2m1 => 0

/-- The value of an encoding (R40, R41). -/
def fmtDecode (F : Fmt) (bits : Nat) : FVal :=
  let m := bits % 2 ^ F.mBits
  let e := bits / 2 ^ F.mBits % 2 ^ F.eBits
  let neg := bits / 2 ^ fmtSign F % 2 == 1
  let finite := if e = 0 then FVal.num neg m (fmtEmin F - F.mBits)
    else FVal.num neg (2 ^ F.mBits + m) ((e : Int) - F.bias - F.mBits)
  match F.kind with
  | .ieee => if e = 2 ^ F.eBits - 1 then (if m = 0 then .inf neg else .nan (m < 2 ^ (F.mBits - 1))) else finite
  | .e4m3 => if e = 15 && m = 7 then .nan false else finite
  | .e2m1 => finite

/-- The encoding of sign and magnitude `i × 2^q`, for `i × 2^q` on the format's grid and within its range. -/
def fmtEncode (F : Fmt) (neg : Bool) (i : Nat) (q : Int) : Nat :=
  let (i, q) := if i = 2 ^ (F.mBits + 1) then (2 ^ F.mBits, q + 1) else (i, q)
  (if neg then 2 ^ fmtSign F else 0) +
    (if i < 2 ^ F.mBits then i else (q + F.mBits + F.bias).toNat * 2 ^ F.mBits + (i - 2 ^ F.mBits))

/-- Rounding methods (R48). -/
inductive RoundMode | rne | rz | sr
  deriving DecidableEq, Repr

/-- How a result is rounded: method, saturate bit, flush bit, and the random word of SR (R48 to R53). -/
structure RoundCtl where
  mode : RoundMode
  sat : Bool
  flush : Bool
  z : DWord
  deriving DecidableEq, Repr

/-- Round to nearest even whatever fmt selects, without flush (R116). -/
def ctlRne : RoundCtl := { mode := .rne, sat := false, flush := false, z := 0 }

/-- The lower neighbour `i` or the one above it, by the method; the fraction above `i` is `r / d` (R48). -/
def roundInt (c : RoundCtl) (i r d : Nat) : Nat :=
  match c.mode with
  | .rne => if 2 * r > d || (2 * r == d && i % 2 == 1) then i + 1 else i
  | .rz => i
  | .sr => if (c.z >>> 40).toNat < r * 2 ^ 24 / d then i + 1 else i

/-- floor(log2(n / d)) for positive n and d. -/
def log2Ratio (n d : Nat) : Int :=
  let k : Int := (Nat.log2 n : Int) - Nat.log2 d
  if n * 2 ^ (-k).toNat ≥ d * 2 ^ k.toNat then k else k - 1

/-- The infinity of a format, where it has one (R40). -/
def fmtInf (F : Fmt) (neg : Bool) : Nat :=
  (if neg then 2 ^ fmtSign F else 0) + (2 ^ F.eBits - 1) * 2 ^ F.mBits

/-- The largest finite value with a sign. -/
def fmtMax (F : Fmt) (neg : Bool) : Nat := fmtEncode F neg (fmtMaxInt F) (fmtEmax F - F.mBits)

/-- The result of an overflow (R51). -/
def fmtOverflow (F : Fmt) (c : RoundCtl) (neg : Bool) : Nat :=
  match F.kind with
  | .ieee => if c.sat || c.mode == .rz then fmtMax F neg else fmtInf F neg
  | .e4m3 => if c.sat || c.mode == .rz then fmtMax F neg else 0x7F
  | .e2m1 => fmtMax F neg

/-- A zero with a sign. -/
def fmtZero (F : Fmt) (neg : Bool) : Nat := if neg then 2 ^ fmtSign F else 0

/-- The one rounding of the device: the magnitude `n / d × 2^e` with a sign, to a format (R48, R49, R51, R53, R54). -/
def roundTo (F : Fmt) (c : RoundCtl) (neg : Bool) (n d : Nat) (e : Int) : Nat × Flags :=
  if n = 0 then (fmtZero F neg, flNone)
  else
    let top := log2Ratio n d + e
    let q := max (fmtEmin F) (min top (fmtEmax F)) - F.mBits
    let s := e - q
    let num := n * 2 ^ s.toNat
    let den := d * 2 ^ (-s).toNat
    let i := roundInt c (num / den) (num % den) den
    let inexact := num % den != 0
    if q = fmtEmax F - F.mBits && i > fmtMaxInt F then (fmtOverflow F c neg, flOverflow ||| flInexact)
    else if i < 2 ^ F.mBits then
      if c.flush && F.kind != .e2m1 && i != 0 then (fmtZero F neg, flUnderflow ||| flInexact)
      else (fmtEncode F neg i q, flIf inexact (flUnderflow ||| flInexact))
    else (fmtEncode F neg i q, flIf inexact flInexact)

/-- ROUND of an exact value to a format (R49, R51, R53). -/
def roundVal (F : Fmt) (c : RoundCtl) : FVal → Nat × Flags
  | .nan s =>
    match F.kind with
    | .e2m1 => (0, flInvalid)
    | _ => (fmtNan F, flIf s flInvalid)
  | .inf neg =>
    match F.kind with
    | .ieee => (fmtInf F neg, flNone)
    | .e4m3 => if c.sat then (fmtMax F neg, flOverflow ||| flInexact) else (0x7F, flInvalid)
    | .e2m1 => (fmtMax F neg, flInvalid)
  | .num neg m e => roundTo F c neg m 1 e

/-- An operand read under the flush rule: a subnormal becomes zero of its sign (R53). -/
def readFlushed (F : Fmt) (flush : Bool) (bits : Nat) : FVal :=
  match fmtDecode F bits with
  | .num neg m e => if flush && F.kind != .e2m1 && m < 2 ^ F.mBits then .num neg 0 e else .num neg m e
  | v => v

/-- A 32-bit result from its bits. -/
def w32 (r : Nat × Flags) : Word × Flags := (BitVec.ofNat 32 r.1, r.2)

/-- The canonical quiet NaN of FP32 (R41). -/
def nanF32 : Word := 0x7FC00000

def fIsNan : FVal → Bool
  | .nan _ => true
  | _ => false

def fIsSnan : FVal → Bool
  | .nan s => s
  | _ => false

def fIsInf : FVal → Bool
  | .inf _ => true
  | _ => false

def fIsZero : FVal → Bool
  | .num _ m _ => m == 0
  | _ => false

def fIsFinite : FVal → Bool
  | .num _ _ _ => true
  | _ => false

def fNeg : FVal → Bool
  | .nan _ => false
  | .inf n => n
  | .num n _ _ => n

/-- The value with its sign changed. -/
def fNegate : FVal → FVal
  | .nan s => .nan s
  | .inf n => .inf !n
  | .num n m e => .num (!n) m e

/-- The exact product; NaN (quiet here) for a NaN operand or 0 × ∞. -/
def fMulExact : FVal → FVal → FVal
  | .nan _, _ => .nan false
  | _, .nan _ => .nan false
  | .inf a, .inf b => .inf (a != b)
  | .inf a, .num b m _ => if m = 0 then .nan false else .inf (a != b)
  | .num a m _, .inf b => if m = 0 then .nan false else .inf (a != b)
  | .num a m e, .num b n f => .num (a != b) (m * n) (e + f)

/-- The signed mantissa of a finite value at the exponent `e` (which is at most its own). -/
def fScaled (v : FVal) (e : Int) : Int :=
  match v with
  | .num neg m f => (if neg then -1 else 1) * ((m * 2 ^ (f - e).toNat : Nat) : Int)
  | _ => 0

/-- The exponent of a finite value. -/
def fExp : FVal → Int
  | .num _ _ e => e
  | _ => 0

/-- The least exponent of the nonzero finite values of a list. -/
def fMinExp (vs : List FVal) : Int :=
  match vs.filter (fun v => fIsFinite v && !fIsZero v) with
  | [] => 0
  | v :: r => r.foldl (fun m v => min m (fExp v)) (fExp v)

/-- The exact sum of finite values.  An exact zero is −0 when every term is a zero of negative sign, else +0 (R48). -/
def fSumFinite (vs : List FVal) : FVal :=
  let e := fMinExp vs
  let t := (vs.map fun v => if fIsZero v then 0 else fScaled v e).foldl (· + ·) (0 : Int)
  if t = 0 then .num (vs.all fun v => fIsZero v && fNeg v) 0 0 else .num (t < 0) t.natAbs e

/-- The exact sum of values: NaN for a NaN term or infinities of both signs, else an infinity if there is one. -/
def fSumExact (vs : List FVal) : FVal :=
  if vs.any fIsNan then .nan false
  else if vs.any fIsInf then
    (if vs.any (fun v => fIsInf v && fNeg v) && vs.any (fun v => fIsInf v && !fNeg v) then .nan false
     else .inf (vs.any fun v => fIsInf v && fNeg v))
  else fSumFinite vs

/-- A result in FP32 with the invalid flag of its operands added. -/
def finish32 (c : RoundCtl) (invalid : Bool) (v : FVal) : Word × Flags :=
  let r := w32 (roundVal fmtF32 c v)
  (r.1, r.2 ||| flIf invalid flInvalid)

/-- FP32 operand under the flush bit of the control. -/
def op32 (c : RoundCtl) (x : Word) : FVal := readFlushed fmtF32 c.flush x.toNat

/-- An operation whose operands hold no NaN but whose value is NaN has no defined real result: invalid (R55). -/
def madeNan (ops : List FVal) (v : FVal) : Bool := fIsNan v && !ops.any fIsNan

/-- x + y (R118). -/
def fadd32 (c : RoundCtl) (x y : Word) : Word × Flags :=
  let a := op32 c x
  let b := op32 c y
  let v := fSumExact [a, b]
  finish32 c (fIsSnan a || fIsSnan b || madeNan [a, b] v) v

/-- x − y (R118). -/
def fsub32 (c : RoundCtl) (x y : Word) : Word × Flags :=
  let a := op32 c x
  let b := op32 c y
  let v := fSumExact [a, fNegate b]
  finish32 c (fIsSnan a || fIsSnan b || madeNan [a, b] v) v

/-- x × y (R118). -/
def fmul32 (c : RoundCtl) (x y : Word) : Word × Flags :=
  let a := op32 c x
  let b := op32 c y
  let v := fMulExact a b
  finish32 c (fIsSnan a || fIsSnan b || madeNan [a, b] v) v

/-- x × y + z with one rounding; 0 × ∞ is invalid whatever z is (R118). -/
def ffma32 (c : RoundCtl) (x y z : Word) : Word × Flags :=
  let a := op32 c x
  let b := op32 c y
  let t := op32 c z
  let p := fMulExact a b
  let v := fSumExact [p, t]
  finish32 c (fIsSnan a || fIsSnan b || fIsSnan t || madeNan [a, b] p || madeNan [a, b, t] v) v

/-- x / y with one rounding (R132).  DESIGN CHOICE: an infinite x over a finite y, ±0 among them, gives the infinity of the combined sign with
no flag (log entry 66). -/
def fdiv32 (c : RoundCtl) (x y : Word) : Word × Flags :=
  let a := op32 c x
  let b := op32 c y
  let neg := fNeg a != fNeg b
  match a, b with
  | .nan s, v => (nanF32, flIf (s || fIsSnan v) flInvalid)
  | _, .nan s => (nanF32, flIf s flInvalid)
  | .inf _, .inf _ => (nanF32, flInvalid)
  | .inf _, .num _ _ _ => w32 (fmtInf fmtF32 neg, flNone)
  | .num _ _ _, .inf _ => w32 (fmtZero fmtF32 neg, flNone)
  | .num _ m e, .num _ n f =>
    if n = 0 then (if m = 0 then (nanF32, flInvalid) else w32 (fmtInf fmtF32 neg, flDivZero))
    else w32 (roundTo fmtF32 c neg m n (e - f))

/-- The order of two values that are no NaN: −0 and +0 are equal (R120). -/
def fLt : FVal → FVal → Bool
  | .inf a, .inf b => a && !b
  | .inf a, .num _ _ _ => a
  | .num _ _ _, .inf b => !b
  | .num a m e, .num b n f =>
    let x : FVal := .num a m e
    let y : FVal := .num b n f
    let g := fMinExp [x, y]
    (if fIsZero x then 0 else fScaled x g) < (if fIsZero y then 0 else fScaled y g)
  | _, _ => false

/-- Equality of two values that are no NaN (R120). -/
def fEq (x y : FVal) : Bool := !fIsNan x && !fIsNan y && !fLt x y && !fLt y x

/-- The bits of a word with a subnormal replaced by zero of its sign under flush (R119). -/
def flushBits (c : RoundCtl) (x : Word) : Word :=
  match fmtDecode fmtF32 x.toNat with
  | .num neg m _ => if c.flush && m < 2 ^ 23 then BitVec.ofNat 32 (fmtZero fmtF32 neg) else x
  | _ => x

/-- fmin and fmax (R119): `larger` selects fmax. -/
def fminmax32 (larger : Bool) (c : RoundCtl) (x y : Word) : Word × Flags :=
  let a := op32 c x
  let b := op32 c y
  let fl := flIf (fIsSnan a || fIsSnan b) flInvalid
  if fIsNan a && fIsNan b then (nanF32, fl)
  else if fIsNan a then (flushBits c y, fl)
  else if fIsNan b then (flushBits c x, fl)
  else if fLt a b then (flushBits c (if larger then y else x), fl)
  else if fLt b a then (flushBits c (if larger then x else y), fl)
  else if fIsZero a then
    (BitVec.ofNat 32 (fmtZero fmtF32 (if larger then fNeg a && fNeg b else fNeg a || fNeg b)), fl)
  else (x, fl)

/-- fset (R120). -/
def fset32 (k : FsetCond) (c : RoundCtl) (x y : Word) : Word × Flags :=
  let a := op32 c x
  let b := op32 c y
  let anyNan := fIsNan a || fIsNan b
  let snan := fIsSnan a || fIsSnan b
  match k with
  | .eq => (boolW (fEq a b), flIf snan flInvalid)
  | .lt => (boolW (!anyNan && fLt a b), flIf anyNan flInvalid)
  | .le => (boolW (!anyNan && (fLt a b || fEq a b)), flIf anyNan flInvalid)
  | .un => (boolW anyNan, flIf snan flInvalid)

/-- fclass (R121): one bit, of the raw class. -/
def fclassW (x : Word) : Word :=
  match fmtDecode fmtF32 x.toNat with
  | .inf true => 1
  | .inf false => 0x80
  | .nan true => 0x100
  | .nan false => 0x200
  | .num neg m _ =>
    if m = 0 then (if neg then 0x8 else 0x10)
    else if m < 2 ^ 23 then (if neg then 0x4 else 0x20)
    else (if neg then 0x2 else 0x40)

/-- A magnitude `m × 2^e` rounded to an integer in a direction, the sign known (R122, R126). -/
def roundIntegral (dir : Direction) (neg : Bool) (m : Nat) (e : Int) : Nat :=
  if e ≥ 0 then m * 2 ^ e.toNat
  else
    let d := 2 ^ (-e).toNat
    let i := m / d
    let r := m % d
    match dir with
    | .ne => if 2 * r > d || (2 * r == d && i % 2 == 1) then i + 1 else i
    | .z => i
    | .dn => if neg && r != 0 then i + 1 else i
    | .up => if !neg && r != 0 then i + 1 else i

/-- frnd (R122): never inexact, overflow or underflow. -/
def frnd32 (dir : Direction) (c : RoundCtl) (x : Word) : Word × Flags :=
  match op32 c x with
  | .nan s => (nanF32, flIf s flInvalid)
  | .inf n => w32 (fmtInf fmtF32 n, flNone)
  | .num neg m e => w32 ((roundTo fmtF32 ctlRne neg (roundIntegral dir neg m e) 1 0).1, flNone)

/-- fscale (R123).  The exponent is clamped to ±1,000, beyond which every FP32 value has overflowed or vanished alike. -/
def fscale32 (c : RoundCtl) (x y : Word) : Word × Flags :=
  match op32 c x with
  | .nan s => (nanF32, flIf s flInvalid)
  | .inf n => w32 (fmtInf fmtF32 n, flNone)
  | .num neg m e => w32 (roundTo fmtF32 c neg m 1 (e + clampInt (-1000) 1000 y.toInt))

/-- fdot2 (R124): the exact sum of two products and z, rounded once; any NaN is invalid (R58). -/
def fdot2W (F : Fmt) (c : RoundCtl) (x y z : Word) : Word × Flags :=
  let el (w : Word) (i : Nat) : FVal := readFlushed F c.flush (fieldW w (16 * i) 16)
  let v := fSumExact [op32 c z, fMulExact (el x 0) (el y 0), fMulExact (el x 1) (el y 1)]
  finish32 c (fIsNan v) v

/-- A widening conversion to FP32 (R126). -/
def widen32 (F : Fmt) (c : RoundCtl) (bits : Nat) : Word × Flags :=
  w32 (roundVal fmtF32 { ctlRne with flush := false } (readFlushed F c.flush bits))

/-- A narrowing conversion from FP32 (R126, R127). -/
def narrow (F : Fmt) (c : RoundCtl) (x : Word) : Nat × Flags := roundVal F c (op32 c x)

/-- A float-to-integer conversion to the range [lo, hi] (R52, R126). -/
def toInt32 (lo hi : Int) (dir : Direction) (c : RoundCtl) (x : Word) : Word × Flags :=
  match op32 c x with
  | .nan _ => (0, flInvalid)
  | .inf n => (BitVec.ofInt 32 (if n then lo else hi), flInvalid)
  | .num neg m e =>
    let i := roundIntegral dir neg m e
    let v : Int := if neg then -(i : Int) else i
    if v < lo || hi < v then (BitVec.ofInt 32 (clampInt lo hi v), flInvalid)
    else (BitVec.ofInt 32 v, flIf (decide (e < 0) && m % 2 ^ (-e).toNat != 0) flInexact)

/-- An integer-to-float conversion (R126). -/
def fromInt32 (c : RoundCtl) (v : Int) : Word × Flags := w32 (roundTo fmtF32 c (v < 0) v.natAbs 1 0)

/-- cvt (R125). -/
def cvt32 (k : CvtCode) (c : RoundCtl) (x : Word) : Word × Flags :=
  match k with
  | .f32F16 => widen32 fmtF16 c (fieldW x 0 16)
  | .f32Bf16 => widen32 fmtBf16 c (fieldW x 0 16)
  | .f32E4m3 => widen32 fmtE4m3 c (fieldW x 0 8)
  | .f32E5m2 => widen32 fmtE5m2 c (fieldW x 0 8)
  | .f32E2m1 => widen32 fmtE2m1 c (fieldW x 0 4)
  | .f16F32 => w32 (narrow fmtF16 c x)
  | .bf16F32 => w32 (narrow fmtBf16 c x)
  | .e4m3F32 => w32 (narrow fmtE4m3 c x)
  | .e5m2F32 => w32 (narrow fmtE5m2 c x)
  | .s32F32 m => toInt32 (-(2 ^ 31)) (2 ^ 31 - 1) m c x
  | .u32F32 m => toInt32 0 (2 ^ 32 - 1) m c x
  | .f32S32 => fromInt32 c x.toInt
  | .f32U32 => fromInt32 c x.toNat

/-- The format of an fpack (R127). -/
def packFmt : PackFmt → Fmt
  | .f16 => fmtF16 | .bf16 => fmtBf16 | .e4m3 => fmtE4m3 | .e5m2 => fmtE5m2

/-- fpack (R127): `cx` and `cy` carry the random words of the two elements. -/
def fpackW (p : PackFmt) (cx cy : RoundCtl) (x y z : Word) : Word × Flags :=
  let rx := narrow (packFmt p) cx x
  let ry := narrow (packFmt p) cy y
  let bits := match p with
    | .f16 | .bf16 => rx.1 + ry.1 * 2 ^ 16
    | .e4m3 | .e5m2 => ry.1 * 2 ^ 24 + rx.1 * 2 ^ 16 + fieldW z 16 16
  (BitVec.ofNat 32 bits, rx.2 ||| ry.2)

/-- The format of an fdot2 (R124). -/
def dotFmt : DotFmt → Fmt
  | .f16 => fmtF16 | .bf16 => fmtBf16

/-! ### Block scales and FP4 quantisation (R42, R60) -/

/-- The value of an E3M5 byte as a numerator over 2^7 (R42). -/
def e3m5 (b : Nat) : Nat := if b / 32 = 0 then b % 32 else (32 + b % 32) * 2 ^ (b / 32 - 1)

/-- The smallest E3M5 byte from `b` upward whose value is at least `n / d`; 0xFF when there is none (R60 step 5). -/
def e3m5AtLeast (n d : Nat) : Nat → Nat → Nat
  | 0, b => b
  | fuel + 1, b => if e3m5 b * d ≥ n * 128 then b else e3m5AtLeast n d fuel (b + 1)

/-- One code of FQ4: the E2M1 value nearest to x / s, saturated; `s` is over 2^7 (R60 step 6). -/
def fq4Code (s : Nat) (v : FVal) : Nat × Flags :=
  match v with
  | .nan _ => (0, flNone)
  | .inf n => (if n then 0xF else 0x7, flNone)
  | .num neg m e =>
    let r := roundTo fmtE2m1 { ctlRne with sat := true } neg m s (e + 7)
    (r.1, flIf (r.2 &&& flInexact != 0) flInexact)

/-- FQ4 of one block: the codes, the scale byte and the flags (R60). -/
def fq4Block (xs : List Word) : List Nat × Nat × Flags :=
  let vs := xs.map fun x => fmtDecode fmtF32 x.toNat
  let fin := vs.filter fIsFinite
  let e := fMinExp fin
  -- amax as an integer at the exponent e
  let amax := fin.foldl (fun m v => max m (if fIsZero v then 0 else (fScaled v e).natAbs)) 0
  let big := amax * 2 ^ e.toNat > 189 * 2 ^ (-e).toNat   -- amax / 6 > 31.5
  let codes (s : Nat) := vs.map (fq4Code s)
  if fin.length < vs.length then
    let cs := codes (e3m5 0xFF)
    (cs.map (·.1), 0xFF, flUnion (cs.map (·.2)) ||| flInvalid ||| flIf big flOverflow)
  else if amax = 0 then (vs.map (fun v => if fNeg v then 8 else 0), 0, flNone)
  else if big then
    let cs := codes (e3m5 0xFF)
    (cs.map (·.1), 0xFF, flUnion (cs.map (·.2)) ||| flOverflow ||| flInexact)
  else
    let b := e3m5AtLeast (amax * 2 ^ e.toNat) (6 * 2 ^ (-e).toNat) 255 0
    let cs := codes (e3m5 b)
    (cs.map (·.1), b, flUnion (cs.map (·.2)))

end Sys2Proof.Machine
end

