-- ==== Sys2Proof/Machine/Translate.lean ====
section
/-! DEFINITION. Virtual addresses, page tables, TLBs and fault buffers (R270 to R275). -/

namespace Sys2Proof.Machine

/-- A page-table entry's fields (R271). -/
def pteValid (e : Nat) : Bool := e.testBit 0
def pteTable (e : Nat) : Bool := e.testBit 1
def pteRead (e : Nat) : Bool := e.testBit 2
def pteWrite (e : Nat) : Bool := e.testBit 3
def pteExec (e : Nat) : Bool := e.testBit 4
def pteUser (e : Nat) : Bool := e.testBit 5
def pteLocal (e : Nat) : Bool := e.testBit 6
def pteAddr (e : Nat) : Nat := fieldN e 8 44 * 256
def pteDie (e : Nat) : Nat := fieldN e 52 3

/-- The physical address a leaf maps its page to, window bit and die included (R266, R271). -/
def pteBase (e : Nat) : Nat := if pteLocal e then 2 ^ 51 + pteDie e * 2 ^ 48 + pteAddr e % 2 ^ 48 else pteAddr e

/-- The levels of a walk, first to last: lowest index bit, index bits (R270). -/
def walkLevels : List (Nat × Nat) := [(48, 9), (39, 9), (30, 9), (21, 9), (16, 5)]

/-- Alignment of the table one level further down: 4 KiB, and 256 bytes at level 4 (R270). -/
def tableAlign (shift : Nat) : Nat := if shift = 21 then 256 else 4096

/-- A valid entry is malformed (R271).  `shift` names the level by its lowest index bit.  DEDUCED: so is an entry whose next table lies beyond
the partition's window, since R271 names the page alone (log entry 62).   DESIGN CHOICE: a leaf of local = 0 whose address has bit 51 set
names the local window, within whose carve-out it must lie (log entry 69). -/
def pteMalformed (p : Part) (shift e : Nat) : Bool :=
  fieldN e 55 9 != 0 || e.testBit 7
  || (!pteLocal e && pteDie e != 0)
  || (pteLocal e && decide (pteDie e ≥ p.dies.length))
  || (!pteTable e && decide (shift > 30))
  || (pteTable e && shift == 16)
  || (pteTable e && (pteLocal e || pteAddr e % tableAlign shift != 0 || !inWindow p (pteAddr e) (tableAlign shift)))
  || (!pteTable e && (pteAddr e % 2 ^ shift != 0 || (pteLocal e && decide (2 ^ 48 ≤ pteAddr e)) || !inWindow p (pteBase e) (2 ^ shift)))
  || (pteWrite e && !pteRead e)

/-- The outcome of a walk: the leaf and the size of its page as a power of two, or a fault cause (R273). -/
inductive Walk
  | leaf (pte shift : Nat)
  | fault (cause : Nat)
  deriving DecidableEq, Repr

/-- A walk from a table, reading each entry at its point of coherence (R272). -/
def walkFrom (mem : Memory) (part : Nat) (p : Part) (va : Nat) : List (Nat × Nat) → Nat → Walk
  | [], _ => .fault 0
  | (shift, bits) :: rest, table =>
    let e := natLE (mem.readN (physKey part (table + 8 * (va / 2 ^ shift % 2 ^ bits))) 8)
    if !pteValid e then .fault 0
    else if pteMalformed p shift e then .fault 2
    else if pteTable e then walkFrom mem part p va rest (pteAddr e)
    else .leaf e shift

/-- A walk of a partition's tables for a 57-bit virtual address (R270). -/
def walkTables (s : State) (part va : Nat) : Walk :=
  match tget s.parts part with
  | none => .fault 0
  | some p => walkFrom s.mem.bytes part p va walkLevels p.root

/-- What an access needs of a leaf (R271). -/
def permits (k : AccessKind) (super : Bool) (e : Nat) : Bool :=
  (super || pteUser e) &&
  match k with
  | .none => true
  | .fetch => pteExec e
  | .load | .copyRead | .table => pteRead e
  | .store | .copyWrite => pteWrite e
  | .rmw => pteRead e && pteWrite e

/-- Who accesses memory: the partition, the cluster whose TLB serves it, and whether with supervisor rights. -/
structure View where
  part : Nat
  cluster : Nat
  super : Bool
  deriving DecidableEq, Repr

/-- The outcome of a translation: a physical key, or a trap and its cause (R273). -/
inductive Xlate
  | ok (key : Nat)
  | fault (t : TrapCode) (cause : Nat)
  deriving DecidableEq, Repr

/-- Bits [63:57] of an address equal bit 56 (R140, R270). -/
def canonicalVa (va : DWord) : Bool := (va.setWidth 57).signExtend 64 == va

/-- A leaf applied to an access. -/
def applyLeaf (v : View) (k : AccessKind) (va pte shift : Nat) : Xlate :=
  if permits k v.super pte then .ok (physKey v.part (pteBase pte + va % 2 ^ shift)) else .fault .perm 1

/-- The entry a cluster's TLB holds for an address, if it holds one (R272). -/
def tlbLookup (s : State) (v : View) (va : Nat) : Option TlbEntry :=
  (getCluster s v.cluster).tlb.find? fun e => e.part == v.part && e.va / 2 ^ e.size == va / 2 ^ e.size

/-- Translation of one address (R140, R272, R273).  A TLB entry that no longer agrees with the tables may or may not
still be held (R272): which of the two serves the access is free. -/
def translate (s : State) (v : View) (k : AccessKind) (va : DWord) : Xlate :=
  if !canonicalVa va then .fault .perm 3
  else
    let a := va.toNat % 2 ^ 57
    let fresh := match walkTables s v.part a with
      | .leaf pte shift => applyLeaf v k a pte shift
      | .fault c => .fault .xlate c
    match tlbLookup s v a with
    | none => fresh
    | some e =>
      let stale := applyLeaf v k a e.pte e.size
      if stale = fresh then fresh else if chooseBelow s 1 a 2 = 0 then fresh else stale

/-- A TLB takes the leaf that translates an address; invalid and malformed entries are never cached (R272). -/
def tlbFill (s : State) (v : View) (va : DWord) : State :=
  let a := va.toNat % 2 ^ 57
  match tlbLookup s v a, walkTables s v.part a with
  | none, .leaf pte shift =>
    modCluster s v.cluster fun c =>
      { c with tlb := { part := v.part, va := a / 2 ^ shift * 2 ^ shift, size := shift, pte := pte } :: c.tlb }
  | _, _ => s

/-- A TLB takes the leaves of several addresses. -/
def tlbFills (s : State) (v : View) (vas : List DWord) : State := vas.foldl (fun s va => tlbFill s v va) s

/-- The bytes of `n` bytes from a virtual address that must be translated apart: the start of each 64 KiB page touched. -/
def pagePieces (va : DWord) (n : Nat) : List DWord :=
  let first := va.toNat / 2 ^ 16
  let last := (va.toNat + (n - 1)) / 2 ^ 16
  (List.range (last - first + 1)).map fun i => if i = 0 then va else BitVec.ofNat 64 ((first + i) * 2 ^ 16)

/-- Physical keys of `n` bytes from a virtual address, or the first fault and its address. -/
def translateRange (s : State) (v : View) (k : AccessKind) (va : DWord) (n : Nat) :
    Except (TrapCode × Nat × DWord) (List Nat) :=
  let pieces : List (DWord × Xlate) := (pagePieces va n).map fun a => (a, translate s v k a)
  match pieces.findSome? (fun e => match e.2 with | .fault t c => some (t, c, e.1) | .ok _ => none) with
  | some f => .error f
  | none => .ok ((List.range n).map fun i =>
      let a := va.toNat + i
      match pieces[a / 2 ^ 16 - va.toNat / 2 ^ 16]? with
      | some (b, Xlate.ok key) => key + (a - b.toNat)
      | _ => 0)

/-! ### Fault buffers -/

/-- The entries of a fault buffer, and the waiters of one entry, at most (R274). -/
def faultEntries : Nat := 256
def faultWaiters : Nat := 64

/-- An agent takes a place in the fault buffer: `none` where no entry or place is free, else the new list and whether an
entry was allocated (R274). -/
def faultJoin (es : List FaultEntry) (part key : Nat) (a : Agent) : Option (List FaultEntry × Bool) :=
  match es.find? fun e => e.part == part && e.key == key with
  | some e =>
    if e.waiters.length < faultWaiters then
      some (es.map (fun f => if f.part == part && f.key == key then { f with waiters := f.waiters ++ [a] } else f), false)
    else none
  | none => if es.length < faultEntries then some (es ++ [{ key := key, part := part, waiters := [a] }], true) else none

end Sys2Proof.Machine
end

