-- ==== Sys2Proof/Machine/Porch.lean ====
section
/-! DEFINITION. What loads return and how stores are published: Porch, snapshot, publications, scopes (R215 to R236,
R261 to R264). -/

namespace Sys2Proof.Machine

/-- The rank of a gang in commit and merge order: launches in order of placement, then cohort, crew, gang (R231). -/
def gangRank (g : Gang) (cohortIndex crewIndex : Nat) : Nat :=
  ((g.range * 2 ^ 32 + cohortIndex) * 4 + crewIndex) * 16 + g.index

/-- The rank of a gang of the state. -/
def rankOf (s : State) (gid : Nat) : Nat :=
  match tget s.gangs gid with
  | none => 0
  | some g =>
    gangRank g (((tget s.cohorts g.cohort).map (·.index)).getD 0) (((tget s.crews g.crew).map (·.index)).getD 0)

/-! ### Values at package scope -/

/-- A core that is no core: the host, a Pantry, a copy engine. -/
def noCore : Nat := 640

/-- The byte at a key as published at package scope: the co-last write at its point of coherence (R223). -/
def newestByte (s : State) (key : Nat) : Byte := s.mem.bytes.read key

/-- The writes of a byte, oldest first (R231). -/
def pastOf (s : State) (key : Nat) : List Past := (s.mem.past.filter fun p => p.addr == key).reverse

/-- The byte that stood at a key at place `q` of pub (R236: the state at a quantum's start). -/
def byteAt (s : State) (q key : Nat) : Byte :=
  match (pastOf s key).find? fun p => p.only.isNone && decide (p.seq > q) with
  | some p => p.old
  | none => newestByte s key

/-- One byte written at package scope by an event whose place in pub is `q`; `id` names it where it was published at cluster scope
before. -/
def writeByteAt (q : Nat) (src : Source) (sys : Bool) (rels : List Rel) (id : Option Nat) (m : MemSt) (key : Nat) (val : Byte) :
    MemSt :=
  { m with
    seq := m.seq + 1
    bytes := m.bytes.write key val
    past := { addr := key, old := m.bytes.read key, val := val, id := id.getD (m.seq + 1), seq := q, source := src, only := none,
              sys := sys, rels := rels } :: m.past }

/-- Several bytes written by one event at package scope, and at system scope with `sys`; `rels` are the releases each carries. -/
def writeRel (s : State) (src : Source) (sys : Bool) (rels : Nat → List Rel) (ws : List (Nat × Byte)) : State :=
  let q := s.mem.seq + ws.length
  { s with mem := ws.foldl (fun m e => writeByteAt q src sys (rels e.1) none m e.1 e.2) s.mem }

/-- Several bytes written that carry no release. -/
def writeMem (s : State) (src : Source) (sys : Bool) (ws : List (Nat × Byte)) : State := writeRel s src sys (fun _ => []) ws

/-- The writes that a system-scope release of a core makes visible to the host: its own, and what the releasing split had acquired
(R217, R230, R235). -/
def toSystem (core : Nat) (k : Known) (p : Past) : Bool :=
  p.source == .core core || decide (p.seq ≤ k.sy) || (p.source != .outside && decide (p.seq ≤ k.pk))

/-- A release at system scope performed. -/
def systemRelease (s : State) (core : Nat) (k : Known) : State :=
  { s with mem := { s.mem with past := s.mem.past.map fun p => if toSystem core k p then { p with sys := true } else p } }

/-- What the host may read at a key, oldest first: the last write published at system scope, and the newer ones already published
at package scope, which it may or may not see (R340). -/
def hostBytes (s : State) (key : Nat) : List Byte :=
  let ps := (pastOf s key).filter fun p => p.only.isNone
  let after := (ps.reverse.takeWhile fun p => !p.sys).reverse
  match after.head? with
  | none => [newestByte s key]
  | some p => p.old :: after.map (·.val)

/-- The byte that the host reads at a key. -/
def hostByte (s : State) (key : Nat) : Byte := (chooseFrom s 2 key (hostBytes s key)).getD (newestByte s key)

/-! ### Who is bound to what (R217, R222) -/

/-- The cluster of a writer. -/
def sourceCluster : Source → Option Nat
  | .core c => some (coreCluster c)
  | .copy _ cl _ _ _ => some cl
  | .pantry | .outside => none

/-- The place from which a cluster could read a write: within the writer's cluster from its first publication on. -/
def placeIn (cl : Nat) (p : Past) : Nat := if sourceCluster p.source == some cl then p.id else p.seq

/-- A core is bound to a write by its refreshes and by what it has read and written: it reads nothing older (R222). -/
def bindsPast (c : CoreSt) (cl : Nat) (p : Past) : Bool :=
  let q := placeIn cl p
  decide (q ≤ c.refreshSy) || (p.source != .outside && decide (q ≤ c.refreshPk)) ||
    (sourceCluster p.source == some cl && decide (q ≤ c.refreshCl)) || tget c.mono p.addr == some p.id

/-- A core is bound to a byte that its cluster has published at cluster scope only. -/
def bindsOverlay (c : CoreSt) (core : Nat) (o : Overlay) : Bool :=
  o.core == core || decide (o.id ≤ c.refreshCl) || decide (o.id ≤ c.refreshPk) || decide (o.id ≤ c.refreshSy) ||
    tget c.mono o.addr == some o.id

/-- A write as a core can read it: the byte, the name of the write, whether the core is bound to it, its releases. -/
structure Version where
  val : Byte
  id : Nat
  must : Bool
  rels : List Rel
  deriving DecidableEq, Repr

/-- The cluster-scope bytes of a key in a core's cluster, oldest first. -/
def overlayOf (s : State) (cl key : Nat) : List Overlay := s.mem.overlay.filter fun o => o.addr == key && o.cluster == cl

/-- The writes of a byte that a core's cluster can read, in co from the initial content on; those published at cluster scope only
stand after the others. -/
def versions (s : State) (core key : Nat) : List Version :=
  let c := getCore s core
  let cl := coreCluster core
  let ps := (pastOf s key).filter fun p => p.only.isNone || p.only == some cl
  let first : Byte := match ps.head? with
    | some p => p.old
    | none => newestByte s key
  { val := first, id := 0, must := true, rels := [] } ::
    ps.map (fun p => { val := p.val, id := p.id, must := bindsPast c cl p, rels := p.rels }) ++
    (overlayOf s cl key).map fun o => { val := o.val, id := o.id, must := bindsOverlay c core o, rels := o.rels }

/-- The last write that a core is bound to, and those after it. -/
def boundVersions (vs : List Version) : List Version :=
  match vs.reverse.span fun v => !v.must with
  | (free, v :: _) => v :: free.reverse
  | (free, []) => free.reverse

/-- The writes a plain load may return from outside the Porch, each with its name (R222). -/
def loadCandidates (s : State) (core key : Nat) : List (Byte × Nat) :=
  (boundVersions (versions s core key)).map fun v => (v.val, v.id)

/-! ### History in program order (R216) -/

/-- An event of a segment of its gang's po is po-before what the split does now. -/
def inHistory (sp : Split) (seg : Nat) : Bool := seg == sp.seg || sp.before.contains seg

/-- The segments of po that a split has behind it, the one that it is in first. -/
def poOf (sp : Split) : List Nat := sp.seg :: sp.before

/-! ### Loads -/

/-- The newest Porch byte of a core for a key, in core order, whatever gang wrote it (R218). -/
def porchByte (c : CoreSt) (key : Nat) : Option Byte :=
  let hits := c.porch.flatMap fun e => e.bytes.filter fun b => b.1 == key
  (hits.foldl (fun (best : Option (Byte × Nat)) b =>
      match best with
      | none => some b.2
      | some x => if x.2 ≤ b.2.2 then some b.2 else best) none).map (·.1)

/-- The write a plain load takes from outside the Porch, freely among those it may return: its byte and its name. -/
def pickVersion (s : State) (core key : Nat) : Byte × Nat :=
  (chooseFrom s 3 key (loadCandidates s core key)).getD (newestByte s key, 0)

/-- A plain load of one byte: the Porch, then what the epoch has already observed, then one of the admissible writes,
freely (R218, R222).  `q` is the start of the quantum in deterministic mode (R236). -/
def loadByte (s : State) (core : Nat) (q : Option Nat) (key : Nat) : Byte :=
  match porchByte (getCore s core) key with
  | some b => b
  | none =>
    match q with
    | some n => byteAt s n key
    | none =>
      match tget (getCore s core).obs key with
      | some b => b
      | none => (pickVersion s core key).1

/-- The split comes after a cluster-scope byte in hb: its store is po-before the split, or the split has synchronised with it (R229). -/
def hbOverlay (gid : Nat) (sp : Split) (o : Overlay) : Bool :=
  (o.gang == gid && inHistory sp o.seg) || ((tget sp.known.cl o.gang).bind fun t => tget t o.seg).any fun q => decide (o.id ≤ q)

/-- A fresh load of a split comes after a cluster-scope byte in hb, or after a load that has read it: a plain load before it in po, or a
fresh load of its core (R222 condition 4, R230). -/
def bindsFresh (s : State) (core gid : Nat) (sp : Split) (o : Overlay) : Bool :=
  hbOverlay gid sp o || tget sp.near o.addr == some o.id || tget (getCore s core).near o.addr == some o.id

/-- The last cluster-scope byte of a key that a fresh load is bound to. -/
def boundOverlay (s : State) (core gid : Nat) (sp : Split) (key : Nat) : Option Overlay :=
  (overlayOf s (coreCluster core) key).reverse.find? (bindsFresh s core gid sp)

/-- A fresh load of one byte (R223): the core's Porch, else the co-last byte published at package scope, unless a cluster-scope byte
that the load must not read behind comes after it in co (R230; log entry 43). -/
def freshByte (s : State) (core gid : Nat) (sp : Split) (q : Option Nat) (key : Nat) : Byte :=
  match porchByte (getCore s core) key with
  | some b => b
  | none =>
    match q with
    | some n => byteAt s n key
    | none =>
      match boundOverlay s core gid sp key with
      | some o => o.val
      | none => newestByte s key

/-- A fresh load of these bytes leaves the cluster-scope bytes that it has read: later ones of its core read nothing older (R223). -/
def freshObserve (s : State) (core gid : Nat) (sp : Split) (keys : List Nat) : State :=
  let c := getCore s core
  let read := keys.filterMap fun key => if (porchByte c key).isSome then none else (boundOverlay s core gid sp key).map fun o => (key, o.id)
  if read.isEmpty then s else setCore s core { c with near := read.foldl (fun m e => tset m e.1 e.2) c.near }

/-- A refresh of a core at a scope: the epoch ends for every byte and line, and what was published before is readable
(R221, R261). -/
def refreshCore (s : State) (core : Nat) (sc : Scope) : State :=
  modCore s core fun c0 =>
    let c := { c0 with obs := [], lines := [] }
    match sc with
    | .core => c
    | .cl => { c with refreshCl := s.mem.seq }
    | .pk => { c with refreshPk := s.mem.seq }
    | .sy => { c with refreshSy := s.mem.seq }

/-- The lines that a plain load of these bytes observes anew (R261). -/
def newLines (c : CoreSt) (keys : List Nat) : List Nat :=
  ((keys.filter fun k => (porchByte c k).isNone).map fun k => k / 128).eraseDups.filter fun n => !c.lines.contains n

/-- Lines of a Larder (R261). -/
def larderLines : Nat := 2048

/-- The Larder overflow refresh before a load that needs more lines than are left beside those observed (R262). -/
def overflowRefresh (s : State) (core : Nat) (keys : List Nat) : State :=
  let c := getCore s core
  if c.lines.length + (newLines c keys).length > larderLines then
    modCore (refreshCore s core .pk) core fun c => { c with overflow := c.overflow + 1 }
  else s

/-- Observation of a byte by a plain load: its line is observed, the snapshot holds it for the epoch, and later reads are no older
(R222, R261).  `q` is the start of the quantum in deterministic mode, in which a load leaves no bound. -/
def observeByte (s : State) (core : Nat) (q : Option Nat) (key : Nat) (b : Byte) : State :=
  let c0 := getCore s core
  match porchByte c0 key with
  | some _ => s
  | none =>
    let c := { c0 with lines := if c0.lines.contains (key / 128) then c0.lines else (key / 128) :: c0.lines }
    match q, tget c.obs key with
    | some _, _ | _, some _ => setCore s core c
    | none, none => setCore s core { c with obs := tset c.obs key b, mono := tset c.mono key (pickVersion s core key).2 }

/-- Observation of several bytes. -/
def observeBytes (s : State) (core : Nat) (q : Option Nat) (bs : List (Nat × Byte)) : State :=
  bs.foldl (fun s b => observeByte s core q b.1 b.2) s

/-- The cluster-scope bytes among these that a plain load has just read, as its core's marks tell, are marks of its split as well (R230). -/
def nearMarks (s : State) (gid si core : Nat) (keys : List Nat) : State :=
  let c := getCore s core
  let read := keys.filterMap fun key =>
    (tget c.mono key).bind fun id => if (overlayOf s (coreCluster core) key).any (fun o => o.id == id) then some (key, id) else none
  if read.isEmpty then s
  else modGang s gid fun g =>
    { g with splits := tmod g.splits si fun sp => { sp with near := read.foldl (fun m e => tset m e.1 e.2) sp.near } }

/-! ### Acquires (R225, R226) -/

/-- Two tables of places together: the later of each. -/
def joinMax (a b : Tab Nat) : Tab Nat := b.foldl (fun m e => tset m e.1 (max e.2 ((tget m e.1).getD 0))) a

/-- What two splits know, together. -/
def Known.join (a b : Known) : Known :=
  { pk := max a.pk b.pk, sy := max a.sy b.sy, cl := b.cl.foldl (fun m e => tset m e.1 (joinMax ((tget m e.1).getD []) e.2)) a.cl }

/-- Nothing acquired. -/
def Known.none : Known := { pk := 0, sy := 0, cl := [] }

/-- What a release of a gang carries on when it is performed at a place of pub: what its split knew, and what the segments of po before it
have published up to there (R224, R229). -/
def Known.carried (k : Known) (q gid : Nat) (hist : List Nat) : Known :=
  { k with cl := tset k.cl gid (joinMax ((tget k.cl gid).getD []) (hist.map fun seg => (seg, q))) }

/-- A release synchronises with an acquire of a core at a scope: the scopes of both cover both issuers (R217, R226). -/
def synchronises (core : Nat) (sc : Scope) (r : Rel) : Bool :=
  let near := sourceCluster r.source == some (coreCluster core)
  (match sc with
   | .core => r.source == .core core
   | .cl => near
   | .pk => r.source != .outside
   | .sy => true) &&
  match r.scope with
  | .cl => near
  | .pk | .sy => true

/-- What an acquire learns from the releases it reads. -/
def relsKnown (core : Nat) (sc : Scope) (rs : List Rel) : Known :=
  (rs.filter (synchronises core sc)).foldl (fun k r => k.join r.known) Known.none

/-- Splits of a gang changed. -/
def modSplits (s : State) (gid : Nat) (f : Split → Split) : State :=
  modGang s gid fun g => { g with splits := g.splits.map fun e => (e.1, f e.2) }

/-- One split of a gang changed. -/
def modSplit (s : State) (gid si : Nat) (f : Split → Split) : State := modGang s gid fun g => { g with splits := tmod g.splits si f }

/-- A core is bound to what one of its splits has learned (R229, R230). -/
def bindCore (s : State) (core : Nat) (k : Known) : State :=
  modCore s core fun c => { c with refreshPk := max c.refreshPk k.pk, refreshSy := max c.refreshSy k.sy }

/-- A split of a core learns, and so is its core bound (R229, R230). -/
def learn (s : State) (gid si core : Nat) (k : Known) : State :=
  bindCore (modSplit s gid si fun sp => { sp with known := sp.known.join k }) core k

/-- A copy's completion path, as a split sees it: a tag of its crew, a crew barrier, or counters (R155). -/
def seenTag (t : Nat) : Nat := t
def seenBar (b : Nat) : Nat := 64 + b
def seenCtr : Nat := 128

/-- What a split knows once it has made a refresh at a scope at place `q` of pub: what has been published at the scope (R221). -/
def refreshed (q : Nat) (sc : Scope) (sp : Split) : Split :=
  match sc with
  | .core | .cl => sp
  | .pk => { sp with known := { sp.known with pk := q } }
  | .sy => { sp with known := { sp.known with pk := q, sy := q } }

/-- A refresh of a core by an acquire of one of its splits (R221, R225). -/
def refreshSplit (s : State) (gid si core : Nat) (sc : Scope) : State := modSplit (refreshCore s core sc) gid si (refreshed s.mem.seq sc)

/-- An acquire of a whole gang, from what a release knew: at its resumption (R111). -/
def refreshGang (s : State) (gid core : Nat) (sc : Scope) (k : Known) : State :=
  bindCore (modSplits (refreshCore s core sc) gid fun sp =>
    let sp1 := refreshed s.mem.seq sc sp
    { sp1 with known := sp1.known.join k }) core k

/-- The releases at the last write of a byte that a core is bound to. -/
def boundRels (s : State) (core key : Nat) : List Rel := ((boundVersions (versions s core key)).head?.map (·.rels)).getD []

/-- The releases at the co-last write of a byte at package scope. -/
def lastRels (s : State) (key : Nat) : List Rel :=
  (((s.mem.past.find? fun p => p.addr == key && p.only.isNone)).map (·.rels)).getD []

/-- The releases of every write of these bytes so far, those that stayed within their cluster included: a read-modify-write of the bytes
follows them in co, and carries them on (R226). -/
def allRels (s : State) (keys : List Nat) : List Rel := (s.mem.past.filter fun p => keys.contains p.addr).flatMap (·.rels)

/-- A release added to those of a word: one of each scope and issuer, with what it knew (R226). -/
def addRel (r : Rel) (rs : List Rel) : List Rel :=
  let same (x : Rel) : Bool := x.scope == r.scope && x.source == r.source
  match rs.find? same with
  | some x => { r with known := r.known.join x.known } :: rs.filter fun y => !same y
  | none => r :: rs

/-- The releases that every byte of a read-modify-write carries: its own, and those of every write of a byte of the word that it follows in
co (R226), one of each scope and issuer. -/
def sequenceRels (s : State) (own : Option Rel) (keys : List Nat) : List Rel := (own.toList ++ allRels s keys).foldr addRel []

/-- A split learns what the releases on these bytes carry, as an acquire at a scope reads them. -/
def learnAt (s : State) (gid si : Nat) (sc : Scope) (keys : List Nat) : State :=
  match tget s.gangs gid with
  | some g => learn s gid si g.core (relsKnown g.core sc (keys.flatMap fun k => lastRels s k))
  | none => s

/-- A core is bound to the writes that satisfy `p`, where it is not bound to later ones: it reads nothing older (R222, R230). -/
def bindWrites (s : State) (core : Nat) (p : Past → Bool) : State :=
  let keys := ((s.mem.past.filter p).map (·.addr)).eraseDups
  modCore s core fun c =>
    { c with mono := keys.foldl (fun m k =>
        let mark := tget m k
        if s.mem.overlay.any fun o => some o.id == mark then m
        else
          match s.mem.past.find? fun x => x.addr == k && (p x || some x.id == mark) with
          | some x => tset m k x.id
          | none => m) c.mono }

/-- An acquire load of a split: the refresh first, which binds it to what was released on the bytes it reads (R225, R226). -/
def acquireBytes (s : State) (gid si core : Nat) (sc : Scope) (keys : List Nat) : State :=
  let s1 := refreshSplit s gid si core sc
  learn s1 gid si core (relsKnown core sc (keys.flatMap fun k => boundRels s1 core k))

/-! ### What is under way of a history (R216) -/

/-- The Porch entries that hold a store po-before a split (R216, R224). -/
def ownEntries (gid : Nat) (sp : Split) (e : PorchEntry) : Bool := e.gang == gid && e.segs.any (inHistory sp)

/-- A request is a release without an access to memory: an arrival at a barrier, an answer to a record. -/
def accessless : ReqKind → Bool
  | .bar .. | .eret .. => true
  | _ => false

/-- Requests po-before a split that access memory and are not served: no store of the split is published before them (R219). -/
def openReads (s : State) (gid : Nat) (sp : Split) : List Nat :=
  (s.requests.filter fun r => r.2.gang == gid && inHistory sp r.2.seg && !r.2.table && !accessless r.2.kind).map (·.1)

/-- Publications under way that are po-before a split, or hold a store that is (R224). -/
def pubsBefore (s : State) (gid : Nat) (sp : Split) : List Nat :=
  (s.pubs.filter fun p => (p.2.gang == gid && inHistory sp p.2.seg) ||
    (getCore s p.2.core).porch.any fun e => e.taken == some p.1 && ownEntries gid sp e).map (·.1)

/-- The requests that the entries which satisfy `p` are not published before (R219). -/
def entryNeeds (c : CoreSt) (p : PorchEntry → Bool) : List Nat := (c.porch.filter p).flatMap (·.needs)

/-- A split's earlier requests and publications have all been performed, and its entries wait for no other. -/
def splitQuiet (s : State) (gid core : Nat) (sp : Split) : Bool :=
  (openReads s gid sp).isEmpty && (pubsBefore s gid sp).isEmpty &&
    (entryNeeds (getCore s core) (ownEntries gid sp)).all fun r => (tget s.requests r).isNone

/-- An overwritten byte that the array may still read was overwritten in a segment of a gang's po, or is ordered by it (R175). -/
def oldInSegment (gid seg : Nat) (o : Nat × Byte × OldBy) : Bool :=
  match o.2.2 with
  | .strand g n => g == gid && n == seg
  | .copy _ _ _ forks => forks.contains seg

/-- A segment of a gang's po still has something under way, or something that a later access or a fork of its gang orders: stores in the
Porch, requests, publications, bytes of its cluster alone, overwritten bytes. -/
def segmentLive (s : State) (gid core seg : Nat) : Bool :=
  ((getCore s core).porch.any fun e => e.gang == gid && e.segs.contains seg) ||
    (s.requests.any fun r => r.2.gang == gid && r.2.seg == seg) || (s.pubs.any fun p => p.2.gang == gid && p.2.seg == seg) ||
    (s.mem.overlay.any fun o => o.gang == gid && o.seg == seg) ||
    (s.crews.any fun w => w.2.olds.any (oldInSegment gid seg)) || (getCluster s (coreCluster core)).atticOlds.any (oldInSegment gid seg)

/-- The earlier segments of a split that still have something under way; the others order nothing any more. -/
def liveBefore (s : State) (gid core : Nat) (sp : Split) : List Nat := sp.before.filter (segmentLive s gid core)

/-! ### Stores -/

/-- Porch entries of a core, at most (R263). -/
def porchEntries : Nat := 1024

/-- The entry of a Porch that a byte of a split's store merges into (R263). -/
def mergesInto (gid split block : Nat) (e : PorchEntry) : Bool :=
  e.gang == gid && e.split == split && e.block == block && e.taken.isNone

/-- A list with an element added, unless it is there. -/
def addTo (xs : List Nat) (x : Nat) : List Nat := if xs.contains x then xs else xs ++ [x]

/-- One byte of a store put into a Porch (R145, R263): it replaces an older byte of an unpublished entry of its split for its block, or
takes a new entry.  `seq` is the place of the store in core order, `needs` what is performed before it. -/
def porchPut (part gid split seg order seq page : Nat) (needs : List Nat) (porch : List PorchEntry) (b : Nat × Byte) :
    List PorchEntry :=
  let block := b.1 / 64
  if porch.any (mergesInto gid split block) then
    porch.map fun e =>
      if mergesInto gid split block e then
        { e with bytes := (e.bytes.filter fun x => x.1 != b.1) ++ [(b.1, b.2, seq)], seq := seq, segs := addTo e.segs seg,
                 segAt := tset e.segAt b.1 seg, needs := needs.foldl addTo e.needs, pages := addTo e.pages page }
      else e
  else
    porch ++ [{ part := part, gang := gid, split := split, segs := [seg], segAt := [(b.1, seg)], needs := needs, block := block,
                bytes := [(b.1, b.2, seq)], order := order, seq := seq, taken := none, pages := [page] }]

/-- A store's bytes, in lane order, put into the Porch of the issuing core; the bytes leave the epoch's observations. -/
def porchStore (s : State) (core gid split : Nat) (sp : Split) (page : Nat) (bs : List (Nat × Byte)) : State :=
  let part := ((tget s.gangs gid).map (·.part)).getD 0
  let order := rankOf s gid
  let needs := openReads s gid sp
  modCore s core fun c =>
    let seq := c.order + 1
    { c with
      porch := bs.foldl (porchPut part gid split sp.seg order seq page needs) c.porch
      obs := c.obs.filter fun o => !(bs.any fun b => b.1 == o.1)
      order := seq }

/-- How many new entries a store takes. -/
def porchNeed (c : CoreSt) (gid split : Nat) (bs : List (Nat × Byte)) : Nat :=
  ((bs.map fun b => b.1 / 64).eraseDups.filter fun blk => !(c.porch.any (mergesInto gid split blk))).length

/-! ### Publications -/

/-- The scope of an ordering suffix. -/
def ordScope : OrdScope → Scope
  | .cl => .cl | .pk => .pk | .sy => .sy

/-- A publication begun: the entries that satisfy `p` and no publication has taken are taken, and it waits for what their stores
wait for (R219, R224). -/
def startPub (s : State) (pub : Pub) (p : PorchEntry → Bool) : Nat × State :=
  let (id, s) := freshId s
  let mine (e : PorchEntry) : Bool := e.taken.isNone && p e
  let waits := pub.waits ++ entryNeeds (getCore s pub.core) mine
  let s := modCore s pub.core fun c => { c with porch := c.porch.map fun e => if mine e then { e with taken := some id } else e }
  (id, { s with pubs := tset s.pubs id { pub with waits := waits } })

/-- Every publication and request that a publication waits for has been performed. -/
def pubReady (s : State) (p : Pub) : Bool :=
  p.after.all (fun a => (tget s.pubs a).isNone) && p.waits.all (fun r => (tget s.requests r).isNone)

/-- An entry may be published at once: nothing has taken it, what is performed before its stores has been, and no publication under
way holds older bytes of its block (R219). -/
def entryFree (s : State) (core : Nat) (e : PorchEntry) : Bool :=
  e.taken.isNone && e.needs.all (fun r => (tget s.requests r).isNone) &&
    !((getCore s core).porch.any fun x => x.gang == e.gang && x.block == e.block && x.taken.isSome)

/-- A byte of a merge: the rank of its gang, its place in core order, its key, its value and the segment of po of its store. -/
abbrev MergeByte := Nat × Nat × Nat × Byte × Nat

/-- Insertion of a byte in merge order: gang rank, then program order; equal places keep their order (R231, R264). -/
def mergeInsert (e : MergeByte) : List MergeByte → List MergeByte
  | [] => [e]
  | x :: r => if x.1 < e.1 || (x.1 == e.1 && decide (x.2.1 ≤ e.2.1)) then x :: mergeInsert e r else e :: x :: r

/-- The bytes of Porch entries in merge order, each with the segment of po of its store (R231). -/
def mergedWrites (es : List PorchEntry) : List (Nat × Byte × Nat) :=
  let all : List MergeByte := es.flatMap fun e => e.bytes.map fun b => (e.order, b.2.2, b.1, b.2.1, (tget e.segAt b.1).getD 0)
  (all.foldl (fun acc e => mergeInsert e acc) []).map fun e => e.2.2

/-- The bytes of Porch entries in merge order (R231). -/
def mergedBytes (es : List PorchEntry) : List (Nat × Byte) := (mergedWrites es).map fun w => (w.1, w.2.1)

/-! ### Bytes of a cluster that go beyond it (R219) -/

/-- A cluster-scope byte that a later write of its cluster overtakes on the way to package scope: it comes before that write in co,
and only its cluster can have read it (R230, R231). -/
def keepPast (m : MemSt) (o : Overlay) : MemSt :=
  { m with past := { addr := o.addr, old := m.bytes.read o.addr, val := o.val, id := o.id, seq := m.seq, source := .core o.core,
                     only := some o.cluster, sys := false, rels := o.rels } :: m.past }

/-- Two cluster-scope bytes are of one byte in one cluster. -/
def sameByte (o x : Overlay) : Bool := x.addr == o.addr && x.cluster == o.cluster

/-- The cluster-scope bytes that satisfy `p` carried to package scope in their order, each with its place in the cluster; the older
ones of the same byte are overtaken.  What stays is left. -/
def carryList (p : Overlay → Bool) : List Overlay → MemSt → MemSt × List Overlay
  | [], m => (m, [])
  | o :: os, m =>
    if p o then carryList p os (writeByteAt (m.seq + 1) (.core o.core) false o.rels (some o.id) m o.addr o.val)
    else if os.any fun x => p x && sameByte o x then carryList p os (keepPast m o)
    else
      let (m1, left) := carryList p os m
      (m1, o :: left)

/-- The cluster-scope bytes that satisfy `p` carried to package scope (R148, R219). -/
def carryOverlay (s : State) (p : Overlay → Bool) : State :=
  if s.mem.overlay.any p then
    let (m, left) := carryList p s.mem.overlay s.mem
    { s with mem := { m with overlay := left } }
  else s

/-- The cluster-scope bytes of these keys that a core is bound to, and the older ones, are overtaken by what it now writes at package
scope (R230). -/
def overtakeList (c : CoreSt) (core : Nat) (keys : List Nat) : List Overlay → MemSt → MemSt × List Overlay
  | [], m => (m, [])
  | o :: os, m =>
    if o.cluster == coreCluster core && keys.contains o.addr && (bindsOverlay c core o || os.any fun x => sameByte o x && bindsOverlay c core x)
    then overtakeList c core keys os (keepPast m o)
    else
      let (m1, left) := overtakeList c core keys os m
      (m1, o :: left)

/-- What a core, or a copy of its crews, overtakes with a write of these keys at package scope. -/
def overtake (s : State) (core : Nat) (keys : List Nat) : State :=
  if s.mem.overlay.isEmpty then s
  else
    let (m, left) := overtakeList (getCore s core) core keys s.mem.overlay s.mem
    { s with mem := { m with overlay := left } }

/-- Several bytes published at cluster scope, in order (R219). -/
def writeOverlay (core gid : Nat) (rels : Nat → List Rel) (m : MemSt) (b : Nat × Byte × Nat) : MemSt :=
  { m with
    seq := m.seq + 1
    overlay := m.overlay ++ [{ addr := b.1, val := b.2.1, cluster := coreCluster core, core := core, gang := gid, seg := b.2.2,
                               id := m.seq + 1, rels := rels b.1 }] }

/-- Bytes published by a core at a scope, in order, each with the segment of po of its store; with a publication at package scope the cluster-scope bytes of the same core go
beyond the cluster (R219). -/
def publishBytes (s : State) (core gid : Nat) (sc : OrdScope) (rels : Nat → List Rel) (bs : List (Nat × Byte × Nat)) :
    State :=
  let wide (sys : Bool) : State :=
    writeRel (overtake (carryOverlay s fun o => o.core == core) core (bs.map (·.1))) (.core core) sys rels (bs.map fun b => (b.1, b.2.1))
  match sc with
  | .cl => { s with mem := bs.foldl (writeOverlay core gid rels) s.mem }
  | .pk => wide false
  | .sy => wide true

/-- The name of the last write of a key, at a scope. -/
def lastWrite (s : State) (core : Nat) (sc : OrdScope) (key : Nat) : Nat :=
  match sc with
  | .cl => ((s.mem.overlay.reverse.find? fun o => o.addr == key && o.core == core).map (·.id)).getD 0
  | .pk | .sy => ((s.mem.past.find? fun p => p.addr == key && p.only.isNone).map (·.id)).getD 0

/-- The writing core reads nothing older than what it has published (R222 condition 4). -/
def ownMarks (s : State) (core : Nat) (sc : OrdScope) (keys : List Nat) : State :=
  modCore s core fun c => { c with mono := keys.foldl (fun m k => tset m k (lastWrite s core sc k)) c.mono }

/-! ### Publications of durable gangs (R312) -/

/-- The publications of one instruction: what it publishes at its issue, its release, the end of its crew, a message, an answer to a
record. -/
def eventNow : Nat := 0
def eventRelease : Nat := 1
def eventEnd : Nat := 2
def eventMessage : Nat := 3
def eventAnswer : Nat := 4

/-- The counter add of a copy, the publication of a global byte that a copy has written before, and a copy's element with its bytes. -/
def eventCounter : Nat := 5
def eventOut (key : Nat) : Nat := 6 + 2 * key
def eventElem (n : Nat) : Nat := 7 + 2 * n

/-- A replayed publication is acknowledged and not performed: it had been performed before the resume, or its rtc does not exceed that of
the last one that had, and nothing of that rtc was still under way at the loss (R312). -/
def Replay.skips (r : Replay) (rtc : DWord) (event : Nat) : Bool :=
  r.marks.contains (rtc, event) || (decide (rtc.toNat < r.top) && !r.owed.contains rtc)

/-- A publication that an instruction makes now is a replayed one that is not performed again (R312). -/
def alreadyPublished (s : State) (gid : Nat) (rtc : DWord) (event : Nat) : Bool :=
  ((tget s.gangs gid).bind (·.replay)).any fun r => r.skips rtc event

/-- A publication under way is not performed again: one that came back with the image only where it has been performed since (R312). -/
def pubDone (s : State) (id : Nat) (p : Pub) : Bool :=
  ((tget s.gangs p.gang).bind (·.replay)).any fun r => r.marks.contains (p.rtc, p.event) || (decide (r.since ≤ id) && r.skips p.rtc p.event)

/-- A publication of a durable gang recorded: the mark is held in memory, whatever the cluster goes back to (R312). -/
def markGang (s : State) (gid : Nat) (rtc : DWord) (event : Nat) : State :=
  match tget s.gangs gid with
  | some g =>
    if gangDurable s g then
      let m := (rankOf s gid, rtc, event)
      modPart s g.part fun q => { q with marks := if q.marks.contains m then q.marks else q.marks ++ [m] }
    else s
  | none => s

/-! ### Performing publications -/

/-- The releases that the bytes of a publication carry: those of the releasing instruction itself (R224, R226). -/
def pubRels (p : Pub) (key : Nat) : List Rel :=
  if p.release.contains key then [{ scope := p.scope, source := .core p.core, known := p.known }] else []

/-- A publication of `n` bytes as it is performed: its release carries on what its split's po has published, these bytes included. -/
def pubNow (s : State) (p : Pub) (n : Nat) : Pub := { p with known := p.known.carried (s.mem.seq + n) p.gang p.hist }

/-- Bytes published by a core at a scope, which it then reads nothing older than (R222 condition 4). -/
def publishWrites (s : State) (core gid : Nat) (sc : OrdScope) (rels : Nat → List Rel) (ws : List (Nat × Byte × Nat)) : State :=
  ownMarks (publishBytes s core gid sc rels ws) core sc (ws.map (·.1))

/-- An entry without the bytes that a publication had published before the resume: those that its split stored before it in po, and those
that stood in the Porch at the resume.  What others have stored since is left (R219, R312). -/
def newBytes (resumed gid : Nat) (hist : List Nat) (e : PorchEntry) : PorchEntry :=
  { e with bytes := e.bytes.filter fun b => decide (resumed < b.2.2) && !(e.gang == gid && (tget e.segAt b.1).any hist.contains) }

/-- The bytes of entries that a replayed publication of a gang has still to publish, published (R312). -/
def publishNew (s : State) (core gid : Nat) (hist : List Nat) (sc : OrdScope) (es : List PorchEntry) : State :=
  let ws := mergedWrites (es.map (newBytes (getCore s core).resumed gid hist))
  if ws.isEmpty then s else publishWrites s core gid sc (fun _ => []) ws

/-- A core's Porch without the entries that satisfy `p`. -/
def dropEntries (s : State) (core : Nat) (p : PorchEntry → Bool) : State := modCore s core fun c => { c with porch := c.porch.filter fun e => !p e }

/-- A publication performed at its place in pub: its entries in merge order; the entries leave the Porch, and a release at system
scope makes visible to the host what comes before it (R219, R220, R224, R231, R235, R263). -/
def performPub (s : State) (id : Nat) (p : Pub) : State :=
  let mine (e : PorchEntry) : Bool := e.taken == some id
  let es := (getCore s p.core).porch.filter mine
  let ws := mergedWrites es
  let s1 := dropEntries { s with pubs := tdrop s.pubs id } p.core mine
  if pubDone s id p then publishNew s1 p.core p.gang p.hist p.scope es
  else
    let s2 := publishWrites s1 p.core p.gang p.scope (pubRels (pubNow s p ws.length)) ws
    let s3 := if p.scope = .sy then systemRelease s2 p.core p.known else s2
    markGang s3 p.gang p.rtc p.event

/-- Every entry of a core that satisfies `p` published at package scope at once, as one merge (R219, R231). -/
def publishNow (s : State) (core : Nat) (p : PorchEntry → Bool) : State :=
  let mine := (getCore s core).porch.filter p
  if mine.isEmpty then s else publishWrites (dropEntries s core p) core 0 .pk (fun _ => []) (mergedWrites mine)

/-- What an instruction of a split publishes at package scope at its issue: not again where it is replayed (R312). -/
def publishFor (s : State) (gid : Nat) (g : Gang) (hist : List Nat) (p : PorchEntry → Bool) : State :=
  let mine := (getCore s g.core).porch.filter p
  if mine.isEmpty then s
  else if alreadyPublished s gid g.rtc eventNow then publishNew (dropEntries s g.core p) g.core gid hist .pk mine
  else markGang (publishNow s g.core p) gid g.rtc eventNow

end Sys2Proof.Machine
end

