-- ==== Sys2Proof/Machine/Retire.lean ====
section
/-! DEFINITION. Landing of lookahead writes, merging of splits, retirement of instructions (R11, R25, R29, R98, R99, R252). -/

namespace Sys2Proof.Machine

/-- The lanes of a mask, ascending (R39). -/
def lanesOf (m : Mask) : List Nat := (List.range 64).filter fun i => m.getLsbD i

/-- The mask of a list of lanes. -/
def maskOf (ls : List Nat) : Mask := ls.foldl (fun m i => m ||| (1#64 <<< i)) 0

/-- The lowest lane of a mask. -/
def lowestLane (m : Mask) : Option Nat := (lanesOf m).head?

/-- The view of memory of a gang (R32, R271). -/
def gangView (g : Gang) : View := { part := g.part, cluster := gangCluster g, super := g.level != .user }

/-- The level of a cohort's crews. -/
def cohortSuper (s : State) (c : Cohort) : Bool := ((tget s.ranges c.range).map (·.super)).getD false

/-- The view of memory of the MCC that runs a cohort's program. -/
def mccView (s : State) (c : Cohort) : View := { part := c.part, cluster := c.cluster, super := cohortSuper s c }

/-! ### Landing -/

/-- Results of a request that have not come back hold a pending write (R257). -/
def pendOpen (p : Pending) : Bool := !p.replies.isEmpty

/-- A pending write whose landing point has come. -/
def pendDue (p : Pending) : Bool := p.left == 0

/-- The cells that a pending write fills, those of results still to come included. -/
def pendCells (p : Pending) : List Nat := p.writes.map (·.1) ++ p.dst

/-- What a pending write still has to write: not the cells that are another's (R29). -/
def liveWrites (p : Pending) : List (Nat × Word) := if p.dead.isEmpty then p.writes else p.writes.filter fun w => !p.dead.contains w.1

/-- One pending write lands: its registers and its flags. -/
def landOne (g : Gang) (p : Pending) : Gang := { g with v := csets g.v (liveWrites p), fpf := g.fpf ||| p.flags }

/-- Pending writes that share a landing point: the value of the earliest-issued instruction remains (R29). -/
def landList (g : Gang) (ps : List Pending) : Gang := ps.reverse.foldl landOne g

/-- Every pending write of a split lands. -/
def landSplit (g : Gang) (si : Nat) : Gang :=
  match tget g.splits si with
  | none => g
  | some sp => { landList g sp.pend with splits := tset g.splits si { sp with pend := [] } }

/-- Every pending write of a gang lands (R31, R33). -/
def landGang (g : Gang) : Gang := (g.splits.map (·.1)).foldl landSplit g

/-- A split has results of requests still to come. -/
def splitOpen (sp : Split) : Bool := sp.pend.any pendOpen

/-- A gang has results of requests still to come. -/
def gangOpen (g : Gang) : Bool := g.splits.any fun e => splitOpen e.2

/-- A pending write can land: its landing point has come, and its results. -/
def pendLands (p : Pending) : Bool := pendDue p && !pendOpen p

/-- The due writes of a split land, but for those that still wait for their results (R29, R257). -/
def landDue (g : Gang) (si : Nat) : Gang :=
  match tget g.splits si with
  | none => g
  | some sp =>
    { landList g (sp.pend.filter pendLands) with splits := tset g.splits si { sp with pend := sp.pend.filter fun p => !pendLands p } }

/-- A landing of a split is late: its landing point has come and its results have not (R251, R257). -/
def pendLate (p : Pending) : Bool := pendDue p && pendOpen p
def heldByLanding (sp : Split) : Bool := sp.pend.any pendLate

/-- The cells that late landings of a split will still write. -/
def awaitedCells (sp : Split) : List Nat := (sp.pend.filter pendLate).flatMap fun p => p.dst.filter fun c => !p.dead.contains c

/-- A pending write gives up cells that are another's. -/
def giveUp (cells : List Nat) (p : Pending) : Pending := { p with dead := cells.foldl addTo p.dead }

/-- The late landings of a split give up cells that a later instruction has written (R29; log entry 70). -/
def outlive (cells : List Nat) (sp : Split) : Split := { sp with pend := sp.pend.map fun p => if pendLate p then giveUp cells p else p }

/-- A pending write comes one instruction nearer to its landing point. -/
def nearer (p : Pending) : Pending := { p with left := p.left - 1 }

/-- Of the writes that fall due together, an earlier instruction's value remains: a later one whose results are still to come gives up the
cells that it shares (R29; log entry 70). -/
def yieldTo (cells : List Nat) : List Pending → List Pending
  | [] => []
  | p :: ps =>
    if p.left == 1 then (if pendOpen p then giveUp cells p else p) :: yieldTo (cells ++ pendCells p) ps else p :: yieldTo cells ps

/-- The cells that fall due with the next retirement. -/
def cellsDue (sp : Split) : List Nat := (sp.pend.filter fun p => p.left == 1).flatMap pendCells

/-- One more instruction of the split has retired: every pending write is one nearer to its landing point; late landings give up what falls
due now, and of what falls due now the earlier instruction's value remains, whatever the order of the results (R29, R257). -/
def tickSplit (g : Gang) (si : Nat) : Gang :=
  { g with splits := tmod g.splits si fun sp =>
      let sp1 := outlive (cellsDue sp) sp
      { sp1 with pend := (yieldTo [] sp1.pend).map nearer } }

/-! ### Merging -/

/-- The split stands at the merge point of its innermost entry (R99). -/
def atMerge (sp : Split) : Bool :=
  match sp.recs with
  | [] => false
  | e :: _ => sp.pc == e.mp

/-- Reconvergence-stack entries of a split (R98). -/
def stackDepth (sp : Split) : Nat := (sp.recs.filter fun e => e.stack.isSome).length

/-- Stack entries held on the core; more are spilled (R11). -/
def stackHeld : Nat := 16

/-- The innermost entry is a stack entry that has been spilled, and must be read back from the frame (R100). -/
def needsRefill (sp : Split) : Bool :=
  match sp.recs with
  | [] => false
  | e :: _ => sp.pc == e.mp && e.stack.isSome && decide (stackDepth sp > stackHeld)

/-- A split could go on once it is served: no blocking wait, and not at a merge point but for a spilled entry (R100, R251). -/
def splitGoes (sp : Split) : Bool := sp.wait == .none && (!atMerge sp || needsRefill sp)

/-- Arrival at the merge point of an innermost stack entry (R98): first the fall-through path runs, then the lanes join. -/
def stackArrive (exited : Mask) (sp : Split) : Split :=
  match sp.recs with
  | [] => sp
  | e :: rest =>
    match e.stack with
    | none => sp
    | some p =>
      if p.second then { sp with mask := e.join &&& ~~~exited, fmt := e.fmt, recs := rest }
      else { sp with pc := p.npc, mask := p.fall, fmt := e.fmt, recs := { e with stack := some { p with second := true } } :: rest }

/-- A split with these lanes at an address, with nothing behind it (R11, R243). -/
def Split.start (pc : DWord) (mask : Mask) (now : Nat) : Split :=
  { pc := pc, mask := mask, fmt := 0, recs := [], pend := [], wait := .none, last := now, seg := 0, before := [], known := Known.none,
    acqs := [], line := none, seen := [], saw := [], after := [], near := [] }

/-- The splits that stand at the merge point of this record, with their writes landed (R99). -/
def standing (g : Gang) (e : DivEntry) : List (Nat × Split) :=
  g.splits.filter fun x =>
    match x.2.recs with
    | [] => false
    | f :: _ => f.stack.isNone && f.mp == e.mp && f.join == e.join && x.2.pc == e.mp && x.2.pend.isEmpty

/-- The split that goes on with a new segment of po after these splits, whose histories it joins (R216): what each has acquired and
observed it knows. -/
def joinHistories (sp : Split) (seg : Nat) (sps : List Split) : Split :=
  { sp with
    seg := seg
    before := (sps.flatMap fun x => x.seg :: x.before).eraseDups
    acqs := (sps.flatMap (·.acqs)).eraseDups
    known := sps.foldl (fun k x => k.join x.known) sp.known
    saw := (sps.flatMap (·.saw)).eraseDups
    after := (sps.flatMap (·.after)).eraseDups
    near := sps.foldl (fun m x => joinMax m x.near) sp.near
    seen := sps.foldl (fun m x => joinMax m x.seen) sp.seen }

/-- The splits of a gang merge at a record, where every lane of its join mask has arrived or exited (R11, R99). -/
def mergeAt (g : Gang) (si : Nat) (sp : Split) (e : DivEntry) (rest : List DivEntry) : Gang :=
  let here := standing g e
  let union := here.foldl (fun m x => m ||| x.2.mask) 0#64
  if e.join &&& ~~~(union ||| g.exited) = 0 then
    let low := here.foldl (fun n x => min n x.1) si
    let others := g.splits.filter fun x => !(here.any fun h => h.1 == x.1)
    let one : Split := { joinHistories sp g.nextSeg (here.map (·.2)) with mask := union, fmt := e.fmt, recs := rest, pend := [], wait := .none }
    { g with splits := tset others low one, nextSeg := g.nextSeg + 1 }
  else g

/-- One split tests its innermost entry: its pending writes land on arrival, then it switches path or merges. -/
def settleSplit (g : Gang) (si : Nat) : Gang :=
  match tget g.splits si with
  | none => g
  | some sp =>
    if atMerge sp && !splitOpen sp && !needsRefill sp then
      let g1 := landSplit g si
      let sp1 := { sp with pend := [] }
      match sp1.recs with
      | [] => g1
      | e :: rest =>
        if e.stack.isSome then { g1 with splits := tset g1.splits si (stackArrive g1.exited sp1) }
        else mergeAt g1 si sp1 e rest
    else g

/-- Every split of a gang tests its innermost entry, until nothing changes (R98, R99). -/
def settleGang (g : Gang) : Nat → Gang
  | 0 => g
  | n + 1 =>
    let g' := (g.splits.map (·.1)).foldl settleSplit g
    if g' = g then g else settleGang g' n

/-- Rounds of settling that suffice: each round pops an entry of a list of at most 81 + 3. -/
def settleRounds : Nat := 400

/-- The splits of a gang settle after a change of a program counter or of the exited lanes. -/
def settled (g : Gang) : Gang := if g.splits.any (fun e => atMerge e.2) then settleGang g settleRounds else g

/-! ### Retirement -/

/-- The next instruction's address (R39). -/
def nextPc (pc : DWord) : DWord := pc + 4

/-- Instructions of a quantum (R239). -/
def quantumOf (s : State) (g : Gang) : Nat := ((launchOf s g.range).map (·.quantum)).getD 0

/-- A retired instruction counts for the gang (R25), for its quantum (R252), and once in its cluster and its partition. -/
def countRetired (s : State) (part cluster : Nat) : State :=
  let s1 := modCluster s cluster fun c => { c with retired := c.retired + 1 }
  bumpFree (modPart s1 part fun p => { p with retired := p.retired + 1 })

/-- Another gang of the core has issued: a gang that yielded counts it (R109). -/
def noteIssued (s : State) (gid core : Nat) : State :=
  { s with gangs := s.gangs.map fun e =>
      if e.1 != gid && e.2.core == core then
        (e.1, { e.2 with yielded := e.2.yielded.map fun y => (y.1.filter (· != gid), y.2) })
      else e }

/-- The gang's own part of a retirement: count, program counter, landings, merge points, quantum. -/
def retiredGang (s : State) (g : Gang) (si : Nat) (npc : DWord) : Gang :=
  let det := gangDet s g
  let g1 := { g with rtc := g.rtc + 1, qCount := if det then g.qCount + 1 else g.qCount,
                     splits := tmod g.splits si (fun sp =>
                       { sp with pc := npc, wait := .none, last := s.ctl.clock, line := if npc = nextPc sp.pc then sp.line else none }) }
  let g2 := { g1 with qEnded := g1.qEnded || (det && decide (g1.qCount ≥ quantumOf s g)) }
  settled (landDue (tickSplit g2 si) si)

/-- The instruction of split `si` of a gang retires and goes on at `npc`. -/
def retireAt (s : State) (gid si : Nat) (npc : DWord) : State :=
  match tget s.gangs gid with
  | none => s
  | some g =>
    let s1 := setGang s gid (retiredGang s g si npc)
    noteIssued (countRetired s1 g.part (gangCluster g)) gid g.core

/-- The MCC's instruction retires and goes on at `npc` (R25). -/
def retireMcc (s : State) (cid : Nat) (npc : DWord) : State :=
  match tget s.cohorts cid with
  | none => s
  | some c => countRetired (modMcc s cid fun m => { m with rtc := m.rtc + 1, pc := npc, wait := .none }) c.part c.cluster

/-- A gang's k registers written, in order. -/
def writeKs (s : State) (gid : Nat) (ws : List (Nat × Word)) : State :=
  if ws.isEmpty then s else modGang s gid fun g => { g with k := csets g.k ws }

/-- A blocking wait of a split ends: its result is written, its core refreshes, and the waiting instruction retires
(R29, R221). -/
def finishWait (s : State) (gid si : Nat) (ws : List (Nat × Word)) (refresh : Option Scope) : State :=
  match tget s.gangs gid with
  | none => s
  | some g =>
    match tget g.splits si with
    | none => s
    | some sp =>
      let s1 := writeKs s gid ws
      let s2 := match refresh with
        | some sc => refreshSplit s1 gid si g.core sc
        | none => s1
      retireAt s2 gid si (nextPc sp.pc)

/-- The answer to a waiting split: it goes on, or, with its cohort out or its cluster asleep, it is held until the cohort is restored or the
cluster wakes (R302, R328). -/
def answerSplit (reaches : Bool) (s : State) (gid si : Nat) (ws : List (Nat × Word)) (refresh : Option Scope) : State :=
  if reaches then finishWait s gid si ws refresh else modSplit s gid si fun sp => { sp with wait := .answered ws refresh }

/-- The result of a chunk, a pair of registers: low word first (R17). -/
def pairWrites (d : Nat) (x : DWord) : List (Nat × Word) := [(d, loWord x), (d + 1, hiWord x)]

end Sys2Proof.Machine
end

