-- ==== Sys2Proof/Machine/Post.lean ====
section
/-! DEFINITION. Completion counters, fault records, and the posting of records to a fault queue (R164, R291 to R293, R36). -/

namespace Sys2Proof.Machine

/-! ### Whole values in memory -/

/-- The bytes of a number at consecutive keys. -/
def bytesAt (key n x : Nat) : List (Nat × Byte) := (bytesLE n x).zipIdx.map fun b => (key + b.2, b.1)

/-- A list of bytes at consecutive keys. -/
def listAt (key : Nat) (bs : List Byte) : List (Nat × Byte) := bs.zipIdx.map fun b => (key + b.2, b.1)

/-- A little-endian number of `n` bytes as published at package scope. -/
def memLE (s : State) (key n : Nat) : Nat := natLE ((List.range n).map fun i => newestByte s (key + i))

/-- The bytes from a key as published at package scope. -/
def memBytes (s : State) (key n : Nat) : List Byte := (List.range n).map fun i => newestByte s (key + i)

/-! ### Counters -/

/-- A cluster can take work at once: it is not in retention and not gated (R328, R329). -/
def clusterAwake (s : State) (cl : Nat) : Bool :=
  match (getCluster s cl).power with
  | .active | .clockGated => true
  | _ => false

/-- A gang stands on a cluster that is awake and runs free: a wake-up reaches it at once (R253, R302, R328). -/
def wakesNow (s : State) (gid : Nat) : Bool :=
  match tget s.gangs gid with
  | some g => isResident s g && !gangDet s g && clusterAwake s (gangCluster g)
  | none => false

/-- A served waitc whose counter has reached its threshold (R164). -/
def waitcHolds (s : State) (r : Request) : Bool :=
  match r.kind with
  | .waitc addr th => r.table && decide (th.toNat ≤ memLE s addr 8)
  | _ => false

/-- A wait in a Pantry's table is answered: its request leaves the table and the split goes on. -/
def answerWait (s : State) (rid : Nat) (r : Request) (ws : List (Nat × Word)) (refresh : Option Scope) : State :=
  finishWait { s with requests := tdrop s.requests rid } r.gang r.split ws refresh

/-- The keys of a counter. -/
def counterKeys (key : Nat) : List Nat := (List.range 8).map fun i => key + i

/-- A copy that satisfies `p` comes before the array work after the next rendezvous, and after a later fork of these segments (R151, R166,
R168). -/
def OldBy.ordered (p : Source → Nat → Bool) (segs : List Nat) : OldBy → OldBy
  | .copy src n seen forks => if p src n then .copy src n true (segs.foldl addTo forks) else .copy src n seen forks
  | o => o

/-- Overwritten bytes with `f` made of who overwrote them. -/
def mapOlds (f : OldBy → OldBy) (os : List (Nat × Byte × OldBy)) : List (Nat × Byte × OldBy) := os.map fun o => (o.1, o.2.1, f o.2.2)

/-- The Attic of a cohort's cluster, where the cohort holds it: its overwritten bytes. -/
def atticOldsOf (s : State) (cid : Nat) (c : Cohort) : List (Nat × Byte × OldBy) :=
  if (getCluster s c.cluster).atticHolder = some cid then (getCluster s c.cluster).atticOlds else []

/-- Who overwrote the bytes of a cohort's scratchpads and of its Attic that the array may still read, ordered anew (R168, R175). -/
def orderOlds (s : State) (cid : Nat) (p : Source → Nat → Bool) (segs : List Nat) : State :=
  match tget s.cohorts cid with
  | none => s
  | some c =>
    let f := mapOlds (OldBy.ordered p segs)
    let s1 := c.crews.foldl (fun s w => modCrew s w fun x => if x.olds.isEmpty then x else { x with olds := f x.olds }) s
    if (atticOldsOf s cid c).isEmpty then s1 else modCluster s1 c.cluster fun x => { x with atticOlds := f x.atticOlds }

/-- The copy of this number has done what `p` asks of it, or is complete and gone. -/
def copyOver (s : State) (n : Nat) (p : Copy → Bool) : Bool := (tget s.copies n).all p

/-- The numbers of the copies whose overwritten bytes the array may still read in a cohort's crews or its Attic, and that satisfy `p`. -/
def oldCopies (s : State) (cid : Nat) (p : Source → Nat → Bool) : List Nat :=
  match tget s.cohorts cid with
  | none => []
  | some c =>
    (((c.crews.flatMap fun w => ((tget s.crews w).map (·.olds)).getD []) ++ atticOldsOf s cid c).filterMap fun o => match o.2.2 with
      | .copy src n _ _ => if p src n then some n else none
      | _ => none).eraseDups

/-- A copy of a crew that completes by one of these tags or barriers, or by a counter seen, and has done so. -/
def sourceSeen (s : State) (crew : Nat) (seen : Tab Nat) (src : Source) (n : Nat) : Bool :=
  match src with
  | .copy w _ tag bar ctr =>
    w == crew && ((tag.any (fun t => (tget seen (seenTag t)).isSome) && copyOver s n (·.tagDone))
      || (bar != 0 && (tget seen (seenBar bar)).isSome && copyOver s n (·.barDone))
      || (ctr && (tget seen seenCtr).isSome && copyOver s n (·.ctrDone)))
  | _ => false

/-- A writer is a copy of this crew. -/
def copyOfCrew (crew : Nat) : Source → Bool
  | .copy w .. => w == crew
  | _ => false

/-- A split has passed a wait that orders the copies which satisfy `p` before its later accesses, and before what a rendezvous orders (R156,
R168); those of its own crew it has seen complete (R151). -/
def orderCopies (s : State) (gid si : Nat) (p : Source → Nat → Bool) : State :=
  match tget s.gangs gid with
  | none => s
  | some g =>
    let ids := oldCopies s g.cohort p
    let own := oldCopies s g.cohort fun src n => p src n && copyOfCrew g.crew src
    if ids.isEmpty then s
    else modSplit (orderOlds s g.cohort p []) gid si fun sp => { sp with saw := own.foldl addTo sp.saw, after := ids.foldl addTo sp.after }

/-- The gang is the lead gang of its cohort (R14). -/
def isLead (s : State) (g : Gang) : Bool := g.index == 0 && (tget s.crews g.crew).any fun w => w.index == 0

/-- The copies that satisfy `p` are ordered by what a split does now: before the array work after a later rendezvous and, where it is of the
lead gang, after its later fork (R151, R166, R168). -/
def orderHere (s : State) (g : Gang) (sp : Split) (p : Source → Nat → Bool) : State :=
  orderOlds s g.cohort p (if isLead s g then [sp.seg] else [])

/-- An access of a split to its scratchpad: the copies that come before it come before what its rendezvous and its fork order (R156, R166,
R168). -/
def scratchAccess (s : State) (gid : Nat) (g : Gang) (si : Nat) (sp : Split) : State :=
  if sp.after.isEmpty then s
  else modSplit (orderHere s g sp fun _ n => sp.after.contains n) gid si fun x => { x with after := [] }

/-- A split that acquires from a counter has seen the copies that released on it with an ordering wait (R164, R168). -/
def orderReleased (s : State) (gid si : Nat) (keys : List Nat) : State :=
  let srcs := (keys.flatMap (lastRels s)).map (·.source)
  orderCopies s gid si fun src n => srcs.contains src && copyOver s n (·.ctrDone)

/-- A split has seen a counter, and with it the copies of its crew that have added to it (R151, R164). -/
def seeCounter (s : State) (gid si : Nat) : State :=
  match tget s.gangs gid with
  | none => s
  | some g =>
    let ids := oldCopies s g.cohort (sourceSeen s g.crew [(seenCtr, 0)])
    modSplit s gid si fun sp => { sp with seen := tset sp.seen seenCtr 0, saw := ids.foldl addTo sp.saw }

/-- The waiting split of a waitc acquires what was released on its counter (R164, R226). -/
def learnWaitc (s : State) (r : Request) : State :=
  match r.kind with
  | .waitc addr _ =>
    seeCounter (learnAt (orderReleased s r.gang r.split (counterKeys addr)) r.gang r.split .pk (counterKeys addr)) r.gang r.split
  | _ => s

/-- Every waitc that may be answered now is answered; in deterministic mode it waits for the quantum end (R253). -/
def wakeCounters (s : State) : State :=
  s.requests.foldl (fun s' e =>
    if waitcHolds s' e.2 && wakesNow s' e.2.gang then answerWait (learnWaitc s' e.2) e.1 e.2 [] (some .pk) else s') s

/-- The consumer counts of fault queues that a counter add has moved, as far as they do not run beyond the producer counts (R295). -/
def noteConsumer (s : State) (key : Nat) : State :=
  { s with parts := s.parts.map fun e =>
      let c := memLE s key 8
      if physKey e.1 (e.2.faultBase + 8) = key && c ≤ e.2.posted then (e.1, { e.2 with consumed := c }) else e }

/-- A 64-bit add at a counter's home Pantry by `src`, which carries on the releases of the word and its own (R155, R164, R226, R293). -/
def addCounter (s : State) (src : Source) (own : Option Rel) (key amount : Nat) : State :=
  wakeCounters (noteConsumer (writeRel s src false (fun _ => sequenceRels s own (counterKeys key)) (bytesAt key 8 ((memLE s key 8 + amount) % 2 ^ 64))) key)

/-! ### Fault records -/

/-- The number of a trap code (R35). -/
def trapNumber : TrapCode → Nat
  | .illegal => 0x01 | .misalign => 0x02 | .xlate => 0x03 | .perm => 0x04 | .copyRights => 0x05
  | .matrixRights => 0x06 | .scratchRange => 0x07 | .window => 0x08 | .stairLimit => 0x09 | .stairNonfinite => 0x0A
  | .sgCancel => 0x0B | .retentionLoss => 0x0C | .crewLimit => 0x0D | .trapInsn => 0x0E | .brk => 0x0F
  | .invalidParam => 0x10 | .preempt => 0x11 | .msgRoute => 0x12

/-- The resume kind of a trap code: 0 at, 1 after, 2 none (R35). -/
def resumeKind : TrapCode → Nat
  | .stairLimit | .stairNonfinite | .trapInsn | .brk => 1
  | .sgCancel | .retentionLoss => 2
  | _ => 0

/-- The access kind's number (R292). -/
def accessNumber : AccessKind → Nat
  | .none => 0 | .fetch => 1 | .load => 2 | .store => 3 | .rmw => 4 | .copyRead => 5 | .copyWrite => 6 | .table => 7

/-- The 64 bytes of a fault record (R292). -/
def recordBytes (r : FaultRecord) : List Byte :=
  bytesLE 1 (trapNumber r.code) ++ bytesLE 1 r.flags ++ bytesLE 1 r.cause ++ bytesLE 1 (accessNumber r.access)
    ++ bytesLE 1 r.imm ++ bytesLE 1 r.lowLane ++ bytesLE 1 r.split ++ bytesLE 1 r.resume
    ++ bytesLE 8 r.pc.toNat ++ bytesLE 8 r.point.toNat ++ bytesLE 8 r.lanes.toNat ++ bytesLE 8 r.splitMask.toNat
    ++ bytesLE 8 r.addr.toNat ++ bytesLE 8 r.launch.toNat ++ bytesLE 4 r.cohort
    ++ bytesLE 1 r.die ++ bytesLE 1 r.cluster ++ bytesLE 1 r.coreGang ++ bytesLE 1 r.slot

/-- What a trap says: code, cause, access kind, imm8, faulting lanes and address (R273, R292). -/
structure TrapInfo where
  code : TrapCode
  cause : Nat
  access : AccessKind
  imm : Nat
  lanes : Mask
  addr : DWord
  deriving DecidableEq, Repr

/-- A trap that carries nothing but its code. -/
def plainTrap (c : TrapCode) : TrapInfo := { code := c, cause := 0, access := .none, imm := 0, lanes := 0, addr := 0 }

/-- The launch record address and the cohort index of a cohort. -/
def cohortOrigin (s : State) (cid : Nat) : DWord × Nat :=
  match tget s.cohorts cid with
  | some c => (((tget s.ranges c.range).map (·.launchAddr)).getD 0, c.index)
  | none => (0, 0)

/-- The die within its partition and the cluster within its die, of a cluster of the device (R292). -/
def recordPlace (s : State) (part cluster : Nat) : Nat × Nat :=
  (((tget s.parts part).map fun p => partDie p (clusterDie cluster)).getD 0, clusterIndex cluster)

/-- The faulting lanes of a gang's record: those that the instruction found to fault, or, where the condition is the
instruction's and not a lane's, every lane of the split (R33, R292; log entry 42); none for a copy fault (R369). -/
def faultingLanes (sp : Split) (t : TrapInfo) (flags : Nat) : Mask := if t.lanes = 0 && !flags.testBit 1 then sp.mask else t.lanes

/-- The record of a gang's trap at split `si` (R33, R34, R292). -/
def gangRecord (s : State) (gid : Nat) (g : Gang) (si : Nat) (sp : Split) (t : TrapInfo) (flags : Nat) : FaultRecord :=
  let o := cohortOrigin s g.cohort
  let pl := recordPlace s g.part (gangCluster g)
  { code := t.code, flags := flags, cause := t.cause, access := t.access, imm := t.imm,
    lowLane := (lowestLane (faultingLanes sp t flags)).getD 0xFF, split := si, resume := resumeKind t.code, pc := sp.pc,
    point := if resumeKind t.code = 1 then nextPc sp.pc else sp.pc, lanes := faultingLanes sp t flags, splitMask := sp.mask, addr := t.addr,
    launch := o.1, cohort := o.2, die := pl.1, cluster := pl.2, coreGang := coreIndex g.core + 16 * g.index, slot := g.slot,
    owner := .gang gid }

/-- The record of an MCC's trap (R292). -/
def mccRecord (s : State) (cid : Nat) (c : Cohort) (m : Mcc) (t : TrapInfo) : FaultRecord :=
  let o := cohortOrigin s cid
  let pl := recordPlace s c.part c.cluster
  { code := t.code, flags := 1, cause := t.cause, access := t.access, imm := t.imm, lowLane := 0xFF, split := 0,
    resume := resumeKind t.code, pc := m.pc, point := if resumeKind t.code = 1 then nextPc m.pc else m.pc, lanes := 0,
    splitMask := 0, addr := t.addr, launch := o.1, cohort := o.2, die := pl.1, cluster := pl.2, coreGang := 0, slot := 0,
    owner := .mcc cid }

/-- A notice that belongs to no gang: flags [5] and the flag of its source; the resume kind is that of its code (R35, R292, R295). -/
def noticeRecord (code : TrapCode) (flag cause : Nat) (access : AccessKind) (addr launch : DWord) (cohort die cluster : Nat) :
    FaultRecord :=
  { code := code, flags := 32 + flag, cause := cause, access := access, imm := 0, lowLane := 0xFF, split := 0, resume := resumeKind code,
    pc := 0, point := 0, lanes := 0, splitMask := 0, addr := addr, launch := launch, cohort := cohort, die := die,
    cluster := cluster, coreGang := 0, slot := 0, owner := .none }

/-! ### Posting -/

/-- Bytes that crossed the fabric or the Skafen link for a partition (R348). -/
def countLink (s : State) (part n : Nat) : State := modPart s part fun p => { p with linkBytes := p.linkBytes + n }

/-- The consumer count, honoured while it does not run beyond the producer count: else the last one that did not (R295). -/
def consumerCount (s : State) (part : Nat) (p : Part) : Nat :=
  let c := memLE s (physKey part (p.faultBase + 8)) 8
  if c ≤ p.posted then c else p.consumed

/-- Slots of a fault queue that are not free: not consumed, or consumed and not yet answered (R295). -/
def slotsInUse (s : State) (part : Nat) (p : Part) : Nat :=
  let c := consumerCount s part p
  (p.posted - c) + (p.open'.filter fun e => decide (e.1 < c)).length

/-- The queue has a free slot (R293). -/
def queueHasRoom (s : State) (part : Nat) (p : Part) : Bool := decide (slotsInUse s part p < p.faultEntries)

/-- The physical address of record number `n` (R291). -/
def recordAddr (p : Part) (n : Nat) : Nat := p.faultBase + 64 + 64 * (n % p.faultEntries)

/-- A record is a notice, which needs no answer (R292 flags [5]). -/
def isNotice (r : FaultRecord) : Bool := r.flags / 32 % 2 == 1

/-- A record is posted: its 64 bytes are written, then the producer count is raised as a release (R293).  DESIGN CHOICE: R293 counts slots,
so where the consumer count has run past a record that is still unanswered, a later one may fall in its slot: its bytes are overwritten (log
entry 65). -/
def postNow (s : State) (part : Nat) (p : Part) (r : FaultRecord) : State :=
  let n := p.posted
  let s1 := writeMem s .pantry false (listAt (physKey part (recordAddr p n)) (recordBytes r))
  let s2 := modPart s1 part fun q =>
    { q with posted := n + 1, consumed := consumerCount s part p, open' := if isNotice r then q.open' else q.open' ++ [(n, r)] }
  addCounter s2 .pantry (some { scope := .pk, source := .pantry, known := Known.none }) (physKey part p.faultBase) 1

/-- A place in the order of R36 among traps of one cycle: die, cluster, core, gang slot, and an MCC after the gangs of its cluster; a
notice has no gang slot and comes last (log entry 2). -/
def heldPlace (r : FaultRecord) : Nat :=
  if isNotice r then 2 ^ 32
  else (r.die * 32 + r.cluster) * 256 + (if r.flags.testBit 0 then 128 else (r.coreGang % 4) * 32 + r.slot)

/-- A record among those held, by the cycle of its trap and its place in that cycle (R36). -/
def insertHeld (now : Nat) (r : FaultRecord) (l : List (Nat × FaultRecord)) : List (Nat × FaultRecord) :=
  let earlier (e : Nat × FaultRecord) : Bool := decide (e.1 < now) || (e.1 == now && decide (heldPlace e.2 ≤ heldPlace r))
  l.takeWhile earlier ++ (now, r) :: l.dropWhile earlier

/-- A record is on its way to its partition's queue, which it enters once the cycle of its trap is over and a slot is free (R36, R293; log
entry 2). -/
def postToPart (s : State) (part : Nat) (r : FaultRecord) : State :=
  modPart s part fun q => { q with heldRecords := insertHeld s.ctl.clock r q.heldRecords }

/-- The record that has waited longest, once the cycle of its trap is over, and those behind it (R36). -/
def firstHeld (s : State) (l : List (Nat × FaultRecord)) : Option (FaultRecord × List (Nat × FaultRecord)) :=
  match l with
  | [] => none
  | e :: rest => if e.1 < s.ctl.clock then some (e.2, rest) else none

/-- Slots of the firmware's queue: the default entry count of R291, since no rule names a place where the host sets another (log
entry 39). -/
def firmwareSlots : Nat := 1024

/-- Where record number `n` lies in the firmware's queue, whose base is 0 of a memory of the firmware's own (R291; log entry 39). -/
def firmwareRecordAddr (n : Nat) : Nat := 64 + 64 * (n % firmwareSlots)

/-- Bytes written into the firmware's queue. -/
def writeFirmware (s : State) (a : Nat) (bs : List Byte) : State :=
  { s with dev := { s.dev with firmwareMem := s.dev.firmwareMem.writeList a bs } }

/-- The consumer count of the firmware's queue (R291, R295). -/
def firmwareConsumed (s : State) : Nat := leAt (s.dev.firmwareMem.readN 0 64) 8 8

/-- Slots of the firmware's queue that are not free: not consumed, or consumed and not yet answered (R295). -/
def firmwareInUse (s : State) : Nat :=
  (s.dev.firmwarePosted - firmwareConsumed s) + (s.dev.firmwareQueue.filter fun e => decide (e.1 < firmwareConsumed s)).length

/-- The firmware's queue has a free slot (R293). -/
def firmwareHasRoom (s : State) : Bool := decide (firmwareInUse s < firmwareSlots)

/-- The device once a record has been posted to its firmware's queue: its bytes, then the producer count (R291, R293). -/
def withRecord (d : Dev) (r : FaultRecord) : Dev :=
  let n := d.firmwarePosted
  { d with firmwareMem := (d.firmwareMem.writeList (firmwareRecordAddr n) (recordBytes r)).writeList 0 (bytesLE 8 (n + 1)),
           firmwareQueue := if isNotice r then d.firmwareQueue else d.firmwareQueue ++ [(n, r)], firmwarePosted := n + 1 }

/-- A record posted to the device firmware's queue. -/
def firmwarePost (s : State) (r : FaultRecord) : State := { s with dev := withRecord s.dev r }

/-- A record is on its way to the device firmware's queue (R36, R291). -/
def postToFirmware (s : State) (r : FaultRecord) : State :=
  { s with dev := { s.dev with firmwareHeld := insertHeld s.ctl.clock r s.dev.firmwareHeld } }

/-- A record is posted; a supervisor continuation's record goes to the firmware (R33, R36). -/
def postRecord (s : State) (part : Nat) (super : Bool) (r : FaultRecord) : State :=
  if super then postToFirmware s r else postToPart s part r

end Sys2Proof.Machine
end

