-- ==== Sys2Proof/Machine/Launch.lean ====
section
/-! DEFINITION. Launch records, continuation records, continuation queues (R15, R16, R187, R239 to R243). -/

namespace Sys2Proof.Machine

/-! ### Launch records -/

/-- Bytes of a launch record, and their alignment (R239). -/
def launchBytes : Nat := 128

/-- The pool of one core in bytes (R240). -/
def poolBytes : Nat := 1048576

/-- The pool need N of one crew (R240); `regs` counts registers per strand. -/
def poolNeed (l : Launch) : Nat := l.gangs * 64 * 4 * l.regs + l.scratch + 16384 * l.tiles

/-- The fields of a launch record as they stand (R239, R240). -/
def rawLaunch (bs : List Byte) : Launch :=
  let pw := leAt bs 0x10 8
  let mode := leAt bs 0x28 4
  { entry := BitVec.ofNat 64 (leAt bs 0 8), table := BitVec.ofNat 64 (leAt bs 8 8), seed := BitVec.ofNat 64 (leAt bs 0x18 8),
    widths := (List.range 5).map fun i => leAt bs (0x20 + i) 1, gangs := leAt bs 0x25 1, crews := leAt bs 0x26 1,
    producer := leAt bs 0x27 1, det := mode.testBit 0, durable := mode.testBit 1, quantum := leAt bs 0x2C 4,
    limit := leAt bs 0x30 4, prio := leAt bs 0x34 1, ratio := leAt bs 0x35 1, regs := 16 * fieldN pw 0 5,
    scratch := 256 * fieldN pw 8 16, tiles := fieldN pw 24 5 }

/-- The rules of R239 and R240 that the bytes themselves must meet. -/
def launchBytesOk (bs : List Byte) : Bool :=
  let pw := leAt bs 0x10 8
  leAt bs 0x28 4 < 4 && leAt bs 0x36 37 == 0 && leAt bs (0x36 + 37) 37 == 0 && fieldN pw 29 35 == 0 && fieldN pw 5 3 == 0

/-- The rules of R16, R239 and R240 on the fields. -/
def launchFieldsOk (l : Launch) : Bool :=
  let w (i : Nat) := l.widths[i]?.getD 0
  l.entry.toNat % 4 == 0 && l.table.toNat % 4 == 0
  && w 0 ≤ 4 && w 1 ≤ 2 && w 2 ≤ 58 && w 3 ≤ 58 && w 4 ≤ 58 && 6 + w 0 + w 1 + w 2 + w 3 + w 4 ≤ 64
  && 1 ≤ l.gangs && l.gangs ≤ 16 && l.gangs ≤ 2 ^ w 0
  && 1 ≤ l.crews && l.crews ≤ 4 && l.crews ≤ 2 ^ w 1
  && decide (l.producer < l.gangs)
  && (!l.det || (256 ≤ l.quantum && l.quantum ≤ 65536))
  && l.limit ≤ 16777216 && (!l.det || 1 ≤ l.limit)
  && l.prio ≤ 127 && l.ratio ≤ 3
  && 16 ≤ l.regs && l.regs ≤ 256 && l.scratch ≤ 4096 * 256 && l.tiles ≤ 16 && poolNeed l ≤ poolBytes

/-- A launch record, or `none` where it is refused whatever its range (R16, R239). -/
def parseLaunch (bs : List Byte) : Option Launch :=
  let l := rawLaunch bs
  if launchBytesOk bs && launchFieldsOk l then some l else none

/-- The widths w3, w4 and w5 hold the last cohort index of a range of `n` cohorts (R16). -/
def widthsHold (l : Launch) (n : Nat) : Bool :=
  decide (n - 1 < 2 ^ (l.widths[2]?.getD 0 + l.widths[3]?.getD 0 + l.widths[4]?.getD 0))

/-- The work identifier of a strand (R15). -/
def workId (l : Launch) (lane gang crew cohort : Nat) : DWord :=
  let w (i : Nat) := l.widths[i]?.getD 0
  let s1 := 6
  let s2 := s1 + w 0
  let s3 := s2 + w 1
  let s4 := s3 + w 2
  let s5 := s4 + w 3
  BitVec.ofNat 64 (lane + gang % 2 ^ w 0 * 2 ^ s1 + crew % 2 ^ w 1 * 2 ^ s2 + cohort % 2 ^ w 2 * 2 ^ s3
    + cohort / 2 ^ w 2 % 2 ^ w 3 * 2 ^ s4 + cohort / 2 ^ (w 2 + w 3) % 2 ^ w 4 * 2 ^ s5)

/-! ### Continuation records -/

/-- A continuation record from its 32 bytes (R187). -/
def parseCont (bs : List Byte) : ContRecord :=
  { launch := BitVec.ofNat 64 (leAt bs 0 8), frame := BitVec.ofNat 64 (leAt bs 8 8), join := BitVec.ofNat 32 (leAt bs 0x10 4),
    prio := leAt bs 0x14 1, flags := leAt bs 0x15 1, crews := leAt bs 0x16 2, parent := BitVec.ofNat 64 (leAt bs 0x18 8) }

/-- The rows of R187 whose failure is MISALIGN; `here` also checks the launch record's address. -/
def contAligned (c : ContRecord) (here : Bool) : Bool :=
  (!here || c.launch.toNat % 128 == 0) && c.frame.toNat % 256 == 0 && c.parent.toNat % 32 == 0

/-- The rows of R187 on the record's own fields whose failure is INVALID_PARAM. -/
def contFields (c : ContRecord) : Bool := c.prio ≤ 127 && c.flags == 0 && 1 ≤ c.crews

/-- A launch record fits a continuation record: it is valid, and the crew count is a multiple of its crews (R16, R187). -/
def contLaunch (c : ContRecord) (bs : List Byte) : Option Launch :=
  match parseLaunch bs with
  | none => none
  | some l => if c.crews % l.crews = 0 && widthsHold l (c.crews / l.crews) then some l else none

/-- Why a record cannot be placed. -/
inductive PlaceError
  | plain (t : TrapCode)
  | page (t : TrapCode) (cause : Nat) (addr : DWord)
  deriving DecidableEq, Repr

/-- A continuation record checked by R187 into a placement; `read` reads 128 bytes at an address or names the fault. -/
def checkCont (c : ContRecord) (super : Bool) (read : DWord → Except (TrapCode × Nat × DWord) (List Byte)) :
    Except PlaceError Placement :=
  if !contAligned c true then .error (.plain .misalign)
  else match read c.launch with
    | .error e => .error (.page e.1 e.2.1 e.2.2)
    | .ok bs =>
      if !contFields c then .error (.plain .invalidParam)
      else match contLaunch c bs with
        | none => .error (.plain .invalidParam)
        | some l => .ok { cont := c, launch := l, super := super }

/-- Bytes of a partition's virtual memory as published at package scope, read by the device (R187, R189). -/
def deviceRead (s : State) (v : View) (va : DWord) (n : Nat) : Except (TrapCode × Nat × DWord) (List Byte) :=
  match translateRange s v .load va n with
  | .error e => .error e
  | .ok keys => .ok (keys.map fun k => newestByte s k)

/-! ### Queues -/

/-- Records of a die's queue: a range stays in it until its last cohort has been placed (R241, R243). -/
def queued (s : State) (part die : Nat) : List (Nat × Range) :=
  s.ranges.filter fun r => r.2.part == part && r.2.die == die && r.2.queued

/-- The cohort indices of a range that are still to be placed, in the order of their placement: those that came back, then those
from the cursor on that are not cancelled (R209, R243, R311). -/
def unplaced (r : Range) : List Nat :=
  (r.returned.foldl (fun xs i => (xs.filter (· < i)) ++ i :: xs.filter (i < ·)) []) ++
    ((List.range (r.count - r.cursor)).map fun i => r.cursor + i).filter fun i => !r.cancelled.contains i

/-- A die's queue area can take `n` more records (R241). -/
def queueTakes (s : State) (part die n : Nat) : Bool :=
  match tget s.parts part with
  | none => false
  | some p => decide ((queued s part die).length + n ≤ p.queueRecords)

/-- A range's effective level (R242). -/
def effLevel (r : Range) : Nat := min 127 (r.level + min 16 r.aged)

/-- Reference cycles that a record has waited. -/
def waited (s : State) (r : Range) : Nat := s.ctl.clock - r.time

/-- One range is served before another (R242). -/
def servedBefore (x y : Range) : Bool := decide (effLevel y < effLevel x) || (effLevel x == effLevel y && decide (x.entry ≤ y.entry))

/-- A range put at its place in serving order. -/
def queueInsert (e : Nat × Range) : List (Nat × Range) → List (Nat × Range)
  | [] => [e]
  | x :: xs => if servedBefore x.2 e.2 then x :: queueInsert e xs else e :: x :: xs

/-- A die's queue in serving order. -/
def queueOrder (s : State) (part die : Nat) : List (Nat × Range) := (queued s part die).foldl (fun q e => queueInsert e q) []

/-- The head of a die's queue. -/
def queueHead (s : State) (part die : Nat) : Option (Nat × Range) := (queueOrder s part die).head?

/-- A saved cohort stands in the queue of its die: the die, and its record's level (R246). -/
def savedPlace (s : State) (part : Nat) (c : Cohort) : Option (Nat × Nat) :=
  if c.saved && !c.ended && c.part == part then (tget s.ranges c.range).map fun r => (r.die, r.level) else none

/-- The saved cohort that comes first in a die's queue, with its level: each returns to the head of its level (R246). -/
def savedHead (s : State) (part die : Nat) : Option (Nat × Nat) :=
  s.cohorts.foldl (fun (best : Option (Nat × Nat)) e =>
    match savedPlace s part e.2 with
    | some (d, l) =>
      if d != die then best
      else
        match best with
        | none => some (e.1, l)
        | some b =>
          let first := decide (b.2 < l) || (b.2 == l && decide (((tget s.cohorts b.1).map (·.seq)).getD 0 < e.2.seq))
          if first then some (e.1, l) else best
    | none => best) none

/-- The record at the head of a die's queue: a range, or a saved cohort, which stands before the ranges of its level (R242, R246). -/
def headId (s : State) (part die : Nat) : Option Nat :=
  match savedHead s part die, queueHead s part die with
  | some c, some h => if effLevel h.2 ≤ c.2 then some c.1 else some h.1
  | some c, none => some c.1
  | none, h => h.map (·.1)

/-- The queue in which a range, or a saved cohort, stands. -/
def queueOf (s : State) (id : Nat) : Option (Nat × Nat) :=
  match tget s.ranges id, tget s.cohorts id with
  | some r, _ => if r.queued then some (r.part, r.die) else none
  | none, some c => (savedPlace s c.part c).map fun p => (c.part, p.1)
  | none, none => none

/-- Reservations end whose holder is no longer the head of its queue; the holds that they asked for end with them (R246, R304). -/
def cleanReservations (s : State) : State :=
  let stale (id : Nat) : Bool := (queueOf s id).all fun q => headId s q.1 q.2 != some id
  let gone := (s.clusters.filterMap fun e => e.2.reserved).filter stale
  if gone.isEmpty then s
  else
    { s with
      clusters := s.clusters.map fun e => (e.1, if e.2.reserved.any (fun r => gone.contains r) then { e.2 with reserved := none } else e.2)
      ranges := s.ranges.map fun e => (e.1, { e.2 with holds := e.2.holds.filter fun r => !gone.contains r }) }

/-- Cohorts of a placement. -/
def cohortsOf (pl : Placement) : Nat := pl.cont.crews / pl.launch.crews

/-- Member gangs, as the expected count of a barrier at launch (R159). -/
def memberCount (n : Nat) : Nat := min n 16777215

/-- A barrier at launch (R159). -/
def freshBarrier (expected : Nat) : Barrier :=
  { phase := false, arrivals := 0, expected := memberCount expected, pending := 0, reducer := 0, result := 0, payloads := [],
    copied := none, lastCopied := none, known := Known.none, lastKnown := Known.none }

/-- Barriers 0 to n − 1 at launch. -/
def freshBarriers (n expected : Nat) : Tab Barrier := (List.range n).map fun i => (i, freshBarrier expected)

/-- The home of a launch's n barriers: the Pantry of the granule of its launch record's first byte (R159). -/
def launchHome (s : State) (part : Nat) (super : Bool) (va : DWord) : Nat :=
  match translate s { part := part, cluster := 0, super := super } .load va with
  | .ok key => homeOfKey s key
  | .fault _ _ => 0

/-- A record becomes a range record at its level of a die's queue, with a cursor at cohort 0 (R242, R243); where it is the new head,
the former head's reservation ends (R246). -/
def placeRange (s : State) (part die : Nat) (pl : Placement) (group : Option Nat) (pinned : Bool) : Nat × State :=
  let (id, s1) := freshId s
  let seq := ((tget s.parts part).map (·.entrySeq)).getD 0
  let n := cohortsOf pl
  let r : Range :=
    { part := part, die := die, level := pl.cont.prio, entry := seq, time := s.ctl.clock, aged := 0, cursor := 0, count := n,
      launch := pl.launch, launchAddr := pl.cont.launch, frame := pl.cont.frame, parent := pl.cont.parent, super := pl.super,
      pinned := pinned, spill := false, group := group, cancelled := [], ended := [], returned := [],
      bars := freshBarriers 4 (pl.launch.gangs * pl.launch.crews * n), barHome := launchHome s part pl.super pl.cont.launch,
      quantum := 0, qStart := s.mem.seq, placed := s.mem.seq, holds := [], queued := true, done := false, joined := false, joinDue := false }
  let s2 := { s1 with ranges := tset s1.ranges id r }
  (id, cleanReservations (modPart s2 part fun p => { p with entrySeq := p.entrySeq + 1 }))

/-- Records placed in order in one die's queue. -/
def placeAll (s : State) (part die : Nat) (ps : List Placement) : State :=
  ps.foldl (fun s pl => (placeRange s part die pl none false).2) s

/-- A record of a join or of a close enters its queue, or is held by its Pantry behind those already held for the same queue (R241,
R258). -/
def enterOrHold (s : State) (part die : Nat) (pl : Placement) : State :=
  match tget s.parts part with
  | none => s
  | some p =>
    if p.heldPlacements.all (fun h => h.1 != die) && queueTakes s part die 1 then (placeRange s part die pl none false).2
    else modPart s part fun q => { q with heldPlacements := q.heldPlacements ++ [(die, pl, none)] }

/-- The clip of a user spawn to its issuer's prio (R187). -/
def clipPrio (pl : Placement) (prio : Nat) (super : Bool) : Placement :=
  if super then pl else { pl with cont := { pl.cont with prio := min pl.cont.prio prio } }

end Sys2Proof.Machine
end

