-- ==== Sys2Proof/Machine/Sfu.lean ====
section
/-! DEFINITION. The special functions, rounded by RNE from their exact values (R56, R129, R130).
An irrational value is bracketed in fixed point with `sfuBits` fraction bits and rounded from the middle of its bracket:
this is the correctly rounded result unless the exact value lies within the bracket's error of a rounding boundary, which
no FP32 argument is known to reach at this precision (log entry 9). -/

namespace Sys2Proof.Machine

/-- Fraction bits of the fixed point. -/
def sfuBits : Nat := 512

/-- 1.0 in fixed point. -/
def fixOne : Int := 2 ^ sfuBits

/-- Integer square root, bit by bit from bit `b − 1` down. -/
def isqrtFrom (n : Nat) : Nat → Nat → Nat
  | 0, r => r
  | b + 1, r => isqrtFrom n b (if (r + 2 ^ b) * (r + 2 ^ b) ≤ n then r + 2 ^ b else r)

/-- floor(sqrt n). -/
def isqrt (n : Nat) : Nat := isqrtFrom n (Nat.log2 n / 2 + 1) 0

/-- Σ x^(2k+1) / (2k+1) or its alternating form, by terms: `p` is the current power, `x2` the square, all fixed point. -/
def oddSeries (alt : Bool) (x2 : Int) : Nat → Nat → Int → Int → Int
  | 0, _, _, acc => acc
  | fuel + 1, k, p, acc =>
    oddSeries alt x2 fuel (k + 1) (p * x2 / fixOne)
      (acc + (if alt && k % 2 == 1 then -1 else 1) * (p / ((2 * k + 1 : Nat) : Int)))

/-- atan(1 / n) in fixed point. -/
def atanInv (n : Nat) : Int :=
  oddSeries true (fixOne / ((n * n : Nat) : Int)) 260 0 (fixOne / (n : Int)) 0

/-- π in fixed point, by Machin's formula. -/
def fixPi : Int := 16 * atanInv 5 - 4 * atanInv 239

/-- ln 2 in fixed point: 2 atanh(1/3). -/
def fixLn2 : Int := 2 * oddSeries false (fixOne / 9) 200 0 (fixOne / 3) 0

/-- Σ t^k / k! by terms (`term` is the current one). -/
def expSeries (t : Int) : Nat → Nat → Int → Int → Int
  | 0, _, _, acc => acc
  | fuel + 1, k, term, acc => expSeries t fuel (k + 1) (term * t / fixOne / ((k + 1 : Nat) : Int)) (acc + term)

/-- e^t for 0 ≤ t < 1 in fixed point. -/
def fixExp (t : Int) : Int := expSeries t 130 0 fixOne 0

/-- e^q for a fixed-point q as mantissa and exponent: mantissa × 2^exponent, the mantissa with `sfuBits` fraction bits. -/
def expParts (q : Int) : Nat × Int :=
  let k := q / fixLn2
  ((fixExp (q - k * fixLn2)).toNat, k - sfuBits)

/-- The alternating series of sine (`k` odd) or cosine (`k` even) by terms. -/
def trigSeries (t2 : Int) : Nat → Nat → Int → Int → Int
  | 0, _, _, acc => acc
  | fuel + 1, k, term, acc =>
    trigSeries t2 fuel (k + 2) (-(term * t2 / fixOne / (((k + 1) * (k + 2) : Nat) : Int))) (acc + term)

/-- sin t and cos t for 0 ≤ t ≤ π/4 in fixed point. -/
def fixSin (t : Int) : Int := trigSeries (t * t / fixOne) 60 1 t 0
def fixCos (t : Int) : Int := trigSeries (t * t / fixOne) 60 0 fixOne 0

/-- ln y for 1 ≤ y < 2 in fixed point: 2 atanh((y − 1) / (y + 1)). -/
def fixLn (y : Int) : Int :=
  let z := (y - fixOne) * fixOne / (y + fixOne)
  2 * oddSeries false (z * z / fixOne) 200 0 z 0

/-- Σ (−1)^n x^(2n+1) / (n! (2n+1)) by terms: `term` is x^(2n+1) / n!. -/
def erfSeries (x2 : Int) : Nat → Nat → Int → Int → Int
  | 0, _, _, acc => acc
  | fuel + 1, n, term, acc =>
    erfSeries x2 fuel (n + 1) (-(term * x2 / fixOne / ((n + 1 : Nat) : Int))) (acc + term / ((2 * n + 1 : Nat) : Int))

/-- A magnitude in fixed point: floor(m × 2^e × 2^sfuBits / d). -/
def toFix (m d : Nat) (e : Int) : Int :=
  let s := e + sfuBits
  ((m * 2 ^ s.toNat / (d * 2 ^ (-s).toNat) : Nat) : Int)

/-- RNE of an irrational value whose bracket begins at `mant × 2^e`: the middle of the bracket, always inexact. -/
def roundApprox (c : RoundCtl) (neg : Bool) (mant : Nat) (e : Int) : Word × Flags :=
  w32 (roundTo fmtF32 c neg (2 * mant + 1) 1 (e - 1))

/-- RNE with the flush bit of fmt and nothing else of it (R129). -/
def sfuCtl (flush : Bool) : RoundCtl := { ctlRne with flush := flush }

/-- 1 / x. -/
def rcp32 (flush : Bool) (x : Word) : Word × Flags :=
  let c := sfuCtl flush
  match op32 c x with
  | .nan s => (nanF32, flIf s flInvalid)
  | .inf n => w32 (fmtZero fmtF32 n, flNone)
  | .num neg m e => if m = 0 then w32 (fmtInf fmtF32 neg, flDivZero) else w32 (roundTo fmtF32 c neg 1 m (-e))

/-- √(m × 2^e), exact or bracketed. -/
def sqrtMag (c : RoundCtl) (m : Nat) (e : Int) : Word × Flags :=
  let (m, e) := if e % 2 = 0 then (m, e) else (2 * m, e - 1)
  let n := m * 2 ^ 128
  let s := isqrt n
  if s * s = n then w32 (roundTo fmtF32 c false s 1 (e / 2 - 64)) else roundApprox c false s (e / 2 - 64)

/-- √x. -/
def sqrt32 (flush : Bool) (x : Word) : Word × Flags :=
  let c := sfuCtl flush
  match op32 c x with
  | .nan s => (nanF32, flIf s flInvalid)
  | .inf n => if n then (nanF32, flInvalid) else w32 (fmtInf fmtF32 false, flNone)
  | .num neg m e =>
    if m = 0 then w32 (fmtZero fmtF32 neg, flNone)
    else if neg then (nanF32, flInvalid) else sqrtMag c m e

/-- 1 / √x. -/
def rsqrt32 (flush : Bool) (x : Word) : Word × Flags :=
  let c := sfuCtl flush
  match op32 c x with
  | .nan s => (nanF32, flIf s flInvalid)
  | .inf n => if n then (nanF32, flInvalid) else (0, flNone)
  | .num neg m e =>
    if m = 0 then w32 (fmtInf fmtF32 neg, flDivZero)
    else if neg then (nanF32, flInvalid)
    else
      let (m, e) := if e % 2 = 0 then (m, e) else (2 * m, e - 1)
      let s := isqrt (2 ^ 256 / m)
      if s * s * m = 2 ^ 256 then w32 (roundTo fmtF32 c false s 1 (-(e / 2) - 128))
      else roundApprox c false s (-(e / 2) - 128)

/-- 2^x; exact for integers. -/
def exp2_32 (flush : Bool) (x : Word) : Word × Flags :=
  let c := sfuCtl flush
  match op32 c x with
  | .nan s => (nanF32, flIf s flInvalid)
  | .inf n => if n then (0, flNone) else w32 (fmtInf fmtF32 false, flNone)
  | .num neg m e =>
    if m = 0 then (0x3F800000, flNone)
    else
      let big := m * 2 ^ e.toNat ≥ 200 * 2 ^ (-e).toNat     -- beyond every result but overflow and zero
      let integral := decide (e ≥ 0) || m % 2 ^ (-e).toNat == 0
      let q : Int := if big then 200 * fixOne else toFix m 1 e
      let q := if neg then -q else q
      let k := q / fixOne
      if big || integral then w32 (roundTo fmtF32 c false 1 1 k)
      else roundApprox c false (fixExp ((q - k * fixOne) * fixLn2 / fixOne)).toNat (k - sfuBits)

/-- log₂ x; exact for powers of two. -/
def log2_32 (flush : Bool) (x : Word) : Word × Flags :=
  let c := sfuCtl flush
  match op32 c x with
  | .nan s => (nanF32, flIf s flInvalid)
  | .inf n => if n then (nanF32, flInvalid) else w32 (fmtInf fmtF32 false, flNone)
  | .num neg m e =>
    if m = 0 then w32 (fmtInf fmtF32 true, flDivZero)
    else if neg then (nanF32, flInvalid)
    else
      let k := Nat.log2 m
      let ex : Int := e + k
      if m = 2 ^ k then w32 (roundTo fmtF32 c (ex < 0) ex.natAbs 1 0)
      else
        let v := ex * fixOne + fixLn (toFix m 1 (-(k : Int))) * fixOne / fixLn2
        roundApprox c (v < 0) v.natAbs (-(sfuBits : Int))

/-- x mod 2 in units of 2^−j and the denominator 2^j: the argument of sinpi and cospi, reduced exactly. -/
def modTwo (m : Nat) (e : Int) : Nat × Nat :=
  let d := 2 ^ (-e).toNat
  (m * 2 ^ e.toNat % (2 * d), d)

/-- |sin(π a / d)| and whether it is negative, for 0 ≤ a < 2 d, with the exact cases 0 and 1 apart: `none` for exact. -/
def sinpiParts (a d : Nat) : Bool × (Nat ⊕ Int) :=
  let neg := a ≥ d
  let a := if neg then a - d else a           -- in [0, d)
  let a := if 2 * a > d then d - a else a     -- in [0, d / 2]
  if a = 0 then (neg, .inl 0)
  else if 2 * a = d then (neg, .inl 1)
  else if 4 * a ≤ d then (neg, .inr (fixSin (fixPi * (a : Int) / (d : Int))))
  else (neg, .inr (fixCos (fixPi * (((d : Int) - 2 * a)) / (2 * (d : Int)))))

/-- sin(πx). -/
def sinpi32 (flush : Bool) (x : Word) : Word × Flags :=
  let c := sfuCtl flush
  match op32 c x with
  | .nan s => (nanF32, flIf s flInvalid)
  | .inf _ => (nanF32, flInvalid)
  | .num neg m e =>
    let (a, d) := modTwo m e
    match sinpiParts a d with
    | (n, .inl v) => if v = 0 then w32 (fmtZero fmtF32 neg, flNone) else w32 (roundTo fmtF32 c (n != neg) v 1 0)
    | (n, .inr v) => roundApprox c (n != neg) v.toNat (-(sfuBits : Int))

/-- cos(πx) = sin(π(|x| + 1/2)). -/
def cospi32 (flush : Bool) (x : Word) : Word × Flags :=
  let c := sfuCtl flush
  match op32 c x with
  | .nan s => (nanF32, flIf s flInvalid)
  | .inf _ => (nanF32, flInvalid)
  | .num _ m e =>
    let (a, d) := modTwo m e
    match sinpiParts ((2 * a + d) % (4 * d)) (2 * d) with
    | (n, .inl v) => if v = 0 then (0, flNone) else w32 (roundTo fmtF32 c n v 1 0)
    | (n, .inr v) => roundApprox c n v.toNat (-(sfuBits : Int))

/-- The magnitude of an argument in fixed point, no larger than `cap`. -/
def capFix (cap m : Nat) (e : Int) : Int :=
  if m * 2 ^ e.toNat ≥ cap * 2 ^ (-e).toNat then (cap : Int) * fixOne else toFix m 1 e

/-- tanh x = (1 − E) / (1 + E) with E = e^(−2|x|); beyond 200 the result rounds to 1.  DESIGN CHOICE: of ±0 it is the zero of the same sign (log
entry 66). -/
def tanh32 (flush : Bool) (x : Word) : Word × Flags :=
  let c := sfuCtl flush
  match op32 c x with
  | .nan s => (nanF32, flIf s flInvalid)
  | .inf n => w32 (roundTo fmtF32 c n 1 1 0)
  | .num neg m e =>
    if m = 0 then w32 (fmtZero fmtF32 neg, flNone)
    else
      let q := capFix 100 m e
      let (em, ex) := expParts (-(2 * q))
      let E : Int := (em : Int) / (2 ^ (-ex - sfuBits).toNat : Nat)
      roundApprox c neg ((fixOne - E) * fixOne / (fixOne + E)).toNat (-(sfuBits : Int))

/-- 1 / (1 + e^(−x)) from E = e^(−|x|), held to full relative precision. -/
def sigmoid32 (flush : Bool) (x : Word) : Word × Flags :=
  let c := sfuCtl flush
  match op32 c x with
  | .nan s => (nanF32, flIf s flInvalid)
  | .inf n => if n then (0, flNone) else (0x3F800000, flNone)
  | .num neg m e =>
    if m = 0 then (0x3F000000, flNone)
    else
      let (em, ex) := expParts (-(capFix 200 m e))
      let one := 2 ^ (-ex).toNat                      -- E = em / one
      if neg then w32 (roundTo fmtF32 c false em (one + em) 0)
      else w32 (roundTo fmtF32 c false one (one + em) 0)

/-- erf x; beyond 6 the result rounds to 1.  DESIGN CHOICE: of ±0 it is the zero of the same sign (log entry 66). -/
def erf32 (flush : Bool) (x : Word) : Word × Flags :=
  let c := sfuCtl flush
  match op32 c x with
  | .nan s => (nanF32, flIf s flInvalid)
  | .inf n => w32 (roundTo fmtF32 c n 1 1 0)
  | .num neg m e =>
    if m = 0 then w32 (fmtZero fmtF32 neg, flNone)
    else
      let q := capFix 6 m e
      let s := erfSeries (q * q / fixOne) 260 0 q 0
      let rootPi : Int := (isqrt (fixPi * fixOne).toNat : Nat)
      roundApprox c neg (min (2 * s * fixOne / rootPi) (fixOne - 1)).toNat (-(sfuBits : Int))

/-- texp (R130): `a` the logit, `m` the running maximum, `t` the temperature, `mode` of R61.  R61 says that in normal mode a NaN gives invalid,
R130 that only a signalling NaN raises it in any mode; the spec rules nothing between them, so whether a quiet NaN logit raises it in normal
mode is an open value (DESIGN CHOICE, log entry 47). -/
def texp32 (flush : Bool) (t : Word) (mode : Nat) (a m : Word) : Word × Flags :=
  let c := sfuCtl flush
  let x := op32 c a
  let y := op32 c m
  let open61 := mode == 0 && fIsNan x && Config.texpNanInvalid
  let fl := flIf (fIsSnan x || fIsSnan y || open61) flInvalid
  if fIsNan x || fIsNan y then (nanF32, fl)
  else if mode = 1 then (if fEq x y then 0x3F800000 else 0, flNone)
  else if mode = 2 then (if x = .inf true then 0 else 0x3F800000, flNone)
  else
    match x, fmtDecode fmtF32 t.toNat with
    | .inf n, _ => if n then (0, flNone) else w32 (fmtInf fmtF32 false, flNone)
    | .num neg p e, .num _ d f =>
      if p = 0 then (0x3F800000, flNone)
      else
        let g := e - f
        let big := p * 2 ^ g.toNat ≥ 200 * d * 2 ^ (-g).toNat
        let q := if big then 200 * fixOne else toFix p d g
        let r := expParts (if neg then -q else q)
        roundApprox c false r.1 r.2
    | _, _ => (nanF32, flNone)

/-- tmode, from the bits of temp (R61): 0 normal, 1 greedy, 2 uniform. -/
def tmodeOf (t : Word) : Nat :=
  match fmtDecode fmtF32 t.toNat with
  | .num _ m _ => if m < 2 ^ 23 then 1 else 0
  | .inf _ => 2
  | .nan _ => 0

/-- temp accepts a value: no NaN, and no sign other than of −0 (R61). -/
def tempOk (t : Word) : Bool :=
  match fmtDecode fmtF32 t.toNat with
  | .nan _ => false
  | .inf n => !n
  | .num n m _ => !n || m == 0

/-- cos p or sin p of an FP32 angle in radians, RNE to FP32 (R182). -/
def rotary32 (sine : Bool) (p : Word) : Word :=
  match fmtDecode fmtF32 p.toNat with
  | .num neg m e =>
    if m = 0 then (if sine then BitVec.ofNat 32 (fmtZero fmtF32 neg) else 0x3F800000)
    else
      let t := toFix m 1 e
      let half := fixPi / 2
      let k := (2 * t + half) / (2 * half)          -- nearest quadrant
      let r := t - k * half
      let quad := (k + (if sine then 0 else 1)) % 4  -- cos t = sin(t + π/2)
      let mag := if quad % 2 = 0 then (if r < 0 then -1 else 1) * fixSin r.natAbs else fixCos r.natAbs
      let v := if quad ≥ 2 then -mag else mag
      (roundApprox ctlRne ((v < 0) != (sine && neg)) v.natAbs (-(sfuBits : Int))).1
  | _ => nanF32

end Sys2Proof.Machine
end

