-- ==== Sys2Proof/Machine/Group.lean ====
section
/-! DEFINITION. Joins at the Pantry, and the records of sample groups: arrivals, ends, cancels and the close
(R189, R204 to R209). -/

namespace Sys2Proof.Machine

/-! ### Join -/

/-- A join served at the record's Pantry (R189): the counter falls by 1, and a record whose counter reaches 0 is checked
and placed.  The second component is the trap of a counter found at 0. -/
def joinAt (s : State) (part die : Nat) (super : Bool) (va : DWord) (key : Nat) : State × Option TrapCode :=
  let n := memLE s (key + 0x10) 4
  if n = 0 then (s, some .invalidParam)
  else
    let s1 := writeMem s .pantry false (bytesAt (key + 0x10) 4 (n - 1))
    if n = 1 then
      let view : View := { part := part, cluster := homeOfKey s key, super := super }
      match checkCont (parseCont (memBytes s1 key 32)) super (fun a => deviceRead s1 view a launchBytes) with
      | .ok pl => (enterOrHold s1 part die pl, none)
      | .error _ => (postToPart s1 part (noticeRecord .invalidParam 4 0 .none va 0 0 0 0), none)
    else (s1, none)

/-- The automatic join on the parent of a completed record: what would trap a gang is posted as a notice (R189).  DESIGN CHOICE, on R258: the
record that it places enters the queue of the die of the parent record's home Pantry, since no gang issues the join (log entry 60). -/
def autoJoinAt (s : State) (part : Nat) (super : Bool) (va : DWord) : State :=
  match translate s { part := part, cluster := 0, super := super } .rmw va with
  | .fault t c => postToPart s part (noticeRecord t 4 c .rmw va 0 0 0 0)
  | .ok key =>
    match joinAt s part (clusterDie (homeOfKey s key)) super va key with
    | (s1, none) => s1
    | (s1, some t) => postToPart s1 part (noticeRecord t 4 0 .none va 0 0 0 0)

/-! ### The group record -/

/-- The physical key of byte `off` of a group record. -/
def groupKey (g : Group) (off : Nat) : Nat := (g.blocks[off / 64]?.getD 0) + off % 64

/-- A field of a group record. -/
def groupGet (s : State) (g : Group) (off n : Nat) : Nat := memLE s (groupKey g off) n

/-- A field of a group record written by its Pantry. -/
def groupPut (s : State) (g : Group) (off n x : Nat) : State := writeMem s .pantry false (bytesAt (groupKey g off) n x)

/-- The offset of sibling `i`'s slot (R204). -/
def slotOff (i : Nat) : Nat := 0x40 + 16 * i

/-- Sibling `i`'s state: 0 pending, 1 running, 2 arrived, 3 cancelled, 4 late, 5 ended. -/
def slotState (s : State) (g : Group) (i : Nat) : Nat := groupGet s g (slotOff i) 1

/-- Siblings of the group. -/
def groupSize (s : State) (g : Group) : Nat := groupGet s g 1 1

/-- The arrived siblings in ascending index order. -/
def arrivedSiblings (s : State) (g : Group) : List Nat := (List.range (groupSize s g)).filter fun i => slotState s g i == 2

/-- FP32 arithmetic of R207: RNE, no fmt, no flags. -/
def rneAdd (x y : Word) : Word := (fadd32 ctlRne x y).1
def rneSub (x y : Word) : Word := (fsub32 ctlRne x y).1
def rneMul (x y : Word) : Word := (fmul32 ctlRne x y).1
def rneDiv (x y : Word) : Word := (fdiv32 ctlRne x y).1
def rneFma (x y z : Word) : Word := (ffma32 ctlRne x y z).1

/-- A sum from the first term on, in order (R207). -/
def rneSum : List Word → Word
  | [] => 0
  | x :: xs => xs.foldl rneAdd x

/-- The FP32 value of a count. -/
def countF32 (n : Nat) : Word := (fromInt32 ctlRne n).1

/-- Mean, std and advantages of the arrived rewards (R207). -/
def advantages (eps : Word) (rs : List Word) : Word × Word × List Word :=
  let n := countF32 rs.length
  let mean := rneDiv (rneSum rs) n
  let ds := rs.map fun r => rneSub r mean
  let std := (sqrt32 false (rneDiv (rneSum (ds.map fun d => rneMul d d)) n)).1
  (mean, std, ds.map fun d => if std &&& 0x7FFFFFFF = 0 then 0 else rneDiv d (rneAdd std eps))

/-- A notice that a close continuation could not be placed (R206): flags [5] and [6]. -/
def closeNotice (g : Group) (t : TrapCode) (cause : Nat) : FaultRecord :=
  noticeRecord t 64 cause (if cause = 0 && t != .xlate then .none else .load) g.va 0 0 0 0

/-- The close continuation of a group is placed, or a notice is posted (R206 step 4).  DESIGN CHOICE, on R258: it enters the queue of the die
of the group record's Pantry (log entry 60). -/
def placeClose (s : State) (g : Group) : State :=
  let va := BitVec.ofNat 64 (groupGet s g 0x28 8)
  if va = 0 then s
  else
    let super := ((tget s.ranges g.range).map (·.super)).getD false
    let view : View := { part := g.part, cluster := homeOfKey s (groupKey g 0), super := super }
    match deviceRead s view va 32 with
    | .error e => postToPart s g.part (closeNotice g e.1 e.2.1)
    | .ok bs =>
      match checkCont (parseCont bs) super (fun a => deviceRead s view a launchBytes) with
      | .ok pl => if va.toNat % 32 = 0 then enterOrHold s g.part g.die pl else postToPart s g.part (closeNotice g .invalidParam 0)
      | .error (.page t c _) => postToPart s g.part (closeNotice g t c)
      | .error (.plain _) => postToPart s g.part (closeNotice g .invalidParam 0)

/-- What an sgreward of a sibling that has arrived returns once the group is closed (R208). -/
def rewardWrites (s : State) (g : Group) (i d : Nat) : List (Nat × Word) :=
  if slotState s g i = 4 then [(d, 0), (d + 1, 1)]
  else [(d, BitVec.ofNat 32 (groupGet s g (slotOff i + 8) 4)), (d + 1, 0)]

/-- The sibling index of a gang. -/
def siblingOf (s : State) (gid : Nat) : Nat :=
  match tget s.gangs gid with
  | some g => ((tget s.cohorts g.cohort).map (·.index)).getD 0
  | none => 0

/-- The sample group of a gang. -/
def groupOf (s : State) (gid : Nat) : Option Nat :=
  match tget s.gangs gid with
  | some g => (tget s.ranges g.range).bind (·.group)
  | none => none

/-- A waiting sgreward that its group's close answers; a cancelled sibling is not answered (R208, R209). -/
def rewardHolds (s : State) (r : Request) : Option (List (Nat × Word)) :=
  match r.kind with
  | .sgreward _ d =>
    match (groupOf s r.gang).bind fun gid => tget s.groups gid with
    | some g => if r.table && g.closed && slotState s g (siblingOf s r.gang) != 3 then some (rewardWrites s g (siblingOf s r.gang) d) else none
    | none => none
  | _ => none

/-- A sibling that a close wakes is ordered after the arrivals of its group (R226). -/
def learnReward (s : State) (r : Request) : State :=
  match (groupOf s r.gang).bind fun gid => tget s.groups gid with
  | some g => learn s r.gang r.split r.core g.known
  | none => s

/-- Every waiting sgreward that may be answered now is answered (R206 step 3, R302). -/
def wakeRewards (s : State) : State :=
  s.requests.foldl (fun s' e =>
    match rewardHolds s' e.2 with
    | some ws => if wakesNow s' e.2.gang then answerWait (learnReward s' e.2) e.1 e.2 ws (some .pk) else s'
    | none => s') s

/-- A group closes (R206): advantages, status and cause, wake-ups, close continuation.  DESIGN CHOICE, on R207: of a group that closes without
an arrival no mean and no std is computed, and both fields keep the 0 of sgfork (log entry 68). -/
def closeGroup (s : State) (gid : Nat) (g : Group) (cause : Nat) : State :=
  let arr := arrivedSiblings s g
  let eps := BitVec.ofNat 32 (groupGet s g 0x18 4)
  let a := advantages eps (arr.map fun i => BitVec.ofNat 32 (groupGet s g (slotOff i + 4) 4))
  let s1 := if arr.isEmpty then s
    else (arr.zip a.2.2).foldl (fun s' e => groupPut s' g (slotOff e.1 + 8) 4 e.2.toNat)
      (groupPut (groupPut s g 0x1C 4 a.1.toNat) g 0x20 4 a.2.1.toNat)
  let s2 := groupPut (groupPut s1 g 2 1 cause) g 0 1 (if arr.isEmpty then 3 else 2)
  let s3 := modGroup s2 gid fun h => { h with closed := true }
  placeClose (wakeRewards s3) g

/-- The deadline of a group has been reached (R206). -/
def deadlineReached (s : State) (g : Group) : Bool :=
  let dl := groupGet s g 8 8
  !g.closed && dl != 0 && decide (dl ≤ if g.det then g.elapsed else g.elapsed / 1650)

/-- A group of a free-running launch whose elapsed time has reached its deadline closes by it, before anything else happens to it; that of a
deterministic launch does so at the quantum end (R206, R253). -/
def closeExpired (s : State) (gid : Nat) : State :=
  match tget s.groups gid with
  | some g => if !g.det && deadlineReached s g then closeGroup s gid g 2 else s
  | none => s

/-- After an arrival, an end or a cancel: the group closes when every live sibling has arrived (R206). -/
def testClose (s : State) (gid : Nat) (cancel : Bool) : State :=
  match tget s.groups gid with
  | none => s
  | some g =>
    if g.closed then s
    else
      let live := groupGet s g 5 1
      if groupGet s g 4 1 = live then closeGroup s gid g (if cancel && live = 0 then 3 else 1) else s

/-- A sibling leaves the live count with a new state. -/
def leaveLive (s : State) (g : Group) (i state : Nat) : State :=
  groupPut (groupPut s g (slotOff i) 1 state) g 5 1 (groupGet s g 5 1 - 1)

/-- The first crew of a sibling starts (R206). -/
def siblingStarts (s : State) (gid i : Nat) : State :=
  match tget s.groups gid with
  | none => s
  | some g => if slotState s g i = 0 then groupPut s g (slotOff i) 1 1 else s

/-- A sibling ends: a running one leaves the live count (R206). -/
def siblingEnds (s : State) (gid i : Nat) : State :=
  let s := closeExpired s gid
  match tget s.groups gid with
  | none => s
  | some g => if slotState s g i = 1 then testClose (leaveLive s g i 5) gid false else s

/-- A first arrival of a sibling, or a late one, at its Pantry (R208). -/
def siblingArrives (s : State) (gid i : Nat) (reward : Word) : State :=
  let s := closeExpired s gid
  match tget s.groups gid with
  | none => s
  | some g =>
    if slotState s g i = 1 then
      if g.closed then groupPut s g (slotOff i) 1 4
      else
        let s1 := groupPut (groupPut s g (slotOff i + 4) 4 reward.toNat) g (slotOff i) 1 2
        testClose (groupPut s1 g 4 1 (groupGet s1 g 4 1 + 1)) gid false
    else s

/-- Elapsed time of a group, written in its record and tested against its deadline (R206): microseconds of the reference
clock in free-running mode, retired instructions in deterministic mode. -/
def tickGroup (s : State) (gid : Nat) (by' : Nat) : State :=
  match tget s.groups gid with
  | none => s
  | some g =>
    if g.closed then s
    else
      let e := g.elapsed + by'
      let shown := if g.det then e else e / 1650
      groupPut (modGroup s gid fun h => { h with elapsed := e }) g 0x10 8 shown

end Sys2Proof.Machine
end

