-- ==== Sys2Proof/Machine/Life.lean ====
section
/-! DEFINITION. How gangs, crews, cohorts, MCC programs and ranges end, and what their ends give back; rendezvous
(R108, R165, R167, R189, R248, R268, R277, R294). -/

namespace Sys2Proof.Machine

/-- Requests a Pantry's queue holds, at most (R256). -/
def pantryEntries : Nat := 512

/-- A request of a deterministic gang waits for the commit of its quantum, in no queue (R236, R257). -/
def isLogged (s : State) (r : Request) : Bool := ((tget s.gangs r.gang).map fun g => gangDet s g).getD false

/-- An act that no Pantry serves, on a barrier that its cluster holds or on a fault record: it waits in the cluster for what stands before it
(R111, R159, R162). -/
def inCluster : ReqKind → Bool
  | .bar (.crew _) .. | .bar (.cohort _) .. | .barcfg (.crew _) _ | .barcfg (.cohort _) _ | .eret .. => true
  | _ => false

/-- Requests on their way to a Pantry or in its queue. -/
def inQueue (s : State) (home : Nat) : Nat :=
  (s.requests.filter fun r => r.2.home == home && !r.2.table && !isLogged s r.2 && !inCluster r.2.kind).length

/-- The queue of a home has room for `n` more requests (R256). -/
def queueRoom (s : State) (home n : Nat) : Bool := decide (inQueue s home + n ≤ pantryEntries)

/-- The queue of a home is full: the issuing split is held (R256). -/
def queueFull (s : State) (home : Nat) : Bool := decide (inQueue s home ≥ pantryEntries)

/-- The place of a request's sender among those of one cycle: die, cluster, core and gang slot, a copy engine after the cores of its cluster,
and a Pantry or another unit of the package after them all (R256). -/
def senderPlace (s : State) (r : Request) : Nat :=
  match r.copy, tget s.gangs r.gang with
  | some (_, .copy _ cl _ _ _), _ => cl * 256 + 255
  | _, some g => g.core * 64 + g.slot
  | _, none => noCore * 64

/-- A new request with a fresh name, sent now: requests arrive in the order of their cycles, those of one cycle in that of their senders
(R256). -/
def sendRequest (s : State) (r : Request) : Nat × State :=
  let (id, s1) := freshId s
  (id, { s1 with requests := tset s1.requests id { r with seq := id, sent := s.ctl.clock, place := senderPlace s r } })

/-- The region state of a gang (R193). -/
def regionState (g : Gang) : Nat := fieldW g.rxs 24 2

/-- An element put into a list before the first of those that it comes before at the list's end: those of the same cycle stand there. -/
def insertBefore {α : Type} (p : α → Bool) (x : α) (xs : List α) : List α :=
  match xs with
  | [] => [x]
  | y :: ys => if p y then x :: y :: ys else y :: insertBefore p x ys

/-- A stalled gang can take a free stair unit: it runs and stands at its rxbody, or its region was restored in its body (R277, R289);
in deterministic mode the quantum end gives the unit away. -/
def takesStair (s : State) (gid : Nat) : Bool :=
  match tget s.gangs gid with
  | some g => !gangDet s g && isResident s g && (g.status == .running || regionState g == 2)
  | none => false

/-- A stair unit's claim ends; in free-running mode the first stalled gang takes the unit (R277). -/
def releaseStair (s : State) (core gid : Nat) : State :=
  let c := getCore s core
  let wait := c.stairWait.filter fun w => w.1 != gid
  if c.stair = some gid then
    match wait.find? fun w => takesStair s w.1 with
    | none => setCore s core { c with stair := none, stairWait := wait }
    | some h => setCore s core { c with stair := some h.1, stairWait := wait.filter fun w => w.1 != h.1 }
  else if c.stairWait.any fun w => w.1 == gid then setCore s core { c with stairWait := wait }
  else s

/-- A gang claims the stair unit of its core; `none` where another gang holds it (R277). -/
def claimStair (s : State) (core gid : Nat) : Option State :=
  let c := getCore s core
  match c.stair with
  | none => some (setCore s core { c with stair := some gid, stairWait := c.stairWait.filter fun w => w.1 != gid })
  | some h => if h = gid then some s else none

/-- A gang stalls at a held stair unit, in the order of the stalls, and among those of one cycle in that of the gang slots (R277). -/
def waitStair (s : State) (core gid : Nat) : State :=
  let slot (x : Nat) : Nat := ((tget s.gangs x).map (·.slot)).getD 0
  modCore s core fun c =>
    if c.stairWait.any fun w => w.1 == gid then c
    else { c with stairWait := insertBefore (fun w => w.2 == c.cycle && decide (slot gid < slot w.1)) (gid, c.cycle) c.stairWait }

/-- The waiting cohorts without one of them. -/
def leftWaiting (cid : Nat) (ws : List (Nat × Nat × Nat)) : List (Nat × Nat × Nat) := ws.filter fun w => w.1 != cid

/-- A cohort's claim of the Attic, or its wait for it, ends; the waiting cohorts take the free Attic in the order of their stalls
(R268). -/
def releaseAttic (s : State) (cluster cid : Nat) : State :=
  let c := getCluster s cluster
  if c.atticHolder = some cid then
    modCluster s cluster fun x => { x with atticHolder := none, atticWait := leftWaiting cid x.atticWait, atticOlds := [] }
  else if c.atticWait.any fun w => w.1 == cid then modCluster s cluster fun x => { x with atticWait := leftWaiting cid x.atticWait }
  else s

/-- The Attic is given to a cohort, whose array reads it as it stands (R268). -/
def giveAttic (s : State) (cluster cid : Nat) : State :=
  modCohort (modCluster s cluster fun x =>
    { x with atticHolder := some cid, atticWait := leftWaiting cid x.atticWait, atticOlds := [] }) cid fun x => { x with attic := true }

/-- A cohort's crews run in deterministic mode. -/
def cohortDet (s : State) (cid : Nat) : Bool :=
  match tget s.cohorts cid with
  | some c => ((launchOf s c.range).map (·.det)).getD false
  | none => false

/-- The range of a cohort, where that is deterministic. -/
def detRangeOf (s : State) (cid : Nat) : Option Nat := if cohortDet s cid then (tget s.cohorts cid).map (·.range) else none

/-- The cohorts that wait for the Attic before one of them does; the cohorts of one deterministic launch take it in commit order
(R268). -/
def atticAhead (s : State) (cluster cid : Nat) : List (Nat × Nat × Nat) :=
  ((getCluster s cluster).atticWait.takeWhile fun w => w.1 != cid).filter fun w =>
    (detRangeOf s w.1).isNone || detRangeOf s w.1 != detRangeOf s cid

/-- A cohort takes the Attic if it holds it already, or it is free and no other waits for it before (R268). -/
def takeAttic (s : State) (cluster cid : Nat) : Option State :=
  let c := getCluster s cluster
  if c.atticHolder = some cid then some s
  else if c.atticHolder.isNone && (atticAhead s cluster cid).isEmpty then some (giveAttic s cluster cid)
  else none

/-- A cohort's place among those that wait for the Attic: the cycle of its first stall, and the core and the slot of the gang that stalled
(R268). -/
def atticPlace (s : State) (g : Gang) : Nat × Nat × Nat := (g.cohort, s.ctl.clock, g.core * 32 + g.slot)

/-- A cohort that finds the Attic held is put among those that wait for it: in the order of the stalls, those of one cycle by core and gang
slot (R268). -/
def queueAttic (s : State) (g : Gang) : State :=
  let p := atticPlace s g
  modCluster s (gangCluster g) fun c =>
    if c.atticWait.any fun w => w.1 == g.cohort then c
    else { c with atticWait := insertBefore (fun w => w.2.1 == p.2.1 && decide (p.2.2 < w.2.2)) p c.atticWait }

/-- An MCC program of the cohort is running (R165). -/
def mccRunning (s : State) (cid : Nat) : Bool := ((tget s.mccs cid).map (·.running)).getD false

/-- A cohort still holds its place on its cluster: crews go on, or its MCC program does (R165, R248). -/
def cohortHolds (s : State) (cid : Nat) (c : Cohort) : Bool := !c.saved && (!c.ended || mccRunning s cid)

/-- Pool shares return once every crew has ended, and in a cohort of four no MCC program runs (R248). -/
def returnShares (s : State) (cid : Nat) : State :=
  match tget s.cohorts cid with
  | none => s
  | some c =>
    let allEnded := c.crews.all fun w => ((tget s.crews w).map (·.ended)).getD true
    if allEnded && !(mccRunning s cid) then
      let s1 := c.crews.foldl (fun s w => modCrew s w fun x => { x with share := false }) s
      modCohort (releaseAttic s1 c.cluster cid) cid fun x => { x with attic := false }
    else s

/-- The parent of a completed range: an automatic join goes to the record's Pantry, once its queue has room (R189, R256). -/
def parentJoin (s : State) (r : Range) (rid : Nat) : State :=
  if r.parent = 0 then s
  else
    match translate s { part := r.part, cluster := 0, super := r.super } .rmw r.parent with
    | .fault _ _ => autoJoinAt s r.part r.super r.parent
    | .ok key =>
      if queueFull s (homeOfKey s key) && !r.launch.det then modRange s rid fun x => { x with joinDue := true }
      else
        (sendRequest s { part := r.part, gang := 0, split := 0, core := noCore, home := homeOfKey s key, seq := 0,
                         sent := 0, place := 0, kind := .autoJoin r.parent rid, acq := none, rel := none, waits := [], table := false, seg := 0,
                         hist := [], known := Known.none, rtc := 0, pages := [r.parent.toNat / 2 ^ 16], copy := none }).2

/-- A parent join that found its queue full is made when there is room (R256). -/
def joinLater (s : State) (rid : Nat) : State :=
  match tget s.ranges rid with
  | some r => if r.joinDue then parentJoin (modRange s rid fun x => { x with joinDue := false }) r rid else s
  | none => s

/-- A range whose cohorts have all ended or been cancelled is removed, and its parent join is made (R209, R248); a durable range whose
end is replayed does not make it again (R312). -/
def rangeTest (s : State) (rid : Nat) : State :=
  match tget s.ranges rid with
  | none => s
  | some r =>
    if !r.done && decide (r.ended.length + r.cancelled.length ≥ r.count) then
      let s1 := cleanReservations (modRange s rid fun x => { x with done := true, queued := false, joined := r.launch.durable })
      if r.joined then s1 else parentJoin s1 r rid
    else s

/-- A cohort whose crews have all ended has ended: its sibling ends, its range is tested (R206, R248). -/
def cohortTest (s : State) (cid : Nat) : State :=
  match tget s.cohorts cid with
  | none => s
  | some c =>
    let allEnded := c.crews.all fun w => ((tget s.crews w).map (·.ended)).getD true
    if allEnded && !c.ended then
      let s1 := modCohort s cid fun x => { x with ended := true }
      let s2 := modRange s1 c.range fun r => if r.cancelled.contains c.index then r else { r with ended := r.ended ++ [c.index] }
      let s3 := match c.group with
        | some gid => siblingEnds s2 gid c.index
        | none => s2
      rangeTest s3 c.range
    else s

/-- The publications under way of a gang. -/
def pubsOfGang (s : State) (gid : Nat) : List Nat := (s.pubs.filter fun p => p.2.gang == gid).map (·.1)

/-- A gang's entries published together behind what is still under way for it (R219, R224). -/
def publishBehind (s : State) (core part gid : Nat) : State :=
  let segs := ((getCore s core).porch.filter fun e => e.gang == gid).flatMap (·.segs)
  let pub : Pub := { part := part, core := core, scope := .pk, after := pubsOfGang s gid, waits := [], gang := gid, seg := 0, hist := segs,
                     known := Known.none, release := [], rtc := ((tget s.gangs gid).map (·.rtc)).getD 0, event := eventEnd }
  (startPub s pub fun e => e.gang == gid).2

/-- The gangs of a list that have entries in a core's Porch which satisfy `p`. -/
def gangsWith (s : State) (core : Nat) (gids : List Nat) (p : PorchEntry → Bool) : List Nat :=
  gids.filter fun g => (getCore s core).porch.any fun e => e.gang == g && p e

/-- The entries of some gangs published: in one merge those of the gangs before whose entries nothing stands, and those of another gang
behind what does, all at the end of what the gang publishes, whose mark they set together: at a crew's end (R248) and before a save (R298).
What a publication at cluster scope has taken is carried on behind it (R219); what a replayed end had published is not published again
(R312). -/
def publishGangs (s : State) (core part : Nat) (gids : List Nat) : State :=
  let busy := gangsWith s core gids fun e => !entryFree s core e
  let free := (gangsWith s core gids fun _ => true).filter fun g => !busy.contains g
  let rtc (g : Nat) : DWord := ((tget s.gangs g).map (·.rtc)).getD 0
  let new := free.filter fun g => !alreadyPublished s g (rtc g) eventEnd
  let s1 := dropEntries s core fun e => free.contains e.gang && !new.contains e.gang
  let s2 := publishNow s1 core fun e => new.contains e.gang
  let s3 := new.foldl (fun s g => markGang s g (rtc g) eventEnd) s2
  busy.foldl (fun s g => publishBehind s core part g) s3

/-- The cluster-scope bytes and the Porch entries of a crew's gangs reach package scope (R219, R248); what a replayed end had
published is not published again (R312). -/
def publishCrew (s : State) (w : Crew) : State :=
  publishGangs (carryOverlay s fun o => w.gangs.contains o.gang) w.core w.part w.gangs

/-! ### Rendezvous -/

/-- The splits of a cohort's gangs that stand at a rendezvous. -/
def rdvSplits (s : State) (cid : Nat) : List (Nat × Nat) :=
  s.gangs.flatMap fun e =>
    if e.2.cohort == cid && e.2.status != .ended then (e.2.splits.filter fun p => p.2.wait == .rdv).map fun p => (e.1, p.1) else []

/-- Every participant has arrived: gangs that have exited and an MCC without a program, its array work done, count (R167, R294). -/
def rdvComplete (s : State) (cid : Nat) : Bool :=
  let gangs := s.gangs.filter fun e => e.2.cohort == cid && e.2.status != .ended
  let here := rdvSplits s cid
  let mcc := match tget s.mccs cid with
    | some m => (!m.running && m.queue.isEmpty) || m.wait == .rdv
    | none => true
  gangs.all (fun e => here.any fun h => h.1 == e.1) && mcc && (!here.isEmpty || mccRunning s cid)

/-- What is left of the overwritten values of bytes once the writes that satisfy `p` are ordered: those of later writes of a byte; the writes
stand in their order (R175). -/
def laterOlds (p : OldBy → Bool) (olds : List (Nat × Byte × OldBy)) : List (Nat × Byte × OldBy) :=
  (olds.foldr (fun o (left : List (Nat × Byte × OldBy) × List Nat) =>
    if left.2.contains o.1 then left else if p o.2.2 then (left.1, o.1 :: left.2) else (o :: left.1, left.2)) ([], [])).1

/-- A rendezvous orders the accesses before it, a fork those of its split, before the array work that follows: what they overwrote, and
what stood there before, is not read any more (R166, R168). -/
def forgetOlds (s : State) (cid : Nat) (p : OldBy → Bool) : State :=
  match tget s.cohorts cid with
  | none => s
  | some c =>
    modCluster (c.crews.foldl (fun s w => modCrew s w fun x => { x with olds := laterOlds p x.olds }) s) c.cluster fun x =>
      { x with atticOlds := laterOlds p x.atticOlds }

/-- What a rendezvous orders: everything but copies that no gang has seen complete (R168). -/
def rdvOrders : OldBy → Bool
  | .copy _ _ seen _ => seen
  | .strand .. => true

/-- The flags of completed array work become visible in the MCC's fpf (R55, R178). -/
def showFlags (s : State) (cid : Nat) : State := modMcc s cid fun m => { m with fpf := m.fpf ||| m.fpfNew, fpfNew := 0 }

/-- A rendezvous completes: every waiting participant resumes after its rdv (R167, R168, R221). -/
def rdvResume (s : State) (cid : Nat) : State :=
  let s1 := (rdvSplits s cid).foldl (fun s h => finishWait s h.1 h.2 [] (some .cl)) s
  let s2 := forgetOlds s1 cid rdvOrders
  match tget s.mccs cid with
  | some m => if m.running && m.wait == .rdv then retireMcc (showFlags s2 cid) cid (nextPc m.pc) else s2
  | none => s2

/-- A cohort has been saved and is out of its cluster. -/
def cohortOut (s : State) (cid : Nat) : Bool := ((tget s.cohorts cid).map (·.saved)).getD true

/-- The rendezvous of a cohort is tested; in deterministic mode it completes at the quantum end (R253). -/
def rdvTest (s : State) (cid : Nat) : State :=
  if rdvComplete s cid && !(cohortDet s cid) && !(cohortOut s cid) then rdvResume s cid else s

/-! ### Ends of crews -/

/-- Requests and waits of a gang that has ended are dropped; stores, reductions and messages already sent go on. -/
def dropWaits (s : State) (gids : List Nat) : State :=
  { s with requests := s.requests.filter fun e =>
      !(gids.contains e.2.gang && match e.2.kind with
        | .waitc .. | .readc .. | .barwait .. | .bart .. | .barq .. | .chunk .. | .sgstat .. => true
        | _ => false) }

/-- The moment is kept since which no crew stands on a cluster (R328). -/
def noteEmpty (s : State) (cl : Nat) : State :=
  let here (c : Cohort) : Bool := c.cluster == cl && !c.saved && c.crews.any fun w => (tget s.crews w).any fun x => !x.ended
  if s.cohorts.any fun e => here e.2 then s else modCluster s cl fun c => { c with emptyAt := s.ctl.clock }

/-- A crew ends (R248): its entries are published, its gangs leave, its pool share returns at once or with the cohort's; gangs that have
ended count as arrived at a rendezvous (R167). -/
def endCrew (s : State) (wid : Nat) : State :=
  match tget s.crews wid with
  | none => s
  | some w =>
    if w.ended then s
    else
      let s1 := publishCrew s w
      let s2 := w.gangs.foldl (fun s g =>
        modGang (releaseStair s w.core g) g fun x => { x with status := .ended, splits := [], needTable := false, qEnded := true }) s1
      let small := match tget s.cohorts w.cohort with
        | some c => decide (c.crews.length < 4)
        | none => false
      let s3 := noteEmpty (modCrew (dropWaits s2 w.gangs) wid fun x => { x with ended := true, share := x.share && !small }) (coreCluster w.core)
      rdvTest (returnShares (cohortTest s3 w.cohort) w.cohort) w.cohort

/-- A crew whose gangs have all ended ends (R248); in deterministic mode this is done at the quantum end (R253). -/
def crewTest (s : State) (wid : Nat) : State :=
  match tget s.crews wid with
  | none => s
  | some w =>
    if w.gangs.all fun g => (tget s.gangs g).all fun x => x.status == .ended then endCrew s wid else s

/-! ### Ends of gangs and MCC programs -/

/-- A gang whose last strand has exited ends; its crew and its rendezvous are tested (R108, R167, R248). -/
def endGang (s : State) (gid : Nat) : State :=
  match tget s.gangs gid with
  | none => s
  | some g =>
    let s1 := modGang s gid fun x => { x with status := .ended, splits := [], qEnded := true }
    if gangDet s g then s1 else rdvTest (crewTest s1 g.crew) g.cohort

/-- The MCC program of a cohort ends: it counts as arrived at every rendezvous, and the shares may return (R165, R248). -/
def endMcc (s : State) (cid : Nat) : State :=
  let s1 := modMcc s cid fun m => { m with running := false, wait := .none, status := .ended }
  rdvTest (returnShares s1 cid) cid

end Sys2Proof.Machine
end

