-- ==== Sys2Proof/Machine/Sources.lean ====
section
/-! DEFINITION. The v registers that an instruction reads and those that it writes at once (R251, R257). -/

namespace Sys2Proof.Machine

/-- Registers of an access of `n` bytes (R143). -/
def sizeRegs (n : Nat) : Nat := (n + 3) / 4

/-- The register fields of an access of `n` bytes. -/
def regBlock (d n : Nat) : List Nat := (List.range (sizeRegs n)).map fun i => d + i

/-- The v fields that are sources of an instruction; `none` for those that act on the blocks of a region (R251; log entry 70). -/
def vReads : Instr → Option (List Nat)
  | .iadd _ a b | .isub _ a b | .imul _ a b | .imulh _ a b | .imulhu _ a b | .imin _ a b | .imax _ a b | .iminu _ a b | .and _ a b
  | .or _ a b | .xor _ a b | .shl _ a b | .shr _ a b | .sra _ a b | .rot _ a b | .andn _ a b | .iabsd _ a b | .bfe _ a b | .fadd _ a b
  | .fsub _ a b | .fmul _ a b | .fmin _ a b | .fmax _ a b | .fscale _ a b | .geval _ a b _ | .iset _ _ a b | .imulw _ _ a b
  | .idiv _ a b _ | .idivu _ a b _ | .irem _ a b _ | .iremu _ a b _ | .fdiv _ a b _ | .fset _ _ a b | .lshfl _ _ a b => some [a, b]
  | .imad d a b | .sel d a b | .bfi d a b | .idot _ d a b | .ffma d a b | .fdot2 _ d a b | .fpack _ d a b => some [a, b, d]
  | .popc _ a | .clz _ a | .ctz _ a | .brev _ a | .iabs _ a | .ineg _ a | .not _ a | .iaddi _ a _ | .andi _ a _ | .ori _ a _
  | .xori _ a _ | .shli _ a _ | .shri _ a _ | .shriA _ a _ | .iseti _ _ a _ | .mov _ a | .fclass _ a | .frnd _ _ a | .cvt _ _ a
  | .fq4 _ a | .rcp _ a _ | .rsqrt _ a _ | .sqrt _ a _ | .exp2 _ a _ | .log2 _ a _ | .sinpi _ a _ | .cospi _ a _ | .tanh _ a _
  | .sigmoid _ a _ | .erf _ a _ | .kread _ a _ | .kvoteAny _ a | .kvoteAll _ a | .kvoteBallot _ a | .kfirst _ a | .lbcast _ a _
  | .leqm _ a | .lscan _ _ _ a | .lred _ _ a | .lrank _ a | .lpopm _ a | .ldgB _ a _ _ _ | .ldgH _ a _ _ _ | .ldgW _ a _ _ _
  | .ldgD _ a _ _ _ | .ldgQ _ a _ _ _ | .ldsB _ a _ _ | .ldsH _ a _ _ | .ldsW _ a _ _ | .ldsD _ a _ _ | .ldsQ _ a _ _ | .brz a _
  | .brnz a _ | .brany a _ | .brall a _ | .swr a _ => some [a]
  | .texp d a _ | .atomAdd d a _ _ _ | .atomMin d a _ _ _ | .atomMax d a _ _ _ | .atomAnd d a _ _ _ | .atomOr d a _ _ _
  | .atomXor d a _ _ _ | .atomXchg d a _ _ _ | .atomFadd d a _ _ _ => some [a, d]
  | .iadd64 _ a b | .isub64 _ a b | .imul64 _ a b => some [a, a + 1, b, b + 1]
  | .shf _ a b => some [a, a + 1, b]
  | .rngsplit a => some [a, a + 1]
  | .stgB d a _ _ | .stsB d a _ => some (a :: regBlock d 1)
  | .stgH d a _ _ | .stsH d a _ => some (a :: regBlock d 2)
  | .stgW d a _ _ | .stsW d a _ => some (a :: regBlock d 4)
  | .stgD d a _ _ | .stsD d a _ => some (a :: regBlock d 8)
  | .stgQ d a _ _ | .stsQ d a _ => some (a :: regBlock d 16)
  | .atomCas d a _ _ _ => some [a, d, d + 1]
  | .red p d a _ _ => some (if p = .add64 then [a, d, d + 1] else [a, d])
  | .satom f _ a b => some (if f = .cas then [a, b, b + 1] else [a, b])
  | .rxcfg _ | .rxbody | .rxend | .rxabort => none
  | .nop | .exit | .yield | .brk | .eret .. | .icinv .. | .pfence .. | .phase | .halt | .ret .. | .trap .. | .srd .. | .setfmt ..
  | .winb .. | .bra .. | .bkz .. | .bknz .. | .call .. | .jmpk .. | .callk .. | .movi .. | .movk .. | .kadd .. | .ksub .. | .kmul ..
  | .kmulh .. | .kmulhu .. | .kmin .. | .kmax .. | .kminu .. | .kand .. | .kor .. | .kxor .. | .kshl .. | .kshr .. | .ksra ..
  | .krot .. | .kandn .. | .kmad .. | .ksel .. | .kbfe .. | .kbfi .. | .kpopc .. | .kclz .. | .kadd64 .. | .ksub64 .. | .kmul64 ..
  | .kmulw .. | .kdivu .. | .kremu .. | .kset .. | .kaddi .. | .kmovi .. | .kshlImm .. | .kshrImm .. | .ksraImm .. | .kldt ..
  | .spawn .. | .chunk .. | .msgsend .. | .join .. | .sgfork .. | .sgreward .. | .sgcancel .. | .sgstat .. | .digest .. | .stepmark ..
  | .qend | .rngnext .. | .rngu .. | .fence .. | .cpyin .. | .cpyout .. | .cpyatt .. | .cpyg .. | .tagwany .. | .tagwall .. | .tagff ..
  | .tagclr .. | .barr .. | .barw .. | .barwait .. | .barx .. | .bart .. | .barp .. | .barq .. | .barcfg .. | .waitc .. | .sigc ..
  | .readc .. | .mma .. | .mmag .. | .mzero .. | .mdrain .. | .mwait | .gset .. | .mccRdv | .fork .. | .rdv | .heldFaultRecordPost ..
  | .crewLimit | .copyCompletion .. | .copyFault .. | .arrayExecute .. | .pantryRequestServe .. | .faultBufferRetry ..
  | .schedulerPlacement .. | .recordAging .. | .headRecordSpill .. | .clusterReservation .. | .reservationPreempt .. | .preemptSave ..
  | .cohortRestore .. | .gangQuantumEnd .. | .quantumEnd .. | .idleQuantumEnd .. | .sgDeadline .. | .messageArrival ..
  | .portBufferMessageEntry .. | .heldRecordEntry .. | .remoteAccess .. | .replicaDigestArrival .. | .replicaTimeout .. | .seal ..
  | .dirtyBudget .. | .supplyFailure .. | .cellarResume .. | .uncorrectableError .. | .clockGate .. | .retentionEntry ..
  | .powerGating .. | .clusterWake .. | .powerSample .. | .supplyDroop .. | .railSettled .. | .leaseExpiry | .flitCrcFailure ..
  | .linkDown .. | .linkTraining .. | .boot .. | .managementRegisterWrite .. | .hostMemoryWrite .. | .hostMemoryRead .. | .create ..
  | .configure .. | .place .. | .map .. | .setRoot .. | .hostHalt .. | .resume .. | .setRoute .. | .setReplica .. | .operatingPoint ..
  | .budgetToken .. | .readTelemetry .. | .attest .. | .destroy .. | .usagePeriodEnd .. | .heldUsageRecordPost .. | .heldEventPost
  | .nonInstructionWord .. | .instructionFetchFault | .publicationAcknowledgement .. | .linkRetrained .. => some []

/-- The v fields that an instruction writes as it retires; a long-latency result lands later (R29). -/
def vWrites : Instr → List Nat
  | .iadd d _ _ | .isub d _ _ | .imul d _ _ | .imulh d _ _ | .imulhu d _ _ | .imin d _ _ | .imax d _ _ | .iminu d _ _ | .and d _ _
  | .or d _ _ | .xor d _ _ | .shl d _ _ | .shr d _ _ | .sra d _ _ | .rot d _ _ | .andn d _ _ | .iabsd d _ _ | .bfe d _ _ | .fadd d _ _
  | .fsub d _ _ | .fmul d _ _ | .fmin d _ _ | .fmax d _ _ | .fscale d _ _ | .geval d _ _ _ | .iset _ d _ _ | .fset _ d _ _
  | .lshfl _ d _ _ | .imad d _ _ | .sel d _ _ | .bfi d _ _ | .idot _ d _ _ | .ffma d _ _ | .fdot2 _ d _ _ | .fpack _ d _ _ | .popc d _
  | .clz d _ | .ctz d _ | .brev d _ | .iabs d _ | .ineg d _ | .not d _ | .iaddi d _ _ | .andi d _ _ | .ori d _ _ | .xori d _ _
  | .shli d _ _ | .shri d _ _ | .shriA d _ _ | .iseti _ d _ _ | .mov d _ | .movi d _ | .movk d _ | .fclass d _ | .frnd _ d _
  | .cvt _ d _ | .fq4 d _ | .lbcast d _ _ | .lscan _ _ d _ | .lred _ d _ | .lrank d _ | .lpopm d _ | .rngnext d | .rngu d
  | .satom _ d _ _ | .shf d _ _ | .srd d _ => [d]
  | .iadd64 d _ _ | .isub64 d _ _ | .imul64 d _ _ | .imulw _ d _ _ | .leqm d _ => [d, d + 1]
  | .nop | .exit | .yield | .brk | .eret .. | .icinv .. | .pfence .. | .phase | .halt | .ret .. | .trap .. | .swr .. | .setfmt ..
  | .winb .. | .bra .. | .brz .. | .brnz .. | .brany .. | .brall .. | .bkz .. | .bknz .. | .call .. | .jmpk .. | .callk .. | .kadd ..
  | .ksub .. | .kmul .. | .kmulh .. | .kmulhu .. | .kmin .. | .kmax .. | .kminu .. | .kand .. | .kor .. | .kxor .. | .kshl ..
  | .kshr .. | .ksra .. | .krot .. | .kandn .. | .kmad .. | .ksel .. | .kbfe .. | .kbfi .. | .kpopc .. | .kclz .. | .kadd64 ..
  | .ksub64 .. | .kmul64 .. | .kmulw .. | .kdivu .. | .kremu .. | .kset .. | .kaddi .. | .kmovi .. | .kshlImm .. | .kshrImm ..
  | .ksraImm .. | .kldt .. | .kread .. | .kvoteAny .. | .kvoteAll .. | .kvoteBallot .. | .kfirst .. | .spawn .. | .chunk ..
  | .msgsend .. | .join .. | .rxcfg .. | .rxbody | .rxend | .rxabort | .sgfork .. | .sgreward .. | .sgcancel .. | .sgstat .. | .rcp ..
  | .rsqrt .. | .sqrt .. | .exp2 .. | .log2 .. | .sinpi .. | .cospi .. | .tanh .. | .sigmoid .. | .erf .. | .texp .. | .idiv ..
  | .idivu .. | .irem .. | .iremu .. | .fdiv .. | .digest .. | .stepmark .. | .qend | .rngsplit .. | .ldgB .. | .ldgH .. | .ldgW ..
  | .ldgD .. | .ldgQ .. | .stgB .. | .stgH .. | .stgW .. | .stgD .. | .stgQ .. | .ldsB .. | .ldsH .. | .ldsW .. | .ldsD .. | .ldsQ ..
  | .stsB .. | .stsH .. | .stsW .. | .stsD .. | .stsQ .. | .atomAdd .. | .atomMin .. | .atomMax .. | .atomAnd .. | .atomOr ..
  | .atomXor .. | .atomXchg .. | .atomCas .. | .atomFadd .. | .red .. | .fence .. | .cpyin .. | .cpyout .. | .cpyatt .. | .cpyg ..
  | .tagwany .. | .tagwall .. | .tagff .. | .tagclr .. | .barr .. | .barw .. | .barwait .. | .barx .. | .bart .. | .barp .. | .barq ..
  | .barcfg .. | .waitc .. | .sigc .. | .readc .. | .mma .. | .mmag .. | .mzero .. | .mdrain .. | .mwait | .gset .. | .mccRdv
  | .fork .. | .rdv | .heldFaultRecordPost .. | .crewLimit | .copyCompletion .. | .copyFault .. | .arrayExecute ..
  | .pantryRequestServe .. | .faultBufferRetry .. | .schedulerPlacement .. | .recordAging .. | .headRecordSpill ..
  | .clusterReservation .. | .reservationPreempt .. | .preemptSave .. | .cohortRestore .. | .gangQuantumEnd .. | .quantumEnd ..
  | .idleQuantumEnd .. | .sgDeadline .. | .messageArrival .. | .portBufferMessageEntry .. | .heldRecordEntry .. | .remoteAccess ..
  | .replicaDigestArrival .. | .replicaTimeout .. | .seal .. | .dirtyBudget .. | .supplyFailure .. | .cellarResume ..
  | .uncorrectableError .. | .clockGate .. | .retentionEntry .. | .powerGating .. | .clusterWake .. | .powerSample .. | .supplyDroop ..
  | .railSettled .. | .leaseExpiry | .flitCrcFailure .. | .linkDown .. | .linkTraining .. | .boot .. | .managementRegisterWrite ..
  | .hostMemoryWrite .. | .hostMemoryRead .. | .create .. | .configure .. | .place .. | .map .. | .setRoot .. | .hostHalt ..
  | .resume .. | .setRoute .. | .setReplica .. | .operatingPoint .. | .budgetToken .. | .readTelemetry .. | .attest .. | .destroy ..
  | .usagePeriodEnd .. | .heldUsageRecordPost .. | .heldEventPost | .nonInstructionWord .. | .instructionFetchFault
  | .publicationAcknowledgement .. | .linkRetrained .. => []

end Sys2Proof.Machine
end

