-- ==== Sys2Proof/Machine/Ops.lean ====
section
/-! DEFINITION. Issue of an instruction by a gang or an MCC, taking a trap, and the return from one
(R18, R32 to R36, R73, R74, R94, R111, R196, R249, R274, R294, R368). -/

namespace Sys2Proof.Machine

/-- The outcome of a step of this machine. -/
abbrev Outcome := Host.Outcome State Fault Refusal

/-! ### Who issues -/

/-- The unit that issues: a split of a gang, or the MCC that runs a cohort's program. -/
inductive Actor
  | gang (gid : Nat) (g : Gang) (si : Nat) (sp : Split)
  | mcc (cid : Nat) (c : Cohort) (m : Mcc)
  deriving DecidableEq, Repr

/-- The unit named by `ctl.cur`, where it is there. -/
def issuer (s : State) : Option Actor :=
  match s.ctl.cur with
  | .none => none
  | .gang gid si =>
    match tget s.gangs gid with
    | none => none
    | some g => (tget g.splits si).map fun sp => .gang gid g si sp
  | .mcc cid =>
    match tget s.cohorts cid, tget s.mccs cid with
    | some c, some m => some (.mcc cid c m)
    | _, _ => none

/-! ### Reads through the instruction-fetch path -/

/-- What bounds the age of a fetched word: the place of pub of the last discard of the cache, and of the last discard at cluster scope
or wider, before which bytes published at cluster scope are readable too (R112, R269). -/
structure FetchBound where
  pk : Nat
  cl : Nat
  deriving DecidableEq, Repr

/-- The bound of a core's instruction cache, and of an MCC's. -/
def coreBound (s : State) (core : Nat) : FetchBound := { pk := (getCore s core).icBound, cl := (getCore s core).icCluster }
def mccBoundOf (s : State) (cl : Nat) : FetchBound := { pk := (getCluster s cl).mccBound, cl := (getCluster s cl).mccCluster }

/-- A bound raised to the placement of a range: only a change made after it may be missed by the fetches of its programs (R94). -/
def FetchBound.placed (s : State) (range : Nat) (b : FetchBound) : FetchBound :=
  { b with pk := max b.pk (((tget s.ranges range).map (·.placed)).getD 0) }

/-- The bound of the fetches and of the table reads of a gang, and of a cohort's MCC (R94, R112, R269). -/
def gangBound (s : State) (g : Gang) : FetchBound := (coreBound s g.core).placed s g.range
def cohortBound (s : State) (c : Cohort) : FetchBound := (mccBoundOf s c.cluster).placed s c.range

/-- The bound of the code line that a split runs: a line fetched before a discard may go on to the split's next control transfer
(R269; log entry 44). -/
def splitBound (s : State) (g : Gang) (sp : Split) : FetchBound :=
  let b := gangBound s g
  match sp.line with
  | some (n, q) => if sp.pc.toNat / 128 = n then { pk := min q b.pk, cl := min q b.cl } else b
  | none => b

/-- The earliest state a word may date from: the last discard, or a later carrying on of a byte that the cluster had published at
cluster scope before its discard (R227; log entry 44). -/
def fetchFloor (s : State) (cl : Nat) (b : FetchBound) (key : Nat) : Nat :=
  (s.mem.past.filter fun p => p.addr / 4 == key / 4 && sourceCluster p.source == some cl && decide (p.id ≤ b.cl)).foldl
    (fun n p => max n p.seq) b.pk

/-- The times a cached word may date from: the present, and every earlier state since the last discard (R94, R112). -/
def fetchTimes (s : State) (cl : Nat) (b : FetchBound) (key : Nat) : List Nat :=
  ((s.mem.past.filter fun p => p.addr / 4 == key / 4 && p.only.isNone && decide (p.seq > fetchFloor s cl b key)).map fun p => p.seq - 1)
    ++ [s.mem.seq]

/-- A write of a byte was readable to a cluster's fetches at a time: one at package scope, or one that its own cores published at cluster
scope before the last discard there, and that another has overtaken since (R219, R227). -/
def fetchable (cl : Nat) (b : FetchBound) (t : Nat) (p : Past) : Bool :=
  decide (p.seq ≤ t) && (p.only.isNone || (p.only == some cl && decide (p.id ≤ b.cl)))

/-- A byte of a fetched word: as it stood at a time, or as the cluster has published it at cluster scope before the last discard there. -/
def fetchByte (s : State) (cl : Nat) (b : FetchBound) (t key : Nat) : Byte :=
  match (overlayOf s cl key).reverse.find? fun o => decide (o.id ≤ b.cl) with
  | some o => o.val
  | none =>
    match (pastOf s key).reverse.find? (fetchable cl b t) with
    | some p => p.val
    | none => byteAt s t key

/-- A word read through the fetch path: freely the new or an old value, until an icinv covers the core (R94). -/
def fetchWord (s : State) (cl : Nat) (b : FetchBound) (key : Nat) : Word :=
  let t := (chooseFrom s 4 key (fetchTimes s cl b key)).getD s.mem.seq
  BitVec.ofNat 32 (natLE ((List.range 4).map fun i => fetchByte s cl b t (key + i)))

/-- A fetch of a word at a virtual address: its value, or the trap, its cause and its address (R74, R94, R269). -/
def fetchAt (s : State) (v : View) (k : AccessKind) (b : FetchBound) (va : DWord) : Except (TrapCode × Nat × DWord) Word :=
  match translate s v k va with
  | .fault t c => .error (t, c, va)
  | .ok key => .ok (fetchWord s v.cluster b key)

/-- The instruction that a split issues next, where its fetch meets no trap. -/
def nextInstr (s : State) (g : Gang) (sp : Split) : Option Instr :=
  match fetchAt s (gangView g) .fetch (splitBound s g sp) sp.pc with
  | .ok w => decodeWord w.toNat
  | .error _ => none

/-- A source of an instruction is a register that a late landing of the split will still write (R251). -/
def readsAwaited (g : Gang) (sp : Split) (i : Instr) : Bool :=
  match vReads i with
  | some rs => (awaitedCells sp).any fun c => rs.any fun j => c / 64 == g.wbase + j
  | none => !(awaitedCells sp).isEmpty

/-- The next instruction's sources are held by a landing that is still to come (R251). -/
def sourcesHeld (s : State) (g : Gang) (sp : Split) : Bool := heldByLanding sp && (nextInstr s g sp).any (readsAwaited g sp)

/-- A split is ready, so far as it is its own (R251). -/
def splitReady (s : State) (g : Gang) (sp : Split) : Bool := sp.wait == .none && !atMerge sp && !sourcesHeld s g sp

/-- Constant-table entries 0 to 31, read at a program's start as 32 kldt reads (R165, R368). -/
def readTable (s : State) (v : View) (bound : FetchBound) (table : DWord) : Except (TrapCode × Nat × DWord) (List Word) :=
  (List.range 32).foldr (fun i acc =>
    match fetchAt s v .table bound (table + BitVec.ofNat 64 (4 * i)) with
    | .error e => .error e
    | .ok w => match acc with
      | .error e => .error e
      | .ok ws => .ok (w :: ws)) (.ok [])

/-! ### Taking a trap -/

/-- The partition-independent key of a fault-buffer entry: VA >> 16 (R274). -/
def faultKey (va : DWord) : Nat := va.toNat / 2 ^ 16

/-- A trap waits in the fault buffer: an XLATE with cause 0 or 2 (R274). -/
def takesPlace (t : TrapInfo) : Bool := t.code == .xlate && (t.cause == 0 || t.cause == 2)

/-- An agent takes its place in the cluster's fault buffer, or is held without one (R274). -/
def joinBuffer (s : State) (cluster part : Nat) (va : DWord) (a : Agent) : Option State :=
  match faultJoin (getCluster s cluster).faults part (faultKey va) a with
  | none => none
  | some (es, _) => some (modCluster s cluster fun c => { c with faults := es })

/-- An agent is held at a full fault buffer, at the entry of this partition and key (R274). -/
def holdAgent (s : State) (cluster part key : Nat) (a : Agent) : State :=
  modCluster s cluster fun c => { c with heldFaults := c.heldFaults ++ [a], heldAt := c.heldAt ++ [(a, part, key)] }

/-- An agent is held no longer. -/
def leaveHeld (s : State) (cluster : Nat) (a : Agent) : State :=
  modCluster s cluster fun c => { c with heldFaults := c.heldFaults.filter (· != a), heldAt := c.heldAt.filter fun h => h.1 != a }

/-- A trap of a gang at split `si`, as `flags` and `info` describe it (R31, R33, R34): pending writes land, the whole gang is
parked, one record is posted.  With results of requests still to come the split waits, and traps when it is issued again; a gang held at
a full fault buffer counts as not having issued, and stays as it is (R274). -/
def takeTrap (s : State) (gid : Nat) (g : Gang) (si : Nat) (t : TrapInfo) (flags : Nat) : State :=
  if gangOpen g then s
  else
    let s1 := setGang s gid (landGang g)
    match tget g.splits si with
    | none => s
    | some sp =>
      let park (s' : State) : State :=
        let s2 := modGang s' gid fun x => { x with status := .parked }
        bumpFree (postRecord s2 g.part (g.level != .user) (gangRecord s2 gid g si sp t flags))
      if takesPlace t then
        match joinBuffer s1 (gangCluster g) g.part t.addr (.gang gid) with
        | some s2 => park s2
        | none => holdAgent (modGang s gid fun x => { x with status := .held }) (gangCluster g) g.part (faultKey t.addr) (.gang gid)
      else park s1

/-- A trap of an MCC: it is parked, and its record is flagged as from the MCC (R33, R175). -/
def takeTrapMcc (s : State) (cid : Nat) (c : Cohort) (m : Mcc) (t : TrapInfo) : State :=
  let park (s' : State) : State :=
    let s2 := modMcc s' cid fun x => { x with status := .parked }
    bumpFree (postRecord s2 c.part (cohortSuper s c) (mccRecord s2 cid c m t))
  if takesPlace t then
    match joinBuffer s c.cluster c.part t.addr (.mcc cid) with
    | some s2 => park s2
    | none => holdAgent (modMcc s cid fun x => { x with status := .held }) c.cluster c.part (faultKey t.addr) (.mcc cid)
  else park s

/-- A trap of whoever issues. -/
def trapActor (s : State) (a : Actor) (t : TrapInfo) : Outcome :=
  match a with
  | .gang gid g si _ => .next (takeTrap s gid g si t 0)
  | .mcc cid c m => .next (takeTrapMcc s cid c m t)

/-- A trap that carries nothing but its code, by whoever issues. -/
def trapPlain (s : State) (a : Actor) (c : TrapCode) : Outcome := trapActor s a (plainTrap c)

/-- A PERM for an instruction above the issuer's level (R32, R273 cause 4). -/
def privilegeTrap : TrapInfo := { plainTrap .perm with cause := 4 }

/-- A trap of an access to one address, as a translation reports it. -/
def accessTrap (k : AccessKind) (e : TrapCode × Nat × DWord) : TrapInfo :=
  { code := e.1, cause := e.2.1, access := k, imm := 0, lanes := 0, addr := e.2.2 }

/-! ### The checks before an instruction executes -/

/-- A v field names a register beyond the allocation (R18). -/
def outOfWindow (g : Gang) (vs : List Nat) : Bool := vs.any fun j => decide (g.wbase + j ≥ g.nregs)

/-- The crew limit of a gang's launch binds it (R249). -/
def limitReached (s : State) (range : Nat) (rtc : DWord) : Bool :=
  match launchOf s range with
  | some l => l.limit != 0 && decide (l.limit ≤ rtc.toNat)
  | none => false

/-- What an instruction may do in region state 2: not issue, or issue with these destination registers (R196). -/
abbrev InBody := Option (List Nat)

/-- A destination of an instruction of a region's body lies in bc (R196). -/
def inCommitted (g : Gang) (ds : List Nat) : Bool :=
  regionState g == 2 && g.region.any fun r => ds.any fun d => decide (r.bc ≤ g.wbase + d) && decide (g.wbase + d < r.bc + r.steps * r.dim)

/-- An instruction breaks R196: it is not in the list, or a destination lies in bc. -/
def breaksRegion (g : Gang) (b : InBody) : Bool :=
  match b with
  | some ds => inCommitted g ds || (regionState g == 2 && g.region.isNone)
  | none => regionState g == 2

/-- The two shapes of a gang instruction for lookahead: one that goes on with open windows, or a control transfer, barrier or
wait that closes them (R29). -/
inductive Closing | opens | closes
  deriving DecidableEq, Repr

/-- A gang instruction: the checks of R18, R73, R74, R249, R196 in their order, landings that are due, then its effect.
`vs` are the v fields it names.  DEDUCED, on R29 and R257: a transfer, a barrier or a wait issues once the results of what it closes have come,
since their landing point is before it.  DESIGN CHOICE, on R29: a write that is due right after an instruction lands before the writes that
the transfer behind it, or an arrival at a merge point, closes; they share no landing point, so the later-issued value remains (log
entry 47). -/
def gangOp (cl : Closing) (vs : List Nat) (b : InBody) (super : Bool) (s : State)
    (f : State → Nat → Gang → Nat → Split → Outcome) : Outcome :=
  match issuer s with
  | none => .fault .noIssuer
  | some (.mcc cid c m) => .next (takeTrapMcc s cid c m (plainTrap .illegal))
  | some (.gang gid g si sp) =>
    if cl == .closes && splitOpen sp then .next s
    else
      let g := if cl == .closes then landSplit g si else g
      let sp := if cl == .closes then { sp with pend := [] } else sp
      if outOfWindow g vs then .next (takeTrap s gid g si (plainTrap .illegal) 0)
      else if super && g.level == .user then .next (takeTrap s gid g si privilegeTrap 0)
      else if limitReached s g.range g.rtc then .next (takeTrap s gid g si (plainTrap .crewLimit) 0)
      else if breaksRegion g b then .next (takeTrap s gid g si (plainTrap .invalidParam) 0)
      else f (setGang s gid g) gid g si sp

/-- An MCC instruction; in a gang it traps MATRIX_RIGHTS (R73, R174). -/
def mccOp (s : State) (f : State → Nat → Cohort → Mcc → Outcome) : Outcome :=
  match issuer s with
  | none => .fault .noIssuer
  | some (.gang gid g si _) => .next (takeTrap s gid g si (plainTrap .matrixRights) 0)
  | some (.mcc cid c m) =>
    if limitReached s c.range m.rtc then .next (takeTrapMcc s cid c m (plainTrap .crewLimit)) else f s cid c m

/-- An instruction of both sides: one effect in a gang, one on the MCC. -/
def eitherOp (cl : Closing) (vs : List Nat) (b : InBody) (super : Bool) (s : State)
    (f : State → Nat → Gang → Nat → Split → Outcome) (h : State → Nat → Cohort → Mcc → Outcome) : Outcome :=
  match issuer s with
  | some (.mcc cid c m) =>
    if limitReached s c.range m.rtc then .next (takeTrapMcc s cid c m (plainTrap .crewLimit)) else h s cid c m
  | _ => gangOp cl vs b super s f

/-! ### Registers of the issuing unit -/

/-- A gang with a k register written. -/
def setK (g : Gang) (d : Nat) (x : Word) : Gang := { g with k := cset g.k d x }

/-- A pair of a k file (R17, R19). -/
def kPair (k : Cells 32) (j : Nat) : DWord := pairOf (cget k j) (cget k (j + 1))

/-- A k file with a pair written. -/
def setKPair (k : Cells 32) (j : Nat) (x : DWord) : Cells 32 := cset (cset k j (loWord x)) (j + 1) (hiWord x)

/-- A uniform instruction on the k file of whoever issues: it writes the file and retires (R82, R92). -/
def kOp (s : State) (f : Cells 32 → Cells 32) : Outcome :=
  eitherOp .opens [] none false s
    (fun s gid g si sp => .next (retireAt (setGang s gid { g with k := f g.k }) gid si (nextPc sp.pc)))
    (fun s cid _ m => .next (retireMcc (modMcc s cid fun x => { x with k := f m.k }) cid (nextPc m.pc)))

/-- An instruction of a gang that has written its registers retires. -/
def doneAt (s : State) (gid : Nat) (g : Gang) (si : Nat) (sp : Split) : Outcome :=
  .next (retireAt (setGang s gid g) gid si (nextPc sp.pc))

/-! ### The return from a trap -/

/-- The gang in its region's one split again, with the lanes and the records that it had at rxbody (R200, R202).  DEDUCED: where a region is
left in state 2 with several splits, the others end, and with them their pending lookahead writes (log entry 16). -/
def joinRegion (g : Gang) (si : Nat) (r : Region) : Gang :=
  match tget g.splits si with
  | none => g
  | some sp => { g with splits := [(si, { sp with mask := r.active, recs := r.recs })] }

/-- rxabort's effect on a gang in region state 1 or 2 (R202); `si` is the split that goes on. -/
def abortRegion (g : Gang) (si : Nat) : Gang :=
  let off : Gang := { g with rxs := (g.rxs &&& ~~~(3#32 <<< 24)) ||| (1#32 <<< 23), region := none }
  match regionState g, g.region with
  | 1, _ => off
  | 2, some r => joinRegion off si r
  | 2, none => off
  | _, _ => g

/-- A waiter leaves the fault buffer; an entry without waiters is free (R274).  DESIGN CHOICE: so it is where an eret or the end of a crew
comes before a mapping that covers the entry's key, of which R274 speaks alone (log entry 61). -/
def leaveBuffer (s : State) (cluster : Nat) (a : Agent) : State :=
  modCluster s cluster fun c =>
    { c with faults := (c.faults.map fun e => { e with waiters := e.waiters.filter (· != a) }).filter fun e => !e.waiters.isEmpty }

/-- The start of a gang's program where its constant table has not been read: k0 to k31 are read in full, or the gang is
parked at its entry with a record of access kind 7 (R368). -/
def startTable (s : State) (gid : Nat) : State :=
  match tget s.gangs gid with
  | none => s
  | some g =>
    match launchOf s g.range with
    | none => s
    | some l =>
      match readTable s (gangView g) (gangBound s g) l.table with
      | .ok ws => modGang s gid fun x =>
          { x with needTable := false, status := .running, k := csets x.k ((List.range 32).zip ws) }
      | .error e => takeTrap (modGang s gid fun x => { x with needTable := true }) gid g 0 (accessTrap .table e) 0

/-- The start of an MCC program where its constant table has not been read (R165, R368). -/
def startTableMcc (s : State) (cid : Nat) : State :=
  match tget s.cohorts cid, tget s.mccs cid with
  | some c, some m =>
    match launchOf s c.range with
    | none => s
    | some l =>
      match readTable s (mccView s c) (cohortBound s c) l.table with
      | .ok ws => modMcc s cid fun x =>
          { x with needTable := false, status := .running, k := csets x.k ((List.range 32).zip ws) }
      | .error e => takeTrapMcc (modMcc s cid fun x => { x with needTable := true }) cid c m (accessTrap .table e)
  | _, _ => s

/-- A region whose pass was discarded at a pre-emption restarts at the region's own start (R203). -/
def resumePoint (g : Gang) (r : FaultRecord) (point : DWord) : DWord :=
  match g.region with
  | some rg => if r.flags / 16 % 2 = 1 then rg.start else point
  | none => point

/-- The split that a record's answer resumes: the one it names, or where the pass was restarted the one that is left (R203). -/
def answeredSplit (g : Gang) (r : FaultRecord) : Nat :=
  if (tget g.splits r.split).isSome then r.split else ((g.splits.head?).map (·.1)).getD r.split

/-- The parked gang of a record resumes: the trapping split at the resume point, the others where they were (R111, R294).
The resumed gang acquires at package scope what its handler has released (R111, R221).  With its region aborted, or resumed away from
the rxbody that it stalled at, it claims and waits for no stair unit (R277). -/
def resumeGang (s : State) (gid : Nat) (r : FaultRecord) (point : DWord) (abort : Bool) (k : Known) : State :=
  match tget s.gangs gid with
  | none => s
  | some g =>
    if g.status == .ended then s else
    let s := if abort || (regionState g != 2 && point != r.pc) then releaseStair s g.core gid else s
    let si := answeredSplit g r
    let g1 := if abort then abortRegion g si else g
    let g2 := { g1 with status := .running,
                        splits := tmod g1.splits si (fun sp => { sp with pc := resumePoint g1 r point, wait := .none, last := s.ctl.clock, line := none }) }
    let s1 := leaveBuffer (setGang s gid (settled g2)) (gangCluster g) (.gang gid)
    let s2 := refreshGang s1 gid g.core .pk k
    if g.needTable then startTable s2 gid else s2

/-- The parked MCC of a record resumes (R294). -/
def resumeMcc (s : State) (cid : Nat) (point : DWord) : State :=
  match tget s.cohorts cid with
  | none => s
  | some c =>
    let s1 := leaveBuffer (modMcc s cid fun m => { m with status := .running, pc := point }) c.cluster (.mcc cid)
    if ((tget s.mccs cid).map (·.needTable)).getD false then startTableMcc s1 cid else s1

/-- The crew of a gang ends by its handler's answer; for a record of the MCC only the MCC program ends (R294). -/
def endOwner (s : State) (r : FaultRecord) : State :=
  match r.owner with
  | .gang gid =>
    match tget s.gangs gid with
    | some g => endCrew (leaveBuffer s (gangCluster g) (.gang gid)) g.crew
    | none => s
  | .mcc cid =>
    match tget s.cohorts cid with
    | some c => endMcc (leaveBuffer s c.cluster (.mcc cid)) cid
    | none => s
  | _ => s

/-- The cohort of the agent that a record belongs to. -/
def ownerCohort (s : State) : Agent → Option Nat
  | .gang gid => (tget s.gangs gid).map (·.cohort)
  | .mcc cid => some cid
  | _ => none

/-- The effect of an answer on the agent of its record (R294). -/
def takeAnswer (s : State) (a : HeldAnswer) : State :=
  if a.record.resume = 2 || a.point = 0 then endOwner s a.record
  else
    match a.record.owner with
    | .gang gid => resumeGang s gid a.record a.point a.abort a.known
    | .mcc cid => resumeMcc s cid a.point
    | _ => s

/-- eret traps on a resume point that no transfer may go to (R74, R294). -/
def pointBad (r : FaultRecord) (point : DWord) : Bool :=
  !(r.resume = 2 || point = 0) && (point.toNat % 4 != 0 || !canonicalVa point)

/-- The answer of a handler to a record, with the resume point and flags [7] it reads (R294); `none` where eret traps.  For a cohort
that has been saved it takes effect at the restore (R302). -/
def answerRecord (s : State) (r : FaultRecord) (point : DWord) (abort : Bool) (k : Known) : Option State :=
  let a : HeldAnswer := { record := r, point := point, abort := abort, known := k }
  if pointBad r point then none
  else
    match (ownerCohort s r.owner).bind fun cid => (tget s.cohorts cid).map fun c => (cid, c.saved) with
    | some (cid, true) => some (modCohort s cid fun c => { c with answers := c.answers ++ [a] })
    | _ => some (takeAnswer s a)

/-- The record of a fault queue at a physical key: posted and not yet answered (R111).  DESIGN CHOICE: a notice, which needs no answer, is
never held as open, so that an eret on its address traps; of two open records of one slot the older is answered first (log entry 65). -/
def openRecord (p : Part) (part key : Nat) : Option (Nat × FaultRecord) :=
  p.open'.find? fun e => physKey part (recordAddr p e.1) == key

end Sys2Proof.Machine
end

