-- ==== Sys2Proof/Machine/Operands.lean ====
section
/-! DEFINITION. Operand forms: v registers through the window, pairs, the rounding control of a strand, addresses of memory
forms (R17, R18, R50, R65, R146). -/

namespace Sys2Proof.Machine

/-- The cell of register field `j` in a lane: allocated register wbase + j (R18). -/
def vkey (g : Gang) (j lane : Nat) : Nat := (g.wbase + j) * 64 + lane

/-- V(s, j) of R39. -/
def vget (g : Gang) (j lane : Nat) : Word := cget g.v (vkey g j lane)

/-- The pair vj:j+1 of a strand (R17). -/
def vpair (g : Gang) (j lane : Nat) : DWord := pairOf (vget g j lane) (vget g (j + 1) lane)

/-- The cells an instruction writes in register `d` of the lanes of a mask. -/
def laneWrites (g : Gang) (m : Mask) (d : Nat) (f : Nat → Word) : List (Nat × Word) :=
  (lanesOf m).map fun l => (vkey g d l, f l)

/-- The cells an instruction writes in the pair vd:d+1 of the lanes of a mask. -/
def laneWritesPair (g : Gang) (m : Mask) (d : Nat) (f : Nat → DWord) : List (Nat × Word) :=
  (lanesOf m).flatMap fun l => [(vkey g d l, loWord (f l)), (vkey g (d + 1) l, hiWord (f l))]

/-- A gang with `f` written to register `d` of every lane of a mask; sources are those of the gang given (R10, R250). -/
def perLane (g : Gang) (m : Mask) (d : Nat) (f : Nat → Word) : Gang := { g with v := csets g.v (laneWrites g m d f) }

/-- A gang with `f` written to the pair vd:d+1 of every lane of a mask. -/
def perLanePair (g : Gang) (m : Mask) (d : Nat) (f : Nat → DWord) : Gang :=
  { g with v := csets g.v (laneWritesPair g m d f) }

/-- The flags raised in any active strand are ORed into fpf (R28). -/
def perLaneFlags (g : Gang) (m : Mask) (f : Nat → Flags) : Gang :=
  { g with fpf := g.fpf ||| flUnion ((lanesOf m).map f) }

/-! ### Rounding control -/

/-- The work identifier of a strand of a gang (R15). -/
def strandWid (s : State) (g : Gang) (lane : Nat) : DWord :=
  match launchOf s g.range with
  | none => 0
  | some l =>
    workId l lane g.index (((tget s.crews g.crew).map (·.index)).getD 0) (((tget s.cohorts g.cohort).map (·.index)).getD 0)

/-- The rounding method of fmt[13:12]; in region state 2 RNE stands for SR (R49, R279). -/
def roundModeOf (fmt : Word) (body : Bool) : RoundMode :=
  match fieldW fmt 12 2 with
  | 1 => .rz
  | 2 => if body then .rne else .sr
  | _ => .rne

/-- The rounding control of element `e` of a strand's result (R48 to R53). -/
def strandCtl (s : State) (g : Gang) (sp : Split) (lane e : Nat) : RoundCtl :=
  { mode := roundModeOf sp.fmt (regionState g == 2), sat := sp.fmt.getLsbD 14, flush := sp.fmt.getLsbD 15,
    z := hashH (g.srseed + BitVec.ofNat 64 e) g.rtc (strandWid s g lane) }

/-! ### Addresses -/

/-- EA(s): the uniform base pair plus the signed per-strand offset, modulo 2^64 (R65, R143). -/
def globalAddr (g : Gang) (a kb lane : Nat) : DWord := kPair g.k (2 * kb) + sextW (vget g a lane)

/-- SA(s): the uniform base plus the per-strand offset, unsigned modulo 2^32 (R65, R146). -/
def scratchAddr (g : Gang) (a kb lane : Nat) : Word := cget g.k kb + vget g a lane

/-- The address fault that is reported: the lowest code among the lanes' faults, with the mask of the lanes that fault so and
the address of the lowest (R34, R140).  DESIGN CHOICE: R34 asks for the mask of the faulting lanes; a lane that fails with another
code than the one reported is left out of it (log entry 47). -/
def pickFault (k : AccessKind) (fs : List (Nat × TrapCode × Nat × DWord)) : Option TrapInfo :=
  match fs with
  | [] => none
  | f :: rest =>
    let worst := rest.foldl (fun b x => if trapNumber x.2.1 < trapNumber b.2.1 then x else b) f
    let same := fs.filter fun x => x.2.1 == worst.2.1
    some { code := worst.2.1, cause := worst.2.2.1, access := k, imm := 0, lanes := maskOf (same.map (·.1)),
           addr := worst.2.2.2 }

end Sys2Proof.Machine
end

