-- ==== Sys2Proof/Machine/Integer.lean ====
section
/-! DEFINITION. Per-strand integer arithmetic, compares, immediates, moves and dot products (R84 to R91), the uniform
arithmetic (R92, R93), table loads (R94) and the moves between the files (R95, R96). -/

namespace Sys2Proof.Machine

/-! ### Shapes -/

/-- A per-strand instruction that writes vd from the strand's own registers: `vs` are its v fields (R82, R84). -/
def laneOp (vs : List Nat) (d : Nat) (s : State) (f : Gang → Nat → Word) : Outcome :=
  gangOp .opens vs (some [d]) false s fun s gid g si sp => doneAt s gid (perLane g sp.mask d (f g)) si sp

/-- A per-strand instruction that writes the pair vd:d+1. -/
def lanePairOp (vs : List Nat) (d : Nat) (s : State) (f : Gang → Nat → DWord) : Outcome :=
  gangOp .opens vs (some [d, d + 1]) false s fun s gid g si sp => doneAt s gid (perLanePair g sp.mask d (f g)) si sp

/-- V(s, d) ← f(x, y). -/
def intOp2 (d a b : Nat) (s : State) (f : Word → Word → Word) : Outcome :=
  laneOp [d, a, b] d s fun g l => f (vget g a l) (vget g b l)

/-- V(s, d) ← f(x, y, z), z being V(s, d) before. -/
def intOp3 (d a b : Nat) (s : State) (f : Word → Word → Word → Word) : Outcome :=
  laneOp [d, a, b] d s fun g l => f (vget g a l) (vget g b l) (vget g d l)

/-- V(s, d) ← f(x). -/
def intOp1 (d a : Nat) (s : State) (f : Word → Word) : Outcome :=
  laneOp [d, a] d s fun g l => f (vget g a l)

/-- pair(d) ← f(pair(a), pair(b)). -/
def pairOp2 (d a b : Nat) (s : State) (f : DWord → DWord → DWord) : Outcome :=
  lanePairOp [d, d + 1, a, a + 1, b, b + 1] d s fun g l => f (vpair g a l) (vpair g b l)

/-- K(d) ← f(K(a), K(b)). -/
def kOp2 (d a b : Nat) (s : State) (f : Word → Word → Word) : Outcome :=
  kOp s fun k => cset k d (f (cget k a) (cget k b))

/-- K(d) ← f(K(a), K(b), K(d)). -/
def kOp3 (d a b : Nat) (s : State) (f : Word → Word → Word → Word) : Outcome :=
  kOp s fun k => cset k d (f (cget k a) (cget k b) (cget k d))

/-- K(d) ← f(K(a)). -/
def kOp1 (d a : Nat) (s : State) (f : Word → Word) : Outcome := kOp s fun k => cset k d (f (cget k a))

/-- The pair kd:d+1 ← f of the pairs ka:a+1 and kb:b+1. -/
def kPairOp2 (d a b : Nat) (s : State) (f : DWord → DWord → DWord) : Outcome :=
  kOp s fun k => setKPair k d (f (kPair k a) (kPair k b))

/-! ### ialu (R84) -/

def execIadd (d a b : Nat) (s : State) : Outcome := intOp2 d a b s fun x y => x + y
def execIsub (d a b : Nat) (s : State) : Outcome := intOp2 d a b s fun x y => x - y
def execImul (d a b : Nat) (s : State) : Outcome := intOp2 d a b s fun x y => x * y
def execImulh (d a b : Nat) (s : State) : Outcome := intOp2 d a b s imulhW
def execImulhu (d a b : Nat) (s : State) : Outcome := intOp2 d a b s imulhuW
def execImin (d a b : Nat) (s : State) : Outcome := intOp2 d a b s iminW
def execImax (d a b : Nat) (s : State) : Outcome := intOp2 d a b s imaxW
def execIminu (d a b : Nat) (s : State) : Outcome := intOp2 d a b s iminuW
def execAnd (d a b : Nat) (s : State) : Outcome := intOp2 d a b s fun x y => x &&& y
def execOr (d a b : Nat) (s : State) : Outcome := intOp2 d a b s fun x y => x ||| y
def execXor (d a b : Nat) (s : State) : Outcome := intOp2 d a b s fun x y => x ^^^ y
def execShl (d a b : Nat) (s : State) : Outcome := intOp2 d a b s shlW
def execShr (d a b : Nat) (s : State) : Outcome := intOp2 d a b s shrW
def execSra (d a b : Nat) (s : State) : Outcome := intOp2 d a b s sraW
def execRot (d a b : Nat) (s : State) : Outcome := intOp2 d a b s rotW
def execAndn (d a b : Nat) (s : State) : Outcome := intOp2 d a b s andnW

/-! ### ialx (R85, R86) -/

def execImad (d a b : Nat) (s : State) : Outcome := intOp3 d a b s fun x y z => x * y + z
def execIabsd (d a b : Nat) (s : State) : Outcome := intOp2 d a b s iabsdW
def execSel (d a b : Nat) (s : State) : Outcome := intOp3 d a b s fun x y z => if z != 0 then x else y
def execBfe (d a b : Nat) (s : State) : Outcome := intOp2 d a b s bfeW
def execBfi (d a b : Nat) (s : State) : Outcome := intOp3 d a b s bfiW
def execPopc (d a : Nat) (s : State) : Outcome := intOp1 d a s popcW
def execClz (d a : Nat) (s : State) : Outcome := intOp1 d a s clzW
def execCtz (d a : Nat) (s : State) : Outcome := intOp1 d a s ctzW
def execBrev (d a : Nat) (s : State) : Outcome := intOp1 d a s brevW
def execIabs (d a : Nat) (s : State) : Outcome := intOp1 d a s iabsW
def execIneg (d a : Nat) (s : State) : Outcome := intOp1 d a s fun x => 0 - x
def execNot (d a : Nat) (s : State) : Outcome := intOp1 d a s fun x => ~~~x
def execIadd64 (d a b : Nat) (s : State) : Outcome := pairOp2 d a b s fun x y => x + y
def execIsub64 (d a b : Nat) (s : State) : Outcome := pairOp2 d a b s fun x y => x - y
def execImul64 (d a b : Nat) (s : State) : Outcome := pairOp2 d a b s fun x y => x * y
def execShf (d a b : Nat) (s : State) : Outcome :=
  laneOp [d, a, a + 1, b] d s fun g l => shfW (vpair g a l) (vget g b l)

/-! ### Compares, immediates, moves, dot products (R87 to R91) -/

def execIset (c : IsetCond) (d a b : Nat) (s : State) : Outcome := intOp2 d a b s fun x y => boolW (isetHolds c x y)
def execIaddi (d a i : Nat) (s : State) : Outcome := intOp1 d a s fun x => x + sextImm i
def execAndi (d a i : Nat) (s : State) : Outcome := intOp1 d a s fun x => x &&& sextImm i
def execOri (d a i : Nat) (s : State) : Outcome := intOp1 d a s fun x => x ||| sextImm i
def execXori (d a i : Nat) (s : State) : Outcome := intOp1 d a s fun x => x ^^^ sextImm i
def execShli (d a i : Nat) (s : State) : Outcome := intOp1 d a s fun x => shlW x (zextImm i)
def execShri (d a i : Nat) (s : State) : Outcome := intOp1 d a s fun x => shrW x (zextImm i)
def execShriA (d a i : Nat) (s : State) : Outcome := intOp1 d a s fun x => sraW x (zextImm i)
def execIseti (c : ImmCond) (d a i : Nat) (s : State) : Outcome :=
  intOp1 d a s fun x => boolW (immHolds c x (sextImm i))
def execMovi (d i : Nat) (s : State) : Outcome := laneOp [d] d s fun _ _ => sextImm i
def execMovk (d a : Nat) (s : State) : Outcome := laneOp [d] d s fun g _ => cget g.k a
def execMov (d a : Nat) (s : State) : Outcome := intOp1 d a s fun x => x
def execIdot (k : IdotKind) (d a b : Nat) (s : State) : Outcome := intOp3 d a b s fun x y z => idotW k x y z
def execImulw (g : WideSign) (d a b : Nat) (s : State) : Outcome :=
  lanePairOp [d, d + 1, a, b] d s fun r l => imulwD g (vget r a l) (vget r b l)

/-! ### Uniform arithmetic (R92, R93) -/

def execKadd (d a b : Nat) (s : State) : Outcome := kOp2 d a b s fun x y => x + y
def execKsub (d a b : Nat) (s : State) : Outcome := kOp2 d a b s fun x y => x - y
def execKmul (d a b : Nat) (s : State) : Outcome := kOp2 d a b s fun x y => x * y
def execKmulh (d a b : Nat) (s : State) : Outcome := kOp2 d a b s imulhW
def execKmulhu (d a b : Nat) (s : State) : Outcome := kOp2 d a b s imulhuW
def execKmin (d a b : Nat) (s : State) : Outcome := kOp2 d a b s iminW
def execKmax (d a b : Nat) (s : State) : Outcome := kOp2 d a b s imaxW
def execKminu (d a b : Nat) (s : State) : Outcome := kOp2 d a b s iminuW
def execKand (d a b : Nat) (s : State) : Outcome := kOp2 d a b s fun x y => x &&& y
def execKor (d a b : Nat) (s : State) : Outcome := kOp2 d a b s fun x y => x ||| y
def execKxor (d a b : Nat) (s : State) : Outcome := kOp2 d a b s fun x y => x ^^^ y
def execKshl (d a b : Nat) (s : State) : Outcome := kOp2 d a b s shlW
def execKshr (d a b : Nat) (s : State) : Outcome := kOp2 d a b s shrW
def execKsra (d a b : Nat) (s : State) : Outcome := kOp2 d a b s sraW
def execKrot (d a b : Nat) (s : State) : Outcome := kOp2 d a b s rotW
def execKandn (d a b : Nat) (s : State) : Outcome := kOp2 d a b s andnW
def execKmad (d a b : Nat) (s : State) : Outcome := kOp3 d a b s fun x y z => x * y + z
def execKsel (d a b : Nat) (s : State) : Outcome := kOp3 d a b s fun x y z => if z != 0 then x else y
def execKbfe (d a b : Nat) (s : State) : Outcome := kOp2 d a b s bfeW
def execKbfi (d a b : Nat) (s : State) : Outcome := kOp3 d a b s bfiW
def execKpopc (d a : Nat) (s : State) : Outcome := kOp1 d a s popcW
def execKclz (d a : Nat) (s : State) : Outcome := kOp1 d a s clzW
def execKadd64 (d a b : Nat) (s : State) : Outcome := kPairOp2 d a b s fun x y => x + y
def execKsub64 (d a b : Nat) (s : State) : Outcome := kPairOp2 d a b s fun x y => x - y
def execKmul64 (d a b : Nat) (s : State) : Outcome := kPairOp2 d a b s fun x y => x * y
def execKmulw (d a b : Nat) (s : State) : Outcome := kOp s fun k => setKPair k d (imulwD .unsigned (cget k a) (cget k b))
def execKdivu (d a b : Nat) (s : State) : Outcome := kOp2 d a b s divuW
def execKremu (d a b : Nat) (s : State) : Outcome := kOp2 d a b s remuW
def execKset (c : IsetCond) (d a b : Nat) (s : State) : Outcome := kOp2 d a b s fun x y => boolW (isetHolds c x y)
def execKaddi (d a i : Nat) (s : State) : Outcome := kOp1 d a s fun x => x + sextImm i
def execKmovi (d i : Nat) (s : State) : Outcome := kOp s fun k => cset k d (sextImm i)
def execKshlImm (d a i : Nat) (s : State) : Outcome := kOp1 d a s fun x => shlW x (zextImm i)
def execKshrImm (d a i : Nat) (s : State) : Outcome := kOp1 d a s fun x => shrW x (zextImm i)
def execKsraImm (d a i : Nat) (s : State) : Outcome := kOp1 d a s fun x => sraW x (zextImm i)

/-! ### Table loads and moves between the files (R94 to R96) -/

/-- The address of constant-table word `i` of a range's launch. -/
def tableAddr (s : State) (range i : Nat) : DWord := ((launchOf s range).map (·.table)).getD 0 + BitVec.ofNat 64 (4 * i)

/-- kldt (R94): a word of the launch's constant table, through the fetch path. -/
def execKldt (d i : Nat) (s : State) : Outcome :=
  eitherOp .opens [] none false s
    (fun s gid g si sp =>
      let va := tableAddr s g.range i
      match fetchAt s (gangView g) .table (gangBound s g) va with
      | .error e => .next (takeTrap s gid g si (accessTrap .table e) 0)
      | .ok w => doneAt (tlbFill s (gangView g) va) gid { g with k := cset g.k d w } si sp)
    (fun s cid c m =>
      let va := tableAddr s c.range i
      match fetchAt s (mccView s c) .table (cohortBound s c) va with
      | .error e => .next (takeTrapMcc s cid c m (accessTrap .table e))
      | .ok w =>
        .next (retireMcc (modMcc (tlbFill s (mccView s c) va) cid fun x => { x with k := cset m.k d w }) cid (nextPc m.pc)))

/-- kread (R95): K(d) ← V(L, a) for the lane L = K(b), active or not. -/
def execKread (d a b : Nat) (s : State) : Outcome :=
  gangOp .opens [a] none false s fun s gid g si sp =>
    let l := (cget g.k b).toNat
    if l > 63 then .next (takeTrap s gid g si (plainTrap .invalidParam) 0)
    else doneAt s gid (setK g d (vget g a l)) si sp

/-- The active lanes whose V(s, a) is not 0. -/
def voteLanes (g : Gang) (sp : Split) (a : Nat) : List Nat := (lanesOf sp.mask).filter fun l => vget g a l != 0

def execKvoteAny (d a : Nat) (s : State) : Outcome :=
  gangOp .opens [a] none false s fun s gid g si sp => doneAt s gid (setK g d (boolW (!(voteLanes g sp a).isEmpty))) si sp

def execKvoteAll (d a : Nat) (s : State) : Outcome :=
  gangOp .opens [a] none false s fun s gid g si sp =>
    doneAt s gid (setK g d (boolW ((lanesOf sp.mask).all fun l => vget g a l != 0))) si sp

def execKvoteBallot (d a : Nat) (s : State) : Outcome :=
  gangOp .opens [a] none false s fun s gid g si sp =>
    doneAt s gid { g with k := setKPair g.k d (maskOf (voteLanes g sp a)) } si sp

/-- kfirst (R96): the value of the lowest active lane; with no active lane K(d) keeps its value. -/
def execKfirst (d a : Nat) (s : State) : Outcome :=
  gangOp .opens [a] none false s fun s gid g si sp =>
    match lowestLane sp.mask with
    | none => doneAt s gid g si sp
    | some l => doneAt s gid (setK g d (vget g a l)) si sp

end Sys2Proof.Machine
end

