-- ==== Sys2Proof/Machine/Special.lean ====
section
/-! DEFINITION. Special registers, format, window (R13, R18, R23 to R28, R61, R103 to R106). -/

namespace Sys2Proof.Machine

/-- A word that decode refuses, or a register number the issuer may not name: ILLEGAL before any other check (R74). -/
def illegalWord (s : State) : Outcome :=
  match issuer s with
  | none => .fault .noIssuer
  | some (.gang gid g si _) => .next (takeTrap s gid g si (plainTrap .illegal) 0)
  | some (.mcc cid c m) => .next (takeTrapMcc s cid c m (plainTrap .illegal))

/-- fmt accepts a value (R26, R27, R44). -/
def fmtOk (x : Word) : Bool :=
  fieldW x 20 12 == 0 && fieldW x 16 4 ≤ 1 && fieldW x 12 2 != 3 && fieldW x 8 4 ≤ 8 && fieldW x 4 4 ≤ 8 && fieldW x 0 4 ≤ 8

/-- The divergence of a gang that winb and a write of wbase forbid (R13). -/
def divergent (g : Gang) (sp : Split) : Bool := g.splits.length > 1 || sp.recs.any fun e => e.stack.isSome

/-- Reference cycles since the partition was created (R24); in a deterministic launch, rtc (R255). -/
def cycOf (s : State) (part : Nat) (det : Bool) (rtc : DWord) : DWord :=
  if det then rtc else BitVec.ofNat 64 (s.ctl.clock - ((tget s.parts part).map (·.born)).getD 0)

/-- dmode: deterministic in bit 0, durable in bit 1 (R23). -/
def dmodeOf (s : State) (range : Nat) : Word :=
  match launchOf s range with
  | some l => boolW l.det ||| (boolW l.durable <<< 1)
  | none => 0

/-- The generator state of a strand (R23, R139): the initial one until it is written. -/
def rngGet (g : Gang) (lane : Nat) : DWord := (tget g.rng lane).getD rngSeed

/-- A special register as a strand of a gang reads it (R23, R105). -/
def gangSpecial (s : State) (g : Gang) (si : Nat) (sp : Split) (lane : Nat) : SpecialReg → Word
  | .lane => BitVec.ofNat 32 lane
  | .gidx => BitVec.ofNat 32 g.index
  | .widLo => loWord (strandWid s g lane)
  | .widHi => hiWord (strandWid s g lane)
  | .rtcLo => loWord g.rtc
  | .rtcHi => hiWord g.rtc
  | .cycLo => loWord (cycOf s g.part (gangDet s g) g.rtc)
  | .cycHi => hiWord (cycOf s g.part (gangDet s g) g.rtc)
  | .fmt => sp.fmt
  | .fpf => g.fpf.setWidth 32
  | .pass => BitVec.ofNat 32 (getCluster s (gangCluster g)).pass
  | .rdyLo => loWord (((tget s.crews g.crew).map (·.rdy)).getD 0)
  | .rdyHi => hiWord (((tget s.crews g.crew).map (·.rdy)).getD 0)
  | .rngLo => loWord (rngGet g lane)
  | .rngHi => hiWord (rngGet g lane)
  | .rxs => g.rxs
  | .rxr => g.rxr
  | .wbase => BitVec.ofNat 32 g.wbase
  | .temp => g.temp
  | .tmode => BitVec.ofNat 32 (tmodeOf g.temp)
  | .prio => BitVec.ofNat 32 g.prio
  | .dmode => dmodeOf s g.range
  | .core => BitVec.ofNat 32 (coreIndex g.core)
  | .cluster => BitVec.ofNat 32 (clusterIndex (gangCluster g))
  | .die => BitVec.ofNat 32 (clusterDie (gangCluster g))
  | .part => BitVec.ofNat 32 (g.part % 256)
  | .splits => BitVec.ofNat 32 (g.splits.length + 16 * si)
  | .sgidx => g.sgidx
  | .srseedLo => loWord g.srseed
  | .srseedHi => hiWord g.srseed

/-- A special register as the MCC reads it; `none` for the registers that only gangs hold (R23). -/
def mccSpecial (s : State) (c : Cohort) (m : Mcc) : SpecialReg → Option Word
  | .rtcLo => some (loWord m.rtc)
  | .rtcHi => some (hiWord m.rtc)
  | .cycLo => some (loWord (cycOf s c.part (((launchOf s c.range).map (·.det)).getD false) m.rtc))
  | .cycHi => some (hiWord (cycOf s c.part (((launchOf s c.range).map (·.det)).getD false) m.rtc))
  | .fmt => some m.fmt
  | .fpf => some (m.fpf.setWidth 32)
  | .dmode => some (dmodeOf s c.range)
  | .cluster => some (BitVec.ofNat 32 (clusterIndex c.cluster))
  | .die => some (BitVec.ofNat 32 (clusterDie c.cluster))
  | .part => some (BitVec.ofNat 32 (c.part % 256))
  | .srseedLo => some (loWord m.srseed)
  | .srseedHi => some (hiWord m.srseed)
  | .lane | .gidx | .widLo | .widHi | .pass | .rdyLo | .rdyHi | .rngLo | .rngHi | .rxs | .rxr | .wbase | .temp | .tmode
  | .prio | .core | .splits | .sgidx => none

/-- The registers that a region's body may read (R196). -/
def bodyMayRead : SpecialReg → Bool
  | .lane | .gidx | .widLo | .widHi => true
  | _ => false

/-- A split has seen the completion of the copies under these tags of its crew whose bits are set, each up to the place where its bit
was last set (R151, R156). -/
def seeTags (s : State) (g : Gang) (si : Nat) (tags : List Nat) : Gang :=
  match tget s.crews g.crew with
  | none => g
  | some w =>
    let set := tags.filter fun t => w.rdy.getLsbD t
    let ids := oldCopies s g.cohort (sourceSeen s g.crew (set.map fun t => (seenTag t, 0)))
    { g with splits := tmod g.splits si fun sp =>
        { sp with seen := set.foldl (fun m t => tset m (seenTag t) ((tget w.tagAt t).getD 0)) sp.seen, saw := ids.foldl addTo sp.saw } }

/-- What a split that reads a special register sees of copies: the tags of the half of rdy that it reads (R156). -/
def seeReady (s : State) (g : Gang) (si : Nat) : SpecialReg → Gang
  | .rdyLo => seeTags s g si (List.range 32)
  | .rdyHi => seeTags s g si ((List.range 32).map (32 + ·))
  | _ => g

/-- srd (R105): in a gang every active strand receives the value; on the MCC it is written to kd. -/
def execSrd (d : Nat) (r : SpecialReg) (s : State) : Outcome :=
  match issuer s with
  | some (.mcc _ c m) =>
    match mccSpecial s c m r with
    | none => illegalWord s
    | some _ =>
      mccOp s fun s cid c m =>
        .next (retireMcc (modMcc s cid fun x => { x with k := cset m.k d ((mccSpecial s c m r).getD 0) }) cid (nextPc m.pc))
  | _ =>
    gangOp .opens [d] (if bodyMayRead r then some [d] else none) false s fun s gid g si sp =>
      doneAt s gid (perLane (seeReady s g si r) sp.mask d fun l => gangSpecial s g si sp l r) si sp

/-- A gang-held special register written with a value, or the trap of the restriction it breaks (R23, R27, R28, R61, R106). -/
def writeSpecial (s : State) (g : Gang) (si : Nat) (sp : Split) (r : SpecialReg) (x : Word) : Except TrapCode Gang :=
  match r with
  | .fmt =>
    if fmtOk x then .ok { g with splits := tmod g.splits si fun p => { p with fmt := x } } else .error .invalidParam
  | .fpf => if fieldW x 5 27 = 0 then .ok { g with fpf := x.setWidth 5 } else .error .invalidParam
  | .wbase =>
    let w := fieldW x 0 8
    if divergent g sp || w % 16 != 0 || decide (w ≥ g.nregs) then .error .window else .ok { g with wbase := w }
  | .temp => if tempOk x then .ok { g with temp := x } else .error .invalidParam
  | .prio =>
    let p := fieldW x 0 7
    let cap := ((launchOf s g.range).map (·.prio)).getD 0
    .ok { g with prio := if g.level != .user then p else min p cap }
  | .srseedLo => .ok { g with srseed := pairOf x (hiWord g.srseed) }
  | .srseedHi => .ok { g with srseed := pairOf (loWord g.srseed) x }
  | _ => .error .illegal

/-- The halves of rng written in every active strand (R106). -/
def writeRng (g : Gang) (sp : Split) (hi : Bool) (a : Nat) : Gang :=
  { g with rng := (lanesOf sp.mask).foldl (fun t l =>
      let old := rngGet g l
      let new := if hi then pairOf (loWord old) (vget g a l) else pairOf (vget g a l) (hiWord old)
      tset t l new) g.rng }

/-- A register that swr may write in a gang (R23). -/
def gangWritable : SpecialReg → Bool
  | .fmt | .fpf | .rngLo | .rngHi | .wbase | .temp | .prio | .srseedLo | .srseedHi => true
  | _ => false

/-- A register that swr may write on the MCC (R23). -/
def mccWritable : SpecialReg → Bool
  | .fmt | .fpf | .srseedLo | .srseedHi => true
  | _ => false

/-- A special register of the MCC written, or the trap of its restriction. -/
def writeMccSpecial (m : Mcc) (r : SpecialReg) (x : Word) : Except TrapCode Mcc :=
  match r with
  | .fmt => if fmtOk x then .ok { m with fmt := x } else .error .invalidParam
  | .fpf => if fieldW x 5 27 = 0 then .ok { m with fpf := x.setWidth 5, fpfNew := 0 } else .error .invalidParam
  | .srseedLo => .ok { m with srseed := pairOf x (hiWord m.srseed) }
  | .srseedHi => .ok { m with srseed := pairOf (loWord m.srseed) x }
  | _ => .error .illegal

/-- swr (R106). -/
def execSwr (a : Nat) (r : SpecialReg) (s : State) : Outcome :=
  match issuer s with
  | some (.mcc _ _ _) =>
    if mccWritable r then
      mccOp s fun s cid c m =>
        match writeMccSpecial m r (cget m.k a) with
        | .error t => .next (takeTrapMcc s cid c m (plainTrap t))
        | .ok m' => .next (retireMcc (modMcc s cid fun _ => m') cid (nextPc m.pc))
    else illegalWord s
  | _ =>
    if gangWritable r then
      gangOp .opens [a] none false s fun s gid g si sp =>
        match r with
        | .rngLo => doneAt s gid (writeRng g sp false a) si sp
        | .rngHi => doneAt s gid (writeRng g sp true a) si sp
        | _ =>
          match lowestLane sp.mask with
          | none => doneAt s gid g si sp
          | some l =>
            match writeSpecial s g si sp r (vget g a l) with
            | .error t => .next (takeTrap s gid g si (plainTrap t) 0)
            | .ok g' => doneAt s gid g' si sp
    else illegalWord s

/-- setfmt (R104). -/
def execSetfmt (a : Nat) (s : State) : Outcome :=
  eitherOp .opens [] none false s
    (fun s gid g si sp =>
      if fmtOk (cget g.k a) then
        doneAt s gid { g with splits := tmod g.splits si fun p => { p with fmt := cget g.k a } } si sp
      else .next (takeTrap s gid g si (plainTrap .invalidParam) 0))
    (fun s cid c m =>
      if fmtOk (cget m.k a) then .next (retireMcc (modMcc s cid fun x => { x with fmt := cget m.k a }) cid (nextPc m.pc))
      else .next (takeTrapMcc s cid c m (plainTrap .invalidParam)))

/-- winb (R13, R18, R103). -/
def execWinb (i : Nat) (s : State) : Outcome :=
  gangOp .opens [] none false s fun s gid g si sp =>
    if divergent g sp || decide (i * 16 ≥ g.nregs) then .next (takeTrap s gid g si (plainTrap .window) 0)
    else doneAt s gid { g with wbase := i * 16 } si sp

end Sys2Proof.Machine
end

