-- ==== Sys2Proof/Machine/Control.lean ====
section
/-! DEFINITION. Branches, calls, splits and the system functions that touch no other unit (R75, R97 to R102, R107 to R112). -/

namespace Sys2Proof.Machine

/-! ### Targets and merge points -/

/-- T = NPC + 4 × SEXT(disp18) (R64, R97). -/
def branchTarget (pc : DWord) (x : Nat) : DWord := nextPc pc + branchOffset x

/-- A word is `bra` with a zero a field (R75). -/
def isBra (w : Word) : Bool := fieldW w 18 14 == 0x06 * 2 ^ 7

/-- The merge point of a per-strand branch at `p` with target `t`; `w` is the word at t − 4 (R75). -/
def mergePoint (p t : DWord) (w : Word) : DWord :=
  if t.toNat ≤ p.toNat then nextPc p
  else
    let t2 := branchTarget (t - 4) (fieldW w 0 18)
    if isBra w && decide (t2.toNat > t.toNat) && decide ((t - 4).toNat > p.toNat) then t2 else t

/-- The word at t − 4, read through the fetch path where a merge point needs it (R75). -/
def joinWord (s : State) (g : Gang) (p t : DWord) : Except (TrapCode × Nat × DWord) Word :=
  if t.toNat ≤ (nextPc p).toNat then .ok 0 else fetchAt s (gangView g) .fetch (gangBound s g) (t - 4)

/-- rxend's word (R193). -/
def rxendWord : Word := 0x7C000002

/-- No word from `a` on, `n` words long, encodes rxend. -/
def noRxend (s : State) (g : Gang) (a : DWord) : Nat → Bool
  | 0 => true
  | n + 1 =>
    (match fetchAt s (gangView g) .fetch (gangBound s g) a with
     | .ok w => w != rxendWord
     | .error _ => true) && noRxend s g (a + 4) n

/-- An address lies between the body start and the body end, both included (R196). -/
def inBody (s : State) (g : Gang) (t : DWord) : Bool :=
  match g.region with
  | none => false
  | some r => decide (r.start.toNat ≤ t.toNat) && noRxend s g r.start ((t.toNat - r.start.toNat) / 4)

/-- In region state 2 a branch must keep its target and its merge point inside the body (R196). -/
def bodyBranchOk (s : State) (g : Gang) (ts : List DWord) : Bool := regionState g != 2 || ts.all (inBody s g)

/-- The trap of a transfer to a target that is misaligned or not canonical (R74, R101). -/
def targetTrap (t : DWord) : Option TrapInfo :=
  if t.toNat % 4 != 0 then some { plainTrap .misalign with addr := t }
  else if !canonicalVa t then some { plainTrap .perm with cause := 3, addr := t }
  else none

/-! ### DIVIDE -/

/-- The lowest free split index (R11). -/
def freeSplit (g : Gang) : Nat := ((List.range 4).find? fun i => (tget g.splits i).isNone).getD 0

/-- DIVIDE with fewer than four splits (R98): the taken lanes go to a new split at T.  Each split goes on with a segment of po of its
own, and both have the history of the split that divided (R216). -/
def divideSplit (g : Gang) (si : Nat) (sp : Split) (take : Mask) (t mp : DWord) : Gang :=
  let e : DivEntry := { mp := mp, join := sp.mask, fmt := sp.fmt, stack := none }
  let both : Split := { sp with recs := e :: sp.recs, before := sp.seg :: sp.before, line := none }
  let stay : Split := { both with mask := sp.mask &&& ~~~take, seg := g.nextSeg }
  let go : Split := { both with pc := t, mask := take, pend := [], seg := g.nextSeg + 1 }
  { g with splits := tset (tset g.splits si stay) (freeSplit g) go, nextSeg := g.nextSeg + 2 }

/-- A split without the earlier segments of its history of which nothing is under way any more. -/
def shortHistory (s : State) (gid : Nat) (g : Gang) (sp : Split) : Split := { sp with before := liveBefore s gid g.core sp }

/-- DIVIDE with four splits (R98): the issuing split stacks the fall-through path. -/
def divideStack (g : Gang) (si : Nat) (sp : Split) (take : Mask) (mp : DWord) : Gang :=
  let e : DivEntry := { mp := mp, join := sp.mask, fmt := sp.fmt,
                        stack := some { npc := nextPc sp.pc, fall := sp.mask &&& ~~~take, second := false } }
  { g with splits := tset g.splits si { sp with mask := take, recs := e :: sp.recs, line := none } }

/-- Stack entries of a split, spilled ones included, at most (R100). -/
def stackLimit : Nat := 80

/-- The spill address of stack entry number `n`, counted from 0 (R100).  DESIGN CHOICE: the limits of 16, 64 and 80 entries count for each
split, as R98 counts the first 16, and the splits of a gang use the same places of its area, whose content is not architected (log
entry 46). -/
def spillAddr (s : State) (g : Gang) (n : Nat) : DWord :=
  ((tget s.ranges g.range).map (·.frame)).getD 0 + BitVec.ofNat 64 (0x1000 + 4096 * g.index + 64 * (n - stackHeld))

/-- The spill of stack entry number `n`: 64 bytes of unspecified content, or the fault it meets (R100). -/
def spillEntry (s : State) (g : Gang) (n : Nat) : Except (TrapCode × Nat × DWord) State :=
  if n < stackHeld then .ok s
  else
    match translateRange s (gangView g) .store (spillAddr s g n) 64 with
    | .error e => .error e
    | .ok keys => .ok (writeMem s (.core g.core) false (keys.map fun k => (k, Config.freeByte 5 (s.ctl.free * 2 ^ 64 + k))))

/-- The refill of a spilled stack entry at its merge point: the fault it meets on an unmapped or read-only page (R100). -/
def refillFault (s : State) (g : Gang) (sp : Split) : Option (TrapCode × Nat × DWord) :=
  match translateRange s (gangView g) .store (spillAddr s g (stackDepth sp - 1)) 64 with
  | .error e => some e
  | .ok _ => none

/-- A split whose spilled entry is read back switches path or joins (R98, R100), its pending writes landed on its arrival (R29); the
split may then settle further. -/
def refillSplit (s : State) (gid : Nat) (g : Gang) (si : Nat) (sp : Split) : State :=
  let g1 := landSplit g si
  match refillFault s g1 sp with
  | some e => takeTrap (setGang s gid g1) gid g1 si (accessTrap .load e) 0
  | none => setGang s gid (settled { g1 with splits := tset g1.splits si (stackArrive g1.exited { sp with pend := [] }) })

/-! ### Branches -/

/-- A control transfer of a split, taken or not, leaves the code line that it ran (R97, R101, R269). -/
def leaveLine (g : Gang) (si : Nat) : Gang := { g with splits := tmod g.splits si fun sp => { sp with line := none } }

/-- A control transfer retires and goes on at `npc`. -/
def transferTo (s : State) (gid : Nat) (g : Gang) (si : Nat) (npc : DWord) : State := retireAt (setGang s gid (leaveLine g si)) gid si npc

/-- A per-strand branch (R97): `hold` tells whether a strand takes it.  DESIGN CHOICE, for three points the rules leave open: with an empty
ACTIVE, of which both lines of R97 hold, the branch goes to T; a branch that divides and whose word at T − 4 cannot be fetched traps as that
fetch does, at the branch (R11, R75); and in region state 2 (R196), where the merge point of every branch must lie in the body, one whose
word there cannot be fetched traps INVALID_PARAM, whether it divides or not (log entry 46). -/
def strandBranch (hold : Word → Bool) (a x : Nat) (s : State) : Outcome :=
  gangOp .closes [a] (some []) false s fun s gid g si sp =>
    let t := branchTarget sp.pc x
    match joinWord s g sp.pc t with
    | .error e => if regionState g == 2 then .next (takeTrap s gid g si (plainTrap .invalidParam) 0)
        else
          let take := maskOf ((lanesOf sp.mask).filter fun l => hold (vget g a l))
          if take = sp.mask then .next (transferTo s gid g si t)
          else if take = 0 then .next (transferTo s gid g si (nextPc sp.pc))
          else .next (takeTrap s gid g si (accessTrap .fetch e) 0)
    | .ok w =>
      let mp := mergePoint sp.pc t w
      if !bodyBranchOk s g [t, mp] then .next (takeTrap s gid g si (plainTrap .invalidParam) 0)
      else
        let take := maskOf ((lanesOf sp.mask).filter fun l => hold (vget g a l))
        if take = sp.mask then .next (transferTo s gid g si t)
        else if take = 0 || t == nextPc sp.pc then .next (transferTo s gid g si (nextPc sp.pc))
        else if g.splits.length < 4 then
          .next (retireAt (setGang s gid (divideSplit g si (shortHistory s gid g sp) take t mp)) gid si (nextPc sp.pc))
        else if stackDepth sp ≥ stackLimit then .next (takeTrap s gid g si (plainTrap .invalidParam) 0)
        else
          match spillEntry s g (stackDepth sp) with
          | .error e => .next (takeTrap s gid g si (accessTrap .store e) 0)
          | .ok s1 => .next (retireAt (setGang s1 gid (divideStack g si sp take mp)) gid si t)

/-- A uniform branch of a gang on its own lanes (R97). -/
def gangBranch (hold : Gang → Split → Bool) (vs : List Nat) (x : Nat) (s : State) : Outcome :=
  gangOp .closes vs none false s fun s gid g si sp =>
    .next (transferTo s gid g si (if hold g sp then branchTarget sp.pc x else nextPc sp.pc))

/-- A uniform branch of a gang or of the MCC on a k register (R97). -/
def kBranch (hold : Cells 32 → Bool) (x : Nat) (s : State) : Outcome :=
  eitherOp .closes [] none false s
    (fun s gid g si sp => .next (transferTo s gid g si (if hold g.k then branchTarget sp.pc x else nextPc sp.pc)))
    (fun s cid _ m => .next (retireMcc s cid (if hold m.k then branchTarget m.pc x else nextPc m.pc)))

def execBra (x : Nat) (s : State) : Outcome :=
  eitherOp .closes [] (some []) false s
    (fun s gid g si sp =>
      if bodyBranchOk s g [branchTarget sp.pc x] then .next (transferTo s gid g si (branchTarget sp.pc x))
      else .next (takeTrap s gid g si (plainTrap .invalidParam) 0))
    (fun s cid _ m => .next (retireMcc s cid (branchTarget m.pc x)))

def execBrz (a x : Nat) (s : State) : Outcome := strandBranch (fun w => w == 0) a x s
def execBrnz (a x : Nat) (s : State) : Outcome := strandBranch (fun w => w != 0) a x s
def execBrany (a x : Nat) (s : State) : Outcome := gangBranch (fun g sp => !(voteLanes g sp a).isEmpty) [a] x s
def execBrall (a x : Nat) (s : State) : Outcome :=
  gangBranch (fun g sp => (lanesOf sp.mask).all fun l => vget g a l != 0) [a] x s
def execBkz (a x : Nat) (s : State) : Outcome := kBranch (fun k => cget k a == 0) x s
def execBknz (a x : Nat) (s : State) : Outcome := kBranch (fun k => cget k a != 0) x s

/-! ### Calls and indirect transfers (R101) -/

/-- A transfer to `target pc k`; `link` names the pair that receives NPC. -/
def transfer (link : Option Nat) (target : DWord → Cells 32 → DWord) (s : State) : Outcome :=
  let linked (k : Cells 32) (pc : DWord) : Cells 32 :=
    match link with
    | some d => setKPair k d (nextPc pc)
    | none => k
  eitherOp .closes [] none false s
    (fun s gid g si sp =>
      let t := target sp.pc g.k
      match targetTrap t with
      | some i => .next (takeTrap s gid g si i 0)
      | none => .next (transferTo s gid { g with k := linked g.k sp.pc } si t))
    (fun s cid c m =>
      let t := target m.pc m.k
      match targetTrap t with
      | some i => .next (takeTrapMcc s cid c m i)
      | none => .next (retireMcc (modMcc s cid fun y => { y with k := linked m.k m.pc }) cid t))

def execCall (a x : Nat) (s : State) : Outcome := transfer (some a) (fun pc _ => branchTarget pc x) s
def execCallk (d a : Nat) (s : State) : Outcome := transfer (some d) (fun _ k => kPair k a) s
def execJmpk (a : Nat) (s : State) : Outcome := transfer none (fun _ k => kPair k a) s
def execRet (a : Nat) (s : State) : Outcome := transfer none (fun _ k => kPair k a) s

/-! ### System functions -/

def execNop (s : State) : Outcome :=
  eitherOp .opens [] (some []) false s (fun s gid _ si sp => .next (retireAt s gid si (nextPc sp.pc)))
    (fun s cid _ m => .next (retireMcc s cid (nextPc m.pc)))

/-- What a split goes on with when its running lanes have exited: a stacked path, or the lanes that wait at a merge point
(log entry 12). -/
def afterExit (g : Gang) (si : Nat) (exited : Mask) (sp : Split) : List DivEntry → Option Split
  | [] => none
  | e :: rest =>
    match e.stack with
    | none =>
      if g.splits.any (fun x => x.1 != si && x.2.mask &&& e.join != 0) then none else afterExit g si exited sp rest
    | some p =>
      if !p.second then
        some { sp with pc := p.npc, mask := p.fall, fmt := e.fmt, recs := { e with stack := some { p with second := true } } :: rest }
      else if e.join &&& ~~~exited = 0 then afterExit g si exited sp rest
      else some { sp with pc := e.mp, mask := e.join &&& ~~~exited, fmt := e.fmt, recs := rest }

/-- The strands of a split end (R108). -/
def exitSplit (s : State) (gid : Nat) (g : Gang) (si : Nat) (sp : Split) : State :=
  let det := gangDet s g
  let exited := g.exited ||| sp.mask
  let splits := match afterExit g si exited sp sp.recs with
    | some sp' => tset g.splits si { sp' with pend := [], wait := .none }
    | none => tdrop g.splits si
  let g1 := settled { g with exited := exited, splits := splits, rtc := g.rtc + 1, qCount := if det then g.qCount + 1 else g.qCount }
  let g2 := { g1 with qEnded := g1.qEnded || (det && decide (g1.qCount ≥ quantumOf s g)) }
  let s1 := noteIssued (countRetired (setGang s gid g2) g.part (gangCluster g)) gid g.core
  if g2.splits.isEmpty then endGang s1 gid else s1

/-- Gangs of a core that have a split which could issue (R251). -/
def readyGangs (s : State) (core gid : Nat) : List Nat :=
  (s.gangs.filter fun e => e.1 != gid && e.2.core == core && e.2.status == .running && isResident s e.2 &&
    e.2.splits.any fun p => splitReady s e.2 p.2).map (·.1)

/-- 64 front-end cycles, in reference cycles (R109, R158). -/
def frontCycles (s : State) (cluster n : Nat) : Nat := n * 1650 / max (getCluster s cluster).mhz 1

/-- yield (R109, R252). -/
def execYield (s : State) : Outcome :=
  eitherOp .closes [] none false s
    (fun s gid g si sp =>
      let s1 := retireAt s gid si (nextPc sp.pc)
      .next (modGang s1 gid fun x =>
        if gangDet s g then { x with qEnded := true }
        else { x with yielded := some (readyGangs s g.core gid, s.ctl.clock + frontCycles s (gangCluster g) 64) }))
    (fun s cid _ m => .next (retireMcc s cid (nextPc m.pc)))

/-- brk (R110). -/
def execBrk (s : State) : Outcome :=
  eitherOp .opens [] none false s (fun s gid g si _ => .next (takeTrap s gid g si (plainTrap .brk) 0))
    (fun s cid c m => .next (takeTrapMcc s cid c m (plainTrap .brk)))

/-- trap imm8 (R110). -/
def execTrap (i : Nat) (s : State) : Outcome :=
  eitherOp .closes [] none false s (fun s gid g si _ => .next (takeTrap s gid g si { plainTrap .trapInsn with imm := i } 0))
    (fun s cid c m => .next (takeTrapMcc s cid c m { plainTrap .trapInsn with imm := i }))

/-- The instruction caches of a scope drop their lines: what is fetched from now on is not older (R112). -/
def discardCaches (s : State) (core cluster part : Nat) (sc : Scope) : State :=
  let q := s.mem.seq
  let cores (s : State) (cl : Nat) : State :=
    (List.range 4).foldl (fun s i => modCore s (cl * 4 + i) fun c => { c with icBound := q, icCluster := q })
      (modCluster s cl fun c => { c with mccBound := q, mccCluster := q })
  match sc with
  | .core => if core = noCore then modCluster s cluster fun c => { c with mccBound := q } else modCore s core fun c => { c with icBound := q }
  | .cl => cores s cluster
  | .pk | .sy => ((tget s.parts part).map partClusters |>.getD []).foldl cores s

end Sys2Proof.Machine
end

