-- ==== Sys2Proof/Machine/Barrier.lean ====
section
/-! DEFINITION. Barrier objects: arrivals, pending bytes, release, reduction, wake-ups (R159 to R163). -/

namespace Sys2Proof.Machine

/-- The identity of a reducer (R160). -/
def reducerIdent (r : Nat) : Word :=
  match r with
  | 2 => 0x7FFFFFFF
  | 3 => 0x80000000
  | 4 => 0xFFFFFFFF
  | 7 => 0x80000000
  | 8 => 0xFF800000
  | _ => 0

/-- One step of a reducer (R160).  DESIGN CHOICE: R160 names no fmt, and the splits that arrive may differ in theirs; the payloads of fadd
and fmax are never flushed (R53; log entry 47). -/
def reducerStep (r : Nat) (acc v : Word) : Word :=
  match r with
  | 1 => acc + v
  | 2 => iminW acc v
  | 3 => imaxW acc v
  | 4 => acc &&& v
  | 5 => acc ||| v
  | 6 => acc ^^^ v
  | 7 => rneAdd acc v
  | 8 => (fminmax32 true ctlRne acc v).1
  | _ => 0

/-- A payload kept in ascending order of its gang's rank. -/
def putPayload (k : Nat) (v : Word) (ps : List (Nat × Word)) : List (Nat × Word) := putSorted k v ps

/-- The combination of a phase's payloads (R160). -/
def reducePayloads (b : Barrier) : Word := b.payloads.foldl (fun acc p => reducerStep b.reducer acc p.2) (reducerIdent b.reducer)

/-- A barrier holds its expected arrivals in an unreleased phase (R160). -/
def barrierFull (b : Barrier) : Bool := b.arrivals == b.expected

/-- A phase is released when arrivals equals expected and pending is 0 (R160). -/
def releaseTest (b : Barrier) : Barrier :=
  if b.arrivals = b.expected && b.pending = 0 then
    { b with phase := !b.phase, arrivals := 0, result := reducePayloads b, payloads := [], lastCopied := b.copied, copied := none,
             lastKnown := b.known, known := Known.none }
  else b

/-- An arrival with its payload, its pending add and what it knows, then the release test (R160, R161, R226). -/
def arrive (b : Barrier) (rank : Nat) (payload : Word) (pend : BitVec 56) (k : Known) : Barrier :=
  releaseTest { b with arrivals := b.arrivals + 1, pending := b.pending + pend, known := b.known.join k,
                       payloads := if b.reducer = 0 then [] else putPayload rank payload b.payloads }

/-- A pending add without an arrival, of a copy at a place of pub or of none (R161, R155). -/
def addPending (b : Barrier) (pend : BitVec 56) (copied : Option Nat) : Barrier :=
  releaseTest { b with pending := b.pending + pend, copied := copied.or b.copied }

/-- What barq reads (R161). -/
def barrierWord (b : Barrier) : Word :=
  boolW b.phase ||| (boolW (b.pending != 0) <<< 1) ||| (BitVec.ofNat 32 b.arrivals <<< 8)

/-- barcfg's checks on the value alone (R163). -/
def barcfgOk (x : Word) : Bool := fieldW x 0 24 != 0 && fieldW x 24 4 ≤ 8 && fieldW x 28 4 == 0

/-- barcfg's check on the barrier: its current phase has nothing yet (R163). -/
def barrierIdle (b : Barrier) : Bool := b.arrivals == 0 && b.pending == 0

/-- The barrier with barcfg's fields (R163). -/
def configured (b : Barrier) (x : Word) : Barrier := { b with expected := fieldW x 0 24, reducer := fieldW x 24 4 }

/-- The barrier a gang names (R72, R159). -/
def getBar (s : State) (g : Gang) : BarRef → Barrier
  | .crew n => ((tget s.crews g.crew).bind fun w => tget w.bars n).getD (freshBarrier 0)
  | .cohort n => ((tget s.cohorts g.cohort).bind fun c => tget c.bars n).getD (freshBarrier 0)
  | .launch n => ((tget s.ranges g.range).bind fun r => tget r.bars n).getD (freshBarrier 0)

/-- The barrier a gang names, replaced. -/
def setBar (s : State) (g : Gang) (b : BarRef) (x : Barrier) : State :=
  match b with
  | .crew n => modCrew s g.crew fun w => { w with bars := tset w.bars n x }
  | .cohort n => modCohort s g.cohort fun c => { c with bars := tset c.bars n x }
  | .launch n => modRange s g.range fun r => { r with bars := tset r.bars n x }

/-- The scope of a barrier, as the refresh of its waiters (R162). -/
def barScope : BarRef → Scope
  | .crew _ => .core
  | .cohort _ => .cl
  | .launch _ => .pk

/-- The scope at which an arrival publishes its split's entries; none within the core (R162, R219). -/
def barPubScope : BarRef → Option OrdScope
  | .crew _ => none
  | .cohort _ => some .cl
  | .launch _ => some .pk

/-- A write by a copy of a crew that has completed by a tag or a barrier at or before the place seen there, or by a counter seen. -/
def copySeen (crew : Nat) (seen : Tab Nat) (p : Past) : Bool :=
  match p.source with
  | .copy w _ tag bar ctr =>
    let by' (k : Nat) : Bool := (tget seen k).any fun q => decide (p.seq ≤ q)
    w == crew && ((tag.any fun t => by' (seenTag t)) || (bar != 0 && by' (seenBar bar)) || (ctr && (tget seen seenCtr).isSome))
  | _ => false

/-- The bytes of copies whose completion has been seen are ordered before a core's later accesses (R156, R227, R228). -/
def bindCopies (s : State) (core crew : Nat) (seen : Tab Nat) : State :=
  if seen.isEmpty then s else bindWrites s core (copySeen crew seen)

/-- The copies that a crew barrier's last phase counted. -/
def barSeen (x : Barrier) : BarRef → Tab Nat
  | .crew n => (x.lastCopied.map fun q => (seenBar n, q)).toList
  | .cohort _ | .launch _ => []

/-- A split passes a phase's release: it is ordered after the phase's arrivals, and after the bytes of the copies the phase counted
(R226, R227). -/
def learnBar (s : State) (gid si : Nat) (b : BarRef) (x : Barrier) : State :=
  match tget s.gangs gid with
  | some g => orderCopies (bindCopies (learn s gid si g.core x.lastKnown) g.core g.crew (barSeen x b)) gid si (sourceSeen s g.crew (barSeen x b))
  | none => s

/-- A wait on a barrier whose phase has passed its token: the k writes and the refresh (R160, R161). -/
def barWaitHolds (s : State) (g : Gang) (w : Wait) : Option (List (Nat × Word) × Scope) :=
  match w with
  | .bar b token d long =>
    let x := getBar s g b
    if x.phase != token then some (if long then [(d, x.result)] else [], barScope b) else none
  | _ => none

/-- A wait on tags that holds (R158); passing it makes the copies' bytes readable (R156). -/
def tagWaitHolds (s : State) (g : Gang) (w : Wait) : Bool :=
  match w with
  | .tag all m =>
    let rdy := ((tget s.crews g.crew).map (·.rdy)).getD 0
    if all then rdy &&& m == m else rdy &&& m != 0
  | _ => false

/-- The split of a gang learns what the wait that it passes orders before it. -/
def learnWait (s : State) (gid si : Nat) (g : Gang) (w : Wait) : State :=
  match w with
  | .bar b _ _ _ => learnBar s gid si b (getBar s g b)
  | .tag _ m =>
    let set := (List.range 64).filter fun t => (((tget s.crews g.crew).map (·.rdy)).getD 0 &&& m).getLsbD t
    orderCopies s gid si (sourceSeen s g.crew (set.map fun t => (seenTag t, 0)))
  | _ => s

/-- One split's wait on a barrier or on tags ends, where it holds.  A release wakes its waiters with its result: one that cannot be reached
keeps it until it can (R160, R302, R328).  DESIGN CHOICE, on R158 and R221: passing tagwany or tagwall refreshes at package scope (log
entry 67). -/
def wakeWait (s : State) (gid si : Nat) : State :=
  match (tget s.gangs gid).bind fun g => (tget g.splits si).map fun sp => (g, sp) with
  | none => s
  | some (g, sp) =>
    if gangDet s g then s
    else
      match barWaitHolds s g sp.wait with
      | some (ws, sc) => answerSplit (wakesNow s gid) (learnWait s gid si g sp.wait) gid si ws (some sc)
      | none =>
        if wakesNow s gid && tagWaitHolds s g sp.wait then finishWait (learnWait s gid si g sp.wait) gid si [] (some .pk) else s

/-- Every wait on a barrier or on tags that may end now ends (R158, R160, R302). -/
def wakeWaits (s : State) : State :=
  (s.gangs.flatMap fun e => e.2.splits.map fun p => (e.1, p.1)).foldl (fun s h => wakeWait s h.1 h.2) s

/-- barr and barw with d = 0 write and read nothing under reducer none, and are the long form under any other (R161). -/
def longForm (x : Barrier) (d : Nat) : Bool := d != 0 || x.reducer != 0

/-- An arrival applied for a gang, and the token it was given: the phase bit of the phase in which it counts (R161, R162). -/
def applyArrival (s : State) (gid : Nat) (g : Gang) (b : BarRef) (payload : Word) (ident : Bool) (pend : BitVec 56) (hist : List Nat)
    (k : Known) : State × Bool :=
  let x := getBar s g b
  let v := if ident then reducerIdent x.reducer else payload
  (setBar s g b (arrive x (rankOf s gid) v pend (k.carried s.mem.seq gid hist)), x.phase)

/-! ### Arrivals under way -/

/-- Two gangs name one barrier (R159). -/
def sameBar (x y : Gang) (b b' : BarRef) : Bool :=
  b == b' && match b with
    | .crew _ => x.crew == y.crew
    | .cohort _ => x.cohort == y.cohort
    | .launch _ => x.range == y.range

/-- A request is an arrival, under way and not yet counted, at the barrier that a gang names (R160, R162). -/
def arrivesAt (s : State) (g : Gang) (b : BarRef) (r : Request) : Bool :=
  match r.kind with
  | .bar b' true _ _ _ _ _ _ => !isLogged s r && (tget s.gangs r.gang).any fun x => sameBar g x b b'
  | _ => false

/-- The arrivals under way at a barrier. -/
def arriving (s : State) (g : Gang) (b : BarRef) : Tab Request := s.requests.filter fun r => arrivesAt s g b r.2

/-- The arrivals of a gang of its own that are under way at a barrier. -/
def ownArriving (s : State) (gid : Nat) (g : Gang) (b : BarRef) : List Nat := ((arriving s g b).filter fun r => r.2.gang == gid).map (·.1)

/-- A barrier's phase has its expected arrivals, those under way included: a further arrival stalls at issue (R160). -/
def barTaken (s : State) (g : Gang) (b : BarRef) : Bool :=
  let x := getBar s g b
  decide (x.expected ≤ x.arrivals + (arriving s g b).length)

end Sys2Proof.Machine
end

