-- ==== Sys2Proof/Machine/Events.lean ====
section
/-! DEFINITION. Host memory, host events, halts of a partition, replica digests (R115, R213, R315, R316, R353). -/

namespace Sys2Proof.Machine

/-! ### Host memory -/

/-- Bytes written by the device or the host to host memory. -/
def hostPut (s : State) (addr : Nat) (bs : List Byte) : State := { s with mem := { s.mem with host := s.mem.host.writeList addr bs } }

/-- A little-endian number of host memory. -/
def hostGet (s : State) (addr n : Nat) : Nat := natLE (s.mem.host.readN addr n)

/-- Device time in nanoseconds since power-on, of the 1.65 GHz reference clock (R24, R349). -/
def deviceNs (s : State) : Nat := s.ctl.clock * 20 / 33

/-- Reference cycles of a time in microseconds (R24). -/
def microCycles (us : Nat) : Nat := us * 1650

/-- A list of bytes cut or padded with zeros to a length. -/
def padTo (n : Nat) (bs : List Byte) : List Byte := (bs ++ List.replicate n 0).take n

/-! ### Events (R353) -/

/-- The 128 bytes of an event. -/
def eventBytes (code part ns : Nat) (fields : List Byte) : List Byte :=
  padTo 128 (bytesLE 2 code ++ bytesLE 1 part ++ List.replicate 5 0 ++ bytesLE 8 ns ++ fields)

/-- The event ring has a free entry (R353). -/
def eventRoom (s : State) : Bool :=
  let c := hostGet s (s.dev.eventBase.toNat + 8) 8
  decide (0 < s.dev.eventEntries.toNat) && decide (s.dev.eventPosted - c < s.dev.eventEntries.toNat)

/-- An event is written, then the producer count is advanced; its bytes cross the Skafen link for the partition that it names (R348). -/
def writeEvent (s : State) (bs : List Byte) : State :=
  let base := s.dev.eventBase.toNat
  let n := s.dev.eventPosted
  let s1 := hostPut s (base + 64 + 128 * (n % s.dev.eventEntries.toNat)) bs
  let s2 := hostPut s1 base (bytesLE 8 (n + 1))
  countLink { s2 with dev := { s2.dev with eventPosted := n + 1 } } (leAt bs 2 1) (bs.length + 8)

/-- An event is posted, or waits in the device behind those that wait. -/
def postEvent (s : State) (code part : Nat) (fields : List Byte) : State :=
  let bs := eventBytes code part (deviceNs s) fields
  if s.dev.eventWaiting.isEmpty && eventRoom s then writeEvent s bs
  else { s with dev := { s.dev with eventWaiting := s.dev.eventWaiting ++ [bs] } }

/-! ### Halts (R115) -/

/-- Every pending write of the partition's gangs lands, where no result is still to come. -/
def landPart (s : State) (part : Nat) : State :=
  { s with gangs := s.gangs.map fun e => if e.2.part == part && !gangOpen e.2 then (e.1, landGang e.2) else e }

/-- Event 1 of a halt is posted once every pending write of the partition's gangs has landed (R115). -/
def announceHalt (s : State) (part : Nat) : State :=
  match tget s.parts part with
  | none => s
  | some p =>
    if p.haltDue && s.gangs.all fun e => e.2.part != part || !gangOpen e.2 then
      postEvent (modPart (landPart s part) part fun q => { q with haltDue := false }) 1 part (bytesLE 1 p.haltCause)
    else s

/-- A partition is halted with a cause: its gangs and MCCs issue no more, and event 1 follows; a partition already halted posts nothing
(R115).  DESIGN CHOICE: a firmware halt that names no partition, or one that is not configured, has no other effect than to retire (log entry
65). -/
def haltPart (s : State) (part cause : Nat) : State :=
  match tget s.parts part with
  | none => s
  | some p =>
    if p.state == .ready || p.state == .running then
      announceHalt (modPart s part fun q => { q with state := .halted, haltCause := cause, haltDue := true, haltedInPeriod := true }) part
    else s

/-- Work of a partition issues: it is ready or running. -/
def partRuns (s : State) (part : Nat) : Bool :=
  match tget s.parts part with
  | some p => p.state == .running || p.state == .ready
  | none => false

/-! ### Step digests (R212, R213) -/

/-- A range put into a set of ranges and joined with those it meets, in ascending order. -/
def joinRange (r : Nat × Nat) : List (Nat × Nat) → List (Nat × Nat)
  | [] => [r]
  | x :: rest =>
    if r.1 + r.2 < x.1 then r :: x :: rest
    else if x.1 + x.2 < r.1 then x :: joinRange r rest
    else joinRange (min r.1 x.1, max (r.1 + r.2) (x.1 + x.2) - min r.1 x.1) rest

/-- The maximal ranges of a union, ascending (R213). -/
def unionRanges (rs : List (DWord × DWord)) : List (Nat × Nat) :=
  rs.foldl (fun acc r => joinRange (r.1.toNat, r.2.toNat) acc) []

/-- The bytes of a virtual range as published at package scope; bytes that do not translate are open (log entry 14). -/
def rangeBytes (s : State) (part : Nat) (r : Nat × Nat) : List Byte :=
  (List.range r.2).map fun i =>
    match translate s { part := part, cluster := 0, super := true } .load (BitVec.ofNat 64 (r.1 + i)) with
    | .ok key => newestByte s key
    | .fault _ _ => Config.freeByte 6 (s.ctl.free * 2 ^ 64 + r.1 + i)

/-- The digest of a step over the partition's set of ranges (R213). -/
def stepDigest (s : State) (part : Nat) (p : Part) (step : DWord) : List Byte :=
  sha256 (bytesLE 8 step.toNat ++
    (unionRanges p.digestRanges).flatMap fun r => bytesLE 8 r.1 ++ bytesLE 8 r.2 ++ rangeBytes s part r)

/-- The result of a stepmark: digest bytes 0 to 3 (R213). -/
def digestWord (d : List Byte) : Word := BitVec.ofNat 32 (leAt d 0 4)

/-- A step is closed: the ranges are cleared, and the number is the partition's last. -/
def closeStep (s : State) (part : Nat) (step : DWord) : State :=
  modPart s part fun p => { p with digestRanges := [], lastStep := some step }

/-- A gang can be reached by an answer: its cohort is on a cluster that is awake (R302, R328). -/
def splitReached (s : State) (gid : Nat) : Bool := (tget s.gangs gid).any fun g => isResident s g && clusterAwake s (gangCluster g)

/-- The result of a step that a split waits for, where the step has been completed and no exchange of it is under way (R213, R302). -/
def stepDone (s : State) (gid si : Nat) : Option (List (Nat × Word)) :=
  (tget s.gangs gid).bind fun g => (tget g.splits si).bind fun sp =>
    match sp.wait with
    | .step n d =>
      (tget s.parts g.part).bind fun p =>
        if p.stepWait.any fun w => w.gang == gid && w.split == si && w.step == n then none
        else (p.stepWords.find? fun e => e.1 == n).map fun e => [(d, e.2)]
    | _ => none

/-- Every split of a free-running gang that waits for a completed step, and can be reached, goes on with its result (R302, R315). -/
def wakeSteps (s : State) : State :=
  (s.gangs.flatMap fun e => e.2.splits.map fun p => (e.1, p.1)).foldl (fun s h =>
    match stepDone s h.1 h.2 with
    | some ws => if wakesNow s h.1 then finishWait s h.1 h.2 ws none else s
    | none => s) s

/-- The fields of events 2 and 3, in the order of R316 (R353; log entry 17). -/
def digestFields (part peer cause : Nat) (step : DWord) (mine theirs : List Byte) : List Byte :=
  bytesLE 1 part ++ bytesLE 1 peer ++ bytesLE 8 step.toNat ++ bytesLE 1 cause ++ padTo 32 mine ++ padTo 32 theirs

/-- A halt whose cause has an event of its own: that event, then the halt; nothing where the partition is halted already (R115). -/
def haltAfter (s : State) (code part cause : Nat) (fields : List Byte) : State :=
  if partRuns s part then haltPart (postEvent s code part fields) part cause else s

/-- Both partitions of a disagreement halt, events 2 first (R115, R213, R316). -/
def disagree (s : State) (part : Nat) (r : Replica) (w : StepWait) (theirs : List Byte) : State :=
  let s1 := haltAfter s 2 part 4 (digestFields part r.part 0 w.step w.digest theirs)
  if r.peer = 0 then haltAfter s1 2 r.part 4 (digestFields r.part part 0 w.step theirs w.digest) else s1

/-- The waiting stepmark of a partition completes with its digest: its split goes on at once where it can be reached, or else at its restore
(R213, R302, R315, R316). -/
def finishStep (s : State) (part : Nat) (w : StepWait) : State :=
  wakeSteps (modPart s part fun p =>
    { p with stepWait := none, peerDigests := p.peerDigests.filter fun e => e.1 != w.step,
             stepWords := p.stepWords ++ [(w.step, digestWord w.digest)] })

/-- The replica's digest of the step a partition waits for has arrived: agreement or disagreement (R213, R315).  In a halted
partition the digests are held. -/
def compareStep (s : State) (part : Nat) : State :=
  match tget s.parts part with
  | none => s
  | some p =>
    match p.stepWait, p.replica with
    | some w, some r =>
      match p.peerDigests.find? fun e => e.1 == w.step with
      | none => s
      | some e =>
        if !partRuns s part then s
        else if e.2 = w.digest then finishStep s part w
        else disagree s part r w e.2
    | _, _ => s

/-- The bytes of a digest message: partition number, step number, digest (R315). -/
def digestBytes : Nat := 41

/-- A step is performed for a split that has been released: the digest is made, and exchanged where a replica is configured
(R213, R315). -/
def performStep (s : State) (part gid si : Nat) (step : DWord) (d : Nat) : State :=
  match tget s.parts part with
  | none => s
  | some p =>
    let dg := stepDigest s part p step
    let s1 := closeStep s part step
    match p.replica with
    | none =>
      answerSplit (splitReached s1 gid) (modPart s1 part fun q => { q with stepWords := q.stepWords ++ [(step, digestWord dg)] }) gid si
        [(d, digestWord dg)] none
    | some r =>
      let s2 := modPart s1 part fun q =>
        { q with stepWait := some { step := step, digest := dg, gang := gid, split := si, since := s.ctl.clock } }
      let s3 := modGang s2 gid fun g => { g with splits := tmod g.splits si fun sp => { sp with wait := .step step d } }
      let s4 := if r.peer = 0 then { s3 with dev := { s3.dev with digests := s3.dev.digests ++ [{ dest := r.part, src := part, step := step, digest := dg }] } }
        else countLink s3 part digestBytes
      compareStep s4 part

end Sys2Proof.Machine
end

