-- ==== Sys2Proof/Machine/Pantry.lean ====
section
/-! DEFINITION. The Pantry: requests, what serving one does, and how its result comes back
(R147 to R149, R159 to R164, R188 to R192, R204 to R210, R256 to R258, R302, R312). -/

namespace Sys2Proof.Machine

/-! ### Sending -/

/-- A request of a gang's split. -/
def gangRequest (g : Gang) (gid si home : Nat) (kind : ReqKind) (waits : List Nat) : Request :=
  let sp := tget g.splits si
  { part := g.part, gang := gid, split := si, core := g.core, home := home, seq := 0, sent := 0, place := 0, kind := kind, acq := none,
    rel := none, waits := waits, table := false, seg := (sp.map (·.seg)).getD 0, hist := (sp.map poOf).getD [], known := (sp.map (·.known)).getD Known.none, rtc := g.rtc, pages := [],
    copy := none }

/-- A request with the pages that its addresses lie in. -/
def withPages (vas : List DWord) (r : Request) : Request := { r with pages := (vas.map faultKey).eraseDups }

/-- The writer of a request's bytes: its core, or the copy whose counter add it is (R155). -/
def requestSource (r : Request) : Source :=
  match r.copy with
  | some (_, src) => src
  | none => if r.core = noCore then .pantry else .core r.core

/-- What the release of a request carries on as it is performed (R224). -/
def requestKnown (s : State) (r : Request) : Known := if r.core = noCore then r.known else r.known.carried s.mem.seq r.gang r.hist

/-- The release that a request carries (R224). -/
def requestRel (s : State) (r : Request) : Option Rel :=
  r.rel.map fun sc => { scope := sc, source := requestSource r, known := requestKnown s r }

/-- A request of a deterministic gang is logged for the commit of its quantum (R236). -/
def logRequest (s : State) (gid : Nat) (r : Request) : State :=
  let (id, s1) := sendRequest s r
  modGang s1 gid fun g => { g with qLog := g.qLog ++ [id] }

/-- A request sent, in deterministic mode logged. -/
def submit (s : State) (gid : Nat) (det : Bool) (r : Request) : Nat × State :=
  let (id, s1) := sendRequest s r
  (id, if det then modGang s1 gid fun g => { g with qLog := g.qLog ++ [id] } else s1)

/-- A split waits for the answer to its request; in deterministic mode its quantum ends (R186, R252). -/
def waitReply (s : State) (gid si : Nat) (det : Bool) (rid : Nat) : State :=
  modGang s gid fun g =>
    { g with qEnded := g.qEnded || det, splits := tmod g.splits si fun sp => { sp with wait := .reply rid } }

/-- A split blocks on a wait; in deterministic mode its quantum ends (R252). -/
def blockOn (s : State) (gid si : Nat) (det : Bool) (w : Wait) : State :=
  modGang s gid fun g => { g with qEnded := g.qEnded || det, splits := tmod g.splits si fun sp => { sp with wait := w } }

/-! ### Answers -/

/-- The split of a gang waits for this request. -/
def awaits (s : State) (r : Request) (rid : Nat) : Bool :=
  match (tget s.gangs r.gang).bind fun g => (tget g.splits r.split).map fun sp => sp.wait with
  | some w => w == .reply rid
  | none => false

/-- What a gang that replays was answered at an rtc before its cluster resumed (R312). -/
def answeredAt (s : State) (part gid : Nat) (rtc : DWord) : Option (List (Nat × DWord)) :=
  if ((tget s.gangs gid).bind (·.replay)).isSome then
    ((tget s.parts part).bind fun p => p.results.find? fun e => e.1 == rankOf s gid && e.2.1 == rtc).map (·.2.2)
  else none

/-- Requests that publish something (R237). -/
def publishes : ReqKind → Bool
  | .bar _ arrives .. => arrives
  | .store .. | .rmw .. | .ctrAdd .. | .chunk .. | .join .. | .autoJoin .. | .spawn .. | .sgfork .. | .sgcancel .. | .message ..
  | .stepmark .. | .order .. | .eret .. => true
  | .waitc .. | .readc .. | .barwait .. | .bart .. | .barq .. | .barcfg .. | .sgreward .. | .sgstat .. | .deliver .. | .copyDone ..
  | .discard .. => false

/-- The k registers that the answer to a request fills. -/
def answerRegs : ReqKind → List Nat
  | .chunk _ d => [d, d + 1]
  | .bar _ _ _ _ _ d _ _ | .spawn _ d | .sgcancel _ _ d | .stepmark _ d => [d]
  | .sgfork _ _ _ _ _ _ _ _ d => [d]
  | _ => []

/-- Values that a replay finds no record of are open (R312; log entry 58). -/
def openValues (s : State) (xs : List Nat) : List (Nat × DWord) :=
  xs.map fun x => (x, BitVec.ofNat 64 (Config.freeNat 23 (s.ctl.free * 2 ^ 64 + x)))

/-- A request that a gang has sent since its cluster resumed, and that is acknowledged without being performed again (R312). -/
def replayed (s : State) (rid : Nat) (r : Request) : Bool :=
  publishes r.kind && !inCluster r.kind && ((tget s.gangs r.gang).bind (·.replay)).any fun p =>
    decide (p.since ≤ rid) && decide (r.rtc.toNat < p.top) && !p.owed.contains r.rtc

/-- What a durable gang's replayed request is answered with: what it was answered when it was first performed, or, where it is not that
request, open values (R312; log entry 58). -/
def recorded (s : State) (rid : Nat) (r : Request) : Option (List (Nat × DWord)) :=
  if inCluster r.kind then none
  else answeredAt s r.part r.gang r.rtc <|> if replayed s rid r then some (openValues s (answerRegs r.kind)) else none

/-- The answer of a durable gang's request is kept for its replay (R237, R312); an act on a barrier of its own cluster is done again, with
the barrier as the image has it. -/
def record (s : State) (r : Request) (xs : List (Nat × DWord)) : State :=
  match tget s.gangs r.gang with
  | some g =>
    if gangDurable s g && !inCluster r.kind then modPart s r.part fun p => { p with results := p.results ++ [(rankOf s r.gang, r.rtc, xs)] }
    else s
  | none => s

/-- A split waits for nothing more after its request; it is ordered after what was released on these bytes (R226). -/
def learnReply (s : State) (rid : Nat) (r : Request) (sc : Scope) (keys : List Nat) : State :=
  if awaits s r rid then learnAt (orderReleased s r.gang r.split keys) r.gang r.split sc keys else s

/-- The split that waits for a counter's value has seen the counter (R164). -/
def seeReply (s : State) (rid : Nat) (r : Request) : State := if awaits s r rid then seeCounter s r.gang r.split else s

/-- A request answered: it leaves the Pantry, its waiting split gets k writes and goes on, once it can be reached (R302). -/
def answer (s : State) (rid : Nat) (r : Request) (ws : List (Nat × Word)) (refresh : Option Scope) : State :=
  let s0 := record s r (ws.map fun w => (w.1, zextW w.2))
  let s1 := { s0 with requests := tdrop s0.requests rid }
  if awaits s r rid then answerSplit (splitReached s1 r.gang) s1 r.gang r.split ws refresh else s1

/-- A request whose answer is a trap, precise at its instruction, which has not retired (R163, R186, R189, R190). -/
def answerTrap (s : State) (rid : Nat) (r : Request) (t : TrapCode) : State :=
  let s1 := { s with requests := tdrop s.requests rid }
  if awaits s r rid then
    let s2 := modGang s1 r.gang fun g =>
      { g with qEnded := false, splits := tmod g.splits r.split fun sp => { sp with wait := .none } }
    match tget s2.gangs r.gang with
    | some g => takeTrap s2 r.gang g r.split (plainTrap t) 0
    | none => s2
  else s1

/-- A wait moves from its request to the split itself, in the Pantry's tables (R256). -/
def toTable (s : State) (rid : Nat) : State := modReq s rid fun r => { r with table := true }

/-! ### Read-modify-writes -/

/-- The new value of a word (R147, R67). -/
def rmwApply (op : RmwOp) (old x y : DWord) : DWord :=
  let w (f : Word → Word → Word) : DWord := zextW (f (loWord old) (loWord x))
  match op with
  | .add => w fun a b => a + b
  | .min => w iminW
  | .max => w imaxW
  | .and => w fun a b => a &&& b
  | .or => w fun a b => a ||| b
  | .xor => w fun a b => a ^^^ b
  | .xchg => zextW (loWord x)
  | .cas => if loWord old = loWord x then zextW (loWord y) else zextW (loWord old)
  | .fadd => w rneAdd
  | .add64 => old + x

/-- Bytes of an operation's word. -/
def rmwBytes : RmwOp → Nat
  | .add64 => 8
  | _ => 4

/-- Lanes of one request served in order: the memory after them, and each lane's old value (R147).  The word carries on its releases,
and `own` at its scope (R217, R226). -/
def rmwLanes (s : State) (src : Source) (own : Option Rel) (op : RmwOp) : List RmwLane → State × List (RmwLane × DWord)
  | [] => (s, [])
  | l :: ls =>
    let n := rmwBytes op
    let old := BitVec.ofNat 64 (memLE s l.addr n)
    let sys := own.any fun r => r.scope == .sy
    let rels := sequenceRels s own ((List.range n).map fun i => l.addr + i)
    let s1 := writeRel s src sys (fun _ => rels) (bytesAt l.addr n (rmwApply op old l.x l.y).toNat)
    let (s2, rest) := rmwLanes s1 src own op ls
    (s2, (l, old) :: rest)

/-- The issuing core drops the word from its snapshot, and reads nothing older than the result (R148). -/
def dropWord (s : State) (core : Nat) (keys : List Nat) : State :=
  if core = noCore then s else ownMarks (modCore s core fun c => { c with obs := c.obs.filter fun o => !keys.contains o.1 }) core .pk keys

/-- A pending write gets the results of one of the requests it waits for. -/
def fillPending (rid : Nat) (ws : List (Nat × Word)) (q : Pending) : Pending :=
  if q.replies.contains rid then { q with writes := q.writes ++ ws, replies := q.replies.filter (· != rid) } else q

/-- A split's pending writes get the results of a request. -/
def fillSplit (rid : Nat) (ws : List (Nat × Word)) (sp : Split) : Split :=
  { sp with pend := sp.pend.map (fillPending rid ws), acqs := sp.acqs.filter (· != rid) }

/-- What a gang has sent after a request of its own, po-after it, carries on what the request has acquired (R216, R224, R225). -/
def carryOn (s : State) (rid : Nat) (r : Request) (k : Known) : State :=
  let later (id gid : Nat) (hist : List Nat) : Bool := gid == r.gang && decide (rid < id) && hist.contains r.seg
  { s with
    requests := s.requests.map fun e => if later e.1 e.2.gang e.2.hist then (e.1, { e.2 with known := e.2.known.join k }) else e
    pubs := s.pubs.map fun e => if later e.1 e.2.gang e.2.hist then (e.1, { e.2 with known := e.2.known.join k }) else e }

/-- An acquire by a read-modify-write has been performed: the core refreshes, and every split that goes on after the instruction in po has
acquired what the word carried, and so have the releases that follow it (R216, R225, R226). -/
def acquireWord (s : State) (rid : Nat) (r : Request) (rs : List Rel) : State :=
  match r.acq with
  | some sc =>
    let k := relsKnown r.core (ordScope sc) rs
    let after (sp : Split) : Split :=
      if inHistory sp r.seg then
        let sp1 := refreshed s.mem.seq (ordScope sc) sp
        { sp1 with known := sp1.known.join k }
      else sp
    carryOn (bindCore (modSplits (refreshCore s r.core (ordScope sc)) r.gang after) r.core k) rid r k
  | none => s

/-- The old values of a request land, or wait for the landing point of their instruction (R29, R257). -/
def returnLanes (s : State) (rid : Nat) (r : Request) (olds : List (RmwLane × DWord)) : State :=
  match tget s.gangs r.gang with
  | none => s
  | some g =>
    let ws : List (Nat × Word) := olds.map fun e => (e.1.dst, loWord e.2)
    let splits : Tab Split := g.splits.map fun p => (p.1, fillSplit rid ws p.2)
    let g1 : Gang := { g with splits := splits }
    setGang s r.gang (settled ((splits.map (·.1)).foldl landDue g1))

/-- The old values of these lanes among those kept. -/
def lanesFrom (xs : List (Nat × DWord)) (ls : List RmwLane) : List (RmwLane × DWord) :=
  ls.map fun l => (l, ((xs.find? fun x => x.1 == l.addr * 64 + l.lane).map (·.2)).getD 0)

/-- The old values that a durable gang's replayed read-modify-write receives: those it had when it was first performed, or, where it is not
that one, open values (R312; log entry 58). -/
def recordedLanes (s : State) (rid : Nat) (r : Request) (ls : List RmwLane) : Option (List (RmwLane × DWord)) :=
  let keys := ls.map fun l => l.addr * 64 + l.lane
  let kept := if ((tget s.gangs r.gang).bind (·.replay)).isNone then none
    else ((tget s.parts r.part).bind fun p => p.results.find? fun e =>
      e.1 == rankOf s r.gang && e.2.1 == r.rtc && keys.all fun k => e.2.2.any fun x => x.1 == k).map (·.2.2)
  (kept <|> if replayed s rid r then some (openValues s keys) else none).map fun xs => lanesFrom xs ls

/-- A read-modify-write served (R147, R232): performed once, or answered from its record on a replay (R312).  A reduction returns
nothing (R149). -/
def serveRmw (s : State) (rid : Nat) (r : Request) (op : RmwOp) (ls : List RmwLane) (ret : Bool) : State :=
  let keys := ls.flatMap fun l => (List.range (rmwBytes op)).map fun i => l.addr + i
  let s0 := carryOverlay { s with requests := tdrop s.requests rid } fun o => o.cluster == coreCluster r.core && keys.contains o.addr
  let rels := keys.flatMap fun k => lastRels s0 k
  match recordedLanes s rid r ls with
  | some olds => returnLanes (acquireWord s0 rid r rels) rid r (if ret then olds else [])
  | none =>
    let (s1, olds) := rmwLanes s0 (.core r.core) (requestRel s0 r) op ls
    let s2 := if r.rel = some .sy then systemRelease s1 r.core r.known else s1
    let s3 := record (dropWord s2 r.core keys) r (olds.map fun e => (e.1.addr * 64 + e.1.lane, e.2))
    returnLanes (acquireWord s3 rid r rels) rid r (if ret then olds else [])

/-! ### n barriers -/

/-- The gang of a request. -/
def reqGang (s : State) (r : Request) : Option Gang := tget s.gangs r.gang

/-- An arrival or a pending add at a barrier served (R160 to R162): `wait` for barw, `token` where the commit writes the token, since a gang
in free-running mode has it from its issue on; barp does not arrive.  An arrival that finds the barrier full stays where it is.  DESIGN
CHOICE, on R162: where the release falls in a commit before the arrival's place, it is applied in that commit (log entry 67). -/
def serveBar (s : State) (rid : Nat) (r : Request) (b : BarRef) (arrives : Bool) (payload : Word) (ident : Bool)
    (pend : BitVec 56) (d : Nat) (token wait : Bool) : State :=
  match reqGang s r with
  | none => { s with requests := tdrop s.requests rid }
  | some g =>
    let x := getBar s g b
    if !arrives then wakeWaits (answer (setBar s g b (addPending x pend none)) rid r [] none)
    else if barrierFull x then s
    else
      let (s1, ph) := applyArrival s r.gang g b payload ident pend r.hist r.known
      if wait then
        let s1 := record s1 r [(d, zextW (boolW ph ||| (boolW (longForm x d) <<< 1)))]
        let s2 := { s1 with requests := tdrop s1.requests rid }
        let s3 := if awaits s r rid then blockOn s2 r.gang r.split false (.bar b ph d (longForm x d)) else s2
        wakeWaits s3
      else
        let ws : List (Nat × Word) := if token && (ident || longForm x d) then [(d, boolW ph)] else []
        let s2 := if token then s1 else record s1 r [(d, zextW (boolW ph))]
        wakeWaits (answer (if awaits s2 r rid then s2 else writeKs s2 r.gang ws) rid r ws none)

/-- An arrival that finds its barrier full is not yet served (R160), nor a barcfg before the arrivals under way, whose tokens and forms are
those of the barrier as it is. -/
def barBlocked (s : State) (r : Request) : Bool :=
  match r.kind with
  | .bar b arrives _ _ _ _ _ _ =>
    match reqGang s r with
    | some g => arrives && barrierFull (getBar s g b)
    | none => false
  | .barcfg b _ => (reqGang s r).any fun g => !(arriving s g b).isEmpty
  | _ => false

/-- A step that closes while the partition still waits for the replica of an earlier step is not yet performed (R213, R315). -/
def stepBlocked (s : State) (r : Request) : Bool :=
  match r.kind with
  | .stepmark _ _ => ((tget s.parts r.part).bind (·.stepWait)).isSome
  | _ => false

/-- The placement of a message waits while the queue area of its die is full (R241). -/
def deliveryBlocked (s : State) (r : Request) : Bool :=
  match r.kind with
  | .deliver m => !queueTakes s m.part m.die 1
  | _ => false

/-- A request that cannot be served as things stand. -/
def requestBlocked (s : State) (r : Request) : Bool := barBlocked s r || stepBlocked s r || deliveryBlocked s r

/-! ### Chunks -/

/-- The next piece of a chunk record (R190): the trap, or the index, the size and the new next. -/
def chunkPiece (next stop minChunk consumers : Nat) : Option (Nat × Nat × Nat) :=
  if minChunk = 0 || consumers = 0 then none
  else
    let rem := if next < stop then stop - next else 0
    let size := if rem = 0 then 0 else min rem (max minChunk ((rem + (2 * consumers - 1)) / (2 * consumers)))
    some (next, size, (next + size) % 2 ^ 32)

/-- A chunk served (R190). -/
def serveChunk (s : State) (rid : Nat) (r : Request) (key d : Nat) : State :=
  match chunkPiece (memLE s key 4) (memLE s (key + 4) 4) (memLE s (key + 8) 4) (memLE s (key + 12) 4) with
  | none => answerTrap s rid r .invalidParam
  | some (next, size, after) =>
    answer (writeRel s (.core r.core) false (fun _ => sequenceRels s none ((List.range 4).map fun i => key + i)) (bytesAt key 4 after)) rid r [(d, BitVec.ofNat 32 next), (d + 1, BitVec.ofNat 32 size)] none

/-! ### Spawns and sample groups -/

/-- A spawn's placements served: all, or none where the queue area cannot hold them (R188). -/
def serveSpawn (s : State) (rid : Nat) (r : Request) (ps : List Placement) (d : Nat) : State :=
  let die := ((tget s.gangs r.gang).map fun g => clusterDie (gangCluster g)).getD 0
  if queueTakes s r.part die ps.length then answer (placeAll s r.part die ps) rid r [(d, 0)] none
  else answer s rid r [(d, 1)] none

/-- The fields of a fresh group record: header, then slots (R204, R205). -/
def initGroup (s : State) (g : Group) (n : Nat) (deadline : DWord) (eps : Word) (closeVa promptVa : DWord) : State :=
  let s1 := groupPut s g 0 8 (1 + n * 256 + n * 2 ^ 40)
  let s2 := groupPut s1 g 8 8 deadline.toNat
  let s3 := groupPut s2 g 0x10 8 0
  let s4 := groupPut s3 g 0x18 8 (if eps &&& 0x7FFFFFFF = 0 then 0x35800000 else eps.toNat)
  let s5 := groupPut (groupPut s4 g 0x20 8 0) g 0x28 8 closeVa.toNat
  let s6 := groupPut (groupPut s5 g 0x30 8 promptVa.toNat) g 0x38 8 0
  (List.range n).foldl (fun s i => groupPut (groupPut s g (slotOff i) 8 0) g (slotOff i + 8) 8 0) s6

/-- A group opened over its record (R205): the record is written, n copies of the prompt are placed as one range. -/
def openGroup (s : State) (r : Request) (va : DWord) (blocks : List Nat) (n : Nat) (prompt : Placement)
    (promptVa deadline closeVa : DWord) (eps : Word) : State :=
  let die := clusterDie (homeOfKey s (blocks.headD 0))
  let (gid, s1) := freshId s
  let pl : Placement := { prompt with cont := { prompt.cont with flags := 1, crews := n * prompt.launch.crews } }
  let (rid, s2) := placeRange s1 r.part die pl (some gid) false
  let g : Group := { part := r.part, die := die, va := va, blocks := blocks, range := rid, det := prompt.launch.det, elapsed := 0, closed := false, known := Known.none }
  initGroup { s2 with groups := tset s2.groups gid g } g n deadline eps closeVa promptVa

/-- An sgfork served (R205): a record that is open traps. -/
def serveSgfork (s : State) (rid : Nat) (r : Request) (va : DWord) (blocks : List Nat) (n : Nat) (prompt : Placement)
    (promptVa deadline closeVa : DWord) (eps : Word) (d : Nat) : State :=
  let key := blocks.headD 0
  let die := clusterDie (homeOfKey s key)
  if memLE s key 1 = 1 then answerTrap s rid r .invalidParam
  else if queueTakes s r.part die 1 then
    answer (openGroup s r va blocks n prompt promptVa deadline closeVa eps) rid r [(d, 0)] none
  else answer s rid r [(d, 1)] none

/-- The latest group over a record. -/
def groupAt (s : State) (blocks : List Nat) : Option (Nat × Group) := (s.groups.filter fun g => g.2.blocks.head? == blocks.head?).getLast?

/-- An sgreward served (R208): an arrival, then the answer at once or at the close. -/
def serveReward (s : State) (rid : Nat) (r : Request) (reward : Word) : State :=
  match groupOf s r.gang with
  | none => answerTrap s rid r .invalidParam
  | some gid =>
    let s1 := modGroup s gid fun g => { g with known := g.known.join (requestKnown s r) }
    wakeRewards (toTable (siblingArrives s1 gid (siblingOf s r.gang) reward) rid)

/-- The gangs of a cohort of a range. -/
def cohortGangs (s : State) (range index : Nat) : List Nat :=
  (s.gangs.filter fun e => e.2.range == range &&
    ((tget s.cohorts e.2.cohort).map (·.index)) == some index && e.2.status != .ended).map (·.1)

/-- A pending or running sibling is cancelled (R209). -/
def cancelSibling (s : State) (gid : Nat) (g : Group) (i st : Nat) : State :=
  if st = 0 then
    let s1 := leaveLive s g i 3
    let s2 := rangeTest (cleanReservations (modRange s1 g.range fun r =>
      let r1 : Range := { r with cancelled := r.cancelled ++ [i] }
      { r1 with queued := r1.queued && !(unplaced r1).isEmpty })) g.range
    testClose s2 gid true
  else if st = 1 then
    let s1 := leaveLive s g i 3
    let s2 := (cohortGangs s g.range i).foldl (fun s x => modGang s x fun y => { y with cancelled := true }) s1
    testClose s2 gid true
  else s

/-- An sgcancel served (R209). -/
def serveCancel (s : State) (rid : Nat) (r : Request) (blocks : List Nat) (i d : Nat) : State :=
  match groupAt s blocks with
  | none => answerTrap s rid r .invalidParam
  | some (gid, g) =>
    if i ≥ groupSize s g then answerTrap s rid r .invalidParam
    else
      let s := closeExpired s gid
      let st := slotState s g i
      answer (cancelSibling s gid g i st) rid r [(d, BitVec.ofNat 32 st)] none

/-- An sgstat served (R210): an acquire at package scope. -/
def serveStat (s : State) (rid : Nat) (r : Request) (blocks : List Nat) (d : Nat) : State :=
  let key := blocks.headD 0
  let w := memLE s key 1 + memLE s (key + 2) 1 * 256 + memLE s (key + 4) 1 * 2 ^ 16 + memLE s (key + 5) 1 * 2 ^ 24
  answer s rid r [(d, BitVec.ofNat 32 w), (d + 1, BitVec.ofNat 32 (memLE s (key + 0x1C) 4))] (some .pk)

/-! ### Messages -/

/-- A message sent on its way (R191, R192). -/
def sendMessage (s : State) (m : Message) : State :=
  let (id, s1) := freshId s
  { s1 with messages := tset s1.messages id { m with seq := id } }

/-- The notice of a message that could not be placed (R192): the frame's address. -/
def messageNotice (m : Message) : FaultRecord := noticeRecord .invalidParam 8 0 .none m.cont.frame 0 0 0 0

/-- A message writes its payload and is placed, or is dropped with a notice (R192).  DESIGN CHOICE: R192 names the frame that is not mapped; one
that is not writable, or not permitted at the sender's level, has the same notice (log entry 68). -/
def deliverMessage (s : State) (m : Message) : State :=
  let v : View := { part := m.part, cluster := m.die * 20, super := m.super }
  match translateRange s v .store m.cont.frame 64,
        checkCont m.cont m.super (fun a => deviceRead s v a launchBytes) with
  | .ok keys, .ok pl =>
    let s1 := writeMem s .pantry false (keys.zip m.payload)
    (placeRange s1 m.part m.die pl none true).2
  | _, _ => postToPart s m.part (messageNotice m)

/-- The Pantry that serves the placement of a message: the first of its destination die (R256, R258; log entry 50). -/
def messageHome (m : Message) : Nat := m.die * 20

/-- A message at its destination sends its placement to the Pantry (R256, R258). -/
def sendDelivery (s : State) (m : Message) : State :=
  (sendRequest s { part := m.part, gang := 0, split := 0, core := noCore, home := messageHome m, seq := 0, sent := 0, place := 0, kind := .deliver m, acq := none,
                   rel := none, waits := [], table := false, seg := 0, hist := [], known := Known.none, rtc := 0, pages := [], copy := none }).2

/-! ### Serving -/

/-- A request's own publications and the requests before it have been performed (R224). -/
def requestReady (s : State) (r : Request) : Bool :=
  r.waits.all (fun w => (tget s.pubs w).isNone && (tget s.requests w).isNone) && !requestBlocked s r

/-- A stepmark served (R213): a number that does not exceed the last one traps. -/
def serveStep (s : State) (rid : Nat) (r : Request) (step : DWord) (d : Nat) : State :=
  match tget s.parts r.part with
  | none => { s with requests := tdrop s.requests rid }
  | some p =>
    if p.lastStep.any (fun l => step.ule l) then answerTrap s rid r .invalidParam
    else
      let s1 := record s r [(d, zextW (digestWord (stepDigest s r.part p step)))]
      performStep { s1 with requests := tdrop s1.requests rid } r.part r.gang r.split step d

/-- A stepmark that is replayed: it waits for the replica as before, or has its digest (R312, R315). -/
def replayStep (s : State) (rid : Nat) (r : Request) (step : DWord) (d : Nat) (ws : List (Nat × Word)) : State :=
  let s1 := { s with requests := tdrop s.requests rid }
  let waiting := match (tget s.parts r.part).bind (·.stepWait) with
    | some w => w.gang == r.gang && w.step == step
    | none => false
  if waiting then
    modGang s1 r.gang fun g => { g with splits := tmod g.splits r.split fun sp => { sp with wait := .step step d } }
  else answerSplit (splitReached s1 r.gang) s1 r.gang r.split ws none

/-- A store of a deterministic gang committed, with its release (R236); the logged scope also reaches the host (R235). -/
def storeCommitted (s : State) (r : Request) (bytes : List (Nat × Byte)) : State :=
  let rels : List Rel := (requestRel s r).toList
  let s1 := writeRel s (.core r.core) (r.rel == some .sy) (fun _ => rels) bytes
  if r.rel = some .sy then systemRelease s1 r.core r.known else s1

/-- A fence or a release without an access of a deterministic gang committed: at system scope it reaches the host (R235, R236). -/
def orderCommitted (s : State) (r : Request) (sc : OrdScope) : State :=
  if sc = .sy then systemRelease s r.core r.known else s

/-- A copy of a gang has made a publication: those of a durable gang are marked, and made once (R237, R312). -/
def copyMade (s : State) (gid : Nat) (rtc : DWord) (event : Nat) : Bool :=
  (tget s.gangs gid).any fun g => gangDurable s g && (tget s.parts g.part).any fun p => p.marks.contains (rankOf s gid, rtc, event)

/-- The counter add of a copy performed, once (R155, R312). -/
def copyCounter (s : State) (gid : Nat) (rtc : DWord) (src : Source) (own : Option Rel) (key amount : Nat) : State :=
  if copyMade s gid rtc eventCounter then s else markGang (addCounter s src own key amount) gid rtc eventCounter

/-- A record is answered: it leaves the queue in which it is open (R111, R295). -/
def closeAnswered (s : State) (r : FaultRecord) : State :=
  let others (q : List (Nat × FaultRecord)) : List (Nat × FaultRecord) := q.filter fun e => e.2 != r
  { s with parts := s.parts.map fun e => (e.1, { e.2 with open' := others e.2.open' })
           dev := { s.dev with firmwareQueue := others s.dev.firmwareQueue } }

/-- A record is in a queue and has not been answered. -/
def recordOpen (s : State) (r : FaultRecord) : Bool :=
  (s.parts.any fun e => e.2.open'.any fun x => x.2 == r) || s.dev.firmwareQueue.any fun x => x.2 == r

/-- An answer to a record takes effect, once (R111, R294, R312). -/
def performAnswer (s : State) (gid : Nat) (rtc : DWord) (r : FaultRecord) (point : DWord) (abort : Bool) (k : Known) : State :=
  if recordOpen s r then closeAnswered (markGang ((answerRecord s r point abort k).getD s) gid rtc eventAnswer) r else s

/-- What performing a request does (R256). -/
def perform (s : State) (rid : Nat) (r : Request) : State :=
  let gone (s' : State) : State := { s' with requests := tdrop s'.requests rid }
  match r.kind with
  | .store bytes => storeCommitted (gone (record s r [])) r bytes
  | .rmw op ls ret => serveRmw s rid r op ls ret
  | .ctrAdd addr amount =>
    match r.copy with
    | some (gid, src) => copyCounter (gone s) gid r.rtc src (requestRel s r) addr amount.toNat
    | none => dropWord (addCounter (gone (record s r [])) (requestSource r) (requestRel s r) addr amount.toNat) r.core (counterKeys addr)
  | .waitc _ _ => wakeCounters (toTable s rid)
  | .readc addr d =>
    answer (seeReply (learnReply s rid r .pk (counterKeys addr)) rid r) rid r (pairWrites d (BitVec.ofNat 64 (memLE s addr 8))) (some .pk)
  | .bar b arr ident payload pend d token wait => serveBar s rid r b arr payload ident pend d token wait
  | .barwait b token d =>
    wakeWaits (if awaits s r rid then blockOn (gone s) r.gang r.split false (.bar b token d true) else gone s)
  | .bart b token d =>
    match reqGang s r with
    | some g => answer s rid r [(d, boolW ((getBar s g b).phase != token))] none
    | none => gone s
  | .barq b d =>
    match reqGang s r with
    | some g => answer s rid r [(d, barrierWord (getBar s g b))] none
    | none => gone s
  | .barcfg b val =>
    match reqGang s r with
    | some g => if barrierIdle (getBar s g b) then answer (setBar s g b (configured (getBar s g b) val)) rid r [] none
        else answerTrap s rid r .invalidParam
    | none => gone s
  | .chunk addr d => serveChunk s rid r addr d
  | .join va addr =>
    let super := ((tget s.gangs r.gang).map fun g => g.level != .user).getD false
    let die := ((tget s.gangs r.gang).map fun g => clusterDie (gangCluster g)).getD 0
    match joinAt s r.part die super va addr with
    | (s1, none) => answer s1 rid r [] none
    | (s1, some t) => answerTrap s1 rid r t
  | .autoJoin va range => autoJoinAt (gone s) r.part (((tget s.ranges range).map (·.super)).getD false) va
  | .spawn ps d => serveSpawn s rid r ps d
  | .sgfork va blocks n prompt pva dl cva eps d => serveSgfork s rid r va blocks n prompt pva dl cva eps d
  | .sgreward w _ => serveReward s rid r w
  | .sgcancel blocks i d => serveCancel s rid r blocks i d
  | .sgstat blocks d => serveStat s rid r blocks d
  | .message m => sendMessage (gone (record s r [])) m
  | .deliver m => deliverMessage (gone s) m
  | .stepmark step d => serveStep s rid r step d
  | .copyDone _ => gone s
  | .order sc => orderCommitted (gone (record s r [])) r sc
  | .discard sc => discardCaches (gone s) r.core (coreCluster r.core) r.part sc
  | .eret rec' point abort => performAnswer (gone s) r.gang r.rtc rec' point abort (requestKnown s r)

/-- A replayed request is answered as when it was first performed, and is not performed again (R312). -/
def answerAgain (s : State) (rid : Nat) (r : Request) (xs : List (Nat × DWord)) : State :=
  let gone := { s with requests := tdrop s.requests rid }
  let ws : List (Nat × Word) := xs.map fun x => (x.1, loWord x.2)
  match r.kind with
  | .bar b _ _ _ _ d _ true =>
    if awaits s r rid then
      wakeWaits (blockOn gone r.gang r.split false (.bar b (xs.any fun x => x.2.getLsbD 0) d (xs.any fun x => x.2.getLsbD 1)))
    else gone
  | .stepmark step d => replayStep s rid r step d ws
  | _ => if awaits s r rid then answerSplit (splitReached gone r.gang) gone r.gang r.split ws none else gone

/-- Serving a request of the queue (R256, R312). -/
def serve (s : State) (rid : Nat) (r : Request) : State :=
  match r.kind, recorded s rid r with
  | .rmw .., _ | .waitc .., _ | .barwait .., _ | .bart .., _ | .barq .., _ | .sgreward .., _ | .sgstat .., _ | _, none => perform s rid r
  | _, some xs => answerAgain s rid r xs

end Sys2Proof.Machine
end

