-- ==== Sys2Proof/Machine/Region.lean ====
section
/-! DEFINITION. The register blocks of a relaxation region, the start of a slot or of a fallback step, and the restart of a pass
(R194, R195, R203, R287, R289). -/

namespace Sys2Proof.Machine

/-- The cell of an allocated register in a lane. -/
def regCell (reg lane : Nat) : Nat := reg * 64 + lane

/-- The components of a block from a register on, in a lane. -/
def blockVals (g : Gang) (reg n lane : Nat) : List Word := (List.range n).map fun i => cget g.v (regCell (reg + i) lane)

/-- The cells of a block from a register on, in a lane. -/
def blockCells (reg lane : Nat) (xs : List Word) : List (Nat × Word) := xs.zipIdx.map fun x => (regCell (reg + x.2) lane, x.1)

/-- Region lanes (R194). -/
def regionLanes (r : Region) : Nat := (r.len + (r.steps - 1)) / r.steps

/-- The lane of a step, and the first register of its place in bc (R194, R195). -/
def stepLane (r : Region) (t : Nat) : Nat := t / r.steps
def stepBase (r : Region) (t : Nat) : Nat := r.bc + t % r.steps * r.dim

/-- The guess, or the committed state, of a step (R195). -/
def guessOf (g : Gang) (r : Region) (t : Nat) : List Word := blockVals g (stepBase r t) r.dim (stepLane r t)

/-- The input of a step: x0, or the guess before it (R195). -/
def stepInput (g : Gang) (r : Region) (t : Nat) : List Word := if t = 0 then r.x0 else guessOf g r (t - 1)

/-- Cells that hold the states of steps, in bc. -/
def stateCells (r : Region) (xs : List (Nat × List Word)) : List (Nat × Word) :=
  xs.flatMap fun x => blockCells (stepBase r x.1) (stepLane r x.1) x.2

/-- Steps of a slot (R194). -/
def slotSteps (r : Region) (j : Nat) : List Nat :=
  ((List.range (regionLanes r)).map fun s => s * r.steps + j).filter fun t => decide (t < r.len)

/-- The cells written at the start of steps: the input state, then the step index (R195). -/
def inputCells (g : Gang) (r : Region) (ts : List Nat) : List (Nat × Word) :=
  ts.flatMap fun t => blockCells r.bx (stepLane r t) (stepInput g r t ++ [BitVec.ofNat 32 t])

/-- The steps that run now: those of the slot in progress, or the step of the fallback. -/
def currentSteps (r : Region) : List Nat :=
  match r.fallback with
  | some t => [t]
  | none => slotSteps r r.slot

/-- A slot, or a fallback step, starts: inputs are written, and the split runs with the lanes of its steps alone (R195, R287). -/
def startSlot (g : Gang) (si : Nat) (r : Region) : Gang :=
  let ts := currentSteps r
  let lanes := maskOf (ts.map (stepLane r))
  { g with v := csets g.v (inputCells g r ts), region := some r, splits := tmod g.splits si fun sp => { sp with mask := lanes } }

/-- A gang whose pass, or whose fallback step, is discarded starts it again at the body start, with rtc restored (R203, R289). -/
def restartRegion (g : Gang) : Gang :=
  match g.region, g.splits.head? with
  | some r, some (si, sp) =>
    if regionState g == 2 then
      let r1 : Region := { r with slot := 0, caps := [] }
      let g1 : Gang := { g with rtc := r.passRtc, splits := [(si, { sp with pc := r.start, recs := r.recs, pend := [], wait := .none })] }
      startSlot g1 si r1
    else g
  | _, _ => g

end Sys2Proof.Machine
end

