-- ==== Sys2Proof/Machine/Cellar.lean ====
section
/-! DEFINITION. The Cellar: seals, slot headers, resumes (R113, R237, R305 to R314). -/

namespace Sys2Proof.Machine

/-! ### What a cluster holds -/

/-- Array work or copies of a cohort go on, also after its crews have ended (R175, R305). -/
def cohortBusy (s : State) (cid : Nat) : Bool :=
  ((tget s.mccs cid).map fun m => !m.queue.isEmpty).getD false || s.copies.any fun e => e.2.cohort == cid

/-- The cohorts on a cluster that are not saved and not over; MCC programs, array work and copies may outlast their crews. -/
def clusterCohorts (s : State) (cl : Nat) : List Nat :=
  (s.cohorts.filter fun e => e.2.cluster == cl && (cohortHolds s e.1 e.2 || (!e.2.saved && cohortBusy s e.1))).map (·.1)

/-- The gangs on a cluster that have not ended. -/
def clusterGangs (s : State) (cl : Nat) : Tab Gang := s.gangs.filter fun e => gangCluster e.2 == cl && isResident s e.2

/-- A durable crew is on the cluster (R307, R310). -/
def durableCluster (s : State) (cl : Nat) : Bool := (clusterGangs s cl).any fun e => gangDurable s e.2

/-- The four cores of a cluster. -/
def clusterCores (cl : Nat) : List Nat := (List.range 4).map fun i => cl * 4 + i

/-- A request of a cluster's own cores. -/
def ownRequest (cl : Nat) (r : Request) : Bool := r.core != noCore && coreCluster r.core == cl

/-- A request belongs to a cluster's image: of its cores, or in the tables and the queue of its Pantry (R256, R305). -/
def imageRequest (cl : Nat) (r : Request) : Bool := ownRequest cl r || r.home == cl

/-- A publication belongs to a cluster's image: of its cores. -/
def imagePub (cl : Nat) (p : Pub) : Bool := p.core != noCore && coreCluster p.core == cl

/-- The n barriers in a cluster's Pantry (R159, R305). -/
def pantryBars (s : State) (cl : Nat) : Tab (Tab Barrier) :=
  (s.ranges.filter fun e => e.2.barHome == cl && !e.2.done).map fun e => (e.1, e.2.bars)

/-- The shadowed state of a cluster (R305); its part of the continuation queue is which cohorts of which ranges stand on it. -/
def captureImage (s : State) (cl : Nat) : Image :=
  let cohorts := clusterCohorts s cl
  { gangs := clusterGangs s cl, crews := s.crews.filter (fun e => cohorts.contains e.2.cohort),
    cohorts := s.cohorts.filter (fun e => cohorts.contains e.1), mccs := s.mccs.filter (fun e => cohorts.contains e.1),
    copies := s.copies.filter (fun e => cohorts.contains e.2.cohort),
    porches := (clusterCores cl).map (fun c => (c, (getCore s c).porch)),
    stairs := (clusterCores cl).map (fun c => (c, (getCore s c).stair, (getCore s c).stairWait)), bars := pantryBars s cl,
    requests := s.requests.filter (fun e => imageRequest cl e.2), pubs := s.pubs.filter (fun e => imagePub cl e.2) }

/-! ### Slot headers (R307) -/

/-- Bytes 0x00 to 0x3B of a header. -/
def headerBody (h : SlotHeader) : List Byte :=
  bytesLE 8 h.generation ++ bytesLE 8 h.boundary ++ bytesLE 1 h.cause ++ bytesLE 1 h.flags ++ bytesLE 2 0
    ++ bytesLE 4 h.granules ++ List.replicate 36 0

/-- The 64 bytes of a header. -/
def headerBytes (h : SlotHeader) : List Byte := headerBody h ++ bytesLE 4 h.crc.toNat

/-- A header with its CRC (R307). -/
def closeHeader (h : SlotHeader) : SlotHeader := { h with crc := crc32c (headerBody h) }

/-- A slot is valid: a generation, a matching CRC, and an image that reads (R311). -/
def slotValid (x : CellarSlot) (bad : Bool) : Bool :=
  x.header.generation != 0 && x.header.crc == crc32c (headerBody x.header) && x.image.isSome && !bad

/-- The active slot, and the generation of the newest header (R306). -/
def activeSlot (c : ClusterSt) : CellarSlot := if c.activeB then c.slotB else c.slotA

/-! ### Seals (R306) -/

/-- A pending write can land before a seal: its results have come, and none that lands before it in the same cells is still to come. -/
def landsNow (ps : List Pending) (p : Pending) : Bool :=
  !pendOpen p && !(ps.any fun q => pendOpen q && decide (q.left < p.left) && q.dst.any fun c => p.writes.any fun w => w.1 == c)

/-- The pending writes of a split land, but for those whose results are still to come. -/
def landReady (g : Gang) (si : Nat) : Gang :=
  match tget g.splits si with
  | none => g
  | some sp =>
    { landList g (sp.pend.filter (landsNow sp.pend)) with
      splits := tset g.splits si { sp with pend := sp.pend.filter fun p => !landsNow sp.pend p } }

/-- Every pending write on a cluster lands (R31, R306 step 1). -/
def landCluster (s : State) (cl : Nat) : State :=
  { s with gangs := s.gangs.map fun e =>
      if gangCluster e.2 == cl && isResident s e.2 then (e.1, (e.2.splits.map (·.1)).foldl landReady e.2) else e }

/-- The granules of a slot: 4.5 MiB in granules of 256 bytes (R305, R306). -/
def slotGranules : Nat := 18432

/-- Every result of a cluster's free-running gangs has come, so that no write is pending once a seal has landed them (R31, R306 step 1);
those of deterministic gangs come at their commit (log entry 31). -/
def sealReady (s : State) (cl : Nat) : Bool := (clusterGangs s cl).all fun e => gangDet s e.2 || !gangOpen e.2

/-- A seal with a cause: the inactive slot takes the image and becomes active; the bits that are set count the granules written (R306,
R307).  The publications and the old values recorded for the gangs stay, for a resume from the slot before (R311, R312; log entry 58). -/
def sealCluster (s : State) (cl cause : Nat) : State :=
  let s1 := landCluster s cl
  let c := getCluster s1 cl
  let dirty := min slotGranules (if c.activeB then c.dirtyA else c.dirtyB)
  let h := closeHeader { generation := (activeSlot c).header.generation + 1, boundary := c.retired, cause := cause,
                         flags := if durableCluster s1 cl then 1 else 0, granules := dirty, crc := 0 }
  let slot : CellarSlot := { header := h, image := some (captureImage s1 cl) }
  setCluster s1 cl
    (if c.activeB then { c with slotA := slot, activeB := false, dirtyA := 0 } else { c with slotB := slot, activeB := true, dirtyB := 0 })

/-- A seal that is torn: the inactive slot is invalid (R306 step 2, R310). -/
def tornSeal (s : State) (cl : Nat) : State :=
  modCluster s cl fun c =>
    if c.activeB then { c with slotA := { c.slotA with header := { c.slotA.header with generation := 0 } } }
    else { c with slotB := { c.slotB with header := { c.slotB.header with generation := 0 } } }

/-- The seal that precedes a publication of a durable gang, its boundary immediately before the instruction (R237, R308), once the
cluster's results have come (R306 step 1); the instruction then goes on with the gang as it stands. -/
def withSeal (s : State) (gid si : Nat) (g : Gang) (f : State → Gang → Split → Outcome) : Outcome :=
  if gangDurable s g && !sealReady s (gangCluster g) then .next s
  else
  let s1 := if gangDurable s g then sealCluster s (gangCluster g) 0 else s
  match tget s1.gangs gid with
  | none => .next s1
  | some g1 =>
    match tget g1.splits si with
    | none => .next s1
    | some sp1 => f s1 g1 sp1

/-! ### Resumes (R311) -/

/-- The record of a gang whose pass is discarded gets flag [4] and the restart address (R203, R292). -/
def flagRestart (r : FaultRecord) (start : DWord) : FaultRecord := { r with flags := r.flags ||| 16, point := start }

/-- The records of one gang, flagged so. -/
def flagOwn (gid : Nat) (start : DWord) (e : Nat × FaultRecord) : Nat × FaultRecord :=
  if e.2.owner == .gang gid then (e.1, flagRestart e.2 start) else e

/-- The bytes of a posted record that say so: its flags and its resume point (R292). -/
def flagBytes (key : Nat) (flags : Byte) (start : DWord) : List (Nat × Byte) :=
  (key + 1, flags ||| 16) :: listAt (key + 0x10) (bytesLE 8 start.toNat)

/-- An answer under way to a record of a gang, with the record flagged so (R290). -/
def flagAnswer (gid : Nat) (start : DWord) (e : Nat × Request) : Nat × Request :=
  match e.2.kind with
  | .eret r point abort => if r.owner == .gang gid then (e.1, { e.2 with kind := .eret (flagRestart r start) point abort }) else e
  | _ => e

/-- The records of a gang in its partition's queue and in the firmware's, posted or held, flagged so, with the bytes of those posted, and as
the answers under way to them name them. -/
def flagRecords (s : State) (gid part : Nat) (start : DWord) : State :=
  let s1 : State := match tget s.parts part with
    | none => s
    | some p =>
      let posted := (p.open'.filter fun e => e.2.owner == .gang gid).map fun e => physKey part (recordAddr p e.1)
      modPart (posted.foldl (fun s key => writeMem s .pantry false (flagBytes key (newestByte s (key + 1)) start)) s) part fun q =>
        { q with open' := q.open'.map (flagOwn gid start), heldRecords := q.heldRecords.map (flagOwn gid start) }
  let own := (s.dev.firmwareQueue.filter fun e => e.2.owner == .gang gid).map fun e => firmwareRecordAddr e.1
  let mem := own.foldl (fun m a => m.writes (flagBytes a (m.read (a + 1)) start)) s.dev.firmwareMem
  { s1 with requests := s1.requests.map (flagAnswer gid start)
            dev := { s1.dev with firmwareMem := mem, firmwareQueue := s1.dev.firmwareQueue.map (flagOwn gid start),
                                   firmwareHeld := s1.dev.firmwareHeld.map (flagOwn gid start) } }

/-- A parked gang in a region restarts its pass, and its records say so, in whichever queue they stand (R36, R203, R290). -/
def discardPass (s : State) (gid : Nat) : State :=
  match tget s.gangs gid with
  | none => s
  | some g =>
    match g.region with
    | none => s
    | some rg =>
      if g.status == .parked && regionState g == 2 then flagRecords (setGang s gid (restartRegion g)) gid g.part rg.start else s

/-- The end of a crew without a seal to resume from: one record per gang (R311, R314).  DESIGN CHOICE: its Porch entries are published as they
stood, as at every crew's end (R219; log entry 63). -/
def loseCrew (s : State) (wid : Nat) : State :=
  match tget s.crews wid with
  | none => s
  | some w =>
    let s1 := w.gangs.foldl (fun s gid =>
      match tget s.gangs gid with
      | some g =>
        if g.status == .ended then s
        else postRecord s g.part (g.level != .user)
          (gangRecord s gid g (((g.splits.head?).map (·.1)).getD 0) (((g.splits.head?).map (·.2)).getD
            (Split.start 0 0 0)) (plainTrap .retentionLoss) 0)
      | none => s) s
    endCrew s1 wid

/-- Neither slot is valid: every crew and every MCC program of the cluster ends, and with the Pantry's tables lost the partition
halts (R311 step 2).  DESIGN CHOICE: the rule ends crews and programs and speaks of nothing else; the copies and the queued array work of the
cluster's cohorts go on (log entry 69). -/
def loseCluster (s : State) (cl : Nat) (tablesLost : Bool) : State :=
  let cids := clusterCohorts s cl
  let s1 := cids.foldl (fun s cid =>
    let s' := if mccRunning s cid then endMcc s cid else s
    ((tget s'.cohorts cid).map (·.crews) |>.getD []).foldl loseCrew s') s
  if tablesLost then
    let s2 := { s1 with requests := s1.requests.filter fun e => !(e.2.home == cl) }
    (s2.parts.filter fun p => p.2.dies.contains (clusterDie cl)).foldl (fun s p => haltPart s p.1 7) s2
  else s1

/-- Regions whose pass was under way in the cluster start it again (R289); the records of parked gangs say so (R203). -/
def restartRegions (s : State) (cids : List Nat) : State :=
  (s.gangs.filter fun e => cids.contains e.2.cohort && e.2.status != .ended).foldl (fun s e =>
    if e.2.status == .parked then discardPass s e.1 else modGang s e.1 restartRegion) s

/-- The rtc of what a gang had under way, and had not performed, at a loss: it is performed when it is replayed (R312). -/
def owedBy (s : State) (gid : Nat) : List DWord :=
  ((((tget s.gangs gid).bind (·.replay)).map (·.owed)).getD [] ++ (s.pubs.filter fun p => p.2.gang == gid).map (·.2.rtc) ++
    (s.requests.filter fun r => r.2.gang == gid).map (·.2.rtc)).eraseDups

/-- What a durable gang knows, after a resume, of its publications before it; `lost` is the state at the loss (R312; log entry 58). -/
def replayOf (lost s : State) (gid : Nat) (g : Gang) : Option Replay :=
  match tget s.parts g.part with
  | none => none
  | some p =>
    if gangDurable s g then
      let marks := (p.marks.filter fun m => m.1 == rankOf s gid).map (·.2)
      let results := (p.results.filter fun e => e.1 == rankOf s gid).map (·.2.1)
      some { marks := marks, top := (marks.map (·.1) ++ results).foldl (fun n r => max n (r.toNat + 1)) 0, owed := owedBy lost gid,
             since := s.ctl.nextId }
    else none

/-- The gangs of a cluster know which of their publications have been performed (R312). -/
def replayMarks (lost s : State) (cids : List Nat) : State :=
  { s with gangs := s.gangs.map fun e => if cids.contains e.2.cohort then (e.1, { e.2 with replay := replayOf lost s e.1 e.2 }) else e }

/-- The cohorts of an image that it can bring back: those that have not been saved and placed elsewhere since (R298). -/
def imageCohorts (s : State) (cl : Nat) (im : Image) : List Nat :=
  (im.cohorts.map (·.1)).filter fun c => (tget s.cohorts c).any fun x => x.cluster == cl && !x.saved

/-- A gang in the body of its region claims the stair unit of its core again, or waits for it, where neither its claim nor its wait came
back with the image (R277, R289). -/
def reclaimStair (s : State) (gid : Nat) : State :=
  match tget s.gangs gid with
  | some g =>
    if regionState g == 2 && g.status != .ended then (claimStair s g.core gid).getD (waitStair s g.core gid) else s
  | none => s

/-- The Attic after a resume: it is held by the cohort whose image claims it, and the gangs that waited for it wait again (R268). -/
def restoreAttic (s : State) (cl : Nat) (gone kept : List Nat) : State :=
  let claims := kept.find? fun c => (tget s.cohorts c).any (·.attic)
  let free (x : ClusterSt) : Option Nat := x.atticHolder.filter fun c => !gone.contains c
  let s1 := modCluster s cl fun x =>
    { x with atticHolder := claims <|> free x, atticOlds := [], atticWait := x.atticWait.filter fun w => !gone.contains w.1 }
  (s1.gangs.filter fun e => kept.contains e.2.cohort && e.2.splits.any fun p => p.2.wait == .retry .attic).foldl
    (fun s e => queueAttic s e.2) s1

/-- A cluster runs the lane ratio of its crews again, which is theirs for life (R4, R319). -/
def restoreRatio (s : State) (cl : Nat) (kept : List Nat) : State :=
  match kept.findSome? fun c => (tget s.cohorts c).filter fun x => !x.ended with
  | some c => modCluster s cl fun x => if x.ratio = c.ratio then x else switchRatio x c.ratio
  | none => s

/-- A cluster goes back to an image: gangs, crews, cohorts, MCCs, copies, Porches, claims and the requests of its cores are those of the
seal; cohorts placed since return to their queue (R305, R311).  With `pantry`, its Pantry goes back as well: the n barriers of volatile
launches, which may replay their arrivals; what others have sent there, and the arrivals of durable launches, are performed once and
stay (R312, R313; log entry 55).  DESIGN CHOICE: fault queues are no part of an image, so a record posted after the seal stays open though its
gang runs again, and a gang that the image holds parked stays parked though its record has been answered since (log entry 63). -/
def restoreImage (s : State) (cl : Nat) (pantry : Bool) (im : Image) : State :=
  let now := clusterCohorts s cl
  let kept := imageCohorts s cl im
  let fresh := now.filter fun c => !kept.contains c
  let gone (cid : Nat) : Bool := now.contains cid || kept.contains cid
  let back (gid : Nat) : Bool := (tget im.gangs gid).all fun g => kept.contains g.cohort
  let put {α : Type} (t : Tab α) (x : Tab α) : Tab α := x.foldl (fun t e => tset t e.1 e.2) t
  let s1 := fresh.foldl (fun s cid =>
    match tget s.cohorts cid with
    | some c => if c.ended then s else modRange s c.range fun r => { r with returned := c.index :: r.returned, queued := true }
    | none => s) s
  let s2 := { s1 with
    gangs := put (s1.gangs.filter fun e => !gone e.2.cohort) (im.gangs.filter fun e => kept.contains e.2.cohort)
    crews := put (s1.crews.filter fun e => !gone e.2.cohort) (im.crews.filter fun e => kept.contains e.2.cohort)
    cohorts := put (s1.cohorts.filter fun e => !gone e.1) (im.cohorts.filter fun e => kept.contains e.1)
    mccs := put (s1.mccs.filter fun e => !gone e.1) (im.mccs.filter fun e => kept.contains e.1)
    copies := put (s1.copies.filter fun e => !gone e.2.cohort) (im.copies.filter fun e => kept.contains e.2.cohort)
    requests := put (s1.requests.filter fun e => !ownRequest cl e.2) (im.requests.filter fun e => ownRequest cl e.2 && back e.2.gang)
    pubs := put (s1.pubs.filter fun e => !imagePub cl e.2) (im.pubs.filter fun e => back e.2.gang) }
  let s3 := im.cohorts.foldl (fun s e =>
    if e.2.ended || !kept.contains e.1 then s
    else modRange s e.2.range fun r => { r with ended := r.ended.filter (· != e.2.index), done := false }) s2
  let s4 := im.porches.foldl (fun s e => modCore s e.1 fun c => { c with porch := e.2.filter fun x => back x.gang, resumed := c.order }) s3
  let s5 := im.stairs.foldl (fun s e => modCore s e.1 fun c =>
    { c with stair := e.2.1.filter back, stairWait := e.2.2.filter fun w => back w.1 }) s4
  let s6 := im.bars.foldl (fun s e => modRange s e.1 fun r => if pantry && !r.launch.durable then { r with bars := e.2 } else r) s5
  let s7 := replayMarks s (restartRegions s6 kept) kept
  let s8 := (s7.gangs.filter fun e => kept.contains e.2.cohort).foldl (fun s e => reclaimStair s e.1) s7
  let s9 := restoreRatio (restoreAttic s8 cl (now ++ kept) kept) cl kept
  cleanReservations (if fresh.isEmpty then s9 else noteEmpty s9 cl)

/-- A cluster resumes from the Cellar (R311); the other slot is rewritten from the restored one with cause 8, and the cores refresh.
With `slept`, only the cluster's own supply was off and its Pantry went on: the entry seal then holds it as it stands, and what has
been answered to its gangs since is theirs (R314, R328). -/
def resumeCluster (s : State) (cl : Nat) (badA badB tablesLost slept : Bool) : State :=
  let c := getCluster s cl
  let okA := slotValid c.slotA badA
  let okB := slotValid c.slotB badB
  let useB := okB && (!okA || decide (c.slotA.header.generation < c.slotB.header.generation))
  if !okA && !okB then loseCluster s cl tablesLost
  else
    let from' := if useB then c.slotB else c.slotA
    let h := closeHeader { from'.header with generation := from'.header.generation + 1, cause := 8, granules := slotGranules }
    let other : CellarSlot := { header := h, image := from'.image }
    let c1 := if useB then { c with slotA := other, activeB := false } else { c with slotB := other, activeB := true }
    let s1 := setCluster s cl { c1 with dirtyA := 0, dirtyB := 0, tlb := [], retired := from'.header.boundary }
    let s2 := match from'.image with
      | some im => if slept && useB == c.activeB then restartRegions s1 (clusterCohorts s1 cl)
        else restoreImage s1 cl (!slept) im
      | none => s1
    (clusterCores cl).foldl (fun s c => refreshCore s c .pk) s2

/-! ### pfence (R113, R309) -/

/-- The cluster's array queues are empty, and the copies that its crews issued before, whose names are below `before`, are complete
(R309). -/
def clusterDrained (s : State) (cl before : Nat) : Bool :=
  let cids := clusterCohorts s cl
  cids.all (fun c => ((tget s.mccs c).map (·.queue.isEmpty)).getD true)
  && s.copies.all fun e => !(cids.contains e.2.cohort) || decide (before ≤ e.1)

/-- pfence (R113): core scope seals once the results of the cluster have come; cluster scope first waits for array work, and for the
copies issued before it. -/
def execPfence (cl : Bool) (s : State) : Outcome :=
  eitherOp .opens [] none false s
    (fun s gid g si sp =>
      let c := gangCluster g
      if cl && !clusterDrained s c s.ctl.nextId then .next (blockOn s gid si (gangDet s g) (.drain s.ctl.nextId))
      else if !sealReady s c then .next s
      else .next (retireAt (sealCluster s c (if cl then 2 else 1)) gid si (nextPc sp.pc)))
    (fun s cid c m =>
      if cl && !clusterDrained s c.cluster s.ctl.nextId then .next (modMcc s cid fun x => { x with wait := .drain s.ctl.nextId })
      else if !sealReady s c.cluster then .next s
      else .next (retireMcc (sealCluster s c.cluster (if cl then 2 else 1)) cid (nextPc m.pc)))

/-- What a pfence.cl on a cluster waits for has happened (R309). -/
def drainOver (s : State) (cl before : Nat) : Bool := clusterAwake s cl && sealReady s cl && clusterDrained s cl before

/-- A pfence.cl of a gang that has waited seals, and its split goes on (R309). -/
def wakeDrain (s : State) (gid si : Nat) : State :=
  match (tget s.gangs gid).bind fun g => (tget g.splits si).map fun sp => (g, sp.wait) with
  | some (g, Wait.drain n) =>
    if isResident s g && drainOver s (gangCluster g) n then finishWait (sealCluster s (gangCluster g) 2) gid si [] none else s
  | _ => s

/-- The same of an MCC. -/
def wakeMccDrain (s : State) (cid : Nat) : State :=
  match tget s.mccs cid, tget s.cohorts cid with
  | some m, some c =>
    match m.wait with
    | .drain n => if !c.saved && drainOver s c.cluster n then retireMcc (sealCluster s c.cluster 2) cid (nextPc m.pc) else s
    | _ => s
  | _, _ => s

/-- Every pfence.cl that has waited long enough: those of free-running gangs and of MCCs; in deterministic mode a gang's ends at the
quantum end (R253, R309). -/
def wakeDrains (s : State) : State :=
  let s1 := ((s.gangs.filter fun e => !gangDet s e.2).flatMap fun e => e.2.splits.map fun p => (e.1, p.1)).foldl
    (fun s h => wakeDrain s h.1 h.2) s
  s1.mccs.foldl (fun s e => wakeMccDrain s e.1) s1

/-! ### exit (R108, R165, R237) -/

/-- The exit of a split ends its crew: no other lane of its gang and no other gang of the crew goes on. -/
def exitEndsCrew (s : State) (gid : Nat) (g : Gang) (si : Nat) (sp : Split) : Bool :=
  g.splits.all (fun x => x.1 == si) && (afterExit g si (g.exited ||| sp.mask) sp sp.recs).isNone
    && (tget s.crews g.crew).all fun w => w.gangs.all fun x => x == gid || (tget s.gangs x).all fun y => y.status == .ended

/-- exit (R108, R165): on the MCC it waits for the array queue, then ends the program.  The exit that ends a durable crew
publishes what the crew has stored, and is sealed before (R237, R248). -/
def execExit (s : State) : Outcome :=
  eitherOp .closes [] none false s
    (fun s gid g si sp =>
      if exitEndsCrew s gid g si sp then withSeal s gid si g fun s g sp => .next (exitSplit s gid g si sp)
      else .next (exitSplit s gid g si sp))
    (fun s cid _ m => if m.queue.isEmpty then .next (endMcc (retireMcc s cid (nextPc m.pc)) cid) else .next s)

end Sys2Proof.Machine
end

