-- ==== Sys2Proof/Machine/Vector.lean ====
section
/-! DEFINITION. Floating point, conversion, special functions and divides (R116 to R132). -/

namespace Sys2Proof.Machine

/-- A per-strand floating-point instruction: a result and flags for each active strand (R116, R118). -/
def floatOp (vs : List Nat) (d : Nat) (s : State) (f : State → Gang → Split → Nat → Word × Flags) : Outcome :=
  gangOp .opens vs (some [d]) false s fun s gid g si sp =>
    doneAt s gid (perLaneFlags (perLane g sp.mask d fun l => (f s g sp l).1) sp.mask fun l => (f s g sp l).2) si sp

/-- V(s, d) ← f(x, y) with the strand's rounding control for element 0. -/
def floatOp2 (d a b : Nat) (s : State) (f : RoundCtl → Word → Word → Word × Flags) : Outcome :=
  floatOp [d, a, b] d s fun s g sp l => f (strandCtl s g sp l 0) (vget g a l) (vget g b l)

/-- V(s, d) ← f(x, y, z), z being V(s, d) before. -/
def floatOp3 (d a b : Nat) (s : State) (f : RoundCtl → Word → Word → Word → Word × Flags) : Outcome :=
  floatOp [d, a, b] d s fun s g sp l => f (strandCtl s g sp l 0) (vget g a l) (vget g b l) (vget g d l)

/-- V(s, d) ← f(x). -/
def floatOp1 (d a : Nat) (s : State) (f : RoundCtl → Word → Word × Flags) : Outcome :=
  floatOp [d, a] d s fun s g sp l => f (strandCtl s g sp l 0) (vget g a l)

def execFadd (d a b : Nat) (s : State) : Outcome := floatOp2 d a b s fadd32
def execFsub (d a b : Nat) (s : State) : Outcome := floatOp2 d a b s fsub32
def execFmul (d a b : Nat) (s : State) : Outcome := floatOp2 d a b s fmul32
def execFfma (d a b : Nat) (s : State) : Outcome := floatOp3 d a b s ffma32
def execFmin (d a b : Nat) (s : State) : Outcome := floatOp2 d a b s (fminmax32 false)
def execFmax (d a b : Nat) (s : State) : Outcome := floatOp2 d a b s (fminmax32 true)
def execFset (c : FsetCond) (d a b : Nat) (s : State) : Outcome := floatOp2 d a b s (fset32 c)
def execFclass (d a : Nat) (s : State) : Outcome := floatOp1 d a s fun _ x => (fclassW x, flNone)
def execFrnd (m : Direction) (d a : Nat) (s : State) : Outcome := floatOp1 d a s (frnd32 m)
def execCvt (c : CvtCode) (d a : Nat) (s : State) : Outcome := floatOp1 d a s (cvt32 c)
def execFscale (d a b : Nat) (s : State) : Outcome := floatOp2 d a b s fscale32
def execFdot2 (f : DotFmt) (d a b : Nat) (s : State) : Outcome := floatOp3 d a b s (fdot2W (dotFmt f))

/-- The element of V(s, d) that x takes in fpack; y takes the next (R127). -/
def packElem : PackFmt → Nat
  | .f16 | .bf16 => 0
  | .e4m3 | .e5m2 => 2

def execFpack (f : PackFmt) (d a b : Nat) (s : State) : Outcome :=
  floatOp [d, a, b] d s fun s g sp l =>
    fpackW f (strandCtl s g sp l (packElem f)) (strandCtl s g sp l (packElem f + 1)) (vget g a l) (vget g b l) (vget g d l)

/-- The eight inputs of group `q`; an inactive lane supplies +0.0 (R128). -/
def fq4Inputs (g : Gang) (m : Mask) (a q : Nat) : List Word :=
  (List.range 8).map fun i => if m.getLsbD (8 * q + i) then vget g a (8 * q + i) else 0

/-- What strand `l` receives from the block of its group (R128). -/
def fq4Result (blk : List Nat × Nat × Flags) (l : Nat) : Word :=
  match l % 8 with
  | 0 => BitVec.ofNat 32 (blk.1.foldr (fun c acc => acc * 16 + c) 0)
  | 1 => BitVec.ofNat 32 blk.2.1
  | i => BitVec.ofNat 32 (blk.1[i]?.getD 0)

/-- fq4 (R128): the block quantiser over groups of eight lanes. -/
def execFq4 (d a : Nat) (s : State) : Outcome :=
  gangOp .opens [d, a] none false s fun s gid g si sp =>
    let blk (l : Nat) := fq4Block (fq4Inputs g sp.mask a (l / 8))
    doneAt s gid (perLaneFlags (perLane g sp.mask d fun l => fq4Result (blk l) l) sp.mask fun l => (blk l).2.2) si sp

/-! ### Long-latency results (R29, R117) -/

/-- A pending write is opened behind those of the split; it lands after `la` more instructions (R29). -/
def openPending (g : Gang) (si : Nat) (p : Pending) : Gang :=
  { g with splits := tmod g.splits si fun sp => { sp with pend := sp.pend ++ [p] } }

/-- An sfu function or a divide: each active strand's result and flags are written at the landing point (R29, R117). -/
def longOp (vs : List Nat) (d la : Nat) (s : State) (f : State → Gang → Split → Nat → Word × Flags) : Outcome :=
  gangOp .opens vs (some [d]) false s fun s gid g si sp =>
    let p : Pending :=
      { left := la + 1, writes := laneWrites g sp.mask d (fun l => (f s g sp l).1),
        flags := flUnion ((lanesOf sp.mask).map fun l => (f s g sp l).2), replies := [], dst := [], dead := [], slots := 0, acquire := none }
    doneAt s gid (openPending g si p) si sp

/-- An sfu function of one operand (R129). -/
def sfuOp (d a la : Nat) (s : State) (f : Bool → Word → Word × Flags) : Outcome :=
  longOp [d, a] d la s fun _ g sp l => f (sp.fmt.getLsbD 15) (vget g a l)

/-- An integer divide: no flag (R131). -/
def divOp (d a b la : Nat) (s : State) (f : Word → Word → Word) : Outcome :=
  longOp [d, a, b] d la s fun _ g _ l => (f (vget g a l) (vget g b l), flNone)

def execRcp (d a l : Nat) (s : State) : Outcome := sfuOp d a l s rcp32
def execRsqrt (d a l : Nat) (s : State) : Outcome := sfuOp d a l s rsqrt32
def execSqrt (d a l : Nat) (s : State) : Outcome := sfuOp d a l s sqrt32
def execExp2 (d a l : Nat) (s : State) : Outcome := sfuOp d a l s exp2_32
def execLog2 (d a l : Nat) (s : State) : Outcome := sfuOp d a l s log2_32
def execSinpi (d a l : Nat) (s : State) : Outcome := sfuOp d a l s sinpi32
def execCospi (d a l : Nat) (s : State) : Outcome := sfuOp d a l s cospi32
def execTanh (d a l : Nat) (s : State) : Outcome := sfuOp d a l s tanh32
def execSigmoid (d a l : Nat) (s : State) : Outcome := sfuOp d a l s sigmoid32
def execErf (d a l : Nat) (s : State) : Outcome := sfuOp d a l s erf32
/-- texp (R130): the logit in va, the running maximum in vd. -/
def execTexp (d a l : Nat) (s : State) : Outcome :=
  longOp [d, a] d l s fun _ g sp x => texp32 (sp.fmt.getLsbD 15) g.temp (tmodeOf g.temp) (vget g a x) (vget g d x)
def execIdiv (d a b l : Nat) (s : State) : Outcome := divOp d a b l s idivW
def execIdivu (d a b l : Nat) (s : State) : Outcome := divOp d a b l s divuW
def execIrem (d a b l : Nat) (s : State) : Outcome := divOp d a b l s iremW
def execIremu (d a b l : Nat) (s : State) : Outcome := divOp d a b l s remuW
def execFdiv (d a b l : Nat) (s : State) : Outcome :=
  longOp [d, a, b] d l s fun s g sp x => fdiv32 (strandCtl s g sp x 0) (vget g a x) (vget g b x)

end Sys2Proof.Machine
end

