-- ==== Sys2Proof/Machine/MemoryOps.lean ====
section
/-! DEFINITION. Loads, stores, atomics, reductions, scratchpad accesses, fences and phase (R114, R140 to R151, R215 to R232). -/

namespace Sys2Proof.Machine

/-! ### Lanes and their addresses -/

/-- A lane's access that has been checked: the lane, its address, and the physical key. -/
abbrev LaneKey := Nat × DWord × Nat

/-- The address checks of one lane (R65, R140). -/
def laneCheck (s : State) (v : View) (k : AccessKind) (size lane : Nat) (ea : DWord) :
    Except (Nat × TrapCode × Nat × DWord) LaneKey :=
  if ea.toNat % size != 0 then .error (lane, .misalign, 0, ea)
  else match translate s v k ea with
    | .fault t c => .error (lane, t, c, ea)
    | .ok key => .ok (lane, ea, key)

/-- The lanes that passed. -/
def passed {α β : Type} (xs : List (Except α β)) : List β := xs.filterMap fun x => match x with | .ok b => some b | .error _ => none

/-- The lanes that failed. -/
def failed {α β : Type} (xs : List (Except α β)) : List α := xs.filterMap fun x => match x with | .error a => some a | .ok _ => none

/-- Every active lane of a global access checked and translated before any is performed (R140). -/
def globalLanes (s : State) (g : Gang) (sp : Split) (k : AccessKind) (size a kb : Nat) : Except TrapInfo (List LaneKey) :=
  let xs := (lanesOf sp.mask).map fun l => laneCheck s (gangView g) k size l (globalAddr g a kb l)
  match pickFault k (failed xs) with
  | some t => .error t
  | none => .ok (passed xs)

/-- The scratchpad bytes of a gang's crew (R240). -/
def scratchSize (s : State) (g : Gang) : Nat := ((launchOf s g.range).map (·.scratch)).getD 0

/-- The checks of one lane of a scratchpad access (R65, R146, R150). -/
def scratchCheck (limit size lane : Nat) (sa : Word) : Except (Nat × TrapCode × Nat × DWord) (Nat × Nat) :=
  if sa.toNat % size != 0 then .error (lane, .misalign, 0, zextW sa)
  else if sa.toNat + size > limit then .error (lane, .scratchRange, 0, zextW sa)
  else .ok (lane, sa.toNat)

/-- Every active lane of a scratchpad access checked; `addr` is the lane's offset. -/
def scratchLanes (s : State) (g : Gang) (sp : Split) (size : Nat) (addr : Nat → Word) : Except TrapInfo (List (Nat × Nat)) :=
  let xs := (lanesOf sp.mask).map fun l => scratchCheck (scratchSize s g) size l (addr l)
  match pickFault .none (failed xs) with
  | some t => .error t
  | none => .ok (passed xs)

/-- The bytes of a size from a key. -/
def keyRun (key n : Nat) : List Nat := (List.range n).map fun i => key + i

/-- The cells that a loaded value fills in a lane: 4 bytes to a register, zero-extended (R143). -/
def loadedCells (g : Gang) (d lane : Nat) (bs : List Byte) : List (Nat × Word) :=
  (List.range (sizeRegs bs.length)).map fun i => (vkey g (d + i) lane, BitVec.ofNat 32 (leAt bs (4 * i) 4))

/-- The low bytes of a lane's register block, as a store of `n` bytes takes them (R143). -/
def storedBytes (g : Gang) (d n lane : Nat) : List Byte :=
  ((List.range (sizeRegs n)).flatMap fun i => bytesLE 4 (vget g (d + i) lane).toNat).take n

/-! ### Order within a core -/

/-- An acquire of the split has not been performed: no later access of the split is (R142). -/
def acquireOpen (sp : Split) : Bool := !sp.acqs.isEmpty || sp.pend.any fun p => p.acquire.isSome && pendOpen p

/-- The requests whose acquires have not been performed (R142, R225). -/
def openAcquires (sp : Split) : List Nat := sp.acqs ++ (sp.pend.filter fun p => p.acquire.isSome).flatMap (·.replies)

/-- The bytes that a request writes at a Pantry. -/
def requestKeys (r : Request) : List Nat :=
  match r.kind with
  | .rmw op ls _ => ls.flatMap fun l => keyRun l.addr (rmwBytes op)
  | .ctrAdd addr _ => keyRun addr 8
  | _ => []

/-- The read-modify-writes of a core on these bytes that have not been performed (R148). -/
def openWords (s : State) (core : Nat) (keys : List Nat) : List Nat :=
  (s.requests.filter fun r => r.2.core == core && !isLogged s r.2 && (requestKeys r.2).any fun k => keys.contains k).map (·.1)

/-- The start of the quantum of a deterministic gang (R236). -/
def quantumStart (s : State) (g : Gang) : Option Nat :=
  if gangDet s g then some (((tget s.ranges g.range).map (·.qStart)).getD 0) else none

/-! ### Loads (R143, R144) -/

/-- The refresh with which a load begins: its acquire, or the overflow of the Larder (R225, R262). -/
def loadRefresh (s : State) (gid : Nat) (g : Gang) (si : Nat) (o : LdOrd) (keys : List Nat) : State :=
  match o with
  | .plain => overflowRefresh s g.core keys
  | .acq sc => if gangDet s g then overflowRefresh s g.core keys else acquireBytes s gid si g.core (ordScope sc) keys
  | .fresh => s

/-- A byte that a load of a split returns. -/
def loadedByte (s : State) (gid : Nat) (g : Gang) (sp : Split) (o : LdOrd) (key : Nat) : Byte :=
  match o with
  | .fresh => freshByte s g.core gid sp (quantumStart s g) key
  | _ => loadByte s g.core (quantumStart s g) key

/-- What a load leaves: a plain one in the snapshot, a fresh one a bound on what is fresher (R222, R223, R261). -/
def loadObserve (s : State) (gid : Nat) (g : Gang) (si : Nat) (sp : Split) (o : LdOrd) (keys : List Nat) : State :=
  match o with
  | .fresh => if gangDet s g then s else freshObserve s g.core gid sp keys
  | _ =>
    let s1 := observeBytes s g.core (quantumStart s g) (keys.map fun k => (k, loadedByte s gid g sp o k))
    if gangDet s g then s1 else nearMarks s1 gid si g.core keys

/-- ldg of `n` bytes (R140 to R144); in a region's body a destination in bc traps behind the faults of its lanes, which have lower codes
(R34, R196). -/
def loadOp (n d a kb : Nat) (o : LdOrd) (la : Nat) (s : State) : Outcome :=
  let body : InBody := match o with
    | .acq _ => none
    | _ => some []
  gangOp .opens (a :: regBlock d n) body false s fun s gid g si sp =>
    match globalLanes s g sp .load n a kb with
    | .error t => .next (takeTrap s gid g si t 0)
    | .ok lanes =>
      let keys := lanes.flatMap fun x => keyRun x.2.2 n
      if inCommitted g (regBlock d n) then .next (takeTrap s gid g si (plainTrap .invalidParam) 0)
      else if acquireOpen sp || !(openWords s g.core keys).isEmpty then .next s
      else
        let s1 := loadRefresh (tlbFills s (gangView g) (lanes.map (·.2.1))) gid g si o keys
        let cells := lanes.flatMap fun x => loadedCells g d x.1 ((keyRun x.2.2 n).map (loadedByte s1 gid g sp o))
        let p : Pending := { left := la + 1, writes := cells, flags := 0, replies := [], dst := [], dead := [], slots := 0, acquire := none }
        .next (retireAt (modGang (loadObserve s1 gid g si sp o keys) gid fun x => openPending x si p) gid si (nextPc sp.pc))

def execLdgB (d a kb : Nat) (o : LdOrd) (l : Nat) (s : State) : Outcome := loadOp 1 d a kb o l s
def execLdgH (d a kb : Nat) (o : LdOrd) (l : Nat) (s : State) : Outcome := loadOp 2 d a kb o l s
def execLdgW (d a kb : Nat) (o : LdOrd) (l : Nat) (s : State) : Outcome := loadOp 4 d a kb o l s
def execLdgD (d a kb : Nat) (o : LdOrd) (l : Nat) (s : State) : Outcome := loadOp 8 d a kb o l s
def execLdgQ (d a kb : Nat) (o : LdOrd) (l : Nat) (s : State) : Outcome := loadOp 16 d a kb o l s

/-! ### Stores (R143 to R145, R219, R263) -/

/-- Entries published oldest first until `need` more fit; one whose split has an earlier read open is passed over (R219). -/
def makeRoom (gid : Nat) (g : Gang) (hist : List Nat) (need : Nat) (s : State) : List PorchEntry → State
  | [] => s
  | e :: rest =>
    if (getCore s g.core).porch.length + need ≤ porchEntries then s
    else makeRoom gid g hist need (if entryFree s g.core e then publishFor s gid g hist (fun x => x == e) else s) rest

/-- The bytes of a store of `n` bytes, lane by lane: the page and the bytes (R143). -/
def storeLanes (g : Gang) (d n : Nat) (lanes : List LaneKey) : List (Nat × List (Nat × Byte)) :=
  lanes.map fun x => (faultKey x.2.1, listAt x.2.2 (storedBytes g d n x.1))

/-- The entries a store needs. -/
def storeNeed (s : State) (g : Gang) (gid si : Nat) (bs : List (Nat × Byte)) : Nat := porchNeed (getCore s g.core) gid si bs

/-- The store finds its core's Porch full (R219). -/
def porchFull (s : State) (g : Gang) (gid si : Nat) (bs : List (Nat × Byte)) : Bool :=
  decide ((getCore s g.core).porch.length + storeNeed s g gid si bs > porchEntries)

/-- The Porch after a store that found it full: the entries of its own split first, then the oldest (R219). -/
def clearPorch (s : State) (gid : Nat) (g : Gang) (si : Nat) (sp : Split) (bs : List (Nat × Byte)) : State :=
  let s1 := publishFor s gid g (poOf sp) fun e => ownEntries gid sp e && entryFree s g.core e
  makeRoom gid g (poOf sp) (storeNeed s1 g gid si bs) s1 (getCore s1 g.core).porch

/-- The bytes put into the Porch, lane by lane in ascending order (R145). -/
def putStores (s : State) (gid : Nat) (g : Gang) (si : Nat) (sp : Split) (ls : List (Nat × List (Nat × Byte))) : State :=
  ls.foldl (fun s l => porchStore s g.core gid si sp l.1 l.2) s

/-- A publication of what is po-before a split at its instruction: it follows the split's earlier publications and reads (R219, R224);
`release` are the bytes of the instruction itself. -/
def splitPub (s : State) (gid : Nat) (g : Gang) (sp : Split) (sc : OrdScope) (release : List Nat) : Pub :=
  { part := g.part, core := g.core, scope := sc, after := pubsBefore s gid sp, waits := openReads s gid sp, gang := gid, seg := sp.seg,
    hist := poOf sp, known := sp.known, release := release, rtc := g.rtc, event := eventRelease }

/-- A release begun at its place in program order: the split's entries are published at the scope once its earlier reads are
performed (R142, R224). -/
def startRelease (s : State) (gid : Nat) (g : Gang) (sp : Split) (sc : OrdScope) (release : List Nat) : Nat × State :=
  startPub s (splitPub s gid g sp sc release) (ownEntries gid sp)

/-- A deterministic store: its bytes stand in the Porch for the core's own loads, and are logged with its release for the commit (R141,
R236). -/
def detStore (s : State) (gid : Nat) (g : Gang) (si : Nat) (sp : Split) (rel : Option OrdScope) (ls : List (Nat × List (Nat × Byte))) :
    State :=
  logRequest (putStores s gid g si sp ls) gid { gangRequest g gid si 0 (.store (ls.flatMap (·.2))) [] with rel := rel, pages := (ls.map (·.1)).eraseDups }

/-- A store whose checks have passed. -/
def storeBody (n d a kb : Nat) (rel : Option OrdScope) (s : State) (gid : Nat) (g : Gang) (si : Nat) (sp : Split) : Outcome :=
  match globalLanes s g sp .store n a kb with
  | .error t => .next (takeTrap s gid g si t 0)
  | .ok lanes =>
    let ls := storeLanes g d n lanes
    let bs := ls.flatMap (·.2)
    if gangDet s g then
      if porchFull s g gid si bs then .next (blockOn s gid si true (.retry .porch))
      else .next (retireAt (detStore s gid g si sp rel ls) gid si (nextPc sp.pc))
    else
      let s1 := if porchFull s g gid si bs then clearPorch s gid g si sp bs else s
      if porchFull s1 g gid si bs then .next s1
      else
        let s2 := putStores (tlbFills s1 (gangView g) (lanes.map (·.2.1))) gid g si sp ls
        let s3 := match rel with
          | some sc => (startRelease s2 gid g sp sc (bs.map (·.1))).2
          | none => s2
        .next (retireAt s3 gid si (nextPc sp.pc))

/-- stg of `n` bytes (R140 to R145): a release of a durable launch is preceded by a seal (R237). -/
def storeOp (n d a kb : Nat) (o : StOrd) (s : State) : Outcome :=
  let rel : Option OrdScope := match o with
    | .rel sc => some sc
    | _ => none
  gangOp .opens (a :: regBlock d n) none false s fun s gid g si sp =>
    match globalLanes s g sp .store n a kb with
    | .error t => .next (takeTrap s gid g si t 0)
    | .ok lanes =>
      let bs := (storeLanes g d n lanes).flatMap (·.2)
      if acquireOpen sp && rel.isNone then .next s
      else if rel.isSome || porchFull s g gid si bs then
        withSeal s gid si g fun s g sp => storeBody n d a kb rel s gid g si sp
      else storeBody n d a kb rel s gid g si sp

def execStgB (d a kb : Nat) (o : StOrd) (s : State) : Outcome := storeOp 1 d a kb o s
def execStgH (d a kb : Nat) (o : StOrd) (s : State) : Outcome := storeOp 2 d a kb o s
def execStgW (d a kb : Nat) (o : StOrd) (s : State) : Outcome := storeOp 4 d a kb o s
def execStgD (d a kb : Nat) (o : StOrd) (s : State) : Outcome := storeOp 8 d a kb o s
def execStgQ (d a kb : Nat) (o : StOrd) (s : State) : Outcome := storeOp 16 d a kb o s

/-! ### Scratchpad (R146, R150, R233) -/

/-- A crew of a cohort that may run MCC programs (R14). -/
def mayRunMcc (s : State) (cid : Nat) : Bool := (tget s.cohorts cid).any fun c => c.crews.length == 4

/-- Bytes written to a crew's scratchpad by a gang or a copy; until something orders the access before it, the array may still read
what they replace (R175). -/
def scratchPut (s : State) (crew : Nat) (by' : OldBy) (bs : List (Nat × Byte)) : State :=
  let live := ((tget s.crews crew).map fun w => mayRunMcc s w.cohort).getD false
  modCrew s crew fun w =>
    { w with scratch := w.scratch.writes bs,
             olds := if live then w.olds ++ bs.map fun b => (b.1, w.scratch.read b.1, by') else w.olds }

/-- The scratchpad of a gang's crew. -/
def scratchOf (s : State) (g : Gang) : Memory := ((tget s.crews g.crew).map (·.scratch)).getD []

/-- lds of `n` bytes: read at issue, landing at the landing point (R146); a destination in bc as in `loadOp`. -/
def ldsOp (n d a kb la : Nat) (s : State) : Outcome :=
  gangOp .opens (a :: regBlock d n) (some []) false s fun s gid g si sp =>
    match scratchLanes s g sp n (scratchAddr g a kb) with
    | .error t => .next (takeTrap s gid g si t 0)
    | .ok lanes =>
      if inCommitted g (regBlock d n) then .next (takeTrap s gid g si (plainTrap .invalidParam) 0)
      else if acquireOpen sp then .next s
      else
        let cells := lanes.flatMap fun x => loadedCells g d x.1 ((scratchOf s g).readN x.2 n)
        let p : Pending := { left := la + 1, writes := cells, flags := 0, replies := [], dst := [], dead := [], slots := 0, acquire := none }
        .next (retireAt (modGang (scratchAccess s gid g si sp) gid fun x => openPending x si p) gid si (nextPc sp.pc))

/-- sts of `n` bytes: written at issue, the highest lane last (R146). -/
def stsOp (n d a kb : Nat) (s : State) : Outcome :=
  gangOp .opens (a :: regBlock d n) none false s fun s gid g si sp =>
    match scratchLanes s g sp n (scratchAddr g a kb) with
    | .error t => .next (takeTrap s gid g si t 0)
    | .ok lanes =>
      if acquireOpen sp then .next s
      else
        let bs := lanes.flatMap fun x => listAt x.2 (storedBytes g d n x.1)
        .next (retireAt (scratchPut (scratchAccess s gid g si sp) g.crew (.strand gid sp.seg) bs) gid si (nextPc sp.pc))

def execLdsB (d a kb l : Nat) (s : State) : Outcome := ldsOp 1 d a kb l s
def execLdsH (d a kb l : Nat) (s : State) : Outcome := ldsOp 2 d a kb l s
def execLdsW (d a kb l : Nat) (s : State) : Outcome := ldsOp 4 d a kb l s
def execLdsD (d a kb l : Nat) (s : State) : Outcome := ldsOp 8 d a kb l s
def execLdsQ (d a kb l : Nat) (s : State) : Outcome := ldsOp 16 d a kb l s
def execStsB (d a kb : Nat) (s : State) : Outcome := stsOp 1 d a kb s
def execStsH (d a kb : Nat) (s : State) : Outcome := stsOp 2 d a kb s
def execStsW (d a kb : Nat) (s : State) : Outcome := stsOp 4 d a kb s
def execStsD (d a kb : Nat) (s : State) : Outcome := stsOp 8 d a kb s
def execStsQ (d a kb : Nat) (s : State) : Outcome := stsOp 16 d a kb s

/-- The operation of a satom (R150). -/
def satomKind : SatomOp → RmwOp
  | .add => .add | .min => .min | .max => .max | .and => .and | .or => .or | .xor => .xor | .xchg => .xchg | .cas => .cas
  | .fadd => .fadd

/-- The lanes of a satom served in ascending order: the scratchpad after them, and each lane's old value (R150). -/
def satomLanes (op : RmwOp) (g : Gang) (b : Nat) (m : Memory) : List (Nat × Nat) → Memory × List (Nat × Word)
  | [] => (m, [])
  | x :: xs =>
    let old := BitVec.ofNat 64 (natLE (m.readN x.2 4))
    let new := rmwApply op old (zextW (vget g b x.1)) (zextW (vget g (b + 1) x.1))
    let (m2, rest) := satomLanes op g b (m.writeList x.2 (bytesLE 4 new.toNat)) xs
    (m2, (x.1, loWord old) :: rest)

/-- satom (R150): performed at issue on the crew's scratchpad. -/
def execSatom (f : SatomOp) (d a b : Nat) (s : State) : Outcome :=
  gangOp .opens (if f = .cas then [d, a, b, b + 1] else [d, a, b]) none false s fun s gid g si sp =>
    match scratchLanes s g sp 4 (fun l => vget g a l) with
    | .error t => .next (takeTrap s gid g si t 0)
    | .ok lanes =>
      if acquireOpen sp then .next s
      else
        let (m, olds) := satomLanes (satomKind f) g b (scratchOf s g) lanes
        let s1 := scratchPut (scratchAccess s gid g si sp) g.crew (.strand gid sp.seg) ((lanes.flatMap fun x => keyRun x.2 4).map fun a => (a, m.read a))
        .next (retireAt (modGang s1 gid fun x => { x with v := csets x.v (olds.map fun y => (vkey g d y.1, y.2)) }) gid si (nextPc sp.pc))

/-! ### Atomics and reductions at the Pantry (R147 to R149, R256, R257) -/

/-- Return slots of a gang for one lane (R257). -/
def returnSlots : Nat := 4

/-- Some lane has every return slot in use: the instruction stalls (R257). -/
def slotsFull (g : Gang) (m : Mask) : Bool :=
  let pends := g.splits.flatMap fun e => e.2.pend
  (lanesOf m).any fun l => decide ((pends.filter fun p => p.slots.getLsbD l).length ≥ returnSlots)

/-- The lanes of an access gathered by word, lanes ascending within a word (R147). -/
def byWord (ls : List RmwLane) : List (List RmwLane) :=
  ((ls.map (·.addr)).eraseDups).map fun a => ls.filter fun l => l.addr == a

/-- The scopes of an ordering code: acquire, release (R66). -/
def atomAcq : AtOrd → Option OrdScope
  | .acq sc => some sc
  | .arPk => some .pk
  | _ => none

def atomRel : AtOrd → Option OrdScope
  | .rel sc => some sc
  | .arPk => some .pk
  | _ => none

/-- A Porch entry of a core covers one of these bytes. -/
def covers (keys : List Nat) (e : PorchEntry) : Bool := e.bytes.any fun b => keys.contains b.1

/-- The publications under way that hold older bytes of the blocks of some entries (R219). -/
def olderPubs (s : State) (core : Nat) (es : List PorchEntry) : List Nat :=
  ((getCore s core).porch.filterMap fun x => if es.any fun e => x.gang == e.gang && x.block == e.block then x.taken else none).eraseDups

/-- The entries of a core that satisfy `p` published as an instruction of a split issues: at once, or, with something before one of them, in
one publication under way behind that (R148, R219). -/
def publishWord (s : State) (gid : Nat) (g : Gang) (sp : Split) (p : PorchEntry → Bool) : State :=
  let es := (getCore s g.core).porch.filter p
  if es.all (entryFree s g.core) then publishFor s gid g (poOf sp) p
  else
    let pub : Pub := { part := g.part, core := g.core, scope := .pk, after := olderPubs s g.core es, waits := [], gang := gid, seg := sp.seg,
                       hist := poOf sp, known := sp.known, release := [], rtc := g.rtc, event := eventNow }
    (startPub s pub p).2

/-- The word brought up to date before the request leaves the cluster: what the cluster has published at cluster scope only,
then the core's own entries, which the request waits for (R148). -/
def bringWord (s : State) (gid : Nat) (g : Gang) (sp : Split) (keys : List Nat) (left : PorchEntry → Bool) : State :=
  let s1 := carryOverlay s fun o => o.cluster == gangCluster g && keys.contains o.addr
  publishWord s1 gid g sp fun e => covers keys e && e.taken.isNone && !left e

/-- The requests of an atomic or a reduction sent to the homes of their words, each with the pages that `pages` gives its word; the names of
the requests. -/
def sendWords (s : State) (gid : Nat) (g : Gang) (si : Nat) (det : Bool) (op : RmwOp) (ret : Bool) (acq rel : Option OrdScope)
    (waits : List Nat) (pages : Nat → List DWord) : List (List RmwLane) → List Nat × State
  | [] => ([], s)
  | w :: ws =>
    let home := homeOfKey s ((w.head?.map (·.addr)).getD 0)
    let r := withPages (pages ((w.head?.map (·.addr)).getD 0)) (gangRequest g gid si home (.rmw op w ret) waits)
    let (id, s1) := submit s gid det { r with acq := acq, rel := rel }
    let (ids, s2) := sendWords s1 gid g si det op ret acq rel waits pages ws
    (id :: ids, s2)

/-- What an atomic or a reduction waits for: its release, the publications that hold its word, and the core's earlier operations on
the word (R148, R224, R229). -/
def wordWaits (s : State) (g : Gang) (keys : List Nat) : List Nat :=
  ((getCore s g.core).porch.filterMap fun e => if covers keys e then e.taken else none) ++ openWords s g.core keys

/-- The request part of an atomic or a reduction whose checks have passed: the names of its requests. -/
def sendRmw (s : State) (gid : Nat) (g : Gang) (si : Nat) (sp : Split) (op : RmwOp) (ret : Bool) (o : AtOrd)
    (pages : Nat → List DWord) (ls : List RmwLane) : List Nat × State :=
  let keys := ls.flatMap fun l => keyRun l.addr (rmwBytes op)
  if gangDet s g then sendWords s gid g si true op ret none (atomRel o) [] pages (byWord ls)
  else
    let own : PorchEntry → Bool := match atomRel o with
      | some _ => ownEntries gid sp
      | none => fun _ => false
    let s1 := bringWord s gid g sp keys own
    let (rel, s2) := match atomRel o with
      | some sc =>
        let (pid, s') := startRelease s1 gid g sp sc []
        (pid :: openReads s1 gid sp, s')
      | none => ([], s1)
    let s3 := match atomAcq o with
      | some sc => refreshSplit s2 gid si g.core (ordScope sc)
      | none => s2
    sendWords s3 gid g si false op ret (atomAcq o) (atomRel o) (rel ++ openAcquires sp ++ wordWaits s3 g keys) pages (byWord ls)

/-- The virtual addresses at which the lanes of an access name a word. -/
def wordVas (lanes : List LaneKey) (key : Nat) : List DWord := (lanes.filter fun x => x.2.2 == key).map (·.2.1)

/-- Every home of an access has room for the requests that it sends there, one for each word (R147, R256). -/
def homesRoom (s : State) (lanes : List LaneKey) : Bool :=
  let homes := ((lanes.map (·.2.2)).eraseDups).map (homeOfKey s)
  homes.all fun h => queueRoom s h (homes.filter (· == h)).length

/-- An atomic or a reduction stalls at issue only while the queue of a home is full; what stands before it in the order of its split holds
its requests, not the split (R142, R148, R149, R256). -/
def rmwStalls (s : State) (g : Gang) (lanes : List LaneKey) : Bool := !gangDet s g && !homesRoom s lanes

/-- The lanes of a request with their operands (R147, R149). -/
def rmwOperands (g : Gang) (op : RmwOp) (d : Nat) (lanes : List LaneKey) : List RmwLane :=
  lanes.map fun x =>
    { lane := x.1, addr := x.2.2, x := if op = .add64 then vpair g d x.1 else zextW (vget g d x.1),
      y := if op = .cas then zextW (vget g (d + 1) x.1) else 0, dst := vkey g d x.1 }

/-- An atomic whose checks have passed (R147, R148): it retires with its results to come, and ends the quantum of a deterministic
gang. -/
def atomBody (op : RmwOp) (d a kb : Nat) (o : AtOrd) (la : Nat) (s : State) (gid : Nat) (g : Gang) (si : Nat) (sp : Split) :
    Outcome :=
  match globalLanes s g sp .rmw 4 a kb with
  | .error t => .next (takeTrap s gid g si t 0)
  | .ok lanes =>
    let s0 := tlbFills s (gangView g) (lanes.map (·.2.1))
    let (ids, s1) := sendRmw s0 gid g si sp op true o (wordVas lanes) (rmwOperands g op d lanes)
    let p : Pending :=
      { left := la + 1, writes := [], flags := 0, replies := ids, dst := (rmwOperands g op d lanes).map (·.dst), dead := [], slots := sp.mask, acquire := atomAcq o }
    let s2 := modGang s1 gid fun x => { openPending x si p with qEnded := x.qEnded || gangDet s g }
    .next (retireAt s2 gid si (nextPc sp.pc))

/-- atom (R147, R148). -/
def atomOp (op : RmwOp) (d a kb : Nat) (o : AtOrd) (la : Nat) (s : State) : Outcome :=
  gangOp .opens (if op = .cas then [a, d, d + 1] else [a, d]) none false s fun s gid g si sp =>
    match globalLanes s g sp .rmw 4 a kb with
    | .error t => .next (takeTrap s gid g si t 0)
    | .ok lanes =>
      if slotsFull g sp.mask || rmwStalls s g lanes then .next s
      else withSeal s gid si g fun s g sp => atomBody op d a kb o la s gid g si sp

def execAtomAdd (d a kb : Nat) (o : AtOrd) (l : Nat) (s : State) : Outcome := atomOp .add d a kb o l s
def execAtomMin (d a kb : Nat) (o : AtOrd) (l : Nat) (s : State) : Outcome := atomOp .min d a kb o l s
def execAtomMax (d a kb : Nat) (o : AtOrd) (l : Nat) (s : State) : Outcome := atomOp .max d a kb o l s
def execAtomAnd (d a kb : Nat) (o : AtOrd) (l : Nat) (s : State) : Outcome := atomOp .and d a kb o l s
def execAtomOr (d a kb : Nat) (o : AtOrd) (l : Nat) (s : State) : Outcome := atomOp .or d a kb o l s
def execAtomXor (d a kb : Nat) (o : AtOrd) (l : Nat) (s : State) : Outcome := atomOp .xor d a kb o l s
def execAtomXchg (d a kb : Nat) (o : AtOrd) (l : Nat) (s : State) : Outcome := atomOp .xchg d a kb o l s
def execAtomCas (d a kb : Nat) (o : AtOrd) (l : Nat) (s : State) : Outcome := atomOp .cas d a kb o l s
def execAtomFadd (d a kb : Nat) (o : AtOrd) (l : Nat) (s : State) : Outcome := atomOp .fadd d a kb o l s

/-- The operation of a red (R67). -/
def redKind : RedOp → RmwOp
  | .add => .add | .min => .min | .max => .max | .and => .and | .or => .or | .xor => .xor | .fadd => .fadd | .add64 => .add64

/-- The requests of a reduction with an acquire hold its split's later accesses until they are performed (R225). -/
def holdAcquire (o : AtOrd) (det : Bool) (ids : List Nat) (sp : Split) : Split :=
  if (atomAcq o).isSome && !det then { sp with acqs := sp.acqs ++ ids } else sp

/-- A red whose checks have passed (R149). -/
def redBody (p : RedOp) (d a kb : Nat) (o : AtOrd) (s : State) (gid : Nat) (g : Gang) (si : Nat) (sp : Split) : Outcome :=
  match globalLanes s g sp .rmw (rmwBytes (redKind p)) a kb with
  | .error t => .next (takeTrap s gid g si t 0)
  | .ok lanes =>
    let s0 := tlbFills s (gangView g) (lanes.map (·.2.1))
    let (ids, s1) := sendRmw s0 gid g si sp (redKind p) false o (wordVas lanes) (rmwOperands g (redKind p) d lanes)
    .next (retireAt (modSplit s1 gid si (holdAcquire o (gangDet s g) ids)) gid si (nextPc sp.pc))

/-- red (R149): it returns nothing. -/
def execRed (p : RedOp) (d a kb : Nat) (o : AtOrd) (s : State) : Outcome :=
  gangOp .opens (if p = .add64 then [a, d, d + 1] else [a, d]) none false s fun s gid g si sp =>
    match globalLanes s g sp .rmw (rmwBytes (redKind p)) a kb with
    | .error t => .next (takeTrap s gid g si t 0)
    | .ok lanes =>
      if rmwStalls s g lanes then .next s
      else withSeal s gid si g fun s g sp => redBody p d a kb o s gid g si sp

/-! ### phase and fence (R114, R151, R228) -/

/-- A publication at a scope would do nothing: the split has no entry, and no byte of its core goes beyond the cluster with it, nor to
the host. -/
def nothingLeft (s : State) (gid : Nat) (g : Gang) (sp : Split) (sc : OrdScope) : Bool :=
  !((getCore s g.core).porch.any (ownEntries gid sp)) &&
  match sc with
  | .cl => true
  | .pk => !(s.mem.overlay.any fun o => o.core == g.core)
  | .sy => false

/-- What a fence or a phase waits for in free-running mode: the publication of the split's entries at a scope, or with `none` only
its earlier requests. -/
def boundary (s : State) (gid : Nat) (g : Gang) (si : Nat) (sp : Split) (pub : Option OrdScope) (refresh : Option Scope) : State :=
  if pub.all (nothingLeft s gid g sp) && splitQuiet s gid g.core sp then finishWait s gid si [] refresh
  else
    let (id, s1) := match pub with
      | some sc => startRelease s gid g sp sc []
      | none => startPub s (splitPub s gid g sp .cl []) fun _ => false
    blockOn s1 gid si false (.pub [id] refresh)

/-- The split's entries published at a scope at once, where nothing stands before them (R162, R219). -/
def publishOwn (s : State) (gid : Nat) (g : Gang) (sp : Split) (sc : OrdScope) : State :=
  if nothingLeft s gid g sp sc then s
  else
    let (id, s1) := startRelease s gid g sp sc []
    match tget s1.pubs id with
    | some p => performPub s1 id p
    | none => s1

/-- A release at system scope of a deterministic gang without an access is logged for the commit (R236). -/
def logOrder (s : State) (gid : Nat) (g : Gang) (si : Nat) (sc : OrdScope) : State :=
  if sc = .sy then logRequest s gid (gangRequest g gid si 0 (.order sc) []) else s

/-- phase (R114): a release then an acquire at package scope; on the MCC it only retires. -/
def execPhase (s : State) : Outcome :=
  eitherOp .opens [] none false s
    (fun s gid g si _ =>
      withSeal s gid si g fun s g sp =>
        if gangDet s g then .next (retireAt s gid si (nextPc sp.pc))
        else .next (boundary s gid g si sp (some .pk) (some .pk)))
    (fun s cid _ m => .next (retireMcc s cid (nextPc m.pc)))

/-- The scope at which a fence publishes the entries of its split; copies read at package scope, so a fence that orders copies
after stores publishes there (R151, R154; log entry 15). -/
def fencePub (second : FenceClass) : Scope → Option OrdScope
  | .core => none
  | .cl => some (if second = .copy then .pk else .cl)
  | .pk => some .pk
  | .sy => some .sy

/-- The refresh a fence makes: where its second class is strand, or host writes come first (R221, R235). -/
def fenceRefresh (second : FenceClass) (sc : Scope) : Option Scope := if second = .strand then some sc else none

/-- A fence after copies: the bytes of the copies whose completion the split has seen are ordered before its core's later accesses, or
as its own are before the matrix work after its next fork or rendezvous (R151, R156, R175, R228). -/
def afterCopies (s : State) (gid : Nat) (g : Gang) (si : Nat) (sp : Split) (first second : FenceClass) : State :=
  if first = .copy && second = .strand then
    let s1 := bindCopies s g.core g.crew sp.seen
    if sp.saw.isEmpty then s1 else modSplit s1 gid si fun x => { x with after := sp.saw.foldl addTo x.after }
  else if first = .copy && second = .matrix && !sp.saw.isEmpty then
    modSplit (orderHere s g sp fun _ n => sp.saw.contains n) gid si fun x => { x with saw := [] }
  else s

/-- A copy of the crew has made its counter add and has bytes still to publish (R164): a fence after copies waits for them (R151). -/
def copiesOwe (s : State) (g : Gang) : Bool := s.copies.any fun e => e.2.crew == g.crew && !e.2.out.isEmpty

/-- The refresh of a fence: a fence whose first class is host orders the split's accesses of any class after the host writes
(R151, R235). -/
def fenceScope (first second : FenceClass) (sc : Scope) : Option Scope := if first = .host then some sc else fenceRefresh second sc

/-- fence (R151, R228). -/
def execFence (first second : FenceClass) (sc : Scope) (s : State) : Outcome :=
  gangOp .opens [] none false s fun s gid g si sp =>
    if second = .host then .next (takeTrap s gid g si (plainTrap .invalidParam) 0)
    else
      match first with
      | .strand =>
        match fencePub second sc with
        | some ps => withSeal s gid si g fun s g sp =>
            if gangDet s g then .next (retireAt (logOrder s gid g si ps) gid si (nextPc sp.pc))
            else .next (boundary s gid g si sp (some ps) (fenceRefresh second sc))
        | none => .next (finishWait s gid si [] (if gangDet s g then none else fenceRefresh second sc))
      | .pantry =>
        .next (if gangDet s g then retireAt s gid si (nextPc sp.pc) else boundary s gid g si sp none (fenceRefresh second sc))
      | _ =>
        if first = .copy && copiesOwe s g then .next s
        else .next (if gangDet s g then retireAt (afterCopies s gid g si sp first second) gid si (nextPc sp.pc)
          else finishWait (afterCopies s gid g si sp first second) gid si [] (fenceScope first second sc))

/-! ### icinv (R112) -/

/-- The releases before a split that have not been performed: publications, and the requests that carry one (R112, R224, R227). -/
def releasesBefore (s : State) (gid : Nat) (sp : Split) : List Nat := pubsBefore s gid sp ++ openReads s gid sp

/-- icinv waits for the releases before it, whose bytes the fetches after it return (R112, R227), then the caches drop their lines; in
deterministic mode it also takes effect at the commit, behind the stores before it (R236). -/
def execIcinv (sc : Scope) (s : State) : Outcome :=
  eitherOp .opens [] none false s
    (fun s gid g si sp =>
      let now := discardCaches s g.core (gangCluster g) g.part sc
      if gangDet s g then .next (retireAt (logRequest now gid (gangRequest g gid si 0 (.discard sc) [])) gid si (nextPc sp.pc))
      else if (releasesBefore s gid sp).isEmpty then .next (retireAt now gid si (nextPc sp.pc))
      else .next (blockOn s gid si false (.discard (releasesBefore s gid sp) sc)))
    (fun s cid c m => .next (retireMcc (discardCaches s noCore c.cluster c.part sc) cid (nextPc m.pc)))

/-! ### eret (R111, R294) -/

/-- The record of the firmware's queue is answered. -/
def closeFirmware (s : State) (n : Nat) : State :=
  { s with dev := { s.dev with firmwareQueue := s.dev.firmwareQueue.filter fun e => e.1 != n } }

/-- The answer of a handler as its release: its stores are published first, and the answer takes effect behind them, at once where nothing
stands before it; in deterministic mode it takes effect at the commit, behind the stores before it (R111, R142, R236). -/
def answerAs (s : State) (gid : Nat) (g : Gang) (si : Nat) (sp : Split) (r : FaultRecord) (point : DWord) (abort : Bool) : State :=
  if gangDet s g then logRequest s gid (gangRequest g gid si 0 (.eret r point abort) [])
  else if splitQuiet s gid g.core sp then
    let s1 := publishOwn s gid g sp .pk
    performAnswer s1 gid g.rtc r point abort (sp.known.carried s1.mem.seq gid (poOf sp))
  else
    let (pid, s1) := startRelease s gid g sp .pk []
    (sendRequest s1 (gangRequest g gid si (gangCluster g) (.eret r point abort) (pid :: openReads s gid sp))).2

/-- The bytes of a record that eret reads: its flags and its resume point (R292, R294). -/
def recordKeys (key : Nat) : List Nat := (key + 1) :: keyRun (key + 0x10) 8

/-- The resume point of a record as its handler's plain loads read it, and flags [7] (R294). -/
def answerFields (s : State) (gid : Nat) (g : Gang) (sp : Split) (key : Nat) : DWord × Bool :=
  (BitVec.ofNat 64 (natLE ((keyRun (key + 0x10) 8).map (loadedByte s gid g sp .plain))), (loadedByte s gid g sp .plain (key + 1)).getLsbD 7)

/-- An answer to this record is under way (R111). -/
def answering (s : State) (r : FaultRecord) : Bool :=
  s.requests.any fun q => match q.2.kind with
    | .eret x _ _ => x == r
    | _ => false

/-- The record of the firmware's queue at an address, by its place in that queue (R111, R291; log entry 39). -/
def firmwareRecord (s : State) (va : DWord) : Option (Nat × FaultRecord) :=
  s.dev.firmwareQueue.find? fun e => decide (va.toNat = firmwareRecordAddr e.1) && !answering s e.2

/-- The resume point and flags [7] of a record of the firmware's queue, as its handler has left them there (R294). -/
def firmwareFields (s : State) (n : Nat) : DWord × Bool :=
  let bs := s.dev.firmwareMem.readN (firmwareRecordAddr n) 64
  (BitVec.ofNat 64 (leAt bs 0x10 8), leAt bs 1 1 / 128 % 2 == 1)

/-- The record of partition `part`'s queue at a virtual address of a handler, with its key (R111). -/
def partRecord (s : State) (g : Gang) (part : Nat) (va : DWord) : Option (Nat × Nat × FaultRecord) :=
  match translate s { gangView g with part := part } .load va with
  | .fault .. => none
  | .ok key => (((tget s.parts part).bind fun p => openRecord p part key).filter fun e => !answering s e.2).map fun e => (key, e.1, e.2)

/-- The partitions whose records firmware answers: its own first, then the one that k0 names, as halt does (R32, R115; log entry 39). -/
def firmwareParts (g : Gang) : List Nat := [g.part, (cget g.k 0).toNat]

/-- The open record of a partition's queue that firmware answers: its partition, key, number and contents. -/
def supervisorRecord (s : State) (g : Gang) (va : DWord) : Option (Nat × Nat × Nat × FaultRecord) :=
  (firmwareParts g).findSome? fun part => (partRecord s g part va).map fun e => (part, e)

/-- A record answered, with the resume point and flags [7] that its handler reads (R294); `read` is the state once it has read them. -/
def eretBody (s : State) (gid : Nat) (g : Gang) (si : Nat) (read : State) (r : FaultRecord) (f : DWord × Bool) : Outcome :=
  if pointBad r f.1 then .next (takeTrap s gid g si (plainTrap .invalidParam) 0)
  else if gangDurable s g && !sealReady s (gangCluster g) then .next s
  else withSeal read gid si g fun s g sp => .next (retireAt (answerAs s gid g si sp r f.1 f.2) gid si (nextPc sp.pc))

/-- A record of a partition's queue answered: its handler reads it as its own plain loads do (R261, R262, R294). -/
def eretRecord (s : State) (gid : Nat) (g : Gang) (si : Nat) (sp : Split) (key : Nat) (r : FaultRecord) : Outcome :=
  let s1 := loadRefresh s gid g si .plain (recordKeys key)
  eretBody s gid g si (loadObserve s1 gid g si sp .plain (recordKeys key)) r (answerFields s1 gid g sp key)

/-- eret (R111, R294): a release by the handler, then the answer to its record; firmware answers the records of its own queue, and those
of every partition's (R32, R36).  A replayed answer is acknowledged (R312). -/
def execEret (a : Nat) (s : State) : Outcome :=
  gangOp .closes [] none true s fun s gid g si sp =>
    let va := kPair g.k a
    if alreadyPublished s gid g.rtc eventAnswer then .next (retireAt s gid si (nextPc sp.pc))
    else if g.level = .firmware then
      match firmwareRecord s va with
      | some (n, r) => eretBody s gid g si s r (firmwareFields s n)
      | none =>
        match supervisorRecord s g va with
        | some (_, key, _, r) => eretRecord s gid g si sp key r
        | none => .next (takeTrap s gid g si (plainTrap .invalidParam) 0)
    else
      match translate s (gangView g) .load va with
      | .fault t c => .next (takeTrap s gid g si (accessTrap .load (t, c, va)) 0)
      | .ok _ =>
        match partRecord s g g.part va with
        | none => .next (takeTrap s gid g si (plainTrap .invalidParam) 0)
        | some (key, _, r) => eretRecord s gid g si sp key r

end Sys2Proof.Machine
end

