-- ==== Sys2Proof/Machine/Copy.lean ====
section
/-! DEFINITION. Copies: their checks at issue, the bytes they move, their completions and their faults
(R152 to R157, R268, R274, R337, R369). -/

namespace Sys2Proof.Machine

/-! ### The box (R80, R154) -/

/-- The size of an element in nibbles, by format code (R154). -/
def elemNibbles (fmt : Nat) : Nat :=
  match fmt with
  | 0 => 8
  | 1 | 2 => 4
  | 5 | 7 => 1
  | _ => 2

/-- The elements of a box. -/
def boxCount (box : List Nat) : Nat := box.foldl (· * ·) 1

/-- The byte count of a box (R154). -/
def boxBytes (box : List Nat) (fmt : Nat) : Nat := boxCount box * elemNibbles fmt / 2

/-- The coordinates within the box of its element number `n`, dimension 0 fastest. -/
def boxCoords : List Nat → Nat → List Nat
  | [], _ => []
  | b :: bs, n => n % b :: boxCoords bs (n / b)

/-- The place of element number `n` in the packed local box; pre-shuffle reorders each run of 128 (R47, R154). -/
def localPlace (shuffle : Bool) (n : Nat) : Nat := if shuffle then n / 128 * 128 + 16 * (n % 8) + n % 128 / 8 else n

/-- Tensor coordinates of an element: origin plus box coordinates (R154). -/
def tensorCoords (cp : Copy) (n : Nat) : List Int := (cp.origin.zip (boxCoords cp.box n)).map fun p => p.1 + (p.2 : Int)

/-- The element lies in bounds in every dimension below the rank (R154). -/
def inBounds (cp : Copy) (n : Nat) : Bool :=
  (((tensorCoords cp n).zip cp.sizes).take cp.rank).all fun p => decide (0 ≤ p.1) && decide (p.1 < (p.2 : Int))

/-- The global address of an element in nibbles, modulo 2^65 (R154). -/
def globalNibble (cp : Copy) (n : Nat) : Nat :=
  let cs := (tensorCoords cp n).map Int.toNat
  let far := (((cs.drop 1).zip cp.strides).map fun p => p.1 * p.2).foldl (· + ·) 0
  (2 * cp.base.toNat + cs.headD 0 * elemNibbles cp.fmt + 2 * far) % 2 ^ 65

/-- The local address of an element in nibbles. -/
def localNibble (cp : Copy) (n : Nat) : Nat := 2 * cp.loc.toNat + localPlace cp.shuffle n * elemNibbles cp.fmt

/-! ### Apertures (R336, R337) -/

/-- A route entry is reachable: some live port of its mask has a peer of its identity (R336). -/
def reachable (s : State) (e : Route) : Bool :=
  s.dev.links.any fun l => decide (8 ≤ l.1) && decide (l.1 < 24) && e.ports.testBit (l.1 - 8) && l.2.up && l.2.peer == e.peer

/-- An address lies in an entry's aperture. -/
def inAperture (e : Route) (a : Nat) : Bool :=
  decide (e.apertureBase.toNat ≤ a) && decide (a < e.apertureBase.toNat + e.apertureGiB * 2 ^ 30)

/-- The first route entry that meets a condition and whose aperture holds an address. -/
def apertureOf (s : State) (part : Nat) (ok : Route → Bool) (a : DWord) : Option Nat :=
  match tget s.parts part with
  | some p => (p.routes.find? fun e => ok e.2 && inAperture e.2 a.toNat).map (·.1)
  | none => none

/-- An element of a remote copy lies in its aperture; one outside counts as out of bounds (R337). -/
def elemReached (s : State) (cp : Copy) (n : Nat) : Bool :=
  match cp.remote with
  | none => true
  | some e =>
    match (tget s.parts cp.part).bind fun p => tget p.routes e with
    | some r => inAperture r (globalNibble cp n / 2) && inAperture r ((globalNibble cp n + elemNibbles cp.fmt - 1) / 2)
    | none => false

/-! ### Moving bytes -/

/-- What stops a copy: code, cause, address and access kind. -/
abbrev CopyErr := TrapCode × Nat × DWord × AccessKind

/-- The core that a copy belongs to, and its cluster. -/
def copyCore (s : State) (cp : Copy) : Nat := ((tget s.crews cp.crew).map (·.core)).getD noCore
def copyCluster (s : State) (cp : Copy) : Nat := coreCluster (copyCore s cp)

/-- The view of memory of a copy. -/
def copyView (s : State) (cp : Copy) : View := { part := cp.part, cluster := copyCluster s cp, super := cp.super }

/-- The key of a global byte that a copy reads or writes. -/
def copyKey (s : State) (cp : Copy) (k : AccessKind) (a : Nat) : Except CopyErr Nat :=
  let va := BitVec.ofNat 64 a
  match translate s (copyView s cp) k va with
  | .ok key => .ok key
  | .fault t c => .error (t, c, va, k)

/-- The peer refuses an access: its rules are outside this device, so either answer may come (R337, R338). -/
def peerRefuses (s : State) (a : Nat) : Bool := chooseBelow s 7 a 2 != 0

/-- A byte on the global side of a copy: published at package scope, or what the peer answers (R154, R337). -/
def globalByte (s : State) (cp : Copy) (k : AccessKind) (a : Nat) : Except CopyErr Byte :=
  match cp.remote with
  | some _ => if peerRefuses s a then .error (.perm, 1, BitVec.ofNat 64 a, k) else .ok (Config.freeByte 7 (s.ctl.free * 2 ^ 64 + a))
  | none => (copyKey s cp k a).map fun key => newestByte s key

/-- The writer of a copy's bytes: the copy engine of its cluster, for its crew and its completion paths (R217). -/
def copySource (s : State) (cp : Copy) : Source := .copy cp.crew (copyCluster s cp) cp.tag cp.bar cp.ctr.isSome

/-- A copy's write of one global byte, published at package scope; not where the byte of this copy has been published before (R237,
R312). -/
def putMemByte (s : State) (cp : Copy) (key : Nat) (b : Byte) : State :=
  if copyMade s cp.gang cp.rtc (eventOut key) then s
  else writeMem (overtake s (copyCore s cp) [key]) (copySource s cp) false [(key, b)]

/-- A byte written on the global side; a peer's memory is outside this device. -/
def putGlobal (s : State) (cp : Copy) (a : Nat) (b : Byte) : Except CopyErr State :=
  match cp.remote with
  | some _ => if peerRefuses s a then .error (.perm, 1, BitVec.ofNat 64 a, .copyWrite) else .ok s
  | none => (copyKey s cp .copyWrite a).map fun key => putMemByte s cp key b

/-- A byte on the local side: scratchpad, Attic, or the global destination of cpyg. -/
def localByte (s : State) (cp : Copy) (a : Nat) : Except CopyErr Byte :=
  match cp.kind with
  | .cin | .cout => .ok (Memory.read (((tget s.crews cp.crew).map (·.scratch)).getD []) a)
  | .catt => .ok ((getCluster s (copyCluster s cp)).attic.read a)
  | .cg => (copyKey s cp .copyWrite (a % 2 ^ 64)).map fun key => newestByte s key

/-- A byte written on the local side. -/
def putLocal (s : State) (cp : Copy) (a : Nat) (b : Byte) : Except CopyErr State :=
  match cp.kind with
  | .cin | .cout => .ok (scratchPut s cp.crew (.copy (copySource s cp) cp.seq false []) [(a, b)])
  | .catt => .ok (modCluster s (copyCluster s cp) fun c =>
      { c with attic := c.attic.write a b,
               atticOlds := if mayRunMcc s cp.cohort then c.atticOlds ++ [(a, c.attic.read a, .copy (copySource s cp) cp.seq false [])] else c.atticOlds })
  | .cg => (copyKey s cp .copyWrite (a % 2 ^ 64)).map fun key => putMemByte s cp key b

/-- The nibble `n` of a byte, even nibbles low (R47). -/
def nibbleOf (n : Nat) (b : Byte) : Nat := if n % 2 = 0 then b.toNat % 16 else b.toNat / 16

/-- A byte with its nibble `n` replaced. -/
def withNibble (n v : Nat) (b : Byte) : Byte :=
  BitVec.ofNat 8 (if n % 2 = 0 then b.toNat / 16 * 16 + v % 16 else b.toNat % 16 + v % 16 * 16)

/-- The value of an element of `u` nibbles at a nibble address. -/
def getElem (read : Nat → Except CopyErr Byte) (nib u : Nat) : Except CopyErr Nat :=
  if u = 1 then (read (nib / 2)).map (nibbleOf nib)
  else ((List.range (u / 2)).mapM fun i => read (nib / 2 + i)).map natLE

/-- Bytes written one after another, or the first fault. -/
def putAll (write : State → Nat → Byte → Except CopyErr State) (s : State) : List (Nat × Byte) → Except CopyErr State
  | [] => .ok s
  | b :: bs =>
    match write s b.1 b.2 with
    | .error e => .error e
    | .ok s1 => putAll write s1 bs

/-- An element of `u` nibbles written at a nibble address. -/
def putElem (read : Nat → Except CopyErr Byte) (write : State → Nat → Byte → Except CopyErr State) (s : State)
    (nib u v : Nat) : Except CopyErr State :=
  if u = 1 then
    match read (nib / 2) with
    | .error e => .error e
    | .ok b => write s (nib / 2) (withNibble nib v b)
  else putAll write s (listAt (nib / 2) (bytesLE (u / 2) v))

/-- Element number `n` of a copy moved (R154): out of bounds, a source gives the fill pattern and a destination is skipped. -/
def writeElem (s : State) (cp : Copy) (n : Nat) : Except CopyErr State :=
  let u := elemNibbles cp.fmt
  let there := inBounds cp n && elemReached s cp n
  match cp.kind with
  | .cout =>
    if there then
      match getElem (localByte s cp) (localNibble cp n) u with
      | .error e => .error e
      | .ok v => putElem (globalByte s cp .copyWrite) (fun s a b => putGlobal s cp a b) s (globalNibble cp n) u v
    else .ok s
  | _ =>
    let v := if there then getElem (globalByte s cp .copyRead) (globalNibble cp n) u else .ok (cp.fill.toNat % 2 ^ (4 * u))
    match v with
    | .error e => .error e
    | .ok v => putElem (localByte s cp) (fun s a b => putLocal s cp a b) s (localNibble cp n) u v

/-- A copy publishes its bytes: its destination is global (R155, R156). -/
def copyPublishes (cp : Copy) : Bool := cp.kind == .cout || cp.kind == .cg

/-- The bytes that an element adds to those which cross: of 4-bit elements, which stand two in a byte, the one in the low nibble brings it
(R47, R153). -/
def elemCrosses (fmt n : Nat) : Nat := if elemNibbles fmt = 1 then 1 - n % 2 else elemNibbles fmt / 2

/-- The bytes of an element of a remote copy have crossed the fabric (R337, R348). -/
def countElem (s : State) (cp : Copy) (n : Nat) : State :=
  if cp.remote.isSome && inBounds cp n && elemReached s cp n then countLink s cp.part (elemCrosses cp.fmt n) else s

/-- An element moved: where the copy publishes its bytes, those of a durable launch are published once, and the replay skips them (R237,
R312). -/
def moveElem (s : State) (cp : Copy) (n : Nat) : Except CopyErr State :=
  if copyPublishes cp then
    if copyMade s cp.gang cp.rtc (eventElem n) then .ok s
    else (writeElem s cp n).map fun s1 => markGang (countElem s1 cp n) cp.gang cp.rtc (eventElem n)
  else (writeElem s cp n).map fun s1 => countElem s1 cp n

/-- Elements moved one after another up to the first that faults: the state, those moved, the fault. -/
def moveList (s : State) (cp : Copy) : List Nat → State × List Nat × Option CopyErr
  | [] => (s, [], none)
  | n :: ns =>
    match moveElem s cp n with
    | .error e => (s, [], some e)
    | .ok s1 =>
      let (s2, done, e) := moveList s1 cp ns
      (s2, n :: done, e)

/-- The elements of a copy that have not been moved. -/
def unmoved (cp : Copy) : List Nat := (List.range (boxCount cp.box)).filter fun n => !cp.moved.contains n

/-- One of the bytes that a copy has written and not published reaches package scope, once (R155, R312). -/
def publishByte (s : State) (cp : Copy) (b : Nat × Byte) : State := markGang (putMemByte s cp b.1 b.2) cp.gang cp.rtc (eventOut b.1)

/-- All of them do. -/
def publishOut (s : State) (cp : Copy) : State := cp.out.foldl (fun s b => publishByte s cp b) s

/-- A copy goes on with its elements, until the last or the first that faults. -/
def runCopy (s : State) (id : Nat) (cp : Copy) : State × Copy × Option CopyErr :=
  let (s1, done, e) := moveList (publishOut s cp) cp (unmoved cp)
  let cp1 := { cp with moved := cp.moved ++ done, out := [] }
  ({ s1 with copies := tset s1.copies id cp1 }, cp1, e)

/-- One element of a copy, freely chosen, moved ahead of the others (R155: in no particular order). -/
def copyAhead (s : State) (id : Nat) (cp : Copy) : State :=
  match chooseFrom s 8 id (unmoved cp) with
  | none => s
  | some n =>
    match moveElem s cp n with
    | .error _ => s
    | .ok s1 => { s1 with copies := tset s1.copies id { cp with moved := cp.moved ++ [n] } }

/-! ### Completion (R155) -/

/-- The tag of a completed copy: its count falls, and at 0 its bit is set. -/
def tagComplete (s : State) (crew tag : Nat) (set : Bool) : State :=
  modCrew s crew fun w =>
    let n := ((tget w.tags tag).getD 0) - 1
    if set && n = 0 then { w with tags := tset w.tags tag n, rdy := w.rdy ||| (1#64 <<< tag), tagAt := tset w.tagAt tag s.mem.seq }
    else { w with tags := tset w.tags tag n }

/-- The barrier of a completed copy: its pending bytes fall (R155, R160). -/
def barComplete (s : State) (cp : Copy) : State :=
  if cp.bar = 0 then s
  else modCrew s cp.crew fun w =>
    { w with bars := tmod w.bars cp.bar fun b => addPending b (BitVec.ofInt 56 (-(boxBytes cp.box cp.fmt : Int))) (some s.mem.seq) }

/-- A copy's counter add on its way to the counter's Pantry (R155, R256), with `ctr.rel` as a release at package scope (R164). -/
def ctrRequest (s : State) (cp : Copy) (key : Nat) : Request :=
  { part := cp.part, gang := 0, split := 0, core := noCore, home := homeOfKey s key, seq := 0, sent := 0, place := 0, copy := some (cp.gang, copySource s cp),
    kind := .ctrAdd key (BitVec.ofNat 64 (boxBytes cp.box cp.fmt)), acq := none, rel := if cp.ctrRel then some .pk else none,
    waits := [], table := false, seg := 0, hist := [], known := Known.none, rtc := cp.rtc, pages := (cp.ctr.map faultKey).toList }

/-- The counter add of a completed copy: sent to its Pantry; in deterministic mode the commit performs it. -/
def ctrComplete (s : State) (cp : Copy) (key : Nat) (direct : Bool) : State :=
  let r := ctrRequest s cp key
  if direct then copyCounter s cp.gang cp.rtc (copySource s cp) (requestRel s r) key (boxBytes cp.box cp.fmt) else (sendRequest s r).2

/-- The key of a counter that a copy has still to add to, or its fault (R369). -/
def ctrKey (s : State) (cp : Copy) : Except CopyErr (Option Nat) :=
  match cp.ctr with
  | none => .ok none
  | some va =>
    if cp.ctrDone then .ok none else
    match translate s (copyView s cp) .rmw va with
    | .ok key => .ok (some key)
    | .fault t c => .error (t, c, va, .copyWrite)

/-- The counter add of a copy finds the queue of its home full, and waits (R256). -/
def ctrHeld (s : State) (cp : Copy) : Bool :=
  match ctrKey s cp with
  | .ok (some key) => queueFull s (homeOfKey s key)
  | _ => false

/-- The bytes written at package scope between two states, each as it was written last. -/
def writtenSince (s s1 : State) : List (Nat × Byte) :=
  (((s1.mem.past.filter fun p => decide (s.mem.seq < p.id) && p.only.isNone).map fun p => (p.addr, p.val)).reverse).foldl
    (fun t b => tset t b.1 b.2) []

/-- Partitions with the marks that they have in another state. -/
def marksOf (s : State) (ps : Tab Part) : Tab Part := ps.map fun e => (e.1, { e.2 with marks := ((tget s.parts e.1).map (·.marks)).getD [] })

/-- A copy with a plain counter add writes its last global bytes and makes the add, which orders nothing: the bytes reach package scope
later, and count as published only then (R155, R164, R312). -/
def counterFirst (s : State) (id : Nat) (cp : Copy) : State :=
  match runCopy s id cp with
  | (_, _, some _) => s
  | (s1, cp1, none) =>
    match ctrKey s1 cp1 with
    | .ok (some key) =>
      if queueFull s1 (homeOfKey s1 key) then s
      else ctrComplete { s1 with mem := s.mem, parts := marksOf s s1.parts, copies := tset s1.copies id { cp1 with out := writtenSince s s1, ctrDone := true } } cp key false
    | _ => s

/-- One of the bytes that a copy has written, freely chosen, reaches package scope ahead of the others (R155: in no particular order). -/
def outAhead (s : State) (id : Nat) (cp : Copy) : State :=
  match chooseFrom s 8 id cp.out with
  | none => s
  | some b => { publishByte s cp b with copies := tset s.copies id { cp with out := cp.out.filter fun x => x.1 != b.1 } }

/-- The tag and the barrier of a copy that has written all of its bytes.  DESIGN CHOICE, on R155, which does not order the paths among
themselves: these two fire in one step, and the counter after them (log entry 67). -/
def firePaths (s : State) (id : Nat) (cp : Copy) : State :=
  let s1 := match cp.tag with
    | some t => if cp.tagDone then s else tagComplete s cp.crew t true
    | none => s
  let s2 := if cp.barDone then s1 else barComplete s1 cp
  wakeWaits { s2 with copies := tset s2.copies id { cp with tagDone := true, barDone := true } }

/-- The completions of a copy that has written all of its bytes: tag, barrier, then counter (R155; log entry 67). -/
def completeCopy (s : State) (id : Nat) (cp : Copy) (direct : Bool) : State × Option CopyErr :=
  let s1 := firePaths s id cp
  match ctrKey s1 cp with
  | .error e => (s1, some e)
  | .ok k =>
    let s2 := match k with
      | some key => ctrComplete s1 cp key direct
      | none => s1
    ({ s2 with copies := tdrop s2.copies id }, none)

/-- A copy of a deterministic launch completes at its quantum's end (R157). -/
def copyDet (s : State) (cp : Copy) : Bool := cohortDet s cp.cohort

/-- A copy may go on: its cohort is on its cluster and no fault holds it. -/
def copyFree (s : State) (cp : Copy) : Bool := !cp.held && !cp.stuck && !(cohortOut s cp.cohort) && partRuns s cp.part

/-- The completion of a copy whose bytes are all written, but for the counter add where its queue is full (R155, R256). -/
def finishCopy (s : State) (id : Nat) (cp : Copy) : State :=
  if !ctrHeld s cp then (completeCopy s id cp false).1 else if cp.tagDone && cp.barDone then s else firePaths s id cp

/-- COPY_COMPLETION (R154, R155): the rest of the bytes are written and every path the copy names fires. -/
def execCopyCompletion (copy : Nat) (s : State) : Outcome :=
  match tget s.copies copy with
  | none => .next s
  | some cp =>
    if copyDet s cp || !copyFree s cp then .next s
    else
      match runCopy s copy cp with
      | (_, _, some _) => .next s
      | (s1, cp1, none) =>
        let s2 := finishCopy s1 copy cp1
        .next (if s2 = s then s else bumpFree s2)

/-! ### Faults (R274, R369) -/

/-- The record of a copy's fault, as a notice (R274); that of a PERM allows no resume (R369). -/
def copyNotice (s : State) (cp : Copy) (e : CopyErr) : FaultRecord :=
  let o := cohortOrigin s cp.cohort
  let pl := recordPlace s cp.part (copyCluster s cp)
  let r := noticeRecord e.1 2 e.2.1 e.2.2.2 e.2.2.1 o.1 o.2 pl.1 pl.2
  if e.1 == .perm then { r with resume := 2 } else r

/-- A translation fault of a copy waits in the fault buffer; the first waiter of an entry posts one notice (R274). -/
def copyWaits (s : State) (id : Nat) (cp : Copy) (e : CopyErr) : State :=
  let cl := copyCluster s cp
  match faultJoin (getCluster s cl).faults cp.part (faultKey e.2.2.1) (.copy id) with
  | some (es, fresh) =>
    let s1 := modCopy (modCluster s cl fun c => { c with faults := es }) id fun x => { x with held := true }
    if fresh then postToPart s1 cp.part (copyNotice s cp e) else s1
  | none =>
    modCopy (holdAgent s cl cp.part (faultKey e.2.2.1) (.copy id)) id fun x => { x with stuck := true }

/-- A PERM ends a copy: what has not fired does not fire, and its producer is parked at its next boundary or a notice is posted
(R369). -/
def copyEnds (s : State) (id : Nat) (cp : Copy) (e : CopyErr) : State :=
  let s1 := match cp.tag with
    | some t => if cp.tagDone then s else tagComplete s cp.crew t false
    | none => s
  let s2 := { s1 with copies := tdrop s1.copies id }
  match tget s2.gangs cp.gang with
  | some g =>
    if g.status == .running || g.status == .held then
      modGang s2 cp.gang fun x => { x with copyFaults := x.copyFaults ++ [(e.2.2.1, e.2.1, e.2.2.2)] }
    else postToPart s2 cp.part { copyNotice s cp e with coreGang := coreIndex g.core + 16 * g.index, slot := g.slot }
  | none => postToPart s2 cp.part (copyNotice s cp e)

/-- What a copy's fault leads to, by its code. -/
def copyStops (s : State) (id : Nat) (cp : Copy) (e : CopyErr) : State :=
  if e.1 == .xlate then copyWaits s id cp e else copyEnds s id cp e

/-- The fault that a copy meets when it goes on as far as it can. -/
def copyMeets (s : State) (id : Nat) (cp : Copy) (direct : Bool) : State × Copy × Option CopyErr :=
  match runCopy s id cp with
  | (s1, cp1, some e) => (s1, cp1, some e)
  | (s1, cp1, none) =>
    match ctrKey s1 cp1 with
    | .error e => if direct then (s1, cp1, some e) else (firePaths s1 id cp1, { cp1 with tagDone := true, barDone := true }, some e)
    | .ok _ => (s1, cp1, none)

/-- A gang has ended its quantum, or takes no part in it (R252, R253). -/
def quantumOver (g : Gang) : Bool := g.status == .ended || (g.status == .running && (g.qEnded || g.qOut))

/-- A copy of a deterministic launch moves its bytes once every gang of the launch has ended its quantum (R157). -/
def copyAtEnd (s : State) (cp : Copy) : Bool :=
  let range := ((tget s.cohorts cp.cohort).map (·.range)).getD 0
  !copyDet s cp || s.gangs.all fun e => e.2.range != range || !isResident s e.2 || quantumOver e.2

/-- COPY_FAULT (R274, R369): the copy has moved what it could, and meets a fault. -/
def execCopyFault (copy : Nat) (s : State) : Outcome :=
  match tget s.copies copy with
  | none => .next s
  | some cp =>
    if !copyFree s cp || !copyAtEnd s cp then .next s
    else
      match copyMeets s copy cp (copyDet s cp) with
      | (_, _, none) => .next s
      | (s1, cp1, some e) => .next (bumpFree (copyStops s1 copy cp1 e))

/-! ### Issue (R152, R153) -/

/-- Registers of a copy's k block (R152). -/
def copyBlock (k : CopyKind) : Nat := if k = .cg then 12 else 10

/-- The counter address of a copy: that of its k block, or where it is 0 its record's (R80, R152). -/
def counterOf (g : Gang) (ka : Nat) (bs : List Byte) : DWord :=
  if kPair g.k (ka + 8) = 0 then BitVec.ofNat 64 (leAt bs 8 8) else kPair g.k (ka + 8)

/-- A layout record and a k block as they stand (R80, R152). -/
def layoutCopy (kind : CopyKind) (g : Gang) (gid ka : Nat) (tag : Option Nat) (bar : Nat) (c : CtrAdd) (bs : List Byte) : Copy :=
  let k (i : Nat) : Word := cget g.k (ka + i)
  let rank := leAt bs 0x3E 1
  let ctr := counterOf g ka bs
  { kind := kind, part := g.part, cohort := g.cohort, crew := g.crew, gang := gid, super := g.level != .user,
    base := BitVec.ofNat 64 (leAt bs 0 8), sizes := (List.range 5).map (fun i => leAt bs (0x10 + 4 * i) 4),
    strides := (List.range 4).map (fun i => leAt bs (0x24 + 4 * i) 4), fill := BitVec.ofNat 32 (leAt bs 0x34 4),
    box := (List.range 5).map (fun i => if i < rank then leAt bs (0x38 + i) 1 + 1 else 1), fmt := leAt bs 0x3D 1,
    rank := rank, shuffle := leAt bs 0x3F 1 == 1, origin := (List.range 5).map (fun i => if i < rank then (k (1 + i)).toInt else 0),
    loc := if kind = .cg then kPair g.k (ka + 10) else zextW (k 0), tag := tag, bar := bar,
    ctr := if c = .none || ctr = 0 then none else some ctr, ctrRel := c == .release, remote := none, moved := [], out := [], ctrDone := false,
    tagDone := false, barDone := false, held := false, stuck := false, seq := 0, rtc := g.rtc }

/-- The rows of R153 on the record and the k block, in the order of the table; `ctr` is the counter address that they give, named or not
(log entry 20). -/
def copyChecks (cp : Copy) (c : CtrAdd) (ctr : DWord) (shuffleByte : Nat) (capacity scratch : Nat) : Option TrapInfo :=
  let n := boxBytes cp.box cp.fmt
  if ctr.toNat % 8 != 0 then some { plainTrap .misalign with addr := ctr }
  else if c != .none && cp.ctr.isNone && cp.tag.isNone && cp.bar = 0 then some (plainTrap .invalidParam)
  else if cp.rank < 1 || 5 < cp.rank || 8 < cp.fmt || 1 < shuffleByte || cp.sizes.any (· == 0) then some (plainTrap .invalidParam)
  else if cp.shuffle && ((cp.fmt != 5 && cp.fmt != 7) || cp.box.headD 0 % 128 != 0) then some (plainTrap .invalidParam)
  else if elemNibbles cp.fmt = 1 && (cp.origin.headD 0 % 2 != 0 || cp.box.headD 0 % 2 != 0) then some (plainTrap .invalidParam)
  else if cp.loc.toNat % 16 != 0 then some { plainTrap .misalign with addr := cp.loc }
  else if n > capacity then some (plainTrap .invalidParam)
  else if (cp.kind = .cin || cp.kind = .cout) && cp.loc.toNat + n > scratch then some (plainTrap .scratchRange)
  else if cp.kind = .catt && cp.loc.toNat + n > 8 * 2 ^ 20 then some (plainTrap .invalidParam)
  else none

/-- The route entry of a remote copy, or the trap of R337: a base in the aperture of a reachable entry makes a copy remote, one that lies
in the aperture of an unreachable entry alone has no route. -/
def copyRoute (s : State) (g : Gang) (base : DWord) : Except TrapCode (Option Nat) :=
  match apertureOf s g.part (fun e => e.flags.testBit 0 && reachable s e) base with
  | some i => if gangDet s g then .error .invalidParam else .ok (some i)
  | none => if (apertureOf s g.part (fun _ => true) base).isSome then .error .msgRoute else .ok none

/-- A copy checked at its issue, in the order of R153. -/
def checkCopy (kind : CopyKind) (s : State) (gid : Nat) (g : Gang) (tag : Option Nat) (ka kl bar : Nat) (c : CtrAdd) :
    Except TrapInfo Copy :=
  let rec' := kPair g.k (2 * kl)
  let producer := ((launchOf s g.range).map (·.producer)).getD 0
  if g.index != producer then .error (plainTrap .copyRights)
  else if tag.isNone && bar = 0 && c = .none then .error (plainTrap .invalidParam)
  else if rec'.toNat % 64 != 0 then .error { plainTrap .misalign with addr := rec' }
  else if (kPair g.k (ka + 8)).toNat % 8 != 0 then .error { plainTrap .misalign with addr := kPair g.k (ka + 8) }
  else
    match deviceRead s (gangView g) rec' 64 with
    | .error e => .error (accessTrap .load e)
    | .ok bs =>
      let cp := layoutCopy kind g gid ka tag bar c bs
      match copyChecks cp c (counterOf g ka bs) (leAt bs 0x3F 1) (cget g.k (ka + 6)).toNat (scratchSize s g) with
      | some t => .error t
      | none =>
        match copyRoute s g cp.base with
        | .error t => .error (plainTrap t)
        | .ok r => .ok { cp with remote := r }

/-- Copies of a core that are issued and not complete (R155). -/
def coreCopies (s : State) (core : Nat) : Nat := (s.copies.filter fun e => copyCore s e.2 == core).length

/-- A copy stalls at issue: 64 on its core, or 255 on its tag (R155). -/
def copyStalls (s : State) (g : Gang) (tag : Option Nat) : Bool :=
  decide (coreCopies s g.core ≥ 64) ||
    match tag with
    | some t => decide ((((tget s.crews g.crew).bind fun w => tget w.tags t).getD 0) ≥ 255)
    | none => false

/-- A cohort that finds the Attic held waits for it; in deterministic mode the stall is a blocking wait, and the quantum end gives the
Attic (R268). -/
def waitAttic (s : State) (gid : Nat) (g : Gang) (si : Nat) : State :=
  if gangDet s g then blockOn (queueAttic s g) gid si true (.retry .attic) else queueAttic s g

/-- A copy issued: its tag's count rises and its bit is cleared (R155). -/
def issueCopy (s : State) (gid : Nat) (g : Gang) (si : Nat) (sp : Split) (cp : Copy) : Outcome :=
  let (id, s1) := freshId s
  let s2 := match cp.tag with
    | some t => modCrew s1 g.crew fun w =>
        { w with tags := tset w.tags t ((tget w.tags t).getD 0 + 1), rdy := w.rdy &&& ~~~(1#64 <<< t) }
    | none => s1
  .next (retireAt { s2 with copies := tset s2.copies id { cp with seq := id } } gid si (nextPc sp.pc))

/-- A copy issued: in a durable launch a seal precedes one that publishes bytes, or adds to a counter in memory (R237, R308). -/
def sealCopy (s : State) (gid : Nat) (g : Gang) (si : Nat) (sp : Split) (cp : Copy) : Outcome :=
  if copyPublishes cp || cp.ctr.isSome then withSeal s gid si g fun s g sp => issueCopy s gid g si sp cp
  else issueCopy s gid g si sp cp

/-- A copy instruction (R152, R153, R155, R268). -/
def copyOp (kind : CopyKind) (tag : Option Nat) (ka kl bar : Nat) (c : CtrAdd) (s : State) : Outcome :=
  gangOp .opens [] none false s fun s gid g si sp =>
    match checkCopy kind s gid g tag ka kl bar c with
    | .error t => .next (takeTrap s gid g si t 0)
    | .ok cp =>
      if copyStalls s g tag then .next (if gangDet s g then blockOn s gid si true (.retry .copies) else s)
      else
        match kind with
        | .catt =>
          match takeAttic s (gangCluster g) g.cohort with
          | none => .next (waitAttic s gid g si)
          | some s1 => sealCopy s1 gid g si sp cp
        | _ => sealCopy s gid g si sp cp

def execCpyin (tag : Option Nat) (ka kl bar : Nat) (c : CtrAdd) (s : State) : Outcome := copyOp .cin tag ka kl bar c s
def execCpyout (tag : Option Nat) (ka kl bar : Nat) (c : CtrAdd) (s : State) : Outcome := copyOp .cout tag ka kl bar c s
def execCpyatt (tag : Option Nat) (ka kl bar : Nat) (c : CtrAdd) (s : State) : Outcome := copyOp .catt tag ka kl bar c s
def execCpyg (tag : Option Nat) (ka kl bar : Nat) (c : CtrAdd) (s : State) : Outcome := copyOp .cg tag ka kl bar c s

end Sys2Proof.Machine
end

