-- ==== Sys2Proof/Machine/BarOps.lean ====
section
/-! DEFINITION. Tags, the bar family and barcfg, completion counters (R158, R161 to R164). -/

namespace Sys2Proof.Machine

/-! ### Tags (R158) -/

/-- A wait whose condition holds at issue does not block; in deterministic mode the quantum ends all the same (R158, R252). -/
def passWait (s : State) (gid si : Nat) (det : Bool) (ws : List (Nat × Word)) (sc : Scope) : State :=
  let s1 := finishWait s gid si ws (if det then none else some sc)
  if det then modGang s1 gid fun g => { g with qEnded := true } else s1

/-- tagwany and tagwall (R158).  DESIGN CHOICE: R221 names their refresh without a scope; the model takes package scope (log entry 67). -/
def tagWait (all : Bool) (a : Nat) (s : State) : Outcome :=
  gangOp .closes [] none false s fun s gid g si _ =>
    let m := kPair g.k a
    if m = 0 then .next (takeTrap s gid g si (plainTrap .invalidParam) 0)
    else if tagWaitHolds s g (.tag all m) then .next (passWait (learnWait s gid si g (.tag all m)) gid si (gangDet s g) [] .pk)
    else .next (blockOn s gid si (gangDet s g) (.tag all m))

def execTagwany (a : Nat) (s : State) : Outcome := tagWait false a s
def execTagwall (a : Nat) (s : State) : Outcome := tagWait true a s

/-- The ready bitmap of a gang's crew (R22). -/
def readyBits (s : State) (g : Gang) : DWord := ((tget s.crews g.crew).map (·.rdy)).getD 0

/-- tagff (R158). -/
def execTagff (d a : Nat) (s : State) : Outcome :=
  gangOp .opens [] none false s fun s gid g si sp =>
    let n := trailingZeros (readyBits s g &&& kPair g.k a).toNat 64
    doneAt s gid (setK (seeTags s g si [n]) d (BitVec.ofNat 32 n)) si sp

/-- tagclr (R158): by the producer gang only. -/
def execTagclr (a : Nat) (s : State) : Outcome :=
  gangOp .opens [] none false s fun s gid g si sp =>
    if g.index != ((launchOf s g.range).map (·.producer)).getD 0 then .next (takeTrap s gid g si (plainTrap .copyRights) 0)
    else
      .next (retireAt (modCrew s g.crew fun w => { w with rdy := w.rdy &&& ~~~(kPair g.k a) }) gid si (nextPc sp.pc))

/-! ### The bar family (R161, R162) -/

/-- A gang's barrier is held at a Pantry. -/
def atPantry : BarRef → Bool
  | .launch _ => true
  | _ => false

/-- The Pantry that holds the n barriers of a gang's launch (R159). -/
def barHomeOf (s : State) (g : Gang) : Nat := ((tget s.ranges g.range).map (·.barHome)).getD 0

/-- A pending add as an arrival or barp makes it: K(a) sign-extended to 56 bits (R161). -/
def pendingAdd (x : Word) : BitVec 56 := x.signExtend 56

/-- A request to the Pantry of the launch's barriers, behind these (R159, R256). -/
def barRequest (s : State) (gid : Nat) (g : Gang) (si : Nat) (kind : ReqKind) (waits : List Nat) : Nat × State :=
  submit s gid false (gangRequest g gid si (barHomeOf s g) kind waits)

/-- What an arriving form is: the payload or the identity, the pending add, whether it waits, whether it always has its long form
(barx). -/
structure Arriving where
  ident : Bool
  payload : Word
  pend : BitVec 56
  wait : Bool
  long : Bool
  deriving DecidableEq, Repr

/-- Where an arrival goes: the Pantry of the launch's barriers, or its own cluster (R159). -/
def arrivalHome (s : State) (g : Gang) (b : BarRef) : Nat := if atPantry b then barHomeOf s g else gangCluster g

/-- An arrival of a free-running gang as a request (R160 to R162). -/
def arrivalRequest (s : State) (gid : Nat) (g : Gang) (si d : Nat) (b : BarRef) (ar : Arriving) (waits : List Nat) : Request :=
  gangRequest g gid si (arrivalHome s g b) (.bar b true ar.ident ar.payload ar.pend d false ar.wait) waits

/-- The token of an arrival, the phase bit of the phase in which it counts, where it writes one (R161). -/
def tokenWrites (d : Nat) (ar : Arriving) (x : Barrier) : List (Nat × Word) := if ar.long || longForm x d then [(d, boolW x.phase)] else []

/-- Nothing stands before an arrival at a barrier of its cluster: it is counted as it issues (R142, R162). -/
def arrivesNow (s : State) (gid : Nat) (g : Gang) (sp : Split) : BarRef → Bool
  | .crew _ => (openReads s gid sp).isEmpty
  | .cohort _ => splitQuiet s gid g.core sp
  | .launch _ => false

/-- An arrival of a free-running gang at a barrier of its cluster that is counted as it issues (R160 to R162). -/
def arriveHere (s : State) (gid : Nat) (g : Gang) (si : Nat) (sp : Split) (d : Nat) (b : BarRef) (ar : Arriving) : Outcome :=
  let s1 := match barPubScope b with
    | some sc => publishOwn s gid g sp sc
    | none => s
  let x := getBar s1 g b
  let (s2, ph) := applyArrival s1 gid g b ar.payload ar.ident ar.pend (poOf sp) sp.known
  if ar.wait then .next (wakeWaits (blockOn s2 gid si false (.bar b ph d (ar.long || longForm x d))))
  else .next (wakeWaits (retireAt (writeKs s2 gid (tokenWrites d ar x)) gid si (nextPc sp.pc)))

/-- An arrival under way: it is counted once what its split has stored is published and its earlier accesses are performed; its split does
not wait for that, and its token is that of the phase in which it will count, since no phase takes more arrivals than it expects (R142, R160,
R162; log entry 65). -/
def arriveLater (s : State) (gid : Nat) (g : Gang) (si : Nat) (sp : Split) (d : Nat) (b : BarRef) (ar : Arriving) : Outcome :=
  let (waits, s1) := match barPubScope b with
    | some sc =>
      let (pid, s') := startRelease s gid g sp sc []
      (pid :: openReads s gid sp, s')
    | none => (openReads s gid sp, s)
  let (rid, s2) := sendRequest s1 (arrivalRequest s gid g si d b ar waits)
  if ar.wait then .next (waitReply s2 gid si false rid)
  else .next (retireAt (writeKs s2 gid (tokenWrites d ar (getBar s g b))) gid si (nextPc sp.pc))

/-- An arrival of a free-running gang whose barrier can still count it (R160, R162); in a durable launch a seal precedes its publication
(R237). -/
def arriveFree (s : State) (gid : Nat) (g : Gang) (si : Nat) (sp : Split) (d : Nat) (b : BarRef) (ar : Arriving) : Outcome :=
  let go (s : State) (g : Gang) (sp : Split) : Outcome :=
    if arrivesNow s gid g sp b then arriveHere s gid g si sp d b ar else arriveLater s gid g si sp d b ar
  match barPubScope b with
  | some _ => withSeal s gid si g go
  | none => go s g sp

/-- An arrival of a deterministic gang: logged for the commit; it ends the quantum where it waits or writes a token (R162).  DESIGN CHOICE:
R162 speaks of a token with d not 0; a barx with d = 0 has a token as well by the table of R161, and it too ends the quantum and writes k0
(log entry 56). -/
def arriveLogged (s : State) (gid : Nat) (g : Gang) (si : Nat) (sp : Split) (d : Nat) (b : BarRef) (ar : Arriving) : Outcome :=
  let (rid, s1) := submit s gid true
    (gangRequest g gid si 0 (.bar b true ar.ident ar.payload ar.pend d true ar.wait) [])
  if ar.wait || ar.long || d != 0 then .next (waitReply s1 gid si true rid)
  else .next (retireAt s1 gid si (nextPc sp.pc))

/-- An arriving form: barr, barw or barx (R161).  It stalls at issue while its barrier's phase has its expected arrivals (R160), and while the
queue of the barrier's Pantry is full (R256); an arrival of a replay that has been counted before has its token again (R312).  DESIGN CHOICE:
for the payload of a barr or barw with d = 0 and a not 0 under a reducer, R161 says K(0) in its text and K(a) in its table; the model takes
K(a) (log entry 56). -/
def arriveOp (d : Nat) (b : BarRef) (s : State) (f : Gang → Arriving) : Outcome :=
  gangOp .closes [] none false s fun s gid g si sp =>
    if g.splits.length > 1 then .next (takeTrap s gid g si (plainTrap .invalidParam) 0)
    else
      let ar := f g
      if gangDet s g then
        match barPubScope b with
        | some _ => withSeal s gid si g fun s g sp => arriveLogged s gid g si sp d b ar
        | none => arriveLogged s gid g si sp d b ar
      else
        match recorded s s.ctl.nextId (arrivalRequest s gid g si d b ar []), ar.wait with
        | some xs, false =>
          let token := if (tokenWrites d ar (getBar s g b)).isEmpty then [] else xs.map fun x => (x.1, boolW (x.2.getLsbD 0))
          .next (retireAt (writeKs s gid token) gid si (nextPc sp.pc))
        | _, _ =>
          if barTaken s g b || (atPantry b && queueFull s (barHomeOf s g)) then .next s else arriveFree s gid g si sp d b ar

/-- barr (R161). -/
def execBarr (d a : Nat) (b : BarRef) (s : State) : Outcome :=
  arriveOp d b s fun g => { ident := false, payload := cget g.k a, pend := 0, wait := false, long := false }

/-- barw (R161). -/
def execBarw (d a : Nat) (b : BarRef) (s : State) : Outcome :=
  arriveOp d b s fun g => { ident := false, payload := cget g.k a, pend := 0, wait := true, long := false }

/-- barx (R161): the pending add and the arrival are one act. -/
def execBarx (d a : Nat) (b : BarRef) (s : State) : Outcome :=
  arriveOp d b s fun g => { ident := true, payload := 0, pend := pendingAdd (cget g.k a), wait := false, long := true }

/-- barwait (R161): waits until the phase differs from its token. -/
def execBarwait (d a : Nat) (b : BarRef) (s : State) : Outcome :=
  gangOp .closes [] none false s fun s gid g si sp =>
    let token := (cget g.k a).getLsbD 0
    let det := gangDet s g
    if atPantry b && !det then
      if acquireOpen sp || queueFull s (barHomeOf s g) then .next s
      else
        let (rid, s1) := barRequest s gid g si (.barwait b token d) (ownArriving s gid g b)
        .next (waitReply s1 gid si false rid)
    else
      match barWaitHolds s g (.bar b token d true) with
      | some (ws, sc) => .next (passWait (learnBar s gid si b (getBar s g b)) gid si det ws sc)
      | none => .next (blockOn s gid si det (.bar b token d true))

/-- A split that reads a crew barrier's state has seen the copies that its last phase counted (R156). -/
def seeBar (s : State) (g : Gang) (si : Nat) (b : BarRef) : Gang :=
  let seen := barSeen (getBar s g b) b
  let ids := oldCopies s g.cohort (sourceSeen s g.crew seen)
  { g with splits := tmod g.splits si fun sp =>
      { sp with seen := seen.foldl (fun m e => tset m e.1 e.2) sp.seen, saw := ids.foldl addTo sp.saw } }

/-- A read of a barrier's state into kd: bart and barq (R161, R162); its gang's own arrivals come before it. -/
def barRead (d : Nat) (b : BarRef) (s : State) (f : Gang → Barrier → Word) (kind : Gang → ReqKind) : Outcome :=
  gangOp .closes [] none false s fun s gid g si sp =>
    if atPantry b && !gangDet s g then
      if acquireOpen sp || queueFull s (barHomeOf s g) then .next s
      else
        let (rid, s1) := barRequest s gid g si (kind g) (ownArriving s gid g b)
        .next (waitReply s1 gid si false rid)
    else if !(ownArriving s gid g b).isEmpty then .next s
    else doneAt s gid (setK (seeBar s g si b) d (f g (getBar s g b))) si sp

/-- bart (R161): it orders nothing. -/
def execBart (d a : Nat) (b : BarRef) (s : State) : Outcome :=
  barRead d b s (fun g x => boolW (x.phase != (cget g.k a).getLsbD 0)) fun g => .bart b ((cget g.k a).getLsbD 0) d

/-- barq (R161). -/
def execBarq (d : Nat) (b : BarRef) (s : State) : Outcome := barRead d b s (fun _ x => barrierWord x) fun _ => .barq b d

/-- barp (R161): a pending add without an arrival, behind the arrivals of its gang. -/
def execBarp (a : Nat) (b : BarRef) (s : State) : Outcome :=
  gangOp .closes [] none false s fun s gid g si sp =>
    let pend := pendingAdd (cget g.k a)
    if gangDet s g then
      .next (retireAt (logRequest s gid (gangRequest g gid si 0 (.bar b false false 0 pend 0 false false) [])) gid si (nextPc sp.pc))
    else if atPantry b then
      if acquireOpen sp || queueFull s (barHomeOf s g) then .next s
      else .next (retireAt (barRequest s gid g si (.bar b false false 0 pend 0 false false) (ownArriving s gid g b)).2 gid si (nextPc sp.pc))
    else if !(ownArriving s gid g b).isEmpty then .next s
    else .next (wakeWaits (retireAt (setBar s g b (addPending (getBar s g b) pend none)) gid si (nextPc sp.pc)))

/-- barcfg (R163): it comes behind the arrivals under way. -/
def execBarcfg (a : Nat) (b : BarRef) (s : State) : Outcome :=
  gangOp .opens [] none false s fun s gid g si sp =>
    let x := cget g.k a
    if !barcfgOk x then .next (takeTrap s gid g si (plainTrap .invalidParam) 0)
    else if gangDet s g then
      let (rid, s1) := submit s gid true (gangRequest g gid si 0 (.barcfg b x) [])
      .next (waitReply s1 gid si true rid)
    else if atPantry b then
      if acquireOpen sp || queueFull s (barHomeOf s g) then .next s
      else
        let (rid, s1) := barRequest s gid g si (.barcfg b x) (ownArriving s gid g b)
        .next (waitReply s1 gid si false rid)
    else if !(arriving s g b).isEmpty then .next s
    else if barrierIdle (getBar s g b) then
      .next (retireAt (setBar s g b (configured (getBar s g b) x)) gid si (nextPc sp.pc))
    else .next (takeTrap s gid g si (plainTrap .invalidParam) 0)

/-! ### Completion counters (R164) -/

/-- The counter at K(a):K(a+1), checked and translated. -/
def counterKey (s : State) (g : Gang) (k : AccessKind) (a : Nat) : Except TrapInfo Nat :=
  let va := kPair g.k a
  if va.toNat % 8 != 0 then .error { plainTrap .misalign with access := k, addr := va }
  else
    match translate s (gangView g) k va with
    | .ok key => .ok key
    | .fault t c => .error (accessTrap k (t, c, va))

/-- waitc (R164): the threshold is registered with the Pantry. -/
def execWaitc (a b : Nat) (s : State) : Outcome :=
  gangOp .closes [] none false s fun s gid g si sp =>
    match counterKey s g .load a with
    | .error t => .next (takeTrap s gid g si t 0)
    | .ok key =>
      let det := gangDet s g
      if !det && (acquireOpen sp || queueFull s (homeOfKey s key)) then .next s
      else
        let s0 := tlbFill s (gangView g) (kPair g.k a)
        let (rid, s1) := submit s0 gid det
          (withPages [kPair g.k a]
            (gangRequest g gid si (homeOfKey s key) (.waitc key (kPair g.k b)) (if det then [] else openWords s g.core (keyRun key 8))))
        .next (waitReply s1 gid si det rid)

/-- sigc (R164): a release at package scope. -/
def execSigc (a b : Nat) (s : State) : Outcome :=
  gangOp .opens [] none false s fun s gid g si _ =>
    match counterKey s g .rmw a with
    | .error t => .next (takeTrap s gid g si t 0)
    | .ok key =>
      let det := gangDet s g
      if !det && queueFull s (homeOfKey s key) then .next s
      else withSeal s gid si g fun s g sp =>
        let s0 := tlbFill s (gangView g) (kPair g.k a)
        let (waits, s1) :=
          if det then ([], s0)
          else
            let (pid, s') := startRelease s0 gid g sp .pk []
            (pid :: openReads s0 gid sp ++ openWords s0 g.core (keyRun key 8), s')
        let r := withPages [kPair g.k a] { gangRequest g gid si (homeOfKey s key) (.ctrAdd key (kPair g.k b)) waits with rel := some .pk }
        .next (retireAt (submit s1 gid det r).2 gid si (nextPc sp.pc))

/-- readc (R164): an acquire at package scope. -/
def execReadc (d a : Nat) (s : State) : Outcome :=
  gangOp .opens [] none false s fun s gid g si sp =>
    match counterKey s g .load a with
    | .error t => .next (takeTrap s gid g si t 0)
    | .ok key =>
      let det := gangDet s g
      if !det && (acquireOpen sp || slotsFull g sp.mask || queueFull s (homeOfKey s key)) then .next s
      else
        let s0 := tlbFill s (gangView g) (kPair g.k a)
        let (rid, s1) := submit s0 gid det
          (withPages [kPair g.k a]
            (gangRequest g gid si (homeOfKey s key) (.readc key d) (if det then [] else openWords s g.core (keyRun key 8))))
        .next (waitReply s1 gid si det rid)

end Sys2Proof.Machine
end

