-- ==== Sys2Proof/Machine/Lane.lean ====
section
/-! DEFINITION. Cross-lane instructions and random numbers (R133 to R139). -/

namespace Sys2Proof.Machine

/-- A cross-lane instruction that writes vd: sources of every lane are read before any write (R133). -/
def crossOp (vs : List Nat) (d : Nat) (s : State) (f : Gang → Split → Nat → Word) : Outcome :=
  gangOp .opens vs none false s fun s gid g si sp => doneAt s gid (perLane g sp.mask d (f g sp)) si sp

/-- The source lane of lshfl (R134). -/
def shflSource (m : ShflMode) (l : Nat) (y : Word) : Nat :=
  match m with
  | .idx => fieldW y 0 6
  | .up => if y.toNat ≤ l then l - y.toNat else l
  | .down => if l + y.toNat ≤ 63 then l + y.toNat else l
  | .xor => l ^^^ fieldW y 0 6

def execLshfl (m : ShflMode) (d a b : Nat) (s : State) : Outcome :=
  crossOp [d, a, b] d s fun g _ l => vget g a (shflSource m l (vget g b l))

def execLbcast (d a i : Nat) (s : State) : Outcome := crossOp [d, a] d s fun g _ _ => vget g a i

/-- The active lanes that hold the same value as lane `l`. -/
def equalLanes (g : Gang) (sp : Split) (a l : Nat) : List Nat := (lanesOf sp.mask).filter fun t => vget g a t == vget g a l

/-- leqm (R136). -/
def execLeqm (d a : Nat) (s : State) : Outcome :=
  gangOp .opens [d, d + 1, a] none false s fun s gid g si sp =>
    doneAt s gid (perLanePair g sp.mask d fun l => maskOf (equalLanes g sp a l)) si sp

/-- IDENT of R137. -/
def laneIdent : LaneOp → Word
  | .iadd | .or | .xor => 0
  | .fadd => 0x80000000
  | .imin => 0x7FFFFFFF
  | .imax => 0x80000000
  | .and => 0xFFFFFFFF
  | .fmax => 0xFF800000

/-- COMBINE of R137; `flush` is fmt[15]. -/
def laneCombine (o : LaneOp) (flush : Bool) (acc v : Word) : Word × Flags :=
  match o with
  | .iadd => (acc + v, flNone)
  | .fadd => fadd32 { ctlRne with flush := flush } acc v
  | .imin => (iminW acc v, flNone)
  | .imax => (imaxW acc v, flNone)
  | .and => (acc &&& v, flNone)
  | .or => (acc ||| v, flNone)
  | .xor => (acc ^^^ v, flNone)
  | .fmax => fminmax32 true { ctlRne with flush := flush } acc v

/-- A scan over values in order: for each the accumulator before and after it, then the last accumulator and the flags. -/
def laneScan (o : LaneOp) (flush : Bool) : Word → List Word → List (Word × Word) × Word × Flags
  | acc, [] => ([], acc, flNone)
  | acc, v :: vs =>
    let r := laneCombine o flush acc v
    let t := laneScan o flush r.1 vs
    ((acc, r.1) :: t.1, t.2.1, r.2 ||| t.2.2)

/-- The scan of the active lanes of a split, ascending (R137). -/
def scanOf (o : LaneOp) (g : Gang) (sp : Split) (a : Nat) : List (Word × Word) × Word × Flags :=
  laneScan o (sp.fmt.getLsbD 15) (laneIdent o) ((lanesOf sp.mask).map fun l => vget g a l)

/-- The value a lane gets from a scan: of the entry at the lane's place among the active lanes. -/
def scanAt (sc : List (Word × Word)) (ex : Bool) (m : Mask) (l : Nat) : Word :=
  match sc[(lanesOf m).idxOf l]? with
  | some e => if ex then e.1 else e.2
  | none => 0

def execLscan (o : LaneOp) (ex : Bool) (d a : Nat) (s : State) : Outcome :=
  gangOp .opens [d, a] none false s fun s gid g si sp =>
    let sc := scanOf o g sp a
    let g1 := perLane g sp.mask d fun l => scanAt sc.1 ex sp.mask l
    doneAt s gid { g1 with fpf := g1.fpf ||| sc.2.2 } si sp

def execLred (o : LaneOp) (d a : Nat) (s : State) : Outcome :=
  gangOp .opens [d, a] none false s fun s gid g si sp =>
    let sc := scanOf o g sp a
    let g1 := perLane g sp.mask d fun _ => sc.2.1
    doneAt s gid { g1 with fpf := g1.fpf ||| sc.2.2 } si sp

def execLrank (d a : Nat) (s : State) : Outcome :=
  crossOp [d, a] d s fun g sp l => BitVec.ofNat 32 ((equalLanes g sp a l).filter (· < l)).length

def execLpopm (d a : Nat) (s : State) : Outcome :=
  crossOp [d, a] d s fun g sp l => BitVec.ofNat 32 ((voteLanes g sp a).filter (· < l)).length

/-! ### Random numbers (R139) -/

/-- A gang whose active strands have new generator states. -/
def setRngs (g : Gang) (m : Mask) (f : Nat → DWord) : Gang :=
  { g with rng := (lanesOf m).foldl (fun t l => tset t l (f l)) g.rng }

/-- A draw in every active strand: STEP, then the value that `f` makes of the new state. -/
def drawOp (d : Nat) (s : State) (f : DWord → Word) : Outcome :=
  gangOp .opens [d] none false s fun s gid g si sp =>
    let g1 := perLane g sp.mask d fun l => f (rngDraw (rngGet g l))
    doneAt s gid (setRngs g1 sp.mask fun l => rngDraw (rngGet g l)) si sp

def execRngnext (d : Nat) (s : State) : Outcome := drawOp d s hiWord

/-- The FP32 value of n × 2^−24, n below 2^24, exact (R139, R182). -/
def unitF32 (n : Nat) : Word := BitVec.ofNat 32 (roundTo fmtF32 ctlRne false n 1 (-24)).1

def execRngu (d : Nat) (s : State) : Outcome := drawOp d s fun x => unitF32 (x.toNat / 2 ^ 40)

/-- rngsplit (R139): the state is hashed from the strand's seed pair and its work identifier. -/
def execRngsplit (a : Nat) (s : State) : Outcome :=
  gangOp .opens [a, a + 1] none false s fun s gid g si sp =>
    let new (l : Nat) : DWord :=
      let x := hashH (vpair g a l) (strandWid s g l) 0
      if x = 0 then rngSeed else x
    doneAt s gid (setRngs g sp.mask new) si sp

end Sys2Proof.Machine
end

