-- ==== Sys2Proof/Machine/Generator.lean ====
section
/-! DEFINITION. Generator registers: gset, geval, and the elements they give (R179 to R184). -/

namespace Sys2Proof.Machine

/-! ### Elements (R182) -/

/-- −∞ in FP32. -/
def negInfF32 : Word := 0xFF800000

/-- A mask element (R182). -/
def maskF32 (keep : Bool) : Word := if keep then 0 else negInfF32

/-- The four 16-bit fields of a hash summed. -/
def fieldSum (z : DWord) : Nat := fieldN z.toNat 0 16 + fieldN z.toNat 16 16 + fieldN z.toNat 32 16 + fieldN z.toNat 48 16

/-- The Gaussian kind: RNE((s − 131,070) × 2^−16 × C), C being FP32 0x3FDD_B3D7 (R182). -/
def gaussF32 (z : DWord) : Word :=
  let t : Int := (fieldSum z : Int) - 131070
  match fmtDecode fmtF32 0x3FDDB3D7 with
  | .num _ m e => (w32 (roundTo fmtF32 ctlRne (t < 0) (t.natAbs * m) 1 (e - 16))).1
  | _ => nanF32

/-- The value of a generator at canonical coordinates, in FP32 before the output format (R182). -/
def genF32 (g : Gen) (r c : Word) : Word :=
  let z := hashH g.seed (zextW r) (zextW c)
  let angle := rneMul (w32 (roundTo fmtF32 ctlRne false r.toNat 1 0)).1 (g.table[c.toNat % 64]?.getD 0)
  match g.kind with
  | 0 => if z.msb then 0xBF800000 else 0x3F800000
  | 1 => unitF32 (z.toNat / 2 ^ 40)
  | 2 => gaussF32 z
  | 3 => rotary32 false angle
  | 4 => rotary32 true angle
  | 5 => maskF32 (decide (c.toNat ≤ r.toNat))
  | 6 => maskF32 (decide (c.toNat ≤ r.toNat) && decide (r.toNat - c.toNat < g.p1.toNat))
  | _ => maskF32 (decide (r.toNat < g.p2.toNat) && decide (c.toNat < g.p1.toNat))

/-- The floating-point format of a format code (R40, R169). -/
def codeFmt (code : Nat) : Fmt :=
  match code with
  | 0 => fmtF32
  | 1 => fmtF16
  | 2 => fmtBf16
  | 3 => fmtE4m3
  | 4 => fmtE5m2
  | _ => fmtE2m1

/-- The code of a generated element in the output format: RNE, no flag; the sign kind gives integers in formats 6 and 7. -/
def genCode (g : Gen) (r c : Word) : Nat :=
  let v := genF32 g r c
  match g.fmt with
  | 0 => v.toNat
  | 6 => if v.msb then 0xFF else 1
  | 7 => if v.msb then 0xF else 1
  | f => (roundVal (codeFmt f) ctlRne (fmtDecode fmtF32 v.toNat)).1

/-- The FP32 value of a generated element, as the array consumes it (R184). -/
def genWord (g : Gen) (r c : Word) : Word :=
  let x := genCode g r c
  match g.fmt with
  | 0 => BitVec.ofNat 32 x
  | 6 | 7 => if x = 1 then 0x3F800000 else 0xBF800000
  | f => (widen32 (codeFmt f) ctlRne x).1

/-! ### gset (R180, R181) -/

/-- The output formats a kind allows (R182). -/
def genFmtOk (kind fmt : Nat) : Bool :=
  match kind with
  | 0 => fmt ≤ 7
  | 1 | 2 | 3 | 4 => fmt ≤ 5
  | _ => fmt = 0 || fmt = 1 || fmt = 2 || fmt = 4

/-- The field checks of gset (R180). -/
def gsetOk (mcc : Bool) (k : Nat → Word) : Bool :=
  let w := k 0
  fieldW w 0 4 ≤ 7 && fieldW w 4 3 ≤ 4 && !(fieldW w 4 3 == 4 && mcc) && !w.getLsbD 7 && fieldW w 12 20 == 0
    && genFmtOk (fieldW w 0 4) (fieldW w 8 4) && k 7 == 0 && !(fieldW w 0 4 == 6 && k 5 == 0)

/-- The effective seed (R181). -/
def effectiveSeed (scope : Nat) (seed launch : DWord) (cohort crew gang : Nat) : DWord :=
  match scope with
  | 0 => seed
  | 1 => hashH seed launch 1
  | 2 => hashH seed (BitVec.ofNat 64 cohort) 2
  | 3 => hashH seed (BitVec.ofNat 64 (4 * cohort + crew)) 3
  | _ => hashH seed (BitVec.ofNat 64 (64 * cohort + 16 * crew + gang)) 4

/-- The 64 table entries of kinds 3 and 4, as published at package scope (R180). -/
def readGenTable (s : State) (v : View) (va : DWord) : Except TrapInfo (List Word) :=
  if va.toNat % 256 != 0 then .error { plainTrap .misalign with access := .table, addr := va }
  else
    match translateRange s v .table va 256 with
    | .error e => .error (accessTrap .table e)
    | .ok keys =>
      let bs := keys.map fun k => newestByte s k
      .ok ((List.range 64).map fun i => BitVec.ofNat 32 (leAt bs (4 * i) 4))

/-- The generator that gset's block gives, in the order of its checks (R180). -/
def makeGen (s : State) (v : View) (mcc : Bool) (k : Nat → Word) (launch : DWord) (cohort crew gang : Nat) : Except TrapInfo Gen :=
  if !gsetOk mcc k then .error (plainTrap .invalidParam)
  else
    let kind := fieldW (k 0) 0 4
    let table : Except TrapInfo (List Word) :=
      if kind = 3 || kind = 4 then readGenTable s v (pairOf (k 3) (k 4)) else .ok []
    match table with
    | .error t => .error t
    | .ok ws =>
      .ok { kind := kind, fmt := fieldW (k 0) 8 4,
            seed := effectiveSeed (fieldW (k 0) 4 3) (pairOf (k 1) (k 2)) launch cohort crew gang,
            p1 := k 5, p2 := k 6, table := ws }

/-- gset (R180): loads a generator of the issuing side. -/
def execGset (n a : Nat) (s : State) : Outcome :=
  eitherOp .opens [] none false s
    (fun s gid g si sp =>
      let o := cohortOrigin s g.cohort
      let crew := ((tget s.crews g.crew).map (·.index)).getD 0
      match makeGen s (gangView g) false (fun i => cget g.k (a + i)) o.1 o.2 crew g.index with
      | .error t => .next (takeTrap s gid g si t 0)
      | .ok x => doneAt s gid { g with gens := tset g.gens n x } si sp)
    (fun s cid c m =>
      let o := cohortOrigin s cid
      match makeGen s (mccView s c) true (fun i => cget m.k (a + i)) o.1 o.2 0 0 with
      | .error t => .next (takeTrapMcc s cid c m t)
      | .ok x => .next (retireMcc (modMcc s cid fun y => { y with gens := tset y.gens n x }) cid (nextPc m.pc)))

/-- geval (R184). -/
def execGeval (d a b n : Nat) (s : State) : Outcome :=
  gangOp .opens [d, a, b] (some [d]) false s fun s gid g si sp =>
    match tget g.gens n with
    | none => .next (takeTrap s gid g si (plainTrap .invalidParam) 0)
    | some x => doneAt s gid (perLane g sp.mask d fun l => genWord x (vget g a l) (vget g b l)) si sp

end Sys2Proof.Machine
end

