-- ==== Sys2Proof/Machine/Matrix.lean ====
section
/-! DEFINITION. The matrix control core's array instructions, the array, fork and the rendezvous
(R14, R21, R57 to R59, R165 to R178, R183). -/

namespace Sys2Proof.Machine

/-! ### Shapes and formats (R69, R169) -/

/-- Rows and columns of a shape. -/
def shapeDims : MatShape → Nat × Nat
  | .m128n128 | .m128n128k2 => (128, 128)
  | .m128n64 => (128, 64)
  | .m64n128 => (64, 128)
  | .m64n64 => (64, 64)
  | .m32n128 => (32, 128)
  | .m32n64 => (32, 64)

/-- 1 for the shape with double K, else 0. -/
def shapeDouble : MatShape → Nat
  | .m128n128k2 => 1
  | _ => 0

/-- K of a pair of formats, where it is allowed (R169). -/
def pairK (a b : Nat) : Option Nat :=
  let within (xs : List Nat) : Bool := xs.contains a && xs.contains b
  if within [5] || within [7] then some 128
  else if within [3, 4] || within [6, 8] then some 64
  else if within [1, 2] then some 32
  else none

/-- Bytes of an element in a transposed A slice (R171). -/
def sliceBytes (fmt : Nat) : Nat := if fmt = 1 || fmt = 2 then 2 else 1

/-- The exact value of an element code; `scale` is its block scale byte for format 5 (R40, R53, R57). -/
def elemVal (fmt : Nat) (flush : Bool) (code scale : Nat) : FVal :=
  match fmt with
  | 5 => match fmtDecode fmtE2m1 code with
    | .num neg m e => .num neg (m * e3m5 scale) (e - 7)
    | v => v
  | 6 => .num (decide (signedN 8 code < 0)) (signedN 8 code).natAbs 0
  | 7 => .num (decide (signedN 4 code < 0)) (signedN 4 code).natAbs 0
  | 8 => .num false code 0
  | f => readFlushed (codeFmt f) flush code

/-- The element codes of packed data; 4-bit formats lie in the order of R47 in each 64 bytes. -/
def packedCodes (fmt : Nat) (bs : List Byte) : List Nat :=
  match fmt with
  | 5 | 7 => (List.range (2 * bs.length)).map fun i =>
      let n := 16 * (i % 8) + i % 128 / 8
      nibbleOf n (bs[i / 128 * 64 + n / 2]?.getD 0)
  | 1 | 2 => (List.range (bs.length / 2)).map fun i => leAt bs (2 * i) 2
  | _ => bs.map fun b => b.toNat

/-- The values of packed data with its block scales. -/
def packedVals (fmt : Nat) (flush : Bool) (bs : List Byte) (scales : List Byte) : List FVal :=
  (packedCodes fmt bs).zipIdx.map fun x => elemVal fmt flush x.1 ((scales[x.2 / 8]?.getD 0).toNat)

/-- Row `i` of an A slice at offset `off`: its K values (R171). -/
def sliceRow (rd : Nat → Byte) (fmt dbl k : Nat) (tsp flush : Bool) (off i : Nat) : List FVal :=
  let run (a n : Nat) : List Byte := (List.range n).map fun j => rd (a + j)
  if tsp then
    let e := sliceBytes fmt
    (List.range k).map fun t => elemVal fmt flush (natLE (run (off + 32 * e * t + e * i) e)) 0
  else
    let row := 64 * (1 + dbl)
    let scales := if fmt = 5 then run (off + 32 * row + 16 * (1 + dbl) * i) (16 * (1 + dbl)) else []
    packedVals fmt flush (run (off + row * i) row) scales

/-- Column `n` of B in the Attic at linear address `y`: its K values (R172). -/
def atticColumn (rd : Nat → Byte) (fmt dbl : Nat) (flush : Bool) (y n : Nat) : List FVal :=
  let line (h len : Nat) : List Byte := (List.range len).map fun j => rd ((y / 8192 + h) * 8192 + 64 * n + j)
  let data := (List.range (1 + dbl)).flatMap fun h => line h 64
  packedVals fmt flush data (if fmt = 5 then line (1 + dbl) (16 * (1 + dbl)) else [])

/-- A generated element as an operand; block scale 1.0 in format 5 (R182, R183).  DEDUCED: with fmt[15] = 1 a subnormal element is taken as
a zero, as every matrix operand is (R53), though geval, whose results R53 does not name, returns it as it is generated (R184; log entry
57). -/
def genVal (g : Gen) (flush : Bool) (r c : Word) : FVal := elemVal g.fmt flush (genCode g r c) 0x60

/-- The coordinates of element (x, k) of a generator operand: `x` is the row of A or the column of B (R183). -/
def genCoords (bSide tsp : Bool) (row0 col0 : Word) (x k : Nat) : Word × Word :=
  if bSide == tsp then (row0 + BitVec.ofNat 32 x, col0 + BitVec.ofNat 32 k)
  else (row0 + BitVec.ofNat 32 k, col0 + BitVec.ofNat 32 x)

/-! ### The array (R57, R58, R173) -/

/-- Lists in pieces of 32 (R57). -/
def groups32 (xs : List FVal) : List (List FVal) :=
  (List.range (xs.length / 32)).map fun g => (xs.drop (32 * g)).take 32

/-- A group's exact sum (R57, R58). -/
def groupSum (xs ys : List FVal) : FVal := fSumExact (List.zipWith fMulExact xs ys)

/-- A group sum added to an accumulator with one RNE (R57, R58). -/
def groupAdd (flush : Bool) (acc : Word) (v : FVal) : Word × Flags :=
  if fIsNan v then (nanF32, flInvalid)
  else
    let a := readFlushed fmtF32 flush acc.toNat
    let t := fSumExact [a, v]
    finish32 { ctlRne with flush := flush } (fIsSnan a || madeNan [a, v] t) t

/-- One accumulator element after an instruction, and its flags. -/
def mmaCell (flush : Bool) (acc : Word) (row col : List FVal) : Word × Flags :=
  ((groups32 row).zip (groups32 col)).foldl (fun x g =>
    let r := groupAdd flush x.1 (groupSum g.1 g.2)
    (r.1, x.2 ||| r.2)) (acc, flNone)

/-- The cell of row `r` and column `c` of a tile in its core's crew (R21). -/
def accKey (tile r c : Nat) : Nat := (tile * 32 + r % 32) * 128 + c

/-- The crew of a cohort on core `i`. -/
def crewOn (c : Cohort) (i : Nat) : Nat := c.crews[i]?.getD 0

/-- A byte of a crew's scratchpad as the array reads it: what stands there, or what an unordered write has replaced (R175). -/
def arrayScratch (s : State) (crew a : Nat) : Byte :=
  match tget s.crews crew with
  | none => 0
  | some w => (chooseFrom s 9 (crew * 2 ^ 32 + a) (w.scratch.read a :: (w.olds.filter fun b => b.1 == a).map (·.2.1))).getD 0

/-- A byte of a cluster's Attic as the array reads it (R175). -/
def arrayAttic (s : State) (cluster a : Nat) : Byte :=
  let c := getCluster s cluster
  (chooseFrom s 10 (cluster * 2 ^ 32 + a) (c.attic.read a :: (c.atticOlds.filter fun b => b.1 == a).map (·.2.1))).getD 0

/-- The formats of the two operands: those of fmt, or a generator's own (R169). -/
def operandFmts (fmt : Word) (gen : Option Gen) (side : Bool) : Nat × Nat :=
  match gen with
  | none => (fieldW fmt 0 4, fieldW fmt 4 4)
  | some g => if side then (fieldW fmt 0 4, g.fmt) else (g.fmt, fieldW fmt 4 4)

/-- The tile after an mma or mmag: for each core, the cells and the flags (R173). -/
def runMma (s : State) (c : Cohort) (sh : MatShape) (acc aAddr bAddr : Nat) (gen : Option Gen) (side tsp add : Bool)
    (row0 col0 fmt : Word) : List (Nat × List (Nat × Word)) × Flags :=
  let flush := fmt.getLsbD 15
  let (fa, fb) := operandFmts fmt gen side
  let dbl := shapeDouble sh
  let k := ((pairK fa fb).getD 0) * (1 + dbl)
  let (rows, cols) := shapeDims sh
  let generated (g : Gen) (bSide : Bool) (x : Nat) : List FVal :=
    (List.range k).map fun t => genVal g flush (genCoords bSide tsp row0 col0 x t).1 (genCoords bSide tsp row0 col0 x t).2
  let aRow (i : Nat) : List FVal :=
    let data := sliceRow (arrayScratch s (crewOn c (i / 32))) fa dbl k (tsp && gen.isNone && !side) flush aAddr (i % 32)
    match gen with
    | some g => if side then data else generated g false i
    | none => data
  let bCol (n : Nat) : List FVal :=
    let data := atticColumn (arrayAttic s c.cluster) fb dbl flush bAddr n
    match gen with
    | some g => if side then generated g true n else data
    | none => data
  let bs := (List.range cols).map bCol
  let perCore := (List.range (rows / 32)).map fun core =>
    let old := ((tget s.crews (crewOn c core)).map (·.acc)).getD []
    let cells := (List.range 32).flatMap fun i =>
      let a := aRow (32 * core + i)
      bs.zipIdx.map fun b =>
        let key := accKey acc i b.2
        (key, mmaCell flush (if add then cget old key else 0) a b.1)
    (crewOn c core, cells)
  (perCore.map (fun p => (p.1, p.2.map fun x => (x.1, x.2.1))), flUnion (perCore.flatMap fun p => p.2.map fun x => x.2.2))

/-- Cells written in the accumulators of crews. -/
def putAcc (s : State) (ws : List (Nat × List (Nat × Word))) : State :=
  ws.foldl (fun s w => modCrew s w.1 fun x => { x with acc := csets x.acc w.2 }) s

/-! ### Draining (R59, R177) -/

/-- The bytes of an element of a drain format. -/
def drainBytes (fmt : Nat) : Nat :=
  match fmt with
  | 0 => 4
  | 1 | 2 => 2
  | _ => 1

/-- A band scale of a pair of K registers: half 0 or 1 of a word (R43, R177). -/
def bandScale (mode : Nat) (flush : Bool) (w : Word) (half : Nat) : FVal :=
  if mode = 1 then readFlushed fmtBf16 flush (fieldW w (16 * half) 16) else .num false 1 0

/-- One accumulator value drained: ROUND(acc × sA × sB, drain format), and its flags; a subnormal acc that is flushed drains as zero of its
sign in every format, and raises none (R59, R177).  DESIGN CHOICE, for a point on which R59 is silent: a NaN among the three factors
raises no invalid for an infinity and a zero beside it (log entry 45). -/
def drainVal (fmt : Word) (j : Nat) (bands srseed rtc : DWord) (r c : Nat) (acc : Word) : Nat × Flags :=
  let flush := fmt.getLsbD 15
  let mode := fieldW fmt 16 4
  let a := readFlushed fmtF32 flush acc.toNat
  let sa := bandScale mode flush (loWord bands) (r / 64)
  let sb := bandScale mode flush (hiWord bands) (c / 64)
  let v := fMulExact (fMulExact a sa) sb
  let ctl : RoundCtl :=
    { mode := roundModeOf fmt false, sat := fmt.getLsbD 14, flush := flush,
      z := hashH (srseed + BitVec.ofNat 64 j) (128 * rtc + BitVec.ofNat 64 r) (BitVec.ofNat 64 c) }
  if flush && fieldW acc 23 8 == 0 && fieldW acc 0 23 != 0 then ((roundVal (codeFmt (fieldW fmt 8 4)) ctl a).1, 0)
  else
  let res := roundVal (codeFmt (fieldW fmt 8 4)) ctl v
  (res.1, res.2 ||| flIf ([a, sa, sb].any fIsSnan || madeNan [a, sa, sb] v) flInvalid)

/-- A tile drained: for each core its bytes at the offset, and the flags (R177). -/
def runDrain (s : State) (c : Cohort) (j off : Nat) (fmt : Word) (bands srseed rtc : DWord) :
    List (Nat × List (Nat × Byte)) × Flags :=
  let e := drainBytes (fieldW fmt 8 4)
  let perCore := (List.range 4).map fun core =>
    let acc := ((tget s.crews (crewOn c core)).map (·.acc)).getD []
    let vals := (List.range 32).flatMap fun i => (List.range 128).map fun n =>
      (off + (128 * i + n) * e, drainVal fmt j bands srseed rtc (32 * core + i) n (cget acc (accKey j i n)))
    (crewOn c core, vals)
  (perCore.map (fun p => (p.1, p.2.flatMap fun x => listAt x.1 (bytesLE e x.2.1))),
    flUnion (perCore.flatMap fun p => p.2.map fun x => x.2.2))

/-- A tile at +0.0 on every core. -/
def clearTile (s : State) (c : Cohort) (j : Nat) : State :=
  c.crews.foldl (fun s w => modCrew s w fun x => { x with acc := x.acc.filter fun e => e.1 / 4096 != j }) s

/-- One instruction of the array queue executed in one step: the state and the flags (R173, R176, R177). -/
def runArray (s : State) (c : Cohort) (op : ArrayOp) : State × Flags :=
  match op with
  | .mma sh acc aAddr bAddr gen side tsp add row0 col0 fmt =>
    let (ws, fl) := runMma s c sh acc aAddr bAddr gen side tsp add row0 col0 fmt
    (putAcc s ws, fl)
  | .mzero j => (clearTile s c j, flNone)
  | .mdrain j off z bands fmt srseed rtc =>
    let (ws, fl) := runDrain s c j off fmt bands srseed rtc
    let s1 := ws.foldl (fun s w => modCrew s w.1 fun x =>
      { x with scratch := x.scratch.writes w.2, olds := x.olds.filter fun o => !(w.2.any fun b => b.1 == o.1) }) s
    (if z then clearTile s1 c j else s1, fl)

/-- Array cycles that an instruction occupies the array (R170). -/
def arrayCycles : ArrayOp → Nat
  | .mma sh .. => 64 * (1 + shapeDouble sh)
  | .mzero _ => 16
  | .mdrain .. => 64

/-- The array-busy counters of a cluster and of its partition (R324, R348). -/
def countArray (s : State) (c : Cohort) (n : Nat) : State :=
  modPart (modCluster s c.cluster fun x => { x with arrayBusy := x.arrayBusy + n }) c.part fun p =>
    { p with arrayBusy := p.arrayBusy + n }

/-- With the array queue empty, a rendezvous that a program no longer takes part in is tested (R167, R294). -/
def afterArray (s : State) (cid : Nat) : State :=
  match tget s.mccs cid with
  | some m => if !m.running && m.queue.isEmpty then rdvTest s cid else s
  | none => s

/-- ARRAY_EXECUTE (R170, R175): the oldest queued instruction completes; its flags go to the MCC's fpf, where the next mwait or rdv shows
them (R55, R178).  The last work of a program that was ended lets a rendezvous complete (R294). -/
def execArrayExecute (cohort : Nat) (s : State) : Outcome :=
  match tget s.cohorts cohort, tget s.mccs cohort with
  | some c, some m =>
    match m.queue with
    | [] => .next s
    | op :: rest =>
      if c.saved || !partRuns s c.part then .next s
      else
        let (s1, fl) := runArray s c op
        .next (bumpFree (afterArray (countArray (modMcc s1 cohort fun x => { x with queue := rest, fpfNew := x.fpfNew ||| fl }) c (arrayCycles op)) cohort))
  | _, _ => .next s

/-! ### Issue on the MCC (R174, R176, R177) -/

/-- Instructions the array queue holds (R170). -/
def arrayQueue : Nat := 8

/-- The launch record of an MCC's cohort: tiles and scratchpad bytes. -/
def mccLaunch (s : State) (c : Cohort) : Nat × Nat :=
  match launchOf s c.range with
  | some l => (l.tiles, l.scratch)
  | none => (0, 0)

/-- An instruction enters the array queue; the MCC stalls while it is full (R170). -/
def enqueue (s : State) (cid : Nat) (m : Mcc) (op : ArrayOp) : Outcome :=
  if m.queue.length ≥ arrayQueue then .next s
  else .next (retireMcc (modMcc s cid fun x => { x with queue := x.queue ++ [op] }) cid (nextPc m.pc))

/-- The checks of R174 on a matrix instruction, in the order of the table. -/
def mmaCheck (s : State) (c : Cohort) (sh : MatShape) (acc : Nat) (a b : Option Nat) (gen : Option (Option Gen)) (side tsp : Bool)
    (fmt : Word) : Option TrapInfo :=
  let (tiles, scratch) := mccLaunch s c
  let g := gen.bind id
  let (fa, fb) := operandFmts fmt g side
  let dbl := shapeDouble sh
  let slice := 2048 * (1 + dbl) + (if fa = 5 then 512 * (1 + dbl) else 0)
  if acc ≥ tiles then some (plainTrap .invalidParam)
  else if gen == some none then some (plainTrap .invalidParam)
  else if (pairK fa fb).isNone then some (plainTrap .invalidParam)
  else if tsp && gen.isNone && (side || fa = 5 || fa = 7) then some (plainTrap .invalidParam)
  else if (a.getD 0) % 64 != 0 then some { plainTrap .misalign with addr := BitVec.ofNat 64 (a.getD 0) }
  else if (b.getD 0) % 8192 != 0 then some { plainTrap .misalign with addr := BitVec.ofNat 64 (b.getD 0) }
  else if (match a with | some x => decide (x + slice > scratch) | none => false) then some (plainTrap .scratchRange)
  else if (match b with | some y => decide (y / 8192 + dbl + (if fb = 5 then 1 else 0) > 1023) | none => false) then some (plainTrap .invalidParam)
  else none

/-- mma (R173). -/
def execMma (sh : MatShape) (acc ka kb : Nat) (side add tsp : Bool) (s : State) : Outcome :=
  mccOp s fun s cid c m =>
    let a := (cget m.k ka).toNat
    let b := (cget m.k kb).toNat
    match mmaCheck s c sh acc (some a) (some b) none side tsp m.fmt with
    | some t => .next (takeTrapMcc s cid c m t)
    | none => enqueue s cid m (.mma sh acc a b none side tsp add 0 0 m.fmt)

/-- mmag (R173). -/
def execMmag (sh : MatShape) (acc ka g : Nat) (side add tsp : Bool) (s : State) : Outcome :=
  mccOp s fun s cid c m =>
    let x := (cget m.k ka).toNat
    let gen := tget m.gens g
    let a := if side then some x else none
    let b := if side then none else some x
    match mmaCheck s c sh acc a b (some gen) side tsp m.fmt with
    | some t => .next (takeTrapMcc s cid c m t)
    | none =>
      enqueue s cid m (.mma sh acc (a.getD 0) (b.getD 0) gen side tsp add (cget m.k (ka + 1)) (cget m.k (ka + 2)) m.fmt)

/-- mzero (R176). -/
def execMzero (j : Nat) (s : State) : Outcome :=
  mccOp s fun s cid c m =>
    if j ≥ (mccLaunch s c).1 then .next (takeTrapMcc s cid c m (plainTrap .invalidParam)) else enqueue s cid m (.mzero j)

/-- mdrain (R177): the checks of its table in their order, then that of the tile, whose code is not below theirs (R34). -/
def execMdrain (d a j : Nat) (z : Bool) (s : State) : Outcome :=
  mccOp s fun s cid c m =>
    let off := (cget m.k a).toNat
    let f := fieldW m.fmt 8 4
    let trap (t : TrapCode) : Outcome := .next (takeTrapMcc s cid c m (plainTrap t))
    if f > 4 then trap .invalidParam
    else if off % 16 != 0 then .next (takeTrapMcc s cid c m { plainTrap .misalign with addr := BitVec.ofNat 64 off })
    else if off + 4096 * drainBytes f > (mccLaunch s c).2 then trap .scratchRange
    else if j ≥ (mccLaunch s c).1 then trap .invalidParam
    else enqueue s cid m (.mdrain j off z (kPair m.k d) m.fmt m.srseed m.rtc)

/-- mwait (R176, R178). -/
def execMwait (s : State) : Outcome :=
  mccOp s fun s cid _ m => if m.queue.isEmpty then .next (retireMcc (showFlags s cid) cid (nextPc m.pc)) else .next s

/-- The MCC's rdv (R167): it waits for the array queue, then arrives. -/
def execMccRdv (s : State) : Outcome :=
  mccOp s fun s cid _ m =>
    if m.queue.isEmpty then .next (rdvTest (modMcc s cid fun x => { x with wait := .rdv }) cid) else .next s

/-! ### Gangs: fork and rdv (R166, R167) -/

/-- A gang's rdv (R167). -/
def execRdv (s : State) : Outcome :=
  gangOp .closes [] none false s fun s gid g si _ =>
    if g.splits.length > 1 then .next (takeTrap s gid g si (plainTrap .invalidParam) 0)
    else .next (rdvTest (blockOn s gid si (gangDet s g) .rdv) g.cohort)

/-- The MCC at a program's start (R165); array work of a program that was ended goes on before its own (R294). -/
def freshMcc (s : State) (g : Gang) (sp : Split) (target : DWord) : Mcc :=
  { running := true, pc := target, k := g.k.filter (fun e => 32 ≤ e.1 && e.1 < 48), gens := [], fmt := sp.fmt, fpf := 0, fpfNew := 0, rtc := 0,
    srseed := ((launchOf s g.range).map (·.seed)).getD 0, queue := ((tget s.mccs g.cohort).map (·.queue)).getD [], wait := .none, status := .running, needTable := true }

/-- The gang is the lead gang of a cohort of four crews (R14, R165, R166). -/
def mayFork (s : State) (g : Gang) : Bool :=
  g.index == 0 && (tget s.crews g.crew).any (fun w => w.index == 0) && (tget s.cohorts g.cohort).any fun c => c.crews.length == 4

/-- What a fork orders before the array instructions of its program: the earlier scratchpad accesses of its split, and the copies that a fence
or an access of it comes after (R151, R166). -/
def forkOrders (gid : Nat) (sp : Split) : OldBy → Bool
  | .strand g seg => g == gid && inHistory sp seg
  | .copy _ _ _ forks => forks.any (inHistory sp)

/-- fork (R166): the MCC program starts, its constant table is read, and the fork retires.  Of several conditions that hold, the one of
the lowest code is reported (R34). -/
def execFork (a : Nat) (s : State) : Outcome :=
  gangOp .closes [] none false s fun s gid g si sp =>
    let t := kPair g.k a
    match targetTrap t with
    | some i => .next (takeTrap s gid g si i 0)
    | none =>
      if !mayFork s g then .next (takeTrap s gid g si (plainTrap .matrixRights) 0)
      else
        if mccRunning s g.cohort then .next (if gangDet s g then blockOn s gid si true (.retry .mcc) else s)
        else
          match takeAttic s (gangCluster g) g.cohort with
          | none => .next (waitAttic s gid g si)
          | some s1 =>
            let s2 := forgetOlds { s1 with mccs := tset s1.mccs g.cohort (freshMcc s g sp t) } g.cohort (forkOrders gid sp)
            .next (retireAt (startTableMcc s2 g.cohort) gid si (nextPc sp.pc))

end Sys2Proof.Machine
end

