-- ==== Sys2Proof/Machine/Task.lean ====
section
/-! DEFINITION. spawn, join, chunk and msgsend (R186 to R192, R337, R339). -/

namespace Sys2Proof.Machine

/-! ### Reading records -/

/-- Bytes read as plain loads of an issuing split: its core's Porch, then its snapshot (R188). -/
def plainRead (s : State) (g : Gang) (va : DWord) (n : Nat) : Except (TrapCode × Nat × DWord) (List Byte) :=
  (translateRange s (gangView g) .load va n).map fun keys => keys.map (loadByte s g.core (quantumStart s g))

/-- The keys of bytes that translate for reading. -/
def readKeys (s : State) (g : Gang) (va : DWord) (n : Nat) : List Nat :=
  match translateRange s (gangView g) .load va n with
  | .ok keys => keys
  | .error _ => []

/-- The bytes that a plain read has observed (R222, R262). -/
def observeKeys (s : State) (g : Gang) (keys : List Nat) : State :=
  let s1 := overflowRefresh s g.core keys
  observeBytes s1 g.core (quantumStart s1 g) (keys.map fun k => (k, loadByte s1 g.core (quantumStart s1 g) k))

/-- The trap of a record that fails R187. -/
def placeTrap : PlaceError → TrapInfo
  | .plain t => plainTrap t
  | .page t c a => accessTrap .load (t, c, a)

/-- A continuation record and its launch record read and checked (R187, R188). -/
def readPlacement (s : State) (g : Gang) (va : DWord) : Except TrapInfo Placement :=
  match plainRead s g va 32 with
  | .error e => .error (accessTrap .load e)
  | .ok bs =>
    match checkCont (parseCont bs) (g.level != .user) fun a => plainRead s g a launchBytes with
    | .error e => .error (placeTrap e)
    | .ok pl => .ok (clipPrio pl g.prio (g.level != .user))

/-- The keys of a continuation record and of the launch record it names. -/
def placementKeys (s : State) (g : Gang) (va : DWord) : List Nat :=
  readKeys s g va 32 ++
    match plainRead s g va 32 with
    | .ok bs => readKeys s g (parseCont bs).launch launchBytes
    | .error _ => []

/-- The state in which the records at some addresses are read: where the Larder would overflow, the core refreshes before the first of these
loads (R188, R262). -/
def recordView (s : State) (g : Gang) (vas : List DWord) : State := overflowRefresh s g.core (vas.flatMap (placementKeys s g))

/-- Of several traps that no table orders, the one with the lowest code (R34). -/
def lowestTrap : List TrapInfo → Option TrapInfo
  | [] => none
  | t :: ts => some (ts.foldl (fun b x => if trapNumber x.code < trapNumber b.code then x else b) t)

/-- A MISALIGN of an operand address. -/
def misalignTrap (k : AccessKind) (va : DWord) : TrapInfo := { plainTrap .misalign with access := k, addr := va }

/-- The Pantry of a virtual address that a gang can read. -/
def homeAt (s : State) (g : Gang) (va : DWord) : Nat := homeOfKey s ((readKeys s g va 1).headD 0)

/-- A gang's request, at these addresses, whose answer its split waits for. -/
def askPantry (s : State) (gid : Nat) (g : Gang) (si home : Nat) (kind : ReqKind) (vas : List DWord) (waits : List Nat) : State :=
  let det := gangDet s g
  let (rid, s1) := submit s gid det (withPages vas (gangRequest g gid si home kind waits))
  waitReply s1 gid si det rid

/-- A request is held at issue in free-running mode (R142, R256). -/
def askHeld (s : State) (g : Gang) (sp : Split) (home : Nat) : Bool :=
  !gangDet s g && (acquireOpen sp || queueFull s home)

/-- A request whose result takes a return slot is held at issue (R257). -/
def slotHeld (s : State) (g : Gang) (sp : Split) (home : Nat) : Bool := askHeld s g sp home || (!gangDet s g && slotsFull g sp.mask)

/-! ### spawn -/

/-- The addresses of `n` consecutive records. -/
def recordVas (va : DWord) (n : Nat) : List DWord := (List.range n).map fun i => va + BitVec.ofNat 64 (32 * i)

/-- spawn (R188): the Pantry that is asked is the home of the first record's first byte. -/
def execSpawn (d a i : Nat) (s : State) : Outcome :=
  gangOp .opens [] none false s fun s gid g si sp =>
    let va := kPair g.k a
    if va.toNat % 32 != 0 then .next (takeTrap s gid g si (misalignTrap .load va) 0)
    else if i = 0 then .next (takeTrap s gid g si (plainTrap .invalidParam) 0)
    else
      let s0 := recordView s g (recordVas va i)
      let read := (recordVas va i).map (readPlacement s0 g)
      match lowestTrap (failed read) with
      | some t => .next (takeTrap s gid g si t 0)
      | none =>
        let keys := (recordVas va i).flatMap (placementKeys s0 g)
        let home := homeAt s g va
        if askHeld s g sp home || !(openWords s g.core keys).isEmpty then .next s
        else withSeal s0 gid si g fun s g _ =>
          let s1 := observeKeys (tlbFills s (gangView g) (recordVas va i)) g keys
          .next (askPantry s1 gid g si home (.spawn ((passed read).filter fun p => p.cont.join == 0) d) [] [])

/-! ### join and chunk -/

/-- The record of `n` bytes at K(a):K(a+1), aligned to `n`, translated for a read-modify-write. -/
def recordKey (s : State) (g : Gang) (n a : Nat) : Except TrapInfo Nat :=
  let va := kPair g.k a
  if va.toNat % n != 0 then .error (misalignTrap .rmw va)
  else
    match translate s (gangView g) .rmw va with
    | .ok key => .ok key
    | .fault t c => .error (accessTrap .rmw (t, c, va))

/-- A record is served by its home Pantry while the split waits; with `slots` its result takes a return slot (R257). -/
def recordOp (slots : Bool) (n a : Nat) (kind : Gang → Nat → ReqKind) (s : State) : Outcome :=
  gangOp .opens [] none false s fun s gid g si sp =>
    match recordKey s g n a with
    | .error t => .next (takeTrap s gid g si t 0)
    | .ok key =>
      if (if slots then slotHeld s g sp (homeOfKey s key) else askHeld s g sp (homeOfKey s key)) then .next s
      else withSeal s gid si g fun s g _ =>
        let s1 := tlbFill s (gangView g) (kPair g.k a)
        .next (askPantry s1 gid g si (homeOfKey s1 key) (kind g key) [kPair g.k a]
          (if gangDet s1 g then [] else openWords s1 g.core (keyRun key n)))

/-- join (R189). -/
def execJoin (a : Nat) (s : State) : Outcome := recordOp false 32 a (fun g key => .join (kPair g.k a) key) s

/-- chunk (R190). -/
def execChunk (d a : Nat) (s : State) : Outcome := recordOp true 16 a (fun _ key => .chunk key d) s

/-! ### msgsend -/

/-- Dies of a peer partition, 1, 2, 4 or 8 (R344): a fact of the peer, which is outside this device, and free (R191; log entry 53). -/
def peerDies (s : State) : Nat := 2 ^ (Config.freeNat 19 s.ctl.free % 4)

/-- A message's destination exists: a die of this partition, or a reachable route entry that allows messages (R191, R336). -/
def destinationOk (s : State) (g : Gang) (w : Word) : Bool :=
  match tget s.parts g.part with
  | none => false
  | some p =>
    let die := fieldW w 0 4
    let peer := fieldW w 8 8
    if peer = 0 then decide (die < p.dies.length)
    else match tget p.routes peer with
      | some e => decide (die < peerDies s) && e.flags.testBit 0 && e.flags.testBit 1 && reachable s e
      | none => false

/-- The conditions of R187 and R191 on a message, as traps. -/
def messageTraps (s : State) (g : Gang) (w : Word) (c : ContRecord) : List TrapInfo :=
  (if contAligned c false then [] else [plainTrap .misalign])
  ++ (if contFields c && fieldW w 4 4 == 0 && fieldW w 16 16 == 0 && c.join == 0 && (fieldW w 8 8 == 0 || !gangDet s g) then []
      else [plainTrap .invalidParam])
  ++ (if destinationOk s g w then [] else [plainTrap .msgRoute])

/-- The 64 bytes of a payload: K(b) to K(b + 15) (R191). -/
def payloadBytes (g : Gang) (b : Nat) : List Byte := (List.range 16).flatMap fun i => bytesLE 4 (cget g.k (b + i)).toNat

/-- The message of a gang; for a die of its own partition the destination is a die of the device. -/
def messageOf (s : State) (gid : Nat) (g : Gang) (w : Word) (c : ContRecord) (payload : List Byte) : Message :=
  let die := fieldW w 0 4
  let peer := fieldW w 8 8
  let dest := match tget s.parts g.part with
    | some p => if peer = 0 then p.dies[die]?.getD 0 else die
    | none => die
  { part := g.part, gang := gid, die := dest, peer := peer, cont := c, payload := payload,
    super := g.level != .user, seq := 0 }

/-- A message accepted by the ring or a port; a replayed one is not sent again (R191, R312). -/
def sendOnce (s : State) (gid : Nat) (g : Gang) (m : Message) : State :=
  if alreadyPublished s gid g.rtc eventMessage then s else markGang (sendMessage s m) gid g.rtc eventMessage

/-- msgsend (R191). -/
def execMsgsend (d a b : Nat) (s : State) : Outcome :=
  gangOp .opens [] none false s fun s gid g si sp =>
    let va := kPair g.k a
    let w := cget g.k d
    if va.toNat % 32 != 0 then .next (takeTrap s gid g si (misalignTrap .load va) 0)
    else
      let s0 := overflowRefresh s g.core (readKeys s g va 32)
      match plainRead s0 g va 32 with
      | .error e =>
        .next (takeTrap s gid g si (accessTrap .load e) 0)
      | .ok bs =>
        let c := parseCont bs
        match lowestTrap (messageTraps s g w c) with
        | some t => .next (takeTrap s gid g si t 0)
        | none =>
          let keys := readKeys s g va 32
          if !gangDet s g && (acquireOpen sp || !(openWords s g.core keys).isEmpty) then .next s
          else withSeal s0 gid si g fun s g _ =>
            let s1 := observeKeys (tlbFill s (gangView g) va) g keys
            let m := messageOf s1 gid g w c (payloadBytes g b)
            if gangDet s1 g then .next (retireAt (logRequest s1 gid (gangRequest g gid si 0 (.message m) [])) gid si (nextPc sp.pc))
            else .next (retireAt (sendOnce s1 gid g m) gid si (nextPc sp.pc))

end Sys2Proof.Machine
end

