-- ==== Sys2Proof/Machine/GroupOps.lean ====
section
/-! DEFINITION. sgfork, sgreward, sgcancel, sgstat and the deadline of a sample group (R204 to R210). -/

namespace Sys2Proof.Machine

/-- The keys of the 64-byte blocks of `n` bytes from a record's address. -/
def blockKeys (keys : List Nat) : List Nat := (List.range ((keys.length + 63) / 64)).map fun i => keys[64 * i]?.getD 0

/-- The bytes of a group record that an instruction checks at issue: aligned to 64 and translated (R204). -/
def groupRecord (s : State) (g : Gang) (k : AccessKind) (va : DWord) (n : Nat) : Except TrapInfo (List Nat) :=
  if va.toNat % 64 != 0 then .error (misalignTrap k va)
  else
    match translateRange s (gangView g) k va n with
    | .error e => .error (accessTrap k e)
    | .ok keys => .ok (blockKeys keys)

/-- An ε that is refused: NaN, or negative other than −0 (R205). -/
def epsBad (e : Word) : Bool := fIsNan (fmtDecode fmtF32 e.toNat) || (e.msb && e != 0x80000000)

/-- A reward that is refused: NaN or infinite (R208). -/
def rewardBad (r : Word) : Bool := fieldW r 23 8 == 255

/-- The prompt of an sgfork: its record is read and checked as spawn's, and holds the crews of one cohort (R205).  The launch
record's widths must hold the last sibling's index (R16). -/
def promptTraps (s : State) (g : Gang) (va : DWord) (n : Nat) : List TrapInfo × Option Placement :=
  if va.toNat % 32 != 0 then ([misalignTrap .load va], none)
  else
    match readPlacement s g va with
    | .error t => ([t], none)
    | .ok pl =>
      if pl.cont.crews = pl.launch.crews && widthsHold pl.launch n then ([], some pl) else ([plainTrap .invalidParam], none)

/-- A count of siblings that is refused (R205). -/
def sizeBad (n : Nat) : Bool := n < 2 || decide (64 < n)

/-- sgfork (R205): the check of n comes first (R204); no table orders the others, and of those that hold the one with the lowest code is
reported (R34). -/
def execSgfork (d a b : Nat) (s : State) : Outcome :=
  gangOp .closes [] none false s fun s gid g si sp =>
    let n := (cget g.k b).toNat
    let va := kPair g.k a
    let record := groupRecord s g .rmw va (64 + 16 * n)
    let promptVa := kPair g.k (b + 1)
    let eps := cget g.k (b + 5)
    let s0 := recordView s g [promptVa]
    let (ts, pl) := promptTraps s0 g promptVa n
    if sizeBad n then .next (takeTrap s gid g si (plainTrap .invalidParam) 0)
    else match lowestTrap (failed [record] ++ ts ++ if epsBad eps then [plainTrap .invalidParam] else []), pl, record with
    | some t, _, _ => .next (takeTrap s gid g si t 0)
    | none, none, _ | none, _, .error _ => .next s
    | none, some prompt, .ok blocks =>
      let keys := placementKeys s0 g promptVa
      let home := homeOfKey s (blocks.headD 0)
      if slotHeld s g sp home || !(openWords s g.core keys).isEmpty then .next s
      else withSeal s0 gid si g fun s g _ =>
        let s1 := observeKeys (tlbFills s (gangView g) [va, promptVa]) g keys
        .next (askPantry s1 gid g si home
          (.sgfork va blocks n prompt promptVa (kPair g.k (b + 3)) (kPair g.k (b + 6)) eps d) [va] [])

/-- The Pantry of the record of a gang's own group. -/
def groupHome (s : State) (gid : Nat) : Nat :=
  match (groupOf s gid).bind (tget s.groups) with
  | some gr => homeOfKey s (gr.blocks.headD 0)
  | none => 0

/-- sgreward (R208): an arrival is a release at package scope, and the split waits for the close. -/
def execSgreward (d b : Nat) (s : State) : Outcome :=
  gangOp .closes [] none false s fun s gid g si sp =>
    let r := cget g.k b
    if g.sgidx == 0xFFFFFFFF || rewardBad r then .next (takeTrap s gid g si (plainTrap .invalidParam) 0)
    else
      let home := groupHome s gid
      if !gangDet s g && (slotsFull g sp.mask || queueFull s home) then .next s
      else withSeal s gid si g fun s g sp =>
        if gangDet s g then .next (askPantry s gid g si home (.sgreward r d) [] [])
        else
          let (pid, s1) := startRelease s gid g sp .pk []
          .next (askPantry s1 gid g si home (.sgreward r d) [] (pid :: openReads s gid sp))

/-- sgcancel (R209). -/
def execSgcancel (d a b : Nat) (s : State) : Outcome :=
  gangOp .opens [] none false s fun s gid g si sp =>
    let va := kPair g.k a
    let i := (cget g.k b).toNat
    match groupRecord s g .rmw va 64 with
    | .error t => .next (takeTrap s gid g si t 0)
    | .ok blocks =>
      match translateRange s (gangView g) .rmw (va + BitVec.ofNat 64 (slotOff i)) 16 with
      | .error e => .next (takeTrap s gid g si (accessTrap .rmw e) 0)
      | .ok _ =>
        let home := homeOfKey s (blocks.headD 0)
        if slotHeld s g sp home then .next s
        else withSeal s gid si g fun s g _ =>
          .next (askPantry (tlbFill s (gangView g) va) gid g si home (.sgcancel blocks i d) [va] [])

/-- sgstat (R210). -/
def execSgstat (d a : Nat) (s : State) : Outcome :=
  gangOp .opens [] none false s fun s gid g si sp =>
    let va := kPair g.k a
    match groupRecord s g .load va 64 with
    | .error t => .next (takeTrap s gid g si t 0)
    | .ok blocks =>
      let home := homeOfKey s (blocks.headD 0)
      if slotHeld s g sp home then .next s
      else .next (askPantry (tlbFill s (gangView g) va) gid g si home (.sgstat blocks d) [va]
        (if gangDet s g then [] else openWords s g.core (keyRun (blocks.headD 0) 64)))

/-- SG_DEADLINE (R206): a free-running group closes when its elapsed time reaches its deadline. -/
def execSgDeadline (group : Nat) (s : State) : Outcome :=
  match tget s.groups group with
  | none => .next s
  | some g => if !g.det && deadlineReached s g then .next (bumpFree (closeGroup s group g 2)) else .next s

end Sys2Proof.Machine
end

