-- ==== Sys2Proof/Machine/Det.lean ====
section
/-! DEFINITION. digest, stepmark and qend (R211 to R214). -/

namespace Sys2Proof.Machine

/-- Ranges of one step, at most (R212). -/
def digestSlots : Nat := 64

/-- digest (R212). -/
def execDigest (a b : Nat) (s : State) : Outcome :=
  gangOp .opens [] none false s fun s gid g si sp =>
    let start := kPair g.k a
    let len := kPair g.k b
    let held := ((tget s.parts g.part).map fun p => p.digestRanges.length).getD 0
    if start.toNat % 64 != 0 || len.toNat % 64 != 0 then .next (takeTrap s gid g si { plainTrap .misalign with addr := start } 0)
    else if len = 0 || len.toNat > 2 ^ 40 || held ≥ digestSlots then .next (takeTrap s gid g si (plainTrap .invalidParam) 0)
    else
      .next (retireAt (modPart s g.part fun p => { p with digestRanges := p.digestRanges ++ [(start, len)] }) gid si (nextPc sp.pc))

/-- The step number does not exceed that of the partition's last stepmark (R213). -/
def stepStale (s : State) (g : Gang) (step : DWord) : Bool :=
  ((tget s.parts g.part).bind (·.lastStep)).any fun l => step.ule l

/-- The cluster whose queue a stepmark passes through: the first of the partition. -/
def stepHome (s : State) (g : Gang) : Nat := ((tget s.parts g.part).map fun p => (partClusters p).headD 0).getD 0

/-- stepmark (R213): a release at package scope, then the digest of the step. -/
def execStepmark (d a : Nat) (s : State) : Outcome :=
  gangOp .opens [] none false s fun s gid g si _ =>
    let step := kPair g.k a
    if stepStale s g step && (tget s.gangs gid).all (fun x => x.replay.isNone) then
      .next (takeTrap s gid g si (plainTrap .invalidParam) 0)
    else withSeal s gid si g fun s g sp =>
      if gangDet s g then .next (askPantry s gid g si (stepHome s g) (.stepmark step d) [] [])
      else
        let (pid, s1) := startRelease s gid g sp .pk []
        .next (askPantry s1 gid g si (stepHome s g) (.stepmark step d) [] (pid :: openReads s gid sp))

/-- qend (R214). -/
def execQend (s : State) : Outcome :=
  gangOp .opens [] none false s fun s gid g si sp =>
    let s1 := retireAt s gid si (nextPc sp.pc)
    .next (if gangDet s g then modGang s1 gid fun x => { x with qEnded := true } else s1)

end Sys2Proof.Machine
end

