-- ==== Sys2Proof/Machine/Stair.lean ====
section
/-! DEFINITION. Relaxation regions: rxcfg, rxbody, rxend, rxabort, and the arithmetic of a pass (R193 to R203, R277 to R290). -/

namespace Sys2Proof.Machine

/-! ### The descriptor (R194) -/

/-- The descriptor as the 14 k registers hold it; block bases are resolved through the window. -/
def readRegion (g : Gang) (a : Nat) : Region :=
  let k (i : Nat) : Word := cget g.k (a + i)
  let base (i : Nat) : Nat := g.wbase + fieldW (k 5) (8 * i) 7
  let dim := fieldW (k 0) 12 3 + 1
  { len := fieldW (k 0) 0 10, steps := 2 ^ fieldW (k 0) 10 2, dim := dim, mode := fieldW (k 0) 15 2,
    guess := fieldW (k 0) 17 2, policy := fieldW (k 0) 19 2, early := (k 0).getLsbD 21, limit := fieldW (k 1) 0 8,
    tauA := k 2, tauR := k 3, rho := k 4, bx := base 0, by' := base 1, bj := base 2, bc := base 3,
    x0 := (List.range dim).map (fun i => k (6 + i)), wbase := g.wbase, start := 0, active := 0, recs := [], slot := 0,
    fallback := none, stalls := 0, passRtc := 0, caps := [] }

/-- Registers of a step's Jacobian. -/
def jacSize (r : Region) : Nat :=
  match r.mode with
  | 1 => r.dim
  | 2 => r.dim * r.dim
  | _ => 0

/-- A tolerance that is allowed: not below zero, or +∞ (R194). -/
def tauOk (x : Word) : Bool := decide (x.toNat ≤ 0x7F800000) || x == 0x80000000

/-- The register blocks: base and size. -/
def regionBlocks (r : Region) : List (Nat × Nat) :=
  [(r.bx, r.dim + 1), (r.by', r.dim), (r.bj, jacSize r), (r.bc, r.steps * r.dim)]

/-- Two blocks share no register. -/
def apart (x y : Nat × Nat) : Bool := x.2 == 0 || y.2 == 0 || decide (x.1 + x.2 ≤ y.1) || decide (y.1 + y.2 ≤ x.1)

/-- Each block lies inside the window, and no two overlap. -/
def blocksOk (g : Gang) (r : Region) : Bool :=
  let bs := regionBlocks r
  bs.all (fun b => b.2 == 0 || (decide (b.1 + b.2 ≤ g.wbase + 128) && decide (b.1 + b.2 ≤ g.nregs))) && bs.Pairwise (fun x y => apart x y)

/-- Every region lane is active. -/
def lanesActive (r : Region) (m : Mask) : Bool := (List.range (regionLanes r)).all fun l => m.getLsbD l

/-- The ranges of R194. -/
def regionOk (g : Gang) (sp : Split) (a : Nat) (r : Region) : Bool :=
  let k (i : Nat) : Word := cget g.k (a + i)
  decide (1 ≤ r.len) && decide (r.len ≤ 512) && decide (r.len ≤ 64 * r.steps)
  && decide (r.mode ≤ 2) && (r.mode != 2 || decide (r.dim ≤ 4)) && decide (r.guess ≤ 2) && decide (r.policy ≤ 2)
  && fieldW (k 0) 22 10 == 0 && decide (1 ≤ r.limit) && fieldW (k 1) 8 24 == 0
  && tauOk r.tauA && tauOk r.tauR && decide (1 ≤ r.rho.toNat) && decide (r.rho.toNat ≤ 0x3F800000)
  && !(k 5).getLsbD 7 && !(k 5).getLsbD 15 && !(k 5).getLsbD 23 && !(k 5).getLsbD 31
  && blocksOk g r && lanesActive r sp.mask

/-- rxcfg (R193, R194). -/
def execRxcfg (a : Nat) (s : State) : Outcome :=
  gangOp .opens [] none false s fun s gid g si sp =>
    let r := readRegion g a
    if g.splits.length > 1 || !regionOk g sp a r then .next (takeTrap s gid g si (plainTrap .invalidParam) 0)
    else doneAt s gid { g with rxs := 1#32 <<< 24, rxr := 0, region := some r } si sp

/-! ### rxbody (R195, R277) -/

/-- The guesses that rxbody writes (R195, R282). -/
def guessCells (r : Region) : List (Nat × Word) :=
  match r.guess with
  | 0 => stateCells r ((List.range r.len).map fun t => (t, List.replicate r.dim 0))
  | 1 => stateCells r ((List.range r.len).map fun t => (t, r.x0))
  | _ => []

/-- rxs with its region state replaced. -/
def withRegionState (rxs : Word) (st : Nat) : Word := (rxs &&& ~~~(3#32 <<< 24)) ||| (BitVec.ofNat 32 st <<< 24)

/-- rxbody (R195). -/
def execRxbody (s : State) : Outcome :=
  gangOp .opens [] none false s fun s gid g si sp =>
    match regionState g, g.region with
    | 1, some r =>
      if g.splits.length > 1 || g.wbase != r.wbase then .next (takeTrap s gid g si (plainTrap .invalidParam) 0)
      else
        match claimStair s g.core gid with
        | none => .next (if gangDet s g then blockOn s gid si true (.retry .stair) else waitStair s g.core gid)
        | some s1 =>
          let r1 : Region := { r with start := nextPc sp.pc, active := sp.mask, recs := sp.recs, slot := 0, caps := [],
                                      passRtc := g.rtc + 1 }
          let g1 : Gang := { g with v := csets g.v (guessCells r), rxs := withRegionState g.rxs 2 }
          .next (retireAt (setGang s1 gid (startSlot g1 si r1)) gid si (nextPc sp.pc))
    | _, _ => .next (takeTrap s gid g si (plainTrap .invalidParam) 0)

/-! ### The arithmetic of a pass (R197) -/

/-- Component of a list, +0.0 beyond its end. -/
def comp (xs : List Word) (i : Nat) : Word := xs[i]?.getD 0

/-- APPLY (R197). -/
def applyJ (mode d : Nat) (a b c : List Word) : List Word :=
  (List.range d).map fun i =>
    if mode = 2 then (List.range d).foldl (fun acc j => rneFma (comp a (d * i + j)) (comp b j) acc) (comp c i)
    else rneFma (comp a i) (comp b i) (comp c i)

/-- MUL (R197). -/
def mulJ (mode d : Nat) (a2 a1 : List Word) : List Word :=
  if mode = 2 then
    (List.range d).flatMap fun i => (List.range d).map fun j =>
      ((List.range d).drop 1).foldl (fun acc k => rneFma (comp a2 (d * i + k)) (comp a1 (d * k + j)) acc)
        (rneMul (comp a2 (d * i)) (comp a1 j))
  else (List.range d).map fun i => rneMul (comp a2 i) (comp a1 i)

/-- A pair of a Jacobian product and a constant part. -/
abbrev Affine := List Word × List Word

/-- COMBINE (R197). -/
def combine (mode d : Nat) (x y : Affine) : Affine := (mulJ mode d y.1 x.1, applyJ mode d y.1 x.2 y.2)

/-- The product of a lane's steps, ascending. -/
def foldLane (mode d : Nat) : List Affine → Affine
  | [] => ([], [])
  | x :: xs => xs.foldl (combine mode d) x

/-- One level of the tree: each lane from `m` on combines with the lane `m` before it, as the previous level left it. -/
def treeLevel (mode d : Nat) (q : List Affine) (m : Nat) : List Affine :=
  q.zipIdx.map fun x => if m ≤ x.2 then combine mode d (q[x.2 - m]?.getD ([], [])) x.1 else x.1

/-- The deltas of a lane's steps from what the lane before it carries. -/
def laneDeltas (mode d : Nat) (prev : List Word) : List Affine → List (List Word)
  | [] => []
  | x :: xs => applyJ mode d x.1 prev x.2 :: laneDeltas mode d (applyJ mode d x.1 prev x.2) xs

/-- The captured steps of a lane: its Jacobians and errors. -/
def laneSteps (r : Region) (all : List Affine) (s : Nat) : List Affine := (all.drop (s * r.steps)).take r.steps

/-- delta[t] for every step (R197). -/
def passDeltas (r : Region) (all : List Affine) : List (List Word) :=
  if r.mode = 0 then all.map (·.2)
  else
    let n := regionLanes r
    let p := (List.range n).map fun s => foldLane r.mode r.dim (laneSteps r all s)
    let q := [1, 2, 4, 8, 16, 32].foldl (treeLevel r.mode r.dim) p
    (List.range n).flatMap fun s =>
      let prev := if s = 0 then List.replicate r.dim 0 else (q[s - 1]?.getD ([], [])).2
      laneDeltas r.mode r.dim prev (laneSteps r all s)

/-- A component that is +0 or −0. -/
def isZeroF32 (x : Word) : Bool := x &&& 0x7FFFFFFF == 0

/-- A component that is finite. -/
def isFiniteF32 (x : Word) : Bool := fieldW x 23 8 != 255

/-- XN[t] for every step (R197). -/
def passStates (r : Region) (ys js deltas : List (List Word)) : List (List Word) :=
  ys.zipIdx.map fun y =>
    let before := deltas[y.2 - 1]?.getD []
    if r.mode = 0 || y.2 = 0 || before.all isZeroF32 then y.1 else applyJ r.mode r.dim (js[y.2]?.getD []) before y.1

/-- What a pass gives: XN, the first steps m and qy, the new E, R, whether every component passes R199, and whether it is a
stall pass but for the pass number. -/
structure PassResult where
  xn : List (List Word)
  m : Nat
  qy : Nat
  e : Nat
  big : Word
  pass : Bool
  deriving DecidableEq, Repr

/-- The first step that satisfies a predicate, or the length. -/
def firstStep (n : Nat) (p : Nat → Bool) : Nat := ((List.range n).find? p).getD n

/-- |x − g|, NaN as +∞ (R199, R284). -/
def residual (x g : Word) : Word :=
  let r := rneSub x g &&& 0x7FFFFFFF
  if r.toNat > 0x7F800000 then 0x7F800000 else r

/-- A component passes R199. -/
def passesTest (r : Region) (x g : Word) : Bool :=
  if isZeroF32 r.tauA && isZeroF32 r.tauR then x == g || (isZeroF32 x && isZeroF32 g)
  else
    let bound := rneFma r.tauR (x &&& 0x7FFFFFFF) r.tauA
    let b := bound &&& 0x7FFFFFFF
    isFiniteF32 (residual x g) && decide (b.toNat ≤ 0x7F800000) && decide ((residual x g).toNat ≤ b.toNat)

/-- A pass from its captures, its guesses and the E before it (R197 to R199). -/
def passResult (r : Region) (xg : List (List Word)) (e0 : Nat) : PassResult :=
  let cap (t : Nat) : List Word × List Word := ((r.caps.find? fun c => c.1 == t).map (·.2)).getD ([], [])
  let ts := List.range r.len
  let ys := ts.map fun t => (cap t).1
  let js := ts.map fun t => (cap t).2
  let es := (ys.zip xg).map fun p => List.zipWith rneSub p.1 p.2
  let deltas := passDeltas r (js.zip es)
  let xn := passStates r ys js deltas
  let at' (xs : List (List Word)) (t : Nat) : List Word := xs[t]?.getD []
  let m := firstStep r.len fun t => at' ys t != at' xg t
  let qy := firstStep r.len fun t => !((at' ys t).all isFiniteF32 && (at' js t).all isFiniteF32)
  let qd := firstStep r.len fun t => !((at' deltas t).all isFiniteF32)
  let pairs := (xn.zip xg).flatMap fun p => p.1.zip p.2
  { xn := xn, m := m, qy := qy, e := max e0 (min (min (m + 1) qy) (min (qd + 1) r.len)),
    big := (pairs.map fun p => residual p.1 p.2).foldl (fun a b => if a.toNat < b.toNat then b else a) 0,
    pass := pairs.all fun p => passesTest r p.1 p.2 }

/-! ### rxend (R197 to R200) -/

/-- rxs with E and the passes used, and flags added. -/
def rxsWith (rxs : Word) (e passes : Nat) (flags : Word) : Word :=
  (rxs &&& 0xFFFC0000) ||| (BitVec.ofNat 32 e <<< 8) ||| BitVec.ofNat 32 passes ||| flags

/-- What the end of a pass leads to (R200). -/
inductive PassOutcome | converged | nonfinite | stall | limit | again
  deriving DecidableEq, Repr

/-- The gang's registers at a pass end: rxs, rxr and the stall count (R199, R285), and the outcome (R200). -/
def passEnd (g : Gang) (r : Region) (p : PassResult) : Gang × Region × PassOutcome :=
  let e0 := fieldW g.rxs 8 10
  let used := fieldW g.rxs 0 8 + 1
  let stallPass := decide (2 ≤ used) && decide ((rneMul r.rho g.rxr).toNat ≤ p.big.toNat) && p.big != 0 && decide (p.e ≤ e0 + 1)
  let stalls := if stallPass then min (r.stalls + 1) 2 else 0
  let rxs := rxsWith g.rxs p.e used (if stalls = 2 then 1#32 <<< 19 else 0)
  let out := if p.pass || p.e = r.len then PassOutcome.converged
    else if p.qy ≤ p.m && p.qy < r.len then .nonfinite
    else if rxs.getLsbD 19 && r.early then .stall
    else if used = r.limit then .limit
    else .again
  let flag : Word := match out with
    | .converged => 1#32 <<< 18
    | .nonfinite => 1#32 <<< 21
    | .limit => 1#32 <<< 20
    | _ => 0
  ({ g with rxs := rxs ||| flag, rxr := p.big }, { r with stalls := stalls, caps := [], slot := 0 }, out)

/-- The close of a region: state 0, the split's lanes as at rxbody (R200). -/
def closeRegion (g : Gang) (si : Nat) (r : Region) : Gang :=
  joinRegion { g with rxs := withRegionState g.rxs 0, region := none } si r

/-- The captures of the current steps (R197). -/
def captureSteps (g : Gang) (r : Region) : List (Nat × List Word × List Word) :=
  (currentSteps r).map fun t => (t, blockVals g r.by' r.dim (stepLane r t), blockVals g r.bj (jacSize r) (stepLane r t))

/-- A region that goes on at its body start. -/
def loopBody (s : State) (gid : Nat) (g : Gang) (si : Nat) (r : Region) : Outcome :=
  .next (retireAt (setGang s gid (startSlot g si r)) gid si r.start)

/-- A region that closes and goes on after its rxend. -/
def leaveBody (s : State) (gid : Nat) (g : Gang) (si : Nat) (sp : Split) (r : Region) : Outcome :=
  .next (retireAt (setGang (releaseStair s g.core gid) gid (closeRegion g si r)) gid si (nextPc sp.pc))

/-- A failed region under its policy (R200). -/
def failRegion (s : State) (gid : Nat) (g : Gang) (si : Nat) (sp : Split) (r : Region) (xn : List (List Word)) (code : TrapCode) :
    Outcome :=
  let e := fieldW g.rxs 8 10
  let all := xn.zipIdx.map fun x => (x.2, x.1)
  if r.policy = 0 then
    let g1 : Gang := { g with v := csets g.v (stateCells r (all.take e)), rxs := g.rxs ||| (1#32 <<< 22) }
    loopBody s gid g1 si { r with fallback := some e, passRtc := g.rtc + 1 }
  else
    let g1 : Gang := { g with v := csets g.v (stateCells r all) }
    if r.policy = 1 then
      let g2 := closeRegion g1 si r
      .next (takeTrap (setGang (releaseStair s g.core gid) gid g2) gid g2 si (plainTrap code) 0)
    else leaveBody s gid g1 si sp r

/-- The end of a pass (R200). -/
def endPass (s : State) (gid : Nat) (g : Gang) (si : Nat) (sp : Split) (r : Region) : Outcome :=
  let p := passResult r ((List.range r.len).map (guessOf g r)) (fieldW g.rxs 8 10)
  let (g1, r1, out) := passEnd g r p
  let committed : Gang := { g1 with v := csets g1.v (stateCells r (p.xn.zipIdx.map fun x => (x.2, x.1))) }
  match out with
  | .converged => leaveBody s gid committed si sp r1
  | .again => loopBody s gid committed si { r1 with passRtc := g.rtc + 1 }
  | .nonfinite => failRegion s gid g1 si sp r1 p.xn .stairNonfinite
  | _ => failRegion s gid g1 si sp r1 p.xn .stairLimit

/-- The end of a fallback step: its state is committed, and the next step runs or the region closes (R200, R287). -/
def endStep (s : State) (gid : Nat) (g : Gang) (si : Nat) (sp : Split) (r : Region) (t : Nat) : Outcome :=
  let g1 : Gang := { g with v := csets g.v (stateCells r [(t, blockVals g r.by' r.dim (stepLane r t))]) }
  if t + 1 < r.len then loopBody s gid g1 si { r with fallback := some (t + 1), passRtc := g.rtc + 1 }
  else leaveBody s gid g1 si sp r

/-- rxend (R197). -/
def execRxend (s : State) : Outcome :=
  gangOp .opens [] (some []) false s fun s gid g si sp =>
    match regionState g, g.region with
    | 2, some r =>
      if g.splits.length > 1 || sp.pend.any (fun p => p.left != 0) then .next (takeTrap s gid g si (plainTrap .invalidParam) 0)
      else
        match r.fallback with
        | some t => endStep s gid g si sp r t
        | none =>
          let r1 : Region := { r with caps := r.caps ++ captureSteps g r }
          if r.slot + 1 < r.steps && r.slot + 1 < r.len then loopBody s gid g si { r1 with slot := r.slot + 1 }
          else endPass s gid g si sp r1
    | _, _ => .next (takeTrap s gid g si (plainTrap .invalidParam) 0)

/-- rxabort (R202). -/
def execRxabort (s : State) : Outcome :=
  gangOp .opens [] (some []) false s fun s gid g si sp =>
    doneAt (releaseStair s g.core gid) gid (abortRegion g si) si sp

end Sys2Proof.Machine
end

