-- ==== Sys2Proof/Machine/PantryEvents.lean ====
section
/-! DEFINITION. The Pantry serves a request; a publication is acknowledged by its homes (R219, R224, R256, R263). -/

namespace Sys2Proof.Machine

/-- A request of a Pantry that can be served now: in its queue once the cycle in which it was sent is over, not logged for a commit, with what
comes before it done (R256). -/
def servable (s : State) (home : Nat) (r : Request) : Bool :=
  r.home == home && !r.table && !isLogged s r && !inCluster r.kind && decide (r.sent < s.ctl.clock) && requestReady s r

/-- A request enters a queue before another: by the cycles in which they were sent, those of one cycle by their senders (R256). -/
def entersBefore (x y : Request) : Bool :=
  decide (x.sent < y.sent) || (x.sent == y.sent && (decide (x.place < y.place) || (x.place == y.place && decide (x.seq < y.seq))))

/-- The request that a Pantry serves next: the earliest that can be served (R256). -/
def nextRequest (s : State) (home : Nat) : Option (Nat × Request) :=
  (s.requests.filter fun e => servable s home e.2).foldl (fun (best : Option (Nat × Request)) e =>
    match best with
    | none => some e
    | some b => if entersBefore e.2 b.2 then some e else best) none

/-- An act under way in its cluster, on a barrier there or on a fault record, takes place once what stands before it has been performed
(R111, R142, R162). -/
def performHere (s : State) (rid : Nat) : State :=
  match tget s.requests rid with
  | some r => if inCluster r.kind && !isLogged s r && requestReady s r then serve s rid r else s
  | none => s

/-- Every such act that can take place does, in the order in which they were sent. -/
def performHeres (s : State) : State := (s.requests.map (·.1)).foldl performHere s

/-- A split that waits for publications and requests goes on once none of them is under way (R114, R151, R219), with its instruction cache
discarded where that is what it waits with (R112). -/
def wakePub (s : State) (gid si : Nat) : State :=
  match (tget s.gangs gid).bind fun g => (tget g.splits si).map fun sp => (g, sp) with
  | none => s
  | some (g, sp) =>
    let done (ids : List Nat) : Bool :=
      ids.all (fun i => (tget s.pubs i).isNone && (tget s.requests i).isNone) && isResident s g && clusterAwake s (gangCluster g)
    match sp.wait with
    | .pub ids refresh => if done ids then finishWait s gid si [] refresh else s
    | .discard ids sc => if done ids then finishWait (discardCaches s g.core (gangCluster g) g.part sc) gid si [] none else s
    | _ => s

/-- What waits for publications and requests goes on: acts under way in their clusters, and every split of every gang. -/
def wakePubs (s : State) : State :=
  (s.gangs.flatMap fun e => e.2.splits.map fun p => (e.1, p.1)).foldl (fun s h => wakePub s h.1 h.2) (performHeres s)

/-- PANTRY_REQUEST_SERVE (R256). -/
def execPantryRequestServe (cluster : Nat) (s : State) : Outcome :=
  match nextRequest s cluster with
  | none => .next s
  | some (rid, r) => .next (bumpFree (wakePubs (serve s rid r)))

/-- A split whose answer was held goes on with it once it can be reached (R302, R328). -/
def wakeAnswer (s : State) (gid si : Nat) : State :=
  match (tget s.gangs gid).bind fun g => (tget g.splits si).map fun sp => sp.wait with
  | some (Wait.answered ws refresh) => if splitReached s gid then finishWait s gid si ws refresh else s
  | _ => s

/-- Every held answer is tested. -/
def wakeAnswers (s : State) : State :=
  (s.gangs.flatMap fun e => e.2.splits.map fun p => (e.1, p.1)).foldl (fun s h => wakeAnswer s h.1 h.2) s

/-- Every wake-up that has fallen due is delivered: at a restore, and when a cluster wakes or resumes (R302, R311, R328). -/
def deliverWakes (s : State) : State := wakeDrains (wakePubs (wakeAnswers (wakeSteps (wakeWaits (wakeRewards (wakeCounters s))))))

/-- PUBLICATION_ACKNOWLEDGEMENT (R263): the publication is performed at its place in pub. -/
def execPublicationAcknowledgement (pub : Nat) (s : State) : Outcome :=
  match tget s.pubs pub with
  | none => .next s
  | some p => if pubReady s p then .next (bumpFree (wakePubs (performPub s pub p))) else .next s

end Sys2Proof.Machine
end

