-- ==== Sys2Proof/Machine/Sched.lean ====
section
/-! DEFINITION. The scheduler: placement, aging, spill, reservation, pre-emption, restore; messages and held records
(R192, R241 to R248, R258, R277, R297 to R304, R319, R339). -/

namespace Sys2Proof.Machine

/-! ### Room on cores and clusters (R244) -/

/-- The crews that stand on a core: not ended, their cohort not saved. -/
def coreCrews (s : State) (core : Nat) : Tab Crew := s.crews.filter fun e => e.2.core == core && !e.2.ended && !(cohortOut s e.2.cohort)

/-- The gangs that stand on a core. -/
def coreGangs (s : State) (core : Nat) : Tab Gang := s.gangs.filter fun e => e.2.core == core && isResident s e.2

/-- The gangs that hold a slot of a core: a gang's slot returns at its crew's end (R248). -/
def slotGangs (s : State) (core : Nat) : Tab Gang :=
  s.gangs.filter fun e => e.2.core == core && !(cohortOut s e.2.cohort) && !((tget s.crews e.2.crew).any (·.ended))

/-- The pool need of a crew. -/
def crewNeed (s : State) (w : Crew) : Nat := ((launchOf s w.range).map poolNeed).getD 0

/-- Pool bytes of a core that are held: a share may outlive its crew (R248). -/
def poolUsed (s : State) (core : Nat) : Nat :=
  ((s.crews.filter fun e => e.2.core == core && e.2.share && !(cohortOut s e.2.cohort)).map fun e => crewNeed s e.2).foldl (· + ·) 0

/-- A crew's launch runs deterministically. -/
def crewDet (s : State) (w : Crew) : Bool := ((launchOf s w.range).map (·.det)).getD false

/-- A core can hold a crew of a range (R244). -/
def coreHolds (s : State) (core range : Nat) (l : Launch) : Bool :=
  let crews := coreCrews s core
  decide (crews.length ≤ 15) && decide ((slotGangs s core).length + l.gangs ≤ 32) && decide (poolUsed s core + poolNeed l ≤ poolBytes)
    && crews.all fun e => e.2.range == range || !crewDet s e.2

/-- No crew stands on a cluster. -/
def clusterEmpty (s : State) (cl : Nat) : Bool := (clusterCores cl).all fun c => (coreCrews s c).isEmpty

/-- The cluster's ratio suits a launch, or may be switched to it (R244, R319). -/
def ratioSuits (s : State) (cl : Nat) (l : Launch) : Bool :=
  match launchRatio l with
  | none => true
  | some r => (getCluster s cl).ratio == r || clusterEmpty s cl

/-- A cluster can hold a cohort of a range, apart from reservations (R244). -/
def clusterHolds (s : State) (cl range : Nat) (l : Launch) : Bool :=
  ((List.range l.crews).all fun i => coreHolds s (cl * 4 + i) range l) && ratioSuits s cl l

/-- A cluster is reserved by another head than this range or saved cohort (R246). -/
def reservedByOther (s : State) (cl who : Nat) : Bool :=
  match (getCluster s cl).reserved with
  | some r => r != who
  | none => false

/-- Gangs on the cores that a cohort of `n` crews would use. -/
def gangLoad (s : State) (cl n : Nat) : Nat := ((List.range n).map fun i => (coreGangs s (cl * 4 + i)).length).foldl (· + ·) 0

/-- Of the clusters given, in their order, the one with the fewest gangs that can hold a cohort of a range, which `who` places (R245). -/
def pickAmong (s : State) (cls : List Nat) (range who : Nat) (l : Launch) (ok : Nat → Bool) : Option Nat :=
  (cls.filter fun cl => clusterHolds s cl range l && !reservedByOther s cl who && ok cl).foldl (fun (best : Option Nat) cl =>
    match best with
    | none => some cl
    | some b => if gangLoad s cl l.crews < gangLoad s b l.crews then some cl else best) none

/-- The clusters of a die. -/
def dieClusters (die : Nat) : List Nat := (List.range 20).map fun i => die * 20 + i

/-- The cluster for a free-running range's next cohort: of its own die, or after 20 µs of any die (R245). -/
def pickCluster (s : State) (rid : Nat) (r : Range) : Option Nat :=
  match pickAmong s (dieClusters r.die) rid rid r.launch (fun _ => true) with
  | some cl => some cl
  | none =>
    if r.spill && !r.pinned then
      pickAmong s (((tget s.parts r.part).map partClusters).getD []) rid rid r.launch (fun _ => true)
    else none

/-! ### A cohort starts (R15, R17, R23, R243, R244) -/

/-- The lowest free gang slot of a core. -/
def freeSlot (s : State) (core : Nat) : Nat :=
  let used := (slotGangs s core).map fun e => e.2.slot
  ((List.range 32).find? fun i => !used.contains i).getD 0

/-- The special register temp at crew start: 1.0 (R23). -/
def startTemp : Word := 0x3F800000

/-- A gang at crew start (R17, R23): its constant table is read before its first instruction (R368). -/
def freshGang (r : Range) (rid cid wid index core slot : Nat) (cohortIndex now : Nat) : Gang :=
  let split : Split := Split.start r.launch.entry (BitVec.allOnes 64) now
  { part := r.part, range := rid, cohort := cid, crew := wid, index := index, core := core, slot := slot,
    level := if r.super then .supervisor else .user, nregs := r.launch.regs, v := [], k := [], gens := [], rng := [],
    splits := [(0, split)], exited := 0, rtc := 0, fpf := 0, wbase := 0, temp := startTemp, prio := r.launch.prio,
    srseed := r.launch.seed, sgidx := if r.group.isSome then BitVec.ofNat 32 cohortIndex else 0xFFFFFFFF, rxs := 0, rxr := 0,
    region := none, status := .running, needTable := true, cancelled := false, copyFaults := [], qCount := 0, qEnded := false,
    qOut := false, qLog := [], turn := 0, yielded := none, replay := none, nextSeg := 1 }

/-- The gangs of a crew start, each in the lowest free slot of the core. -/
def startGangs (r : Range) (rid cid wid core cohortIndex : Nat) : List Nat → State → List Nat × State
  | [], s => ([], s)
  | i :: is, s =>
    let (gid, s1) := freshId s
    let s2 := setGang s1 gid (freshGang r rid cid wid i core (freeSlot s1 core) cohortIndex s.ctl.clock)
    let (rest, s3) := startGangs r rid cid wid core cohortIndex is s2
    (gid :: rest, s3)

/-- A crew starts: its pool share is zeroed, its barriers stand as at launch (R159, R259). -/
def startCrew (r : Range) (rid cid index core cohortIndex : Nat) (s : State) : Nat × State :=
  let (wid, s1) := freshId s
  let (gids, s2) := startGangs r rid cid wid core cohortIndex (List.range r.launch.gangs) s1
  let w : Crew :=
    { part := r.part, range := rid, cohort := cid, index := index, core := core, gangs := gids, scratch := [], olds := [], acc := [],
      bars := freshBarriers 16 r.launch.gangs, rdy := 0, tags := [], tagAt := [], ended := false, share := true }
  (wid, { s2 with crews := tset s2.crews wid w })

/-- The crews of a cohort start, crew `i` on core `i`. -/
def startCrews (r : Range) (rid cid cl cohortIndex : Nat) : List Nat → State → List Nat × State
  | [], s => ([], s)
  | i :: is, s =>
    let (wid, s1) := startCrew r rid cid i (cl * 4 + i) cohortIndex s
    let (rest, s2) := startCrews r rid cid cl cohortIndex is s1
    (wid :: rest, s2)

/-- A cluster that holds no crew runs the ratio of a launch before its crews start (R4, R319). -/
def takeRatio (s : State) (cl : Nat) (l : Launch) : State :=
  if clusterEmpty s cl then modCluster s cl fun c => readyFor c l else s

/-- The cohort of a range with this index starts on a cluster; the partition is running from its first crew on (R206, R243, R319,
R343). -/
def startCohort (s : State) (rid : Nat) (r : Range) (index cl : Nat) : State :=
  let (cid, s1) := freshId (takeRatio s cl r.launch)
  let c0 : Cohort :=
    { part := r.part, range := rid, index := index, cluster := cl, crews := [], bars := freshBarriers 8 (r.launch.gangs * r.launch.crews),
      attic := false, seq := cid, preempt := false, saved := false, savedAttic := [], answers := [], ended := false,
      group := r.group, ratio := (getCluster s1 cl).ratio, outAt := 0 }
  let s2 := { s1 with cohorts := tset s1.cohorts cid c0 }
  let (wids, s3) := startCrews r rid cid cl index (List.range r.launch.crews) s2
  let s4 := modPart (modCohort s3 cid fun c => { c with crews := wids }) r.part fun p =>
    { p with state := if p.state = .ready then .running else p.state }
  let s5 := modRange s4 rid fun x =>
    let y : Range := { x with returned := x.returned.filter (· != index), cursor := if x.returned.contains index then x.cursor else index + 1 }
    { y with queued := !(unplaced y).isEmpty }
  match r.group with
  | some gid => siblingStarts s5 gid index
  | none => s5

/-! ### Queues and heads (R242, R245, R246) -/

/-- A member of a range's sample group is out, or has been asked to leave, so that its pending siblings are not placed (R297). -/
def groupOut (s : State) (r : Range) : Bool :=
  r.group.isSome && s.cohorts.any fun c => c.2.group == r.group && (c.2.saved || c.2.preempt) && !c.2.ended

/-- A range's cohort, or a saved one, has been placed on a cluster: a reservation held there for it ends, and the holds it asked for (R246,
R304). -/
def endReservation (s : State) (rid cl : Nat) : State :=
  if (getCluster s cl).reserved = some rid then
    { (modCluster s cl fun c => { c with reserved := none }) with
      ranges := s.ranges.map fun e => (e.1, { e.2 with holds := e.2.holds.filter (· != rid) }) }
  else s

/-- The next cohort of a range is placed on a cluster. -/
def placeNext (s : State) (rid : Nat) (r : Range) (cl : Nat) : State :=
  match unplaced r with
  | [] => s
  | i :: _ => cleanReservations (endReservation (startCohort s rid r i cl) rid cl)

/-- A clock-gated cluster becomes active. -/
def activate (s : State) (cl : Nat) : State :=
  modCluster s cl fun c => if c.power = .clockGated then { c with power := .active, since := s.ctl.clock } else c

/-- A range record may be placed by the free-running scheduler. -/
def placeable (s : State) (r : Range) : Bool := !r.launch.det && !(unplaced r).isEmpty && !groupOut s r

/-- The launch and the range of a cohort. -/
def cohortRange (s : State) (c : Cohort) : Option Range := tget s.ranges c.range

/-- The cluster for a saved cohort: of its own die, or of any die once it has waited 20 µs with none there (R245); its Attic must be free if
it held one (R301). -/
def pickRestore (s : State) (cid : Nat) (c : Cohort) (r : Range) : Option Nat :=
  let atticOk (cl : Nat) : Bool := !c.attic || (getCluster s cl).atticHolder.isNone
  match pickAmong s (dieClusters r.die) c.range cid r.launch atticOk with
  | some cl => some cl
  | none =>
    if !r.pinned && decide (microCycles 20 ≤ s.ctl.clock - c.outAt) then
      pickAmong s (((tget s.parts c.part).map partClusters).getD []) c.range cid r.launch atticOk
    else none

/-- Saved cohorts of a die's queue that can be placed again, with their levels: each at its record's own level, which does not rise while
it waits (R242, R246; log entry 25). -/
def restorable (s : State) (part die : Nat) : List (Nat × Nat) :=
  s.cohorts.filterMap fun e =>
    if e.2.saved && !e.2.ended && e.2.part == part then
      match cohortRange s e.2 with
      | some r => if r.die == die && (pickRestore s e.1 e.2 r).isSome then some (e.1, r.level) else none
      | none => none
    else none

/-- No saved cohort that can be placed again stands before this one: each returns to the head of its level, so that the last to come
back is the first there (R246). -/
def firstRestorable (s : State) (cid : Nat) : Bool :=
  match (tget s.cohorts cid).bind fun c => (cohortRange s c).map fun r => (c, r) with
  | none => false
  | some (c, r) => (restorable s c.part r.die).all fun x =>
      x.1 == cid || decide (x.2 < r.level) || (x.2 == r.level && decide (((tget s.cohorts x.1).map (·.seq)).getD 0 < c.seq))

/-- The cohort that a free Attic goes to: the first that waits for it, unless a saved cohort which claims one comes to this cluster
(R268, R301). -/
def atticNext (s : State) (cl : Nat) : Option Nat :=
  let claimed := s.cohorts.any fun e => e.2.saved && !e.2.ended && e.2.attic && firstRestorable s e.1 &&
    (cohortRange s e.2).any fun r => pickRestore s e.1 e.2 r == some cl
  if (getCluster s cl).atticHolder.isSome || claimed then none
  else ((getCluster s cl).atticWait.head?.map (·.1)).filter fun cid => !cohortDet s cid

/-- A free Attic goes to the first cohort that waits for it (R268). -/
def passAttic (s : State) (cl : Nat) : State :=
  match atticNext s cl with
  | some cid => giveAttic s cl cid
  | none => s

/-! ### Deterministic placement (R242, R247) -/

/-- The first cluster in partition cluster order that can hold a range's next cohort, where no other head has reserved it. -/
def detFirst (s : State) (rid : Nat) (r : Range) : Option Nat :=
  match (((tget s.parts r.part).map partClusters).getD []).find? fun cl => clusterHolds s cl rid r.launch with
  | some cl => if reservedByOther s cl rid then none else some cl
  | none => none

/-- A range has a cohort whose crews have not all ended. -/
def rangeLive (s : State) (rid : Nat) : Bool := s.cohorts.any fun e => e.2.range == rid && !e.2.ended

/-- A deterministic range has a cluster for its next cohort, and no reservation holds it back (R247, R304). -/
def detPlaces (s : State) (rid : Nat) (r : Range) : Bool := r.holds.isEmpty && !(unplaced r).isEmpty && (detFirst s rid r).isSome

/-- A range could be served now: a deterministic one between its quanta, with its next quantum end (R245, R360). -/
def couldPlace (s : State) (rid : Nat) (r : Range) : Bool :=
  if r.launch.det then !rangeLive s rid && detPlaces s rid r else placeable s r && (pickCluster s rid r).isSome

/-- A record of the same queue is served before a deterministic range: a higher level, or an earlier entry in it, or a saved cohort, which
stands at the head of its level, and a cluster for it (R242, R246).  The range's quantum end, where it would place, follows it. -/
def detBefore (s : State) (rid : Nat) (r : Range) : Bool :=
  (queued s r.part r.die).any (fun e => e.1 != rid && servedBefore e.2 r && couldPlace s e.1 e.2)
  || (restorable s r.part r.die).any fun x => decide (effLevel r ≤ x.2)

/-- A deterministic launch has unplaced cohorts, no resident gang, and a cluster for its next cohort, with nothing to hold it: its next
quantum end falls now (R360). -/
def idleEndDue (s : State) (rid : Nat) (r : Range) : Bool :=
  r.launch.det && r.queued && partRuns s r.part && couldPlace s rid r && !detBefore s rid r

/-- The first range of a die's queue, in serving order, that a cluster can hold; a deterministic one whose quantum end falls now goes
before those behind it (R242, R245, R246, R360). -/
def nextPlacement (s : State) (part die : Nat) : Option (Nat × Range × Nat) :=
  ((queueOrder s part die).takeWhile fun e => !idleEndDue s e.1 e.2).findSome? fun e =>
    if placeable s e.2 then (pickCluster s e.1 e.2).map fun cl => (e.1, e.2, cl) else none

/-- SCHEDULER_PLACEMENT (R245): the first record that can be placed, unless a saved cohort at the head of its level comes before
it (R246). -/
def execSchedulerPlacement (part die : Nat) (s : State) : Outcome :=
  match nextPlacement s part die with
  | none => .next s
  | some (rid, r, cl) =>
    if !partRuns s part || (restorable s part die).any (fun x => decide (effLevel r ≤ x.2)) || !clusterAwake s cl then .next s
    else .next (bumpFree (activate (placeNext s rid r cl) cl))

/-- The levels that a free-running record has risen by: one for each full millisecond it has waited, up to 16 (R242). -/
def agedNow (s : State) (r : Range) : Nat :=
  if r.queued && !r.launch.det then max r.aged (min 16 (waited s r / microCycles 1000)) else r.aged

/-- Every record has risen as far as it has waited (R242); reservations follow the heads (R246). -/
def ageRecords (s : State) : State :=
  cleanReservations { s with ranges := s.ranges.map fun e => (e.1, { e.2 with aged := agedNow s e.2 }) }

/-- RECORD_AGING (R242). -/
def execRecordAging (range : Nat) (s : State) : Outcome :=
  match tget s.ranges range with
  | none => .next s
  | some r =>
    if r.queued && !r.launch.det && r.aged < 16 && decide (microCycles (1000 * (r.aged + 1)) ≤ waited s r) then
      .next (bumpFree (cleanReservations (modRange s range fun x => { x with aged := x.aged + 1 })))
    else .next s

/-- HEAD_RECORD_SPILL (R245): a record that has waited 20 µs with no cluster of its die able to hold it. -/
def execHeadRecordSpill (range : Nat) (s : State) : Outcome :=
  match tget s.ranges range with
  | none => .next s
  | some r =>
    if r.queued && placeable s r && !r.pinned && !r.spill && decide (microCycles 20 ≤ waited s r) && (pickCluster s range r).isNone then
      .next (bumpFree (modRange s range fun x => { x with spill := true }))
    else .next s

/-- A head record can be placed as things stand: on a cluster of R245, or, where it is deterministic, on that of R247. -/
def headFits (s : State) (rid : Nat) (r : Range) : Bool :=
  if r.launch.det then (detFirst s rid r).isSome else (pickCluster s rid r).isSome

/-- What the scheduler knows of a record of a queue, a range or a saved cohort: its place, its level, how long it has waited, and whether
it can be placed as things stand (R242, R246). -/
structure Waiter where
  part : Nat
  die : Nat
  level : Nat
  pinned : Bool
  waited : Nat
  fits : Bool
  deriving DecidableEq, Repr

/-- The record with this name. -/
def waiterOf (s : State) (id : Nat) : Option Waiter :=
  match tget s.ranges id, tget s.cohorts id with
  | some r, _ =>
    some { part := r.part, die := r.die, level := r.level, pinned := r.pinned, waited := waited s r, fits := headFits s id r }
  | none, some c =>
    (cohortRange s c).map fun r =>
      { part := c.part, die := r.die, level := r.level, pinned := r.pinned, waited := s.ctl.clock - c.outAt,
        fits := (pickRestore s id c r).isSome }
  | none, none => none

/-- CLUSTER_RESERVATION (R246): the first cluster that no other head has reserved; every record that is accepted fits empty
cores (R239, R240). -/
def execClusterReservation (range : Nat) (s : State) : Outcome :=
  match waiterOf s range with
  | none => .next s
  | some w =>
    let holding := s.clusters.any fun e => e.2.reserved == some range
    if headId s w.part w.die == some range && !holding && decide (microCycles 20 ≤ w.waited) && !w.fits then
      let cls := if w.pinned then dieClusters w.die else ((tget s.parts w.part).map partClusters).getD []
      match cls.find? fun cl => (getCluster s cl).reserved.isNone with
      | some cl => .next (bumpFree (modCluster s cl fun c => { c with reserved := some range }))
      | none => .next s
    else .next s

/-! ### Pre-emption (R246, R297 to R300, R304) -/

/-- The prio of a cohort: the highest among its gangs that have not ended (R106). -/
def cohortPrio (s : State) (cid : Nat) : Nat :=
  ((s.gangs.filter fun e => e.2.cohort == cid && e.2.status != .ended).map fun e => e.2.prio).foldl max 0

/-- The bytes a saved cohort takes of the save area (R299): pool shares, contexts, and the Attic if it holds one. -/
def saveBytes (s : State) (cid : Nat) (c : Cohort) : Nat :=
  (c.crews.map fun w => ((tget s.crews w).map (crewNeed s)).getD 0).foldl (· + ·) 0 + (Config.contextBytes cid).toNat
    + if c.attic then 8 * 2 ^ 20 else 0

/-- The cohorts that are saved together: the cohort, with the resident cohorts of its sample group (R246, R297). -/
def saveSet (s : State) (cid : Nat) (c : Cohort) : List Nat :=
  if c.group.isSome then (s.cohorts.filter fun e => e.2.group == c.group && !e.2.saved && !e.2.ended).map (·.1) else [cid]

/-- The bytes of the save area that some cohorts take. -/
def saveSum (s : State) (cs : Tab Cohort) : Nat := (cs.map fun e => saveBytes s e.1 e.2).foldl (· + ·) 0

/-- The save area can take a cohort with what is saved together with it (R299). -/
def saveRoom (s : State) (cid : Nat) (c : Cohort) : Bool :=
  match tget s.parts c.part with
  | none => false
  | some p =>
    let mine := saveSet s cid c
    let taken := s.cohorts.filter fun e => (e.2.part == c.part && (e.2.saved || e.2.preempt) && !e.2.ended) || mine.contains e.1
    decide (saveSum s taken ≤ p.saveGiB * 2 ^ 30)

/-- A cohort comes before another as a victim: lower prio, then more recently placed (R246). -/
def victimBefore (s : State) (x y : Nat × Cohort) : Bool :=
  decide (cohortPrio s x.1 < cohortPrio s y.1) || (cohortPrio s x.1 == cohortPrio s y.1 && decide (y.2.seq < x.2.seq))

/-- The first victim among cohorts. -/
def firstVictim (s : State) (cs : List (Nat × Cohort)) : Option (Nat × Cohort) :=
  cs.foldl (fun (best : Option (Nat × Cohort)) e =>
    match best with
    | none => some e
    | some b => if victimBefore s e b then some e else best) none

/-- A range is asked to place no more crews while the reservation of another stands (R304). -/
def holdRange (rid : Nat) (s : State) (e : Nat × Cohort) : State :=
  modRange s e.2.range fun x => if x.holds.contains rid then x else { x with holds := x.holds ++ [rid] }

/-- A cohort and what is saved with it are asked to leave (R246, R297). -/
def askLeave (s : State) (cid : Nat) (c : Cohort) : State :=
  (saveSet s cid c).foldl (fun s x => modCohort s x fun y => { y with preempt := true }) s

/-- Resident cohorts of a cluster whose prio is below a level (R246). -/
def lowerCohorts (s : State) (cl level : Nat) : Tab Cohort :=
  s.cohorts.filter fun e => e.2.cluster == cl && !e.2.saved && !e.2.ended && !e.2.preempt && decide (cohortPrio s e.1 < level)

/-- A launch has been held for a reservation. -/
def heldFor (s : State) (rid : Nat) (c : Cohort) : Bool := ((tget s.ranges c.range).map fun r => r.holds.contains rid).getD false

/-- A cohort of a cluster has been asked to leave and still stands there. -/
def leaving (s : State) (cl : Nat) : Bool := s.cohorts.any fun e => e.2.cluster == cl && e.2.preempt && !e.2.saved && !e.2.ended

/-- RESERVATION_PREEMPT (R246, R304): a head that has waited 50 µs asks for the next cohort of its cluster, lowest prio first, once the one
asked before is out.  Deterministic launches that come before it place no more; with no free-running cohort left the next one is asked. -/
def execReservationPreempt (range : Nat) (s : State) : Outcome :=
  match waiterOf s range, (s.clusters.find? fun e => e.2.reserved == some range).map (·.1) with
  | some w, some cl =>
    if decide (microCycles 50 ≤ w.waited) && !w.fits && !leaving s cl then
      let low := lowerCohorts s cl w.level
      let det := low.filter fun e => cohortDet s e.1 && !heldFor s range e.2
      match firstVictim s (low.filter fun e => !cohortDet s e.1) with
      | some (cid, c) =>
        let s1 := (det.filter fun e => victimBefore s e (cid, c)).foldl (holdRange range) s
        if saveRoom s cid c then .next (bumpFree (askLeave s1 cid c)) else .next (if s1 = s then s else bumpFree s1)
      | none =>
        match firstVictim s det with
        | some e => .next (bumpFree (holdRange range s e))
        | none => .next s
    else .next s
  | _, _ => .next s

/-- A gang in region state 2 stands at the start of a pass, or of a fallback step: nothing of it has retired (R203, R289). -/
def atPassEnd (g : Gang) : Bool :=
  match g.region, g.splits with
  | some r, [(_, sp)] => regionState g == 2 && g.rtc == r.passRtc && sp.pc == r.start
  | _, _ => false

/-- A gang can be stopped for a save: at an instruction boundary, and in a region at a pass end unless it is parked (R298). -/
def gangStops (g : Gang) : Bool := g.status == .parked || g.status == .ended || regionState g != 2 || atPassEnd g

/-- Nothing of a gang is under way: its results have landed and its publications and requests are done; what waits in a Pantry's
tables stays there (R298, R302). -/
def gangQuiet (s : State) (gid : Nat) (g : Gang) : Bool :=
  !gangOpen g && (pubsOfGang s gid).isEmpty && s.requests.all fun r => r.2.gang != gid || r.2.table || requestBlocked s r.2

/-- The gangs of a cohort that have not ended. -/
def cohortLive (s : State) (cid : Nat) : Tab Gang := s.gangs.filter fun e => e.2.cohort == cid && e.2.status != .ended

/-- An agent leaves the fault buffer of a cluster and its list of held agents. -/
def leaveFaults (s : State) (cl : Nat) (a : Agent) : State :=
  leaveHeld (leaveBuffer s cl a) cl a

/-- A gang is saved: its writes land, and a gang held at a full fault buffer will issue again (R31, R274, R298). -/
def saveGang (s : State) (cl gid : Nat) (g : Gang) : State :=
  let s1 := releaseStair (leaveFaults s cl (.gang gid)) g.core gid
  discardPass (modGang s1 gid fun x => { landGang x with status := if x.status = .held then .running else x.status }) gid

/-- The copies of a cohort are recorded with their progress, and leave the fault buffer (R298). -/
def saveCopies (s : State) (cl cid : Nat) : State :=
  s.copies.foldl (fun s e =>
    if e.2.cohort = cid then modCopy (leaveFaults s cl (.copy e.1)) e.1 fun c => { c with held := false, stuck := false } else s) s

/-- The Attic of a saved cohort: its bytes are saved, its claim is kept, and the Attic is free for others (R268, R299). -/
def saveAttic (s : State) (cid : Nat) (c : Cohort) : State :=
  if c.attic then
    let bytes := (getCluster s c.cluster).attic
    modCohort (releaseAttic s c.cluster cid) cid fun x => { x with savedAttic := bytes }
  else releaseAttic s c.cluster cid

/-- The cohort's share of the image in the save area (R298 step 10, R299): where it lies there, and its bytes, are open (log entry 52). -/
def writeSaveArea (s : State) (cid : Nat) (c : Cohort) : State :=
  match tget s.parts c.part with
  | none => s
  | some p =>
    let n := saveBytes s cid c
    let at' := p.saveBase + Config.freeNat 18 s.ctl.free % (p.saveGiB * 2 ^ 30 - n + 1)
    writeMem s .pantry false ((List.range n).map fun i => (physKey c.part (at' + i), Config.freeByte 18 (s.ctl.free + i)))

/-- A cohort has stopped (R298 steps 1 to 8): its writes land, its copies are recorded, its Porch entries are published. -/
def stopCohort (s : State) (cid : Nat) (c : Cohort) : State :=
  let s1 := (cohortLive s cid).foldl (fun s e => saveGang s c.cluster e.1 e.2) s
  let s2 := modMcc (leaveFaults s1 c.cluster (.mcc cid)) cid fun m => { m with status := if m.status = .held then .running else m.status }
  c.crews.foldl (fun s w => match tget s.crews w with | some x => publishCrew s x | none => s) (saveCopies s2 c.cluster cid)

/-- A cohort is saved (R298): its cluster seals while it still stands there, its image goes to the save area, and it is out; it waits in
its queue from then on (R246). -/
def saveCohort (s : State) (cid : Nat) (c : Cohort) : State :=
  let s1 := sealCluster (stopCohort s cid c) c.cluster 4
  let (q, s2) := freshId (saveAttic (writeSaveArea s1 cid c) cid c)
  noteEmpty (modCohort s2 cid fun x => { x with saved := true, preempt := false, seq := q, outAt := s.ctl.clock }) c.cluster

/-- The host asks a free-running cohort to leave, where the save area takes it (R297, R299). -/
def hostPreempt (s : State) (cid : Nat) (c : Cohort) : Outcome :=
  if !c.saved && !c.ended && !c.preempt && !cohortDet s cid && saveRoom s cid c then .next (bumpFree (askLeave s cid c)) else .next s

/-- PREEMPT_SAVE (R298): on a cluster that is awake, once every gang of the cohort has stopped and drained, and its array queue is empty.  A cohort that nobody has
asked to leave is asked by the host (R297). -/
def execPreemptSave (cohort : Nat) (s : State) : Outcome :=
  match tget s.cohorts cohort with
  | none => .next s
  | some c =>
    let live := cohortLive s cohort
    let queueEmpty := ((tget s.mccs cohort).map (·.queue.isEmpty)).getD true
    if !c.preempt then hostPreempt s cohort c
    else if !c.saved && !c.ended && queueEmpty && clusterAwake s c.cluster && sealReady s c.cluster
        && live.all (fun e => gangStops e.2 && gangQuiet s e.1 e.2) then
      .next (bumpFree (saveCohort s cohort c))
    else .next s

/-! ### Restore (R301 to R303) -/

/-- A gang of a restored crew gets a slot on its new core, has what it had published and read behind it there, and claims or waits for
the stair unit (R238, R289, R301). -/
def restoreGang (s : State) (core gid : Nat) : State :=
  let slot := freeSlot s core
  let s1 := modGang s gid fun g =>
    { g with core := core, slot := slot,
             splits := g.splits.map fun p => (p.1, { refreshed s.mem.seq .pk p.2 with line := none, last := s.ctl.clock }) }
  match tget s1.gangs gid with
  | some g =>
    if regionState g == 2 && g.status != .ended then
      match claimStair s1 core gid with
      | some s2 => s2
      | none => waitStair s1 core gid
    else s1
  | none => s1

/-- A crew of a restored cohort comes to its new core, which refreshes at every scope (R238, R301; log entry 48). -/
def restoreCrew (s : State) (cl wid : Nat) : State :=
  match tget s.crews wid with
  | none => s
  | some w =>
    let core := cl * 4 + w.index
    let s1 := modCrew s wid fun x => { x with core := core }
    if w.ended then s1 else refreshCore (w.gangs.foldl (fun s g => restoreGang s core g) s1) core .sy

/-- A saved cohort stands on a cluster again with its image (R301); its gangs have no place there until each has been given a slot. -/
def replaceCohort (s : State) (cid : Nat) (c : Cohort) (cl : Nat) : State :=
  let s0 := match launchOf s c.range with
    | some l => takeRatio s cl l
    | none => s
  let s1 := { s0 with gangs := s0.gangs.map fun e => if e.2.cohort == cid then (e.1, { e.2 with core := noCore }) else e }
  let (q, s2) := freshId s1
  let s3 := modCohort s2 cid fun x =>
    { x with cluster := cl, saved := false, savedAttic := [], answers := [], seq := q, ratio := (getCluster s2 cl).ratio }
  let s4 := if c.attic then modCluster s3 cl fun x => { x with attic := c.savedAttic, atticOlds := [], atticHolder := some cid } else s3
  c.crews.foldl (fun s w => restoreCrew s cl w) s4

/-- A saved cohort is placed again: what fell due while it was out is delivered, and answers to its records take effect (R301, R302). -/
def restoreCohort (s : State) (cid : Nat) (c : Cohort) (cl : Nat) : State :=
  let s1 := c.answers.foldl takeAnswer (replaceCohort s cid c cl)
  cleanReservations (endReservation (rdvTest (deliverWakes s1) cid) cid cl)

/-- COHORT_RESTORE (R301): unless a record of a higher effective level, or another saved cohort before this one, can be placed (R242, R246). -/
def execCohortRestore (cohort : Nat) (s : State) : Outcome :=
  match tget s.cohorts cohort with
  | none => .next s
  | some c =>
    match cohortRange s c with
    | none => .next s
    | some r =>
      let first := (queued s c.part r.die).any (fun e => decide (r.level < effLevel e.2) && couldPlace s e.1 e.2) || !firstRestorable s cohort
      match pickRestore s cohort c r with
      | none => .next s
      | some cl =>
        if c.saved && !c.ended && partRuns s c.part && !first && clusterAwake s cl then
          .next (bumpFree (activate (restoreCohort s cohort c cl) cl))
        else .next s

/-! ### Records held for a full queue area, and messages (R192, R241, R258) -/

/-- A held record is not one that waits for the quantum end of a launch (R241). -/
def entersFree (s : State) (rid : Option Nat) : Bool :=
  match rid with
  | none => true
  | some r => (tget s.ranges r).all (·.done)

/-- HELD_RECORD_ENTRY (R241): the first record that a die's queue has room for, in serving order; those of a deterministic launch
enter at its quantum end. -/
def execHeldRecordEntry (part die : Nat) (s : State) : Outcome :=
  match (tget s.parts part).bind fun p => p.heldPlacements.find? fun h => h.1 == die with
  | none => .next s
  | some h =>
    if entersFree s h.2.2 && queueTakes s part die 1 then
      let s1 := (placeRange s part die h.2.1 none false).2
      .next (bumpFree (modPart s1 part fun q => { q with heldPlacements := q.heldPlacements.erase h }))
    else .next s

/-- A message at its destination waits in the port buffer while the queue area of its die is full, or its Pantry's queue (R241, R256). -/
def arriveMessage (s : State) (m : Message) : State :=
  match tget s.parts m.part with
  | none => s
  | some p =>
    if (p.portMessages.any fun x => x.die == m.die) || !queueTakes s m.part m.die 1 || queueFull s (messageHome m) then
      modPart s m.part fun q => { q with portMessages := q.portMessages ++ [m] }
    else sendDelivery s m

/-- A message of a deterministic launch is delivered at the commit (R192, R258). -/
def deliverNow (s : State) (m : Message) : State :=
  match tget s.parts m.part with
  | none => s
  | some p =>
    if (p.portMessages.any fun x => x.die == m.die) || !queueTakes s m.part m.die 1 then
      modPart s m.part fun q => { q with portMessages := q.portMessages ++ [m] }
    else deliverMessage s m

/-- PORT_BUFFER_MESSAGE_ENTRY (R241). -/
def execPortBufferMessageEntry (part die : Nat) (s : State) : Outcome :=
  match (tget s.parts part).bind fun p => p.portMessages.find? fun m => m.die == die with
  | none => .next s
  | some m =>
    if queueTakes s part die 1 then
      .next (bumpFree (sendDelivery (modPart s part fun q => { q with portMessages := q.portMessages.erase m }) m))
    else .next s

/-- Event 7: a fabric message is dropped (R339, R353). -/
def messageDropped (s : State) (part entry : Nat) (frame : DWord) : State := postEvent s 7 part (bytesLE 8 entry ++ bytesLE 8 frame.toNat)

/-- The bytes of a message: its record and its payload (R192). -/
def messageBytes : Nat := 96

/-- An earlier message of the same gang to the same die is still on its way (R192). -/
def behindEarlier (s : State) (m : Message) : Bool :=
  s.messages.any fun x => x.2.gang == m.gang && x.2.die == m.die && x.2.peer == m.peer && decide (x.2.seq < m.seq)

/-- A message of this device goes on: to a die of its partition, or over a live port of its route entry (R192, R339). -/
def forwardMessage (s : State) (id : Nat) (m : Message) : State :=
  let s1 := { s with messages := tdrop s.messages id }
  if m.peer = 0 then arriveMessage s1 m
  else
    match (tget s.parts m.part).bind fun p => tget p.routes m.peer with
    | some e => if reachable s e then countLink s1 m.part messageBytes else messageDropped s1 m.part m.peer m.cont.frame
    | none => messageDropped s1 m.part m.peer m.cont.frame

/-- The route entries of a partition that a fabric sender matches, with the flag asked for (R338, R339). -/
def senderEntries (s : State) (part port senderPart flag : Nat) : Tab Route :=
  match tget s.parts part, tget s.dev.links (8 + port) with
  | some p, some l =>
    if l.up then p.routes.filter fun e => e.2.flags.testBit 0 && e.2.flags.testBit flag && e.2.peer == l.peer && e.2.remotePart == senderPart
    else []
  | _, _ => []

/-- The first of them. -/
def senderEntry (s : State) (part port senderPart flag : Nat) : Option (Nat × Route) := (senderEntries s part port senderPart flag).head?

/-- MESSAGE_ARRIVAL (R192, R339). -/
def execMessageArrival (a : Arrival) (s : State) : Outcome :=
  match a with
  | .inFlight id =>
    match tget s.messages id with
    | none => .next s
    | some m => if behindEarlier s m then .next s else .next (bumpFree (forwardMessage s id m))
  | .fabric port senderPart part die record payload =>
    let c := parseCont record
    match senderEntry s part port senderPart 1, tget s.parts part with
    | some (n, _), some p =>
      match p.dies[die]? with
      | some d =>
        let m : Message := { part := part, gang := 0, die := d, peer := n, cont := c, payload := padTo 64 payload, super := false, seq := 0 }
        .next (bumpFree (arriveMessage (countLink s part messageBytes) m))
      | none => .next (bumpFree (postToPart s part (noticeRecord .invalidParam 8 0 .none c.frame 0 0 0 0)))
    | _, _ => .next (bumpFree (messageDropped s part 0 c.frame))

end Sys2Proof.Machine
end

