-- ==== Sys2Proof/Machine/FaultEvents.lean ====
section
/-! DEFINITION. Fault records held for a full queue, agents held at a full fault buffer, traps at fetch and at the crew limit,
uncorrectable errors, and the Cellar's own events (R36, R74, R249, R269, R274, R296, R306, R310, R311). -/

namespace Sys2Proof.Machine

/-- HELD_FAULT_RECORD_POST (R36): the record that has waited longest is posted once a slot is free and the cycle of its trap is over. -/
def execHeldFaultRecordPost (q : QueueRef) (s : State) : Outcome :=
  match q with
  | .firmware =>
    match firstHeld s s.dev.firmwareHeld with
    | none => .next s
    | some (r, rest) =>
      if firmwareHasRoom s then
        .next (bumpFree (firmwarePost { s with dev := { s.dev with firmwareHeld := rest } } r))
      else .next s
  | .partition part =>
    match tget s.parts part with
    | none => .next s
    | some p =>
      match firstHeld s p.heldRecords with
      | none => .next s
      | some (r, rest) =>
        if queueHasRoom s part p then
          .next (bumpFree (postNow (modPart s part fun x => { x with heldRecords := rest }) part p r))
        else .next s

/-- CREW_LIMIT (R249): whoever issues has reached the limit of its launch. -/
def execCrewLimit (s : State) : Outcome :=
  match issuer s with
  | none => .fault .noIssuer
  | some (.gang gid g si _) =>
    .next (if limitReached s g.range g.rtc then takeTrap s gid g si (plainTrap .crewLimit) 0 else s)
  | some (.mcc cid c m) => .next (if limitReached s c.range m.rtc then takeTrapMcc s cid c m (plainTrap .crewLimit) else s)

/-- NON_INSTRUCTION_WORD (R74): a fetched word that is no instruction traps ILLEGAL. -/
def execNonInstructionWord (w : Nat) (s : State) : Outcome := if (decodeWord w).isSome then .next s else illegalWord s

/-- INSTRUCTION_FETCH_FAULT (R74, R269): the fetch at the issuer's pc faults at the target address. -/
def execInstructionFetchFault (s : State) : Outcome :=
  match issuer s with
  | none => .fault .noIssuer
  | some (.gang gid g si sp) =>
    match fetchAt s (gangView g) .fetch (splitBound s g sp) sp.pc with
    | .error e => .next (takeTrap s gid g si (accessTrap .fetch e) 0)
    | .ok _ => .next s
  | some (.mcc cid c m) =>
    match fetchAt s (mccView s c) .fetch (cohortBound s c) m.pc with
    | .error e => .next (takeTrapMcc s cid c m (accessTrap .fetch e))
    | .ok _ => .next s

/-- The agent of a held fault. -/
def heldAgent : HeldAgent → Agent
  | .gang id => .gang id
  | .mcc c => .mcc c
  | .copy id => .copy id

/-- The cluster whose fault buffer an agent waits at. -/
def agentCluster (s : State) : HeldAgent → Nat
  | .gang id => ((tget s.gangs id).map gangCluster).getD 0
  | .mcc c => ((tget s.cohorts c).map (·.cluster)).getD 0
  | .copy id => ((tget s.copies id).map (copyCluster s)).getD 0

/-- A held agent would find a free entry, or a free place in the entry of its own key (R274). -/
def bufferHasRoom (c : ClusterSt) (a : Agent) : Bool :=
  match c.heldAt.find? fun h => h.1 == a with
  | some (_, part, key) => (faultJoin c.faults part key a).isSome
  | none => true

/-- FAULT_BUFFER_RETRY (R274): a held agent tries again; a gang or an MCC issues its instruction again. -/
def execFaultBufferRetry (agent : HeldAgent) (s : State) : Outcome :=
  let cl := agentCluster s agent
  let c := getCluster s cl
  let a := heldAgent agent
  if c.heldFaults.contains a && bufferHasRoom c a then
    let s1 := leaveHeld s cl a
    .next (bumpFree (match agent with
      | .gang id => modGang s1 id fun g => { g with status := .running }
      | .mcc id => modMcc s1 id fun m => { m with status := .running }
      | .copy id => modCopy s1 id fun x => { x with stuck := false }))
  else .next s

/-! ### Errors and the Cellar -/

/-- A halt for an error with no other copy: event 4 with the physical address, then event 1 (R115, R296). -/
def errorHalt (s : State) (part pa : Nat) : State :=
  haltAfter s 4 part 5 (bytesLE 8 pa)

/-- UNCORRECTABLE_ERROR (R296), by the row that it falls in. -/
def execUncorrectableError (p : ErrorPlace) (s : State) : Outcome :=
  match p with
  | .clean => .next (bumpFree s)
  | .observedLine core =>
    .next (bumpFree (modCore (refreshCore s core .pk) core fun c => { c with overflow := c.overflow + 1 }))
  | .context cl => .next (bumpFree (deliverWakes (resumeCluster s cl false false false false)))
  | .tables cl => .next (bumpFree (deliverWakes (resumeCluster s cl false false true false)))
  | .slotGranule cl b =>
    .next (bumpFree (modCluster s cl fun c =>
      if b then { c with slotB := { c.slotB with image := none } } else { c with slotA := { c.slotA with image := none } }))
  | .onlyCopy part pa => .next (bumpFree (errorHalt s part pa))

/-- SEAL (R306) with a cause of R307, once the results of the cluster have come; a cause is below 9, and 8 is that of a resume alone. -/
def execSeal (cluster cause : Nat) (s : State) : Outcome :=
  if cause < 8 && clusterAwake s cluster && sealReady s cluster then .next (bumpFree (sealCluster s cluster cause)) else .next s

/-- The dirty budget of the partition that a cluster belongs to (R310). -/
def budgetOf (s : State) (cl : Nat) : Nat :=
  ((s.parts.find? fun e => e.2.dies.contains (clusterDie cl)).map fun e => e.2.dirtyBudget).getD 0

/-- Dirty granules of the slot that the next seal writes, and of the active one. -/
def inactiveDirty (c : ClusterSt) : Nat := if c.activeB then c.dirtyA else c.dirtyB
def activeDirty (c : ClusterSt) : Nat := if c.activeB then c.dirtyB else c.dirtyA

/-- The granules that the next write to shadowed state sets in the active slot's bitmap and in the inactive one's: each write sets its
granules in both, and the inactive one, cleared earlier, holds the bits of the active one.  Which granules a write lies in is open (log
entry 51). -/
def dirtyNext (s : State) (cl : Nat) : Nat × Nat :=
  let c := getCluster s cl
  let n := min (Config.freeNat 16 s.ctl.free % (budgetOf s cl / 256 + 1)) (slotGranules - activeDirty c)
  (n, min (Config.freeNat 17 s.ctl.free % (n + 1)) (slotGranules - inactiveDirty c))

/-- On a cluster with a durable crew, the next write would raise the inactive slot's dirty bytes above the budget (R310). -/
def dirtyDue (s : State) (cl : Nat) : Bool :=
  durableCluster s cl && decide (budgetOf s cl < 256 * (inactiveDirty (getCluster s cl) + (dirtyNext s cl).2))

/-- A write to shadowed state sets its bits (R306). -/
def markDirty (s : State) (cl : Nat) : State :=
  let (n, m) := dirtyNext s cl
  modCluster s cl fun c => if c.activeB then { c with dirtyA := c.dirtyA + m, dirtyB := c.dirtyB + n }
    else { c with dirtyA := c.dirtyA + n, dirtyB := c.dirtyB + m }

/-- A cluster whose budget the next write would exceed can seal: its results have come (R306 step 1, R310). -/
def budgetSeals (s : State) (cl : Nat) : Bool := dirtyDue s cl && sealReady s cl

/-- DIRTY_BUDGET (R310): on a cluster with a durable crew, a write that would exceed the budget stalls, and the cluster seals with
cause 3, once its results have come (R31, R306 step 1). -/
def execDirtyBudget (cluster : Nat) (s : State) : Outcome :=
  if budgetSeals s cluster then .next (bumpFree (sealCluster s cluster 3)) else .next s

/-- Writes to the shadowed state of some clusters: they are marked and made, or, where one would exceed a budget, they stall and that
cluster seals first (R306, R310).  Until the results of that cluster have come it cannot seal: what issues there (`stalls`) waits, and what
brings the results goes on (log entry 31). -/
def writeShadowed (s : State) (cls : List Nat) (stalls : Bool) (f : State → State) : State :=
  match cls.find? (budgetSeals s) with
  | some cl => sealCluster s cl 3
  | none => if stalls && cls.any (dirtyDue s) then s else f (cls.foldl markDirty s)

/-- The clusters whose images may hold anything: of the cohorts, the cores, the n barriers, the requests and the publications (R305). -/
def imageClusters (s : State) : List Nat :=
  s.cohorts.map (fun e => e.2.cluster) ++ s.cores.map (fun e => coreCluster e.1) ++ s.ranges.map (fun e => e.2.barHome)
    ++ s.requests.flatMap (fun e => [e.2.home, coreCluster e.2.core]) ++ s.pubs.map fun e => coreCluster e.2.core

/-- The clusters whose shadowed state differs between two states: what leads from the one to the other writes it (R305, R306). -/
def touched (s t : State) : List Nat :=
  ((imageClusters s ++ imageClusters t).eraseDups).filter fun cl => decide (captureImage s cl ≠ captureImage t cl)

/-- A cluster is without supply. -/
def loseSupply (s : State) (cl : Nat) : State :=
  modCluster s cl fun c => { c with power := .gated, since := s.ctl.clock, failed := true, holdUp := false }

/-- A cluster in hold-up seals with cause 7 once its results have come, and is then without supply (R31, R306 step 1, R310). -/
def finishHoldUp (s : State) (cl : Nat) : State :=
  if (getCluster s cl).holdUp && sealReady s cl then loseSupply (sealCluster s cl 7) cl else s

/-- A cluster lives on hold-up energy: it issues no more (R310). -/
def enterHoldUp (s : State) (cl : Nat) : State :=
  modCluster s cl fun c => { c with holdUp := true, power := .active }

/-- SUPPLY_FAILURE (R310): the cluster seals from hold-up energy, once its results have come (log entry 31), or the seal is torn; it is then
without supply.  A gated cluster has sealed at its entry and holds nothing more (R314). -/
def execSupplyFailure (cluster : Nat) (torn : Bool) (s : State) : Outcome :=
  .next (bumpFree (if (getCluster s cluster).power = .gated then loseSupply s cluster
    else if torn then loseSupply (tornSeal s cluster) cluster
    else finishHoldUp (enterHoldUp s cluster) cluster))

end Sys2Proof.Machine
end

