-- ==== Sys2Proof/Machine/Quantum.lean ====
section
/-! DEFINITION. Deterministic mode: the end of a quantum and its commit (R157, R231, R236, R247, R252 to R255, R304, R360). -/

namespace Sys2Proof.Machine

/-! ### The gangs of a launch -/

/-- An entry put at its place by a key. -/
def rankInsert {α : Type} (key : α → Nat) (e : α) : List α → List α
  | [] => [e]
  | x :: xs => if key x ≤ key e then x :: rankInsert key e xs else e :: x :: xs

/-- A list in ascending order of a key. -/
def rankSort {α : Type} (key : α → Nat) (xs : List α) : List α := xs.foldl (fun acc e => rankInsert key e acc) []

/-- The gangs of a range that have been placed, in gang order (R231). -/
def rangeGangs (s : State) (rid : Nat) : List Nat :=
  rankSort (rankOf s) ((s.gangs.filter fun e => e.2.range == rid).map (·.1))

/-- The cohorts of a range that have not ended, or whose MCC program still runs. -/
def rangeCohorts (s : State) (rid : Nat) : Tab Cohort :=
  s.cohorts.filter fun e => e.2.range == rid && (!e.2.ended || mccRunning s e.1)

/-- The copies of a range. -/
def rangeCopies (s : State) (rid : Nat) : Tab Copy := s.copies.filter fun e => ((tget s.cohorts e.2.cohort).map (·.range)) == some rid

/-- An MCC program stands at an rdv or has exited, with its array queue empty (R253). -/
def mccRests (s : State) (cid : Nat) : Bool :=
  match tget s.mccs cid with
  | some m => m.queue.isEmpty && (!m.running || m.wait == .rdv)
  | none => true

/-! ### Step 1: copies (R157) -/

/-- Every copy of a range writes all its bytes; `none` where one meets a fault. -/
def runCopies : List Nat → State → Option State
  | [], s => some s
  | id :: ids, s =>
    match tget s.copies id with
    | none => runCopies ids s
    | some cp =>
      if !copyFree s cp then none
      else
        match copyMeets s id cp true with
        | (s1, cp1, none) => runCopies ids { s1 with copies := tset s1.copies id cp1 }
        | (_, _, some _) => none

/-! ### Step 2: the commit (R236) -/

/-- Waits of a range's gangs at barriers that now hold end (R160, R162). -/
def wakeBars (s : State) (gids : List Nat) : State :=
  (gids.flatMap fun gid => (((tget s.gangs gid).map fun g => g.splits.map (·.1)).getD []).map fun si => (gid, si)).foldl (fun s h =>
    match (tget s.gangs h.1).bind fun g => (tget g.splits h.2).bind fun sp => (barWaitHolds s g sp.wait).map fun w => (g, sp.wait, w.1) with
    | some (g, w, ws) => finishWait (learnWait s h.1 h.2 g w) h.1 h.2 ws none
    | none => s) s

/-- One operation of the commit: a logged request or a copy's completion.  An arrival that finds its barrier full stays logged for a
later commit (R162).  DESIGN CHOICE: where the release that it waits for falls earlier in the same later commit, the arrival is applied in that
commit (log entry 67). -/
def commitOne (gids : List Nat) (s : State) (id : Nat) : State :=
  match tget s.requests id with
  | some r =>
    if requestBlocked s r then s
    else
      match r.kind with
      | .message m =>
        if (recorded s id r).isSome then { s with requests := tdrop s.requests id }
        else deliverNow { (record s r []) with requests := tdrop s.requests id } m
      | _ => wakeBars (serve s id r) gids
  | none =>
    match tget s.copies id with
    | some cp => wakeBars (completeCopy s id cp true).1 gids
    | none => s

/-- What a gang has to commit, in program order: names rise with the order of issue. -/
def gangLog (s : State) (gid : Nat) : List Nat :=
  rankSort id ((((tget s.gangs gid).map (·.qLog)).getD []) ++ (s.copies.filter fun e => e.2.gang == gid).map (·.1))

/-- A request closes a step: its digest is made of the committed state (R315). -/
def closesStep (s : State) (id : Nat) : Bool :=
  match (tget s.requests id).map (·.kind) with
  | some (ReqKind.stepmark ..) => true
  | _ => false

/-- A gang's commit, but for the steps that it closes. -/
def commitGang (gids : List Nat) (s : State) (gid : Nat) : State := ((gangLog s gid).filter fun i => !closesStep s i).foldl (commitOne gids) s

/-- The steps that a gang closes, once every gang has committed (R315). -/
def commitSteps (gids : List Nat) (s : State) (gid : Nat) : State := ((gangLog s gid).filter (closesStep s)).foldl (commitOne gids) s

/-- What a gang has committed leaves its log; what waits on stays there. -/
def trimLog (s : State) (gid : Nat) : State :=
  modGang s gid fun g => { g with qLog := g.qLog.filter fun i => (tget s.requests i).any fun r => !r.table }

/-- Atomic results land, whatever was left of their windows (R148, R236). -/
def landAtoms (g : Gang) : Gang :=
  g.splits.foldl (fun g e =>
    match tget g.splits e.1 with
    | none => g
    | some sp =>
      let due := sp.pend.filter fun p => p.slots != 0 && !pendOpen p
      { landList g due with splits := tset g.splits e.1 { sp with pend := sp.pend.filter fun p => !(p.slots != 0 && !pendOpen p) } }) g

/-- A request is a store. -/
def isStore (r : Request) : Bool :=
  match r.kind with
  | .store _ => true
  | _ => false

/-- The Porch entries of gangs whose stores have all been committed are gone, whatever else of theirs waits for a later commit (R221,
R236). -/
def dropPorches (s : State) (gids : List Nat) : State :=
  let stays (gid : Nat) : Bool := (tget s.gangs gid).any fun g => g.qLog.any fun i => (tget s.requests i).any isStore
  let done (gid : Nat) : Bool := gids.contains gid && !stays gid
  { s with cores := s.cores.map fun c => (c.1, { c.2 with porch := c.2.porch.filter fun e => !done e.gang }) }

/-- Records that the commit left held by a Pantry belong to the launch, and enter at its quantum ends (R241, R258). -/
def claimHeld (s : State) (part rid before : Nat) : State :=
  modPart s part fun p =>
    { p with heldPlacements := p.heldPlacements.take before ++ (p.heldPlacements.drop before).map fun h => (h.1, h.2.1, some rid) }

/-- Records of the launch that a Pantry holds enter their queues as far as there is room (R241). -/
def enterHeld (s : State) (part rid : Nat) : State :=
  (((tget s.parts part).map (·.heldPlacements)).getD []).foldl (fun s h =>
    if h.2.2 = some rid && queueTakes s part h.1 1 then
      modPart (placeRange s part h.1 h.2.1 none false).2 part fun q => { q with heldPlacements := q.heldPlacements.erase h }
    else s) s

/-- The commit of a quantum. -/
def commitRange (s : State) (rid : Nat) : State :=
  let gids := rangeGangs s rid
  let s1 := gids.foldl trimLog (gids.foldl (commitSteps gids) (gids.foldl (commitGang gids) s))
  dropPorches (gids.foldl (fun s gid => modGang s gid landAtoms) s1) gids

/-! ### Steps 3 and 4 -/

/-- Crews whose gangs have all ended end, and rendezvous whose participants have all arrived complete; a parent join made by the
end of the range is served (R189, R253). -/
def endCrews (s : State) (rid : Nat) : State :=
  let cohorts := rangeCohorts s rid
  let s1 := (cohorts.flatMap fun c => c.2.crews).foldl crewTest s
  let s2 := cohorts.foldl (fun s c => if rdvComplete s c.1 then rdvResume s c.1 else s) s1
  s2.requests.foldl (fun s e => match e.2.kind with
    | .autoJoin _ x => if x = rid then serve s e.1 e.2 else s
    | _ => s) s2

/-- The instructions that the gangs of a range have retired since its quantum began, those that retired in its commit included. -/
def quantumRetired (s : State) (rid : Nat) : Nat := ((s.gangs.filter fun e => e.2.range == rid).map fun e => e.2.qCount).foldl (· + ·) 0

/-- The deterministic groups of a range. -/
def detGroups (s : State) (rid : Nat) : List Nat := (s.groups.filter fun g => g.2.range == rid && g.2.det).map (·.1)

/-- Retired instructions counted for the groups of a range (R206, R255). -/
def countGroups (s : State) (rid count : Nat) : State := (detGroups s rid).foldl (fun s g => tickGroup s g count) s

/-- The deadlines of the groups of a range are tested (R206, R253). -/
def testDeadlines (s : State) (rid : Nat) : State :=
  (detGroups s rid).foldl (fun s gid =>
    match tget s.groups gid with
    | some g => if deadlineReached s g then closeGroup s gid g 2 else s
    | none => s) s

/-- What led from one state of a range to another has retired instructions too, which count for its groups. -/
def countSince (before after : State) (rid : Nat) : State := countGroups after rid (quantumRetired after rid - quantumRetired before rid)

/-- Steps 2 to 4 of R253; the quantum's retired instructions are counted first, those that retire in the commit after it, and the deadlines
are tested at the end (R206); records that the steps leave held by a Pantry are the launch's, and enter as far as there is room (R241,
R258). -/
def quantumCommit (s : State) (rid : Nat) (r : Range) : State :=
  let held := ((tget s.parts r.part).map (·.heldPlacements.length)).getD 0
  let s1 := countGroups s rid (quantumRetired s rid)
  let s2 := endCrews (commitRange s1 rid) rid
  enterHeld (claimHeld (testDeadlines (countSince s1 s2 rid) rid) r.part rid held) r.part rid

/-! ### Step 5: placement (R247, R304) -/

/-- The cohorts of a range placed in index order, as far as clusters can hold them; the fuel counts cohorts. -/
def placeDet (s : State) (rid : Nat) : Nat → State
  | 0 => s
  | n + 1 =>
    match tget s.ranges rid with
    | none => s
    | some r =>
      if (unplaced r).isEmpty || !r.holds.isEmpty then s
      else
        match detFirst s rid r with
        | some cl => placeDet (activate (placeNext s rid r cl) cl) rid n
        | none => s

/-- Step 5 of R253. -/
def placeRest (s : State) (rid : Nat) : State :=
  placeDet s rid (((tget s.ranges rid).map fun r => (unplaced r).length).getD 0)

/-! ### Steps 6 and 7 -/

/-- A stalled instruction of a deterministic gang may be issued again (R166, R219, R268, R277). -/
def retryHolds (s : State) (gid : Nat) (g : Gang) : Retry → Option State
  | .mcc => if mccRunning s g.cohort then none else some s
  | .attic => takeAttic s (gangCluster g) g.cohort
  | .stair => claimStair s g.core gid
  | .porch => some s
  | .copies => if coreCopies s g.core < 64 then some s else none

/-- One split's wait is satisfied if its condition now holds. -/
def satisfyWait (s : State) (gid si : Nat) : State :=
  match tget s.gangs gid with
  | none => s
  | some g =>
    match tget g.splits si with
    | none => s
    | some sp =>
      match sp.wait with
      | .tag _ _ => if tagWaitHolds s g sp.wait then finishWait (learnWait s gid si g sp.wait) gid si [] none else s
      | .bar .. =>
        match barWaitHolds s g sp.wait with
        | some (ws, _) => finishWait (learnWait s gid si g sp.wait) gid si ws none
        | none => s
      | .retry r =>
        match retryHolds s gid g r with
        | some s1 => modGang s1 gid fun x => { x with splits := tmod x.splits si fun p => { p with wait := .none } }
        | none => s
      | .reply rid =>
        match tget s.requests rid with
        | some rq =>
          if waitcHolds s rq then answerWait (learnWaitc s rq) rid rq [] none
          else match rewardHolds s rq with
            | some ws => answerWait (learnReward s rq) rid rq ws none
            | none => s
        | none => s
      | .step .. =>
        match stepDone s gid si with
        | some ws => finishWait s gid si ws none
        | none => s
      | .answered .. => wakeAnswer s gid si
      | .drain _ => wakeDrain s gid si
      | _ => s

/-- Every blocking wait of a range whose condition holds is satisfied, in gang order. -/
def satisfyWaits (s : State) (rid : Nat) : State :=
  (rangeGangs s rid).foldl (fun s gid =>
    (((tget s.gangs gid).map fun g => g.splits.map (·.1)).getD []).foldl (fun s si => satisfyWait s gid si) s) s

/-- A gang takes part in the quantum that starts: no split of it waits, and nothing of it waits for a later commit (R162, R253). -/
def takesPart (g : Gang) : Bool := g.splits.all (fun p => p.2.wait == .none) && g.qLog.isEmpty

/-- The next quantum of a range starts, where it has crews: every gang that does not still wait takes part, and the cores' snapshots are
the committed state (R221, R253, R360). -/
def nextQuantum (s : State) (rid : Nat) : State :=
  let s1 := modRange s rid fun r => { r with quantum := if rangeLive s rid then r.quantum + 1 else r.quantum, qStart := s.mem.seq }
  let s2 : State := { s1 with gangs := s1.gangs.map fun e =>
    if e.2.range == rid then
      (e.1, { e.2 with qCount := 0, qEnded := false, qOut := e.2.status != .parked && !(takesPart e.2),
                       splits := e.2.splits.map fun p => (p.1, refreshed s.mem.seq .pk p.2) })
    else e }
  let cores := ((s2.gangs.filter fun e => e.2.range == rid && e.2.status != .ended).map fun e => e.2.core).eraseDups
  cores.foldl (fun s c => modCore (refreshCore s c .pk) c fun x => { x with detTurn := 0 }) s2

/-- Steps 5 to 7 of R253; a cluster that has to be woken for a placement is waited for. -/
def lastSteps (s : State) (rid : Nat) : Option State :=
  let s1 := placeRest s rid
  let new := s1.cohorts.filter fun e => (tget s.cohorts e.1).isNone
  let s2 := satisfyWaits s1 rid
  if new.all fun e => clusterAwake s e.2.cluster then some (nextQuantum (countSince s1 s2 rid) rid)
  else none

/-- The state at a quantum end before its step 5: after the copies, the commit and the ends; `none` where the end cannot fall (R253). -/
def beforePlacement (s : State) (rid : Nat) (r : Range) : Option State :=
  (runCopies (rankSort (fun id => ((tget s.copies id).map fun c => rankOf s c.gang * 2 ^ 64 + id).getD 0)
    ((rangeCopies s rid).map (·.1))) s).map fun s1 => quantumCommit s1 rid r

/-! ### Events -/

/-- GANG_QUANTUM_END (R252): a gang that has retired its Q-th instruction leaves the rotation. -/
def execGangQuantumEnd (gang : Nat) (s : State) : Outcome :=
  match tget s.gangs gang with
  | none => .next s
  | some g =>
    if gangDet s g && !g.qEnded && decide (quantumOf s g ≤ g.qCount) then .next (bumpFree (modGang s gang fun x => { x with qEnded := true }))
    else .next s

/-- The clusters of a range's cohorts that sleep, are in hold-up or are without supply: a quantum end waits for them (R308, R361; log entry
26). -/
def detSleepers (s : State) (rid : Nat) : List Nat :=
  ((rangeCohorts s rid).map fun c => c.2.cluster).filter fun cl => !clusterAwake s cl || (getCluster s cl).holdUp

/-- A deterministic range has gangs, and all of them have ended their quantum; its MCC programs rest (R253). -/
def quantumOverAll (s : State) (rid : Nat) (r : Range) : Bool :=
  let gangs := s.gangs.filter fun e => e.2.range == rid && isResident s e.2
  r.launch.det && partRuns s r.part && rangeLive s rid && gangs.all (fun e => quantumOver e.2) &&
    (rangeCohorts s rid).all fun c => mccRests s c.1

/-- A quantum end falls now: the quantum is over everywhere, the clusters of the range are awake, and no record that is served before it and
could be placed stands before the cohorts that it would place (R242, R253). -/
def quantumReady (s : State) (rid : Nat) (r : Range) : Bool :=
  quantumOverAll s rid r && (detSleepers s rid).isEmpty && !(detPlaces s rid r && detBefore s rid r)

/-- QUANTUM_END (R253). -/
def execQuantumEnd (range : Nat) (s : State) : Outcome :=
  match tget s.ranges range with
  | none => .next s
  | some r =>
    if !quantumReady s range r then .next s
    else
      match (beforePlacement s range r).bind fun s1 => lastSteps s1 range with
      | some s2 => .next (bumpFree s2)
      | none => .next s

/-- IDLE_QUANTUM_END (R360): the next cohort of a launch without resident gangs can be placed. -/
def execIdleQuantumEnd (range : Nat) (s : State) : Outcome :=
  match tget s.ranges range with
  | none => .next s
  | some r =>
    if idleEndDue s range r then
      match lastSteps (enterHeld s r.part range) range with
      | some s1 => .next (bumpFree s1)
      | none => .next s
    else .next s

/-- The clusters that the next quantum end of a range waits for, where it could fall now but for them: those of its cohorts, and those that it
places cohorts on (R247, R328, R361). -/
def detWants (s : State) (rid : Nat) : List Nat :=
  let new (s1 : State) : List Nat :=
    ((placeRest s1 rid).cohorts.filter fun e => (tget s1.cohorts e.1).isNone).map fun e => e.2.cluster
  match tget s.ranges rid with
  | none => []
  | some r =>
    if quantumReady s rid r then ((beforePlacement s rid r).map new).getD []
    else if quantumOverAll s rid r then detSleepers s rid
    else if idleEndDue s rid r then new (enterHeld s r.part rid)
    else []

end Sys2Proof.Machine
end

