-- ==== Sys2Proof/Machine/Power.lean ====
section
/-! DEFINITION. Power states, rails, samples, pass counts, bubbles, windows, power states and the rack budget (R317 to R331). -/

namespace Sys2Proof.Machine

/-! ### Idle clusters (R328) -/

/-- A gang of a cluster has a split that could issue (R251). -/
def gangReady (s : State) (g : Gang) : Bool :=
  isResident s g && g.status == .running && g.splits.any fun p => splitGoes p.2 && !sourcesHeld s g p.2

/-- No gang of a cluster is ready, and its MCC, copy engine and array are idle (R328). -/
def clusterIdle (s : State) (cl : Nat) : Bool :=
  let cids := clusterCohorts s cl
  (clusterGangs s cl).all (fun e => !gangReady s e.2)
  && cids.all (fun c => match tget s.mccs c with
      | some m => m.queue.isEmpty && !(m.running && m.wait == .none && m.status == .running)
      | none => true)
  && s.copies.all fun e => !(cids.contains e.2.cohort && !e.2.held && !e.2.stuck)

/-- Reference cycles that a cluster has been in its power state. -/
def stateAge (s : State) (c : ClusterSt) : Nat := s.ctl.clock - c.since

/-- A cluster enters a power state. -/
def enterState (s : State) (cl : Nat) (p : PowerState) : State := modCluster s cl fun c => { c with power := p, since := s.ctl.clock }

/-- CLOCK_GATE (R328). -/
def execClockGate (cluster : Nat) (s : State) : Outcome :=
  if (getCluster s cluster).power = .active && !(getCluster s cluster).holdUp && clusterIdle s cluster then .next (bumpFree (enterState s cluster .clockGated)) else .next s

/-- The retention delay that holds for a cluster, in µs: the host's, or 200 (R328, R343). -/
def retentionDelay (s : State) (cl : Nat) : Nat :=
  ((s.parts.find? fun e => e.2.dies.contains (clusterDie cl)).map fun e => e.2.retentionUs).getD 200

/-! ### Wake-ups (R328, R329) -/

/-- A cluster whose clocks run, and which issues: not while it seals from hold-up energy (R310). -/
def clusterRuns (s : State) (cl : Nat) : Bool := (getCluster s cl).power == .active && !(getCluster s cl).holdUp

/-- A wake-up is held for a cluster that sleeps: it would be delivered if the cluster were awake (R328). -/
def wakeHeld (s : State) (cl : Nat) : Bool := decide (deliverWakes (enterState s cl .active) ≠ enterState (deliverWakes s) cl .active)

/-- A placement goes to a cluster: of a free-running record, of a saved cohort, or of a deterministic launch at its quantum end (R245, R247,
R301). -/
def placementTo (s : State) (cl : Nat) : Bool :=
  s.parts.any (fun p => p.2.dies.any fun d => (nextPlacement s p.1 d).any fun x => x.2.2 == cl)
  || s.ranges.any (fun r => (detWants s r.1).contains cl)
  || s.cohorts.any fun c => c.2.saved && !c.2.ended && (cohortRange s c.2).any fun r => pickRestore s c.1 c.2 r == some cl

/-- A cluster that sleeps is wanted: something on it can go on, a cohort on it has been asked to leave, a wake-up is held for it, or a
placement goes to it; one without supply resumes when that returns (R298, R311, R328). -/
def clusterWanted (s : State) (cl : Nat) : Bool :=
  !clusterRuns s cl &&
  (!clusterIdle s cl || wakeHeld s cl || placementTo s cl || (getCluster s cl).failed
    || s.cohorts.any fun c => c.2.cluster == cl && c.2.preempt && !c.2.saved && !c.2.ended)

/-- The 500 ns between two turns of a die's wake order, in reference cycles (R329). -/
def turnCycles : Nat := 825

/-- A turn of a die's wake order may begin (R329). -/
def turnFree (s : State) (die : Nat) : Bool :=
  match tget s.dev.turnAt die with
  | some t => decide (t + turnCycles ≤ s.ctl.clock)
  | none => true

/-- A turn of a die's wake order begins. -/
def takeTurn (s : State) (die : Nat) : State := { s with dev := { s.dev with turnAt := tset s.dev.turnAt die s.ctl.clock } }

/-- A sleeping cluster that is wanted wakes now: a clock-gated one at once, the others one after another in a die's wake order, each in a
turn of its own (R328, R329). -/
def wakeTurn (s : State) (cl : Nat) : Bool :=
  clusterWanted s cl && ((getCluster s cl).power == .clockGated ||
    (turnFree s (clusterDie cl) && ((dieClusters (clusterDie cl)).find? fun x => !clusterAwake s x && clusterWanted s x) == some cl))

/-- RETENTION_ENTRY (R314, R328): the cluster seals first; not while it is wanted. -/
def execRetentionEntry (cluster : Nat) (s : State) : Outcome :=
  let c := getCluster s cluster
  if c.power = .clockGated && clusterIdle s cluster && !clusterWanted s cluster && sealReady s cluster && decide (microCycles (retentionDelay s cluster) ≤ stateAge s c) then
    .next (bumpFree (enterState (sealCluster s cluster 6) cluster .retention))
  else .next s

/-- The gating delay in µs (R328). -/
def gatingDelay : Nat := 1000

/-- POWER_GATING (R328): no crew resident for the gating delay, or in retention for it; the cluster seals first; not while it is wanted. -/
def execPowerGating (cluster : Nat) (s : State) : Outcome :=
  let c := getCluster s cluster
  let empty := (c.power = .clockGated || c.power = .retention) && clusterEmpty s cluster && clusterIdle s cluster
    && decide (microCycles gatingDelay ≤ s.ctl.clock - c.emptyAt)
  let kept := c.power = .retention && decide (microCycles gatingDelay ≤ stateAge s c)
  if (empty || kept) && !clusterWanted s cluster && sealReady s cluster then
    .next (bumpFree (enterState (sealCluster s cluster 5) cluster .gated))
  else .next s

/-- A cluster is active again, and the wake-ups held for it are delivered (R328). -/
def comeUp (s : State) (cl : Nat) : State :=
  enterState (deliverWakes (enterState (takeTurn s (clusterDie cl)) cl .active)) cl .active

/-- A cluster comes back from its Cellar: after its own supply was off its Pantry has gone on, after a failure of the whole supply it has
not, and its tables are lost where no slot is valid (R310, R311, R314). -/
def resumeFrom (s : State) (cl : Nat) (badA badB tablesLost : Bool) : State :=
  let failed := (getCluster s cl).failed
  modCluster (resumeCluster s cl badA badB (failed || tablesLost) (!failed)) cl fun c => { c with failed := false }

/-- CLUSTER_WAKE (R314, R328, R329), in the cluster's turn: from retention a parity failure leads to a resume, from the gated state every
wake does. -/
def execClusterWake (cluster : Nat) (parityGood badA badB : Bool) (s : State) : Outcome :=
  if !wakeTurn s cluster then .next s
  else
  match (getCluster s cluster).power with
  | .active => .next s
  | .clockGated => .next (bumpFree (enterState s cluster .active))
  | .retention =>
    .next (bumpFree (comeUp (if parityGood then s else resumeFrom s cluster badA badB false) cluster))
  | .gated => .next (bumpFree (comeUp (resumeFrom s cluster badA badB false) cluster))

/-- CELLAR_RESUME (R311): of a cluster whose clocks are on at once, of one that sleeps in its turn (R329); the wake-ups that have fallen due are
delivered (R302). -/
def execCellarResume (cluster : Nat) (badA badB tablesLost : Bool) (s : State) : Outcome :=
  if clusterAwake s cluster then
    .next (bumpFree (enterState (deliverWakes (enterState (resumeCluster s cluster badA badB tablesLost false) cluster .active)) cluster .active))
  else if wakeTurn s cluster then .next (bumpFree (comeUp (resumeFrom s cluster badA badB tablesLost) cluster))
  else .next s

/-! ### Clocks and voltages (R318 to R323) -/

/-- RAIL_SETTLED (R323): the rail has reached its target; the frequency it was raised for is applied. -/
def execRailSettled (cluster : Nat) (s : State) : Outcome :=
  let c := getCluster s cluster
  .next (if stepUnderWay c then bumpFree (modCluster s cluster settleStep) else s)

/-- SUPPLY_DROOP (R325): the pass count doubles, up to 4. -/
def execSupplyDroop (cluster : Nat) (s : State) : Outcome :=
  let c := getCluster s cluster
  if c.pass < 4 then .next (bumpFree (modCluster s cluster fun x => { x with pass := 2 * x.pass })) else .next s

/-- A cluster that holds no crew goes towards the ratio of its operating point, or the one pending, once the step under way is completed (R319,
R323). -/
def settleRatio (s : State) (cl : Nat) : State :=
  let c := getCluster s cl
  if !clusterEmpty s cl || stepUnderWay c || (pointRatio c = c.ratio && c.pendingRatio.isNone) then s else modCluster s cl settlePoint

/-! ### Samples (R324 to R327, R331) -/

/-- A cluster's draw in W: its mean current in 0.1 A at its voltage in mV. -/
def clusterWatts (c : ClusterSt) : Nat := c.current * c.mv / 10000

/-- The package's draw in W: clusters, stacks, and 150 W for the rest (R331). -/
def packageWatts (s : State) : Nat :=
  (s.clusters.map fun e => clusterWatts e.2).foldl (· + ·) 0 + s.dev.stackCurrents.foldl (· + ·) 0 + 150

/-- The HBM's part of the budget, and the clusters' (R331). -/
def hbmShare (s : State) : Nat := min 1250 s.dev.budget
def clusterShare (s : State) : Nat := s.dev.budget - 150 - hbmShare s

/-- One cluster's share, in proportion to its draw in the last sample (R331). -/
def shareOf (s : State) (c : ClusterSt) : Nat :=
  let all := (s.clusters.map fun e => e.2.current).foldl (· + ·) 0
  if all = 0 then clusterShare s else clusterShare s * c.current / all

/-- The share of one stack of the active dies (R331). -/
def stackShare (s : State) : Nat :=
  let dies := (s.parts.flatMap fun e => e.2.dies).length
  if dies = 0 then hbmShare s else hbmShare s / (2 * dies)

/-- A core's stall ratio exceeds, or stays below, a fraction (R324). -/
def stallAbove (issue full num den : Nat) : Bool := decide (num * (issue + full) < full * den)
def stallBelow (issue full num den : Nat) : Bool := issue + full == 0 || decide (full * den < num * (issue + full))

/-- A cluster one 50 MHz step lower by its own stalls, or by the budget (R324, R331). -/
def narrowed (c : ClusterSt) : ClusterSt := reaim { c with narrow := c.narrow + 1 }
def loweredOne (c : ClusterSt) : ClusterSt := reaim { c with lowered := c.lowered + 1 }

/-- A cluster one step higher: first what its own stalls have taken, then what the budget has. -/
def raisedOne (c : ClusterSt) : ClusterSt :=
  if 0 < c.narrow then reaim { c with narrow := c.narrow - 1 } else reaim { c with lowered := c.lowered - 1 }

/-- A cluster of which the budget has taken a step gets it back (R331). -/
def restoredOne (c : ClusterSt) : ClusterSt := reaim { c with lowered := c.lowered - 1 }

/-- The cluster can run one step lower. -/
def canLower (c : ClusterSt) : Bool := decide (1050 ≤ wantedMhz c)

/-- The clock of a cluster moved by its own stalls over the 10 µs that its counters hold (R324). -/
def narrowClock (above : Bool) (c : ClusterSt) : ClusterSt :=
  let cores := c.issue.zip c.fifoFull
  let total := c.issue.foldl (· + ·) 0
  if cores.all (fun p => stallBelow p.1 p.2 1 8) && decide (4 * total < 10 * c.mhz) && canLower c then narrowed c
  else if cores.any (fun p => stallAbove p.1 p.2 1 2) && !above && 0 < c.narrow + c.lowered then raisedOne c
  else c

/-- The counters of a sample: the mean current stays for the shares, the others are cleared once read (R324). -/
def takeSample (x : ClusterSample) (c : ClusterSt) : ClusterSt :=
  { c with issue := [0, 0, 0, 0], fifoFull := [0, 0, 0, 0], laneBusy := 0, arrayBusy := 0, current := x.current }

/-- Clusters changed one by one. -/
def modClusters (s : State) (cls : List Nat) (f : ClusterSt → ClusterSt) : State := cls.foldl (fun s cl => modCluster s cl f) s

/-- A cluster's current exceeds its share, and its pass count can rise (R325). -/
def passDue (s : State) (c : ClusterSt) : Bool := c.pass < 4 && decide (shareOf s c < clusterWatts c)

/-- The pass counts of clusters whose current exceeds their share rise (R325). -/
def raisePasses (s : State) (cls : List Nat) : State :=
  modClusters s cls fun c => if passDue s c then { c with pass := min 4 (2 * c.pass) } else c

/-- The stacks of a die, with their windows and their draws. -/
def dieStacks (s : State) (die : Nat) : List (Nat × Nat) :=
  ((s.dev.windows.zip s.dev.stackCurrents).zipIdx.filter fun w => w.2 / 2 = die).map (·.1)

/-- A stack's current exceeds its share, and its window can grow (R327). -/
def windowDue (s : State) (w : Nat × Nat) : Bool := w.1 < 64 && decide (stackShare s < w.2)

/-- The share would hold a stack's current at the next shorter window (R327). -/
def windowEase (s : State) (w : Nat × Nat) : Bool := 16 < w.1 && decide (w.2 * w.1 ≤ stackShare s * (w.1 - 4))

/-- The windows of the stacks of a die changed, each by its own window and draw. -/
def modWindows (s : State) (die : Nat) (f : Nat × Nat → Nat) : State :=
  let ws : List Nat := s.dev.windows.zipIdx.map fun w => if w.2 / 2 = die then f (w.1, s.dev.stackCurrents[w.2]?.getD 0) else w.1
  { s with dev := { s.dev with windows := ws } }

/-- The windows of stacks whose current exceeds their share grow, up to 64 ns (R327). -/
def growWindows (s : State) (die : Nat) : State := modWindows s die fun w => if windowDue s w then min 64 (w.1 + 4) else w.1

/-- The bubble count rises by 4, once in a round of samples; where an earlier die of the round has had it fall, that is undone (R326; log entry
64). -/
def moreBubbles (s : State) : State :=
  match s.dev.moved with
  | some true => s
  | some false => { s with dev := { s.dev with bubbles := min 48 (s.dev.bubbles + 8), moved := some true } }
  | none => { s with dev := { s.dev with bubbles := min 48 (s.dev.bubbles + 4), moved := some true } }

/-- It falls by 4, once in a round, and not while a die stands at its thermal limit (R326). -/
def fewerBubbles (s : State) : State :=
  if s.dev.moved.isNone && s.dev.hot.isEmpty then { s with dev := { s.dev with bubbles := s.dev.bubbles - 4, moved := some false } } else s

/-- The dies whose last sample told of a thermal limit (R326). -/
def noteHot (s : State) (die : Nat) (hot : Bool) : State :=
  let others := s.dev.hot.filter (· != die)
  { s with dev := { s.dev with hot := if hot then others ++ [die] else others } }

/-- A round of samples goes on with a die, or begins with it (R324). -/
def enterRound (s : State) (die : Nat) : State :=
  if s.dev.round.contains die then { s with dev := { s.dev with round := [die], moved := none } }
  else { s with dev := { s.dev with round := s.dev.round ++ [die] } }

/-- Nothing short of bubbles can still act anywhere: pass counts, windows and operating points are at their ends (R326, R331). -/
def onlyBubbles (s : State) : Bool :=
  s.clusters.all (fun e => !passDue s e.2 && !canLower e.2) && (s.dev.windows.zip s.dev.stackCurrents).all fun w => !windowDue s w

/-- The controller of a die while the package is over its budget: pass counts, then windows, then operating points, then bubbles
(R331). -/
def actOver (s : State) (die : Nat) (cls : List Nat) : State :=
  let s0 : State := { s with dev := { s.dev with raises := s.dev.raises.filter fun cl => !cls.contains cl } }
  if cls.any fun cl => passDue s (getCluster s cl) then raisePasses s0 cls
  else if (dieStacks s die).any (windowDue s) then growWindows s0 die
  else if cls.any fun cl => canLower (getCluster s cl) then modClusters s0 cls fun c => if canLower c then loweredOne c else c
  else if onlyBubbles s then moreBubbles s0
  else s0

/-- The controller of a die while the package is within its budget: a unit above its own share is held to it (R325, R327), and the steps
are undone in reverse order, clocks in the wake order (R329, R331). -/
def actUnder (s : State) (die : Nat) (cls : List Nat) : State :=
  let s1 := growWindows (raisePasses s cls) die
  if 0 < s.dev.bubbles then if 10 * packageWatts s < 9 * s.dev.budget then fewerBubbles s1 else s1
  else
    let low := cls.filter fun cl => 0 < (getCluster s cl).lowered
    if !low.isEmpty then { s1 with dev := { s1.dev with raises := s1.dev.raises ++ low.filter fun cl => !s1.dev.raises.contains cl } }
    else if (dieStacks s die).any (windowEase s) then modWindows s1 die fun w => if windowEase s w then max 16 (w.1 - 4) else w.1
    else modClusters s1 cls fun c => if clusterWatts c * 2 ≤ shareOf s c then { c with pass := max 1 (c.pass / 2) } else c

/-- The next cluster of a die whose clock rises in its turn (R329, R330). -/
def raiseNext (s : State) (die : Nat) : State :=
  match s.dev.raises.find? fun cl => clusterDie cl == die with
  | some cl =>
    if turnFree s die then
      let s1 := takeTurn (modCluster s cl restoredOne) die
      { s1 with dev := { s1.dev with raises := s1.dev.raises.filter (· != cl) } }
    else s
  | none => s

/-- What a sample adds to the counters of a die's partition (R324, R348, R349): 10 µs of its clusters' power, the HBM bytes, which the
sample does not show, and the bytes on the fabric and the Skafen link beside those of the accesses from outside, whose flits the spec does
not count (log entry 28). -/
def meterEnergy (s : State) (die : Nat) (cls : List Nat) : State :=
  let sum (xs : List Nat) : Nat := (xs.map fun cl => clusterWatts (getCluster s cl)).foldl (· + ·) 0
  let meter (p : Part) : Part :=
    if p.dies.contains die then
      { p with microjoules := p.microjoules + 10 * sum cls, peakWatts := max p.peakWatts (sum (partClusters p)),
               hbmBytes := p.hbmBytes + Config.freeNat 13 s.ctl.free, linkBytes := p.linkBytes + Config.freeNat 14 s.ctl.free }
    else p
  { s with parts := s.parts.map fun e => (e.1, meter e.2) }

/-- POWER_SAMPLE (R324): the mean currents of a die's clusters in order, the draw of its two stacks in W, and whether a thermal limit is
reached (R326). -/
def execPowerSample (die : Nat) (samples : List ClusterSample) (stackCurrents : List Nat) (hot : Bool) (s : State) : Outcome :=
  let cls := dieClusters die
  let pairs := cls.zip samples
  let cs : List Nat := s.dev.stackCurrents.zipIdx.map fun c => if c.2 / 2 = die then (stackCurrents[c.2 % 2]?.getD c.1) else c.1
  let s0 : State := enterRound { s with dev := { s.dev with stackCurrents := cs } } die
  let s1 := pairs.foldl (fun s p => modCluster s p.1 fun c => { c with current := p.2.current }) s0
  let above := decide (s1.dev.budget < packageWatts s1)
  let s2 := pairs.foldl (fun s p => modCluster s p.1 fun c => takeSample p.2 (narrowClock above c)) (meterEnergy s1 die cls)
  let s3 := if hot then moreBubbles (noteHot s2 die true) else noteHot s2 die false
  .next (bumpFree (if above then actOver s3 die cls else if hot then growWindows (raisePasses s3 cls) die else actUnder s3 die cls))

/-! ### The rack budget (R330) -/

/-- The floor budget in W (R330). -/
def floorBudget : Nat := 1800

/-- LEASE_EXPIRY (R330). -/
def execLeaseExpiry (s : State) : Outcome :=
  match s.dev.leaseEnd with
  | some t =>
    if t ≤ s.ctl.clock then .next (bumpFree { s with dev := { s.dev with budget := floorBudget, leaseEnd := none, leaseMs := 0 } }) else .next s
  | none => .next s

end Sys2Proof.Machine
end

