-- ==== Sys2Proof/Machine/Fabric.lean ====
section
/-! DEFINITION. halt, links, incoming fabric accesses, replica digests (R115, R213, R315, R316, R333 to R339). -/

namespace Sys2Proof.Machine

/-- halt (R115): from a supervisor the gangs and MCCs of its partition are stopped at their next boundaries, from firmware those of the
partition in k0. -/
def execHalt (s : State) : Outcome :=
  gangOp .closes [] none true s fun s gid g si sp =>
    let s1 := retireAt s gid si (nextPc sp.pc)
    .next (if g.level = .firmware then haltPart s1 (cget g.k 0).toNat 2 else haltPart s1 g.part 1)

/-! ### Incoming accesses (R338) -/

/-- What a remote access is answered. -/
def answerRemote (s : State) (status : Nat) (data : List Byte) : State :=
  { s with dev := { s.dev with remoteStatus := status, remoteData := data } }

/-- An address range lies in an entry's export window. -/
def inExport (e : Route) (va : DWord) (n : Nat) : Bool :=
  decide (e.exportBase.toNat ≤ va.toNat) && decide (va.toNat + n ≤ e.exportBase.toNat + e.exportGiB * 2 ^ 30)

/-- The keys of an incoming access that is accepted (R338): some entry of the sender covers it, with flag [3] for a write and flag [2] for a
read, and it translates under user rights. -/
def acceptRemote (s : State) (port senderPart part : Nat) (va : DWord) (n : Nat) (write : Bool) : Option (List Nat) :=
  if !((senderEntries s part port senderPart (if write then 3 else 2)).any fun e => inExport e.2 va n) then none
  else
    let v : View := { part := part, cluster := ((tget s.parts part).map fun p => (partClusters p).headD 0).getD 0, super := false }
    match translateRange s v (if write then .store else .load) va n with
    | .ok keys => some keys
    | .error _ => none

/-- REMOTE_ACCESS (R338): writes are published at system scope, reads return bytes published at system scope; a refused access
leaves nothing. -/
def execRemoteAccess (port senderPart part : Nat) (va : DWord) (len : Nat) (data : Option (List Byte)) (s : State) : Outcome :=
  match data with
  | some bs =>
    match acceptRemote s port senderPart part va bs.length true with
    | some keys => .next (bumpFree (answerRemote (countLink (writeMem s .outside true (keys.zip bs)) part bs.length) 0 []))
    | none => .next (bumpFree (answerRemote s 1 []))
  | none =>
    match acceptRemote s port senderPart part va len false with
    | some keys => .next (bumpFree (answerRemote (countLink s part len) 0 (keys.map (hostByte s))))
    | none => .next (bumpFree (answerRemote s 1 []))

/-! ### Replica digests (R213, R315, R316) -/

/-- A step is closed for a partition: it is not above the last one, and is not the one that waits (R315). -/
def stepClosed (p : Part) (step : DWord) : Bool :=
  p.lastStep.any (fun l => step.ule l) && !(p.stepWait.any fun w => w.step == step)

/-- A digest message taken by its partition: compared, held, or ignored (R315). -/
def takeDigest (s : State) (part : Nat) (p : Part) (step : DWord) (digest : List Byte) : State :=
  if stepClosed p step then s
  else compareStep (modPart s part fun q => { q with peerDigests := q.peerDigests ++ [(step, digest)] }) part

/-- REPLICA_DIGEST_ARRIVAL (R315): from the other partition of this device, or from a fabric peer.  On this device a digest that another
partition than the replica has sent is not the replica's, and is dropped. -/
def execReplicaDigestArrival (part : Nat) (step : DWord) (digest : List Byte) (s : State) : Outcome :=
  match tget s.parts part with
  | none => .next s
  | some p =>
    match p.replica with
    | none => .next s
    | some r =>
      if r.peer = 0 then
        let same (m : DigestMsg) : Bool := m.dest == part && m.step == step && m.digest == digest
        let without (m : DigestMsg) : State := { s with dev := { s.dev with digests := s.dev.digests.erase m } }
        match s.dev.digests.find? fun m => same m && m.src == r.part with
        | some m => .next (bumpFree (takeDigest (without m) part p step digest))
        | none =>
          match s.dev.digests.find? same with
          | some m => .next (bumpFree (without m))
          | none => .next s
      else .next (bumpFree (takeDigest (countLink s part digestBytes) part p step (padTo 32 digest)))

/-- REPLICA_TIMEOUT (R315, R316): event 3, then the halt. -/
def execReplicaTimeout (part : Nat) (s : State) : Outcome :=
  match tget s.parts part with
  | none => .next s
  | some p =>
    match p.stepWait, p.replica with
    | some w, some r =>
      if partRuns s part && decide (microCycles r.timeoutUs ≤ s.ctl.clock - w.since) then
        .next (bumpFree (haltAfter s 3 part 4 (digestFields part r.part 1 w.step w.digest [])))
      else .next s
    | _, _ => .next s

/-! ### Links (R333 to R335) -/

/-- The key of a link: 0 to 7 ring, 8 to 23 fabric, 24 Skafen. -/
def linkKey : LinkRef → Nat
  | .ring d => d
  | .fabric p => 8 + p
  | .skafen => 24

/-- The kind and the number of a link, as event 5 gives them (log entry 17). -/
def linkFields : LinkRef → List Byte
  | .ring d => bytesLE 1 0 ++ bytesLE 1 d
  | .fabric p => bytesLE 1 1 ++ bytesLE 1 p
  | .skafen => bytesLE 1 2 ++ bytesLE 1 0

/-- A link changed. -/
def modLink (s : State) (l : LinkRef) (f : Link → Link) : State := { s with dev := { s.dev with links := tmod s.dev.links (linkKey l) f } }

/-- The link as it stands. -/
def linkOf (s : State) (l : LinkRef) : Option Link := tget s.dev.links (linkKey l)

/-- FLIT_CRC_FAILURE (R334): a replay; after 8 failures in a row the link retrains. -/
def execFlitCrcFailure (l : LinkRef) (s : State) : Outcome :=
  match linkOf s l with
  | none => .next s
  | some k =>
    if !k.up || k.retraining then .next s
    else .next (bumpFree (modLink s l fun x => { x with failed := x.failed + 1, retraining := decide (8 ≤ x.failed + 1) }))

/-- LINK_RETRAINED (R334). -/
def execLinkRetrained (l : LinkRef) (s : State) : Outcome :=
  match linkOf s l with
  | none => .next s
  | some k => if k.retraining then .next (bumpFree (modLink s l fun x => { x with failed := 0, retraining := false })) else .next s

/-- A partition's traffic uses a link: its arc for a ring link, a route entry's ports for a fabric link (R333, R336, R340). -/
def usesLink (p : Part) : LinkRef → Bool
  | .ring d => p.dies.length == 8 || (p.dies.contains d && p.dies.contains (d + 1))
  | .fabric port => p.routes.any fun e => e.2.flags.testBit 0 && e.2.ports.testBit port
  | .skafen => true

/-- A ring link of a partition that is not whole: its arc is broken (R334). -/
def breaksArc (p : Part) : LinkRef → Bool
  | .ring _ => p.dies.length != 8
  | _ => false

/-- LINK_DOWN (R334, R339): a link that retrains has failed to; event 5 goes to the hosts concerned, and a broken arc halts. -/
def execLinkDown (l : LinkRef) (s : State) : Outcome :=
  match linkOf s l with
  | none => .next s
  | some k =>
    if !k.retraining then .next s
    else
      let s1 := modLink s l fun x => { x with up := false, retraining := false }
      .next (bumpFree ((s1.parts.filter fun e => usesLink e.2 l).foldl (fun s e =>
        let s2 := postEvent s 5 e.1 (linkFields l)
        if breaksArc e.2 l then haltPart s2 e.1 6 else s2) s1))

/-- LINK_TRAINING (R335): a port learns its peer's identity. -/
def execLinkTraining (port : Nat) (peer : List Byte) (s : State) : Outcome :=
  .next (bumpFree (modLink s (.fabric port) fun _ => { up := true, failed := 0, retraining := false, peer := padTo 16 peer }))

end Sys2Proof.Machine
end

