-- ==== Sys2Proof/Machine/Manage.lean ====
section
/-! DEFINITION. Boot, management registers, host accesses, commands, usage records, attestation, held events
(R272, R274, R291, R321, R330, R336, R340 to R353). -/

namespace Sys2Proof.Machine

/-! ### Boot and registers (R341, R351) -/

/-- BOOT (R351): the first check that fails sets the boot error. -/
def execBoot (c : BootCheck) (s : State) : Outcome :=
  if s.dev.bootState != 0 then .next s
  else
    let error : Nat := match c with
      | .good => 0
      | .fetch => 1
      | .hash => 2
      | .signature => 3
      | .version => 4
    .next (bumpFree { s with dev := { s.dev with bootState := if error = 0 then 1 else 2, bootError := error } })

/-- Ring entries that are allowed: a power of two from 16 to 4,096 (R341). -/
def ringSizeOk (n : Nat) : Bool := [16, 32, 64, 128, 256, 512, 1024, 2048, 4096].contains n

/-- The host ring, and the event ring, holds uncompleted entries (R341). -/
def hostRingBusy (d : Dev) : Bool := d.ringProduced != d.ringDone
def eventRingBusy (s : State) : Bool := s.dev.eventPosted != hostGet s (s.dev.eventBase.toNat + 8) 8 && s.dev.eventEntries != 0

/-- The device after a write of a register; what a register does not accept is ignored. -/
def writeRegister (s : State) (offset : Nat) (v : DWord) : Dev :=
  let d := s.dev
  let page := v.toNat % 4096 == 0
  let size := ringSizeOk (loWord v).toNat
  match offset with
  | 0x08 => if page then { d with firmwareAddr := v } else d
  | 0x10 => if page && !hostRingBusy d then { d with ringBase := v } else d
  | 0x18 => if size && !hostRingBusy d then { d with ringEntries := loWord v } else d
  | 0x20 => { d with ringProduced := v }
  | 0x30 => if page && !eventRingBusy s then { d with eventBase := v } else d
  | 0x38 => if size && !eventRingBusy s then { d with eventEntries := loWord v } else d
  | _ => d

/-- A management register responds: in recovery only 0x0000 to 0x0008 do (R351). -/
def registerResponds (d : Dev) (offset : Nat) : Bool := d.bootState != 2 || decide (offset ≤ 0x08)

/-- What a management register that responds reads as (R341); bytes of a register that it does not name read 0. -/
def readRegister (s : State) (offset : Nat) : DWord :=
  let d := s.dev
  match offset with
  | 0x00 => BitVec.ofNat 64 (d.bootState + 256 * d.bootError)
  | 0x08 => d.firmwareAddr
  | 0x10 => d.ringBase
  | 0x18 => zextW d.ringEntries
  | 0x20 => d.ringProduced
  | 0x28 => d.ringDone
  | 0x30 => d.eventBase
  | 0x38 => zextW d.eventEntries
  | 0x40 | 0x48 | 0x50 | 0x58 => BitVec.ofNat 64 (leAt (padTo 32 Config.identityPublicKey) (offset - 0x40) 8)
  | _ => 0

/-- MANAGEMENT_REGISTER_WRITE (R341, R351). -/
def execManagementRegisterWrite (offset : Nat) (value : DWord) (s : State) : Outcome :=
  if registerResponds s.dev offset then .next (bumpFree { s with dev := writeRegister s offset value }) else .next s

/-! ### Host accesses to partition memory (R340) -/

/-- The completion status of a host access. -/
def hostStatus (s : State) (part pa len : Nat) : Nat :=
  match tget s.parts part with
  | none => 2
  | some p => if p.state = .free || p.state = .erasing then 2 else if inWindow p pa len then 0 else 1

/-- An access completes on the link. -/
def completeHost (s : State) (status : Nat) (data : List Byte) : State :=
  { s with dev := { s.dev with hostStatus := status, hostData := data } }

/-- HOST_MEMORY_WRITE (R340): published at system scope on arrival. -/
def execHostMemoryWrite (part pa : Nat) (data : List Byte) (s : State) : Outcome :=
  let st := hostStatus s part pa data.length
  if st = 0 then .next (bumpFree (completeHost (countLink (writeMem s .outside true (listAt (physKey part pa) data)) part data.length) 0 []))
  else .next (bumpFree (completeHost s st []))

/-- HOST_MEMORY_READ (R340): an acquire at system scope. -/
def execHostMemoryRead (part pa len : Nat) (s : State) : Outcome :=
  let st := hostStatus s part pa len
  if st = 0 then
    .next (bumpFree (completeHost (countLink s part len) 0 ((List.range len).map fun i => hostByte s (physKey part pa + i))))
  else .next (bumpFree (completeHost s st []))

/-! ### Rings and completions (R342) -/

/-- General statuses (R342). -/
def stExecuted : Nat := 0
def stUnknown : Nat := 0x100
def stRefused : Nat := 0x200
def stRange : Nat := 0x300
def stDestroyed : Nat := 0x400

/-- The next entry of the host ring, in host memory. -/
def hostEntry (s : State) : Nat := s.dev.ringBase.toNat + 128 * (s.dev.ringDone.toNat % s.dev.ringEntries.toNat)

/-- The next entry of a supervisor ring, in partition memory. -/
def supervisorEntry (s : State) (part : Nat) (p : Part) : Nat :=
  physKey part (p.ringBase + 64 + 128 * (memLE s (physKey part (p.ringBase + 8)) 8 % p.ringEntries))

/-- A supervisor ring holds an entry that is not completed. -/
def supervisorPending (s : State) (part : Nat) (p : Part) : Bool :=
  p.ringEntries != 0 && decide (memLE s (physKey part (p.ringBase + 8)) 8 < memLE s (physKey part p.ringBase) 8)

/-- The next command of a ring is the one named; the host's entries stand for themselves (log entry 18). -/
def commandDue (s : State) (ring : RingRef) (code part : Nat) : Bool :=
  s.dev.bootState = 1 &&
  match ring with
  | .host => s.dev.ringEntries != 0 && decide (s.dev.ringDone.toNat < s.dev.ringProduced.toNat)
  | .supervisor q =>
    match tget s.parts q with
    | some p => supervisorPending s q p && memLE s (supervisorEntry s q p) 2 == code && memLE s (supervisorEntry s q p + 4) 1 == part
    | none => false

/-- A command completes: its status is written, then the completion count advances (R342). -/
def completeCommand (s : State) (ring : RingRef) (code part status : Nat) : State :=
  match ring with
  | .host =>
    let s1 := hostPut s (hostEntry s) (bytesLE 2 code ++ bytesLE 2 status ++ bytesLE 1 part)
    { s1 with dev := { s1.dev with ringDone := s1.dev.ringDone + 1 } }
  | .supervisor q =>
    match tget s.parts q with
    | some p =>
      let s1 := writeMem s .pantry false (bytesAt (supervisorEntry s q p + 2) 2 status)
      addCounter s1 .pantry (some { scope := .pk, source := .pantry, known := Known.none }) (physKey q (p.ringBase + 8)) 1
    | none => s

/-- Bits of an operand: a mask of clusters, a nonce, a flag, or 64. -/
def operandBits (code index : Nat) : Nat := if code = 10 && index = 0 then 160 else if code = 13 && index = 0 then 256
  else if code = 4 && index = 2 then 1 else 64

/-- An operand of the next entry of a supervisor ring (R342). -/
def operandOf (s : State) (q : Nat) (p : Part) (code index : Nat) : Nat :=
  Config.operand code index (memBytes s (supervisorEntry s q p + 0x10) 112) % 2 ^ operandBits code index

/-- A command has the operands of its ring's next entry; those of the host's ring stand for themselves (log entry 18). -/
def operandsAre (s : State) (ring : RingRef) (code : Nat) (ops : List Nat) : Bool :=
  match ring with
  | .host => true
  | .supervisor q =>
    match tget s.parts q with
    | some p => (List.range ops.length).map (operandOf s q p code) == ops
    | none => false

/-- A command on a partition (R342, R343): refused on a ring that may not issue it, to another partition, or in a state where it is
not legal.  `f` gives the state and the status, or `none` while the command cannot complete yet. -/
def partCommand (ring : RingRef) (code part : Nat) (ops : List Nat) (bySup : Bool) (legal : PartState → Bool) (s : State)
    (f : State → Part → Option (State × Nat)) : Outcome :=
  if !(commandDue s ring code part && operandsAre s ring code ops) then .next s
  else
    let allowed := match ring with
      | .host => true
      | .supervisor q => bySup && q == part
    match tget s.parts part with
    | none => .next (bumpFree (completeCommand s ring code part stRefused))
    | some p =>
      if !allowed || !legal p.state then .next (bumpFree (completeCommand s ring code part stRefused))
      else
        match f s p with
        | none => .next s
        | some (s1, st) => .next (bumpFree (completeCommand s1 ring code part st))

/-- A command of the host that names no partition. -/
def deviceCommand (code part : Nat) (s : State) (f : State → State × Nat) : Outcome :=
  if !commandDue s .host code part then .next s
  else
    let (s1, st) := f s
    .next (bumpFree (completeCommand s1 .host code part st))

/-- States in which the table's rows are legal (R343). -/
def stLive (p : PartState) : Bool := p == .ready || p == .running
def stConfigured (p : PartState) : Bool := stLive p || p == .halted
def stNotFree (p : PartState) : Bool := p != .free

/-- An entry of a supervisor ring that no command of the table answers is completed: unknown, or not permitted (R342, R343). -/
def refuseEntry (s : State) (q : Nat) : State :=
  match tget s.parts q with
  | none => s
  | some p =>
    if !supervisorPending s q p then s
    else
      let code := memLE s (supervisorEntry s q p) 2
      let status := if code = 0 || 14 < code then stUnknown else stRefused
      if [3, 4, 5, 10, 13].contains code then s else completeCommand s (.supervisor q) code q status

/-- The host has posted an entry whose code names no command, and the device completes it: what an entry holds that no command event stands
for is the host's free choice (R342; log entry 18). -/
def refuseHost (s : State) : State :=
  let code := Config.freeNat 21 s.ctl.free % 65536
  if s.dev.bootState = 1 && s.dev.ringEntries != 0 && decide (s.dev.ringDone.toNat < s.dev.ringProduced.toNat) && (code = 0 || 14 < code) then
    completeCommand s .host code (Config.freeNat 22 s.ctl.free % 256) stUnknown
  else s

/-! ### Attestation (R352) -/

/-- The 256 bytes of a report. -/
def reportBytes (s : State) (part : Nat) (p : Part) (nonce : List Byte) : List Byte :=
  padTo 256 (bytesLE 4 0x00020001 ++ bytesLE 1 part ++ bytesLE 1 ((p.dies.map fun d => 2 ^ d).foldl (· + ·) 0) ++ bytesLE 2 0
    ++ padTo 32 nonce ++ padTo 32 Config.bootRomDigest ++ padTo 32 Config.firmwareDigest ++ padTo 32 Config.firmwareConfigDigest
    ++ padTo 32 p.opDigest ++ padTo 32 (Config.usagePublicKey p.usageKey) ++ bytesLE 4 Config.securityVersion.toNat ++ bytesLE 4 0
    ++ padTo 16 Config.serialNumber ++ bytesLE 8 (deviceNs s))

/-- A report with its signature. -/
def signedReport (s : State) (part : Nat) (p : Part) (nonce : List Byte) : List Byte :=
  let r := reportBytes s part p nonce
  r ++ padTo 7856 (Config.identitySignature r)

/-- ATTEST (R343, R352): to a host address, or to a virtual address of the supervisor's. -/
def execAttest (ring : RingRef) (part : Nat) (nonce : List Byte) (addr : DWord) (s : State) : Outcome :=
  partCommand ring 13 part [natLE (padTo 32 nonce), addr.toNat] true stNotFree s fun s p =>
    let bs := signedReport s part p nonce
    match ring with
    | .host => some (countLink (hostPut s addr.toNat bs) part bs.length, stExecuted)
    | .supervisor _ =>
      match translateRange s { part := part, cluster := (partClusters p).headD 0, super := true } .store addr bs.length with
      | .ok keys => some (writeMem s .pantry false (keys.zip bs), stExecuted)
      | .error _ => some (s, stRange)

/-! ### Usage records (R348 to R350) -/

/-- Bytes of an entry of a usage ring. -/
def usageEntryBytes : Nat := 20480

/-- The 128 bytes of a usage record. -/
def usageRecord (p : Part) (part : Nat) (final : Bool) (now : Nat) : List Byte :=
  let flags := (if p.haltedInPeriod then 1 else 0) + (if final then 2 else 0) + (if p.backlog then 4 else 0)
  padTo 128 (bytesLE 4 0x00010001 ++ bytesLE 1 part ++ bytesLE 1 p.dies.length ++ bytesLE 2 flags ++ bytesLE 8 p.usageSeq
    ++ bytesLE 8 p.usageStart ++ bytesLE 8 now
    ++ bytesLE 8 p.retired ++ bytesLE 8 p.arrayBusy ++ bytesLE 8 p.hbmBytes ++ bytesLE 8 p.linkBytes ++ bytesLE 8 p.microjoules
    ++ bytesLE 4 p.peakWatts ++ List.replicate 20 0 ++ padTo 32 p.usageHash)

/-- An entry of a usage ring: the record, its signature by the usage key, zeros. -/
def usageEntry (p : Part) (record : List Byte) : List Byte :=
  padTo usageEntryBytes (record ++ padTo 17088 (Config.usageSignature p.usageKey record))

/-- A usage ring has a free entry. -/
def usageRoom (s : State) (p : Part) : Bool :=
  decide (0 < p.usageEntries) && decide (p.usagePosted - hostGet s (p.usageBase + 8) 8 < p.usageEntries)

/-- An entry is written to a usage ring, then its producer count is advanced. -/
def writeUsage (s : State) (part : Nat) (p : Part) (entry : List Byte) : State :=
  let n := p.usagePosted
  let s1 := hostPut s (p.usageBase + 64 + usageEntryBytes * (n % p.usageEntries)) entry
  modPart (countLink (hostPut s1 p.usageBase (bytesLE 8 (n + 1))) part (entry.length + 8)) part fun q => { q with usagePosted := n + 1 }

/-- The host consumes one more entry of a ring, where there is one that it has not consumed (R350, R353; log entry 18). -/
def consumeNext (s : State) (base posted : Nat) : State :=
  let c := hostGet s (base + 8) 8
  if c < posted then hostPut s (base + 8) (bytesLE 8 (c + 1)) else s

/-- The host has consumed an entry of a ring that was full: its count stands one entry further (log entry 18). -/
def consumeOne (s : State) (base posted entries : Nat) : State := hostPut s (base + 8) (bytesLE 8 (posted + 1 - entries))

/-- A record closes its interval: the chain and the next interval. -/
def closeInterval (s : State) (part now : Nat) (record : List Byte) : State :=
  modPart s part fun p =>
    { p with usageSeq := p.usageSeq + 1, usageStart := now, usageHash := sha256 record, peakWatts := 0, backlog := false,
             haltedInPeriod := p.state == .halted }

/-- A usage record made now: written, or kept in the device behind those that wait; event 6 tells of a backlog (R350, R353). -/
def makeUsage (s : State) (part : Nat) (p : Part) (final : Bool) : State :=
  let now := deviceNs s
  let record := usageRecord p part final now
  let s1 := closeInterval s part now record
  let entry := usageEntry p record
  if p.usageWaiting.isEmpty && usageRoom s p then writeUsage s1 part p entry
  else
    let s2 := modPart s1 part fun q => { q with usageWaiting := q.usageWaiting ++ [entry] }
    postEvent s2 6 part (bytesLE 1 (p.usageWaiting.length + 1))

/-- USAGE_PERIOD_END (R350): with 8 records waiting the interval in progress is extended until one of them has been written. -/
def execUsagePeriodEnd (part : Nat) (s : State) : Outcome :=
  match tget s.parts part with
  | none => .next s
  | some p =>
    if decide (deviceNs s < p.usageStart + p.usagePeriod * 100000000) then .next s
    else if 8 ≤ p.usageWaiting.length then (if p.backlog then .next s else .next (bumpFree (modPart s part fun q => { q with backlog := true })))
    else .next (bumpFree (makeUsage s part p false))

/-- The first waiting usage record is written where an entry is free. -/
def postWaiting (s : State) (part : Nat) : State :=
  match tget s.parts part with
  | none => s
  | some p =>
    match p.usageWaiting with
    | [] => s
    | e :: rest => writeUsage (modPart s part fun q => { q with usageWaiting := rest }) part p e

/-- HELD_USAGE_RECORD_POST (R350): an entry has been freed by the host. -/
def execHeldUsageRecordPost (part : Nat) (s : State) : Outcome :=
  match tget s.parts part with
  | none => .next s
  | some p =>
    if p.usageWaiting.isEmpty || p.usageEntries = 0 then .next s
    else
      let s1 := if usageRoom s p then s else consumeOne s p.usageBase p.usagePosted p.usageEntries
      .next (bumpFree (postWaiting s1 part))

/-- HELD_EVENT_POST (R353): an entry of the event ring has been freed by the host. -/
def execHeldEventPost (s : State) : Outcome :=
  match s.dev.eventWaiting with
  | [] => .next s
  | bs :: rest =>
    if s.dev.eventEntries = 0 then .next s
    else
      let s1 := if eventRoom s then s else consumeOne s s.dev.eventBase.toNat s.dev.eventPosted s.dev.eventEntries.toNat
      .next (bumpFree (writeEvent { s1 with dev := { s1.dev with eventWaiting := rest } } bs))

/-! ### create, configure, destroy (R344, R346, R347) -/

/-- The dies of a mask that names an allowed group (R344). -/
def dieGroup (mask : Nat) : Option (List Nat) :=
  let dies := (List.range 8).filter fun d => mask.testBit d
  let groups : List (List Nat) :=
    (List.range 8).map (fun d => [d]) ++ (List.range 4).map (fun i => [2 * i, 2 * i + 1]) ++ [[0, 1, 2, 3], [4, 5, 6, 7], [0, 1, 2, 3, 4, 5, 6, 7]]
  if mask < 256 && groups.contains dies then some dies else none

/-- A cluster with its memories zeroed: its operating point stays, with the request that waits for a step (R276, R323). -/
def eraseCluster (c : ClusterSt) : ClusterSt :=
  { ClusterSt.reset with
    mhz := c.mhz, ratio := c.ratio, defaultRatio := c.defaultRatio, pendingRatio := c.pendingRatio, ceilingMhz := c.ceilingMhz,
    ceilingMv := c.ceilingMv, next := c.next, narrow := c.narrow, lowered := c.lowered, mv := c.mv, targetMv := c.targetMv, targetMhz := c.targetMhz, pass := c.pass, current := c.current,
    power := c.power, since := c.since, emptyAt := c.emptyAt }

/-- Every memory of a partition's dies is zeroed; Porch entries are discarded (R276). -/
def eraseDies (s : State) (part : Nat) (dies : List Nat) : State :=
  let mine (cl : Nat) : Bool := dies.contains (clusterDie cl)
  let lo := part * 2 ^ 52
  let other (k : Nat) : Bool := keyPart k != part
  { s with
    clusters := s.clusters.map fun e => if mine e.1 then (e.1, eraseCluster e.2) else e
    cores := s.cores.filter fun e => !mine (coreCluster e.1)
    mem := { s.mem with
      bytes := s.mem.bytes.clear lo (lo + 2 ^ 52)
      past := s.mem.past.filter fun x => other x.addr
      overlay := s.mem.overlay.filter fun x => other x.addr } }

/-- A partition right after its creation (R346): the operands' digest is zero until configure (R352). -/
def newPart (s : State) (dies : List Nat) (carve : List Nat) (period usageBase usageEntries : Nat) : Part :=
  { dies := dies, carveGiB := carve, state := .unconfigured, born := s.ctl.clock, haltCause := 0, haltDue := false, root := 0, queueArea := 0,
    queueRecords := 0, faultBase := 0, faultEntries := 0, posted := 0, consumed := 0, open' := [], heldRecords := [], stepWords := [], saveBase := 0,
    saveGiB := 0, ringBase := 0, ringEntries := 0, dirtyBudget := 262144, retentionUs := 200, routes := [],
    replica := none, peerDigests := [], stepWait := none, lastStep := none, digestRanges := [], heldPlacements := [],
    portMessages := [], retired := 0, arrayBusy := 0, hbmBytes := 0, linkBytes := 0, microjoules := 0, peakWatts := 0,
    usageKey := s.dev.keySeq, usageBase := usageBase, usageEntries := usageEntries, usagePeriod := if period = 0 then 10 else period,
    usageSeq := 0, usageStart := deviceNs s, usageHash := [], usagePosted := 0, usageWaiting := [], haltedInPeriod := false,
    backlog := false, opDigest := List.replicate 32 0, createOps := [], entrySeq := 0, marks := [], results := [] }

/-- The operands of configure, in the order in which R343 names them, as their bytes are hashed (R352; log entry 27). -/
def configureBytes (o : ConfigureOps) : List Byte :=
  bytesLE 8 o.root ++ bytesLE 8 o.queueArea ++ bytesLE 4 o.queueRecords ++ bytesLE 8 o.faultBase ++ bytesLE 4 o.faultEntries
    ++ bytesLE 8 o.saveBase ++ bytesLE 4 o.saveGiB ++ bytesLE 8 o.ringBase ++ bytesLE 4 o.ringEntries ++ bytesLE 4 o.dirtyBudget
    ++ bytesLE 4 o.retentionUs

/-- The operands of create, in the order of R343 (R352; log entry 27). -/
def createBytes (dieMask : Nat) (carve : List Nat) (period usageBase usageEntries : Nat) : List Byte :=
  bytesLE 1 dieMask ++ padTo 8 (carve.flatMap fun c => bytesLE 1 c) ++ bytesLE 1 period ++ bytesLE 8 usageBase ++ bytesLE 4 usageEntries

/-- The partition is created: memories erased, counters zeroed, a usage key, the creation report (R346, R352). -/
def createPart (s : State) (part dieMask : Nat) (dies : List Nat) (carve : List Nat) (period usageBase usageEntries : Nat) : State :=
  let p := { newPart s dies (carve.take dies.length) period usageBase usageEntries with
             createOps := createBytes dieMask carve period usageBase usageEntries }
  let s1 := { (eraseDies s part dies) with parts := tset s.parts part { p with usageHash := sha256 (reportBytes s part p []) } }
  let s2 := { s1 with dev := { s1.dev with keySeq := s1.dev.keySeq + 1 } }
  let r := signedReport s part p []
  countLink (hostPut s2 usageBase r) part r.length

/-- CREATE (R344, R346). -/
def execCreate (part dieMask : Nat) (carveGiB : List Nat) (period usageBase usageEntries : Nat) (s : State) : Outcome :=
  deviceCommand 1 part s fun s =>
    match dieGroup dieMask with
    | none => (s, stRange)
    | some dies =>
      if carveGiB.any (fun c => decide (149 < c)) || period > 100 || part > 255 then (s, stRange)
      else if (tget s.parts part).isSome || s.parts.any (fun e => e.2.dies.any fun d => dies.contains d) then (s, stRefused)
      else (createPart s part dieMask dies carveGiB period usageBase usageEntries, stExecuted)

/-- Records of each die's queue (R241). -/
def queueSize (o : ConfigureOps) : Nat := if o.queueRecords = 0 then 65536 else o.queueRecords

/-- The operands of configure are in range (R343); a size of 0 stands for its default where there is one. -/
def configureOk (p : Part) (o : ConfigureOps) : Bool :=
  let faults := if o.faultEntries = 0 then 1024 else o.faultEntries
  let budget := if o.dirtyBudget = 0 then 262144 else o.dirtyBudget
  let delay := if o.retentionUs = 0 then 200 else o.retentionUs
  o.root % 4096 == 0 && inWindow p o.root 4096
  && 1024 ≤ queueSize o && decide (queueSize o ≤ 2 ^ 24) && inWindow p o.queueArea (p.dies.length * queueSize o * 32)
  && o.faultBase % 4096 == 0 && [64, 128, 256, 512, 1024, 2048, 4096, 8192, 16384, 32768, 65536].contains faults
  && inWindow p o.faultBase (64 + 64 * faults)
  && inWindow p o.saveBase (o.saveGiB * 2 ^ 30)
  && 16 ≤ o.ringEntries && o.ringEntries ≤ 4096 && inWindow p o.ringBase (64 + 128 * o.ringEntries)
  && budget % 16384 == 0 && 16384 ≤ budget && budget ≤ 262144
  && 50 ≤ delay && delay ≤ 10000

/-- The entry count in the control block of a queue or a ring (R291). -/
def putEntryCount (s : State) (part base n : Nat) : State := writeMem s .pantry true (bytesAt (physKey part (base + 0x10)) 4 n)

/-- CONFIGURE (R343): the partition is ready, and its report digests the operands of its create and of this command (R352). -/
def execConfigure (part : Nat) (ops : ConfigureOps) (s : State) : Outcome :=
  partCommand .host 2 part [] false (fun st => st == .unconfigured) s fun s p =>
    if !configureOk p ops then some (s, stRange)
    else
      let faults := if ops.faultEntries = 0 then 1024 else ops.faultEntries
      let digest := sha256 (p.createOps ++ configureBytes ops)
      let s1 := modPart s part fun q =>
        { q with root := ops.root, queueArea := ops.queueArea, queueRecords := queueSize ops, faultBase := ops.faultBase,
                 faultEntries := faults, saveBase := ops.saveBase, saveGiB := ops.saveGiB, ringBase := ops.ringBase,
                 ringEntries := ops.ringEntries, dirtyBudget := if ops.dirtyBudget = 0 then 262144 else ops.dirtyBudget,
                 retentionUs := if ops.retentionUs = 0 then 200 else ops.retentionUs, state := .ready, opDigest := digest }
      some (putEntryCount (putEntryCount s1 part ops.faultBase faults) part ops.ringBase ops.ringEntries, stExecuted)

/-- Everything of a partition leaves the tables (R347). -/
def clearPart (s : State) (part : Nat) : State :=
  { s with
    gangs := s.gangs.filter fun e => e.2.part != part
    crews := s.crews.filter fun e => e.2.part != part
    mccs := s.mccs.filter fun e => ((tget s.cohorts e.1).map (·.part)) != some part
    cohorts := s.cohorts.filter fun e => e.2.part != part
    ranges := s.ranges.filter fun e => e.2.part != part
    groups := s.groups.filter fun e => e.2.part != part
    copies := s.copies.filter fun e => e.2.part != part
    pubs := s.pubs.filter fun e => e.2.part != part
    requests := s.requests.filter fun e => e.2.part != part
    messages := s.messages.filter fun e => e.2.part != part
    dev := { s.dev with digests := s.dev.digests.filter fun d => d.dest != part }
    clusters := s.clusters.map fun e => (e.1, if clusterEmpty s e.1 then e.2 else { e.2 with emptyAt := s.ctl.clock })
    parts := tdrop s.parts part }

/-- The records of a partition that wait for room in its usage ring stay in the device when it is destroyed (R347, R350). -/
def leaveUsage (s : State) (part : Nat) : State :=
  match tget s.parts part with
  | none => s
  | some p =>
    if p.usageWaiting.isEmpty then s
    else
      let u : UsageLeft := { base := p.usageBase, entries := p.usageEntries, posted := p.usagePosted, waiting := p.usageWaiting }
      { s with dev := { s.dev with usageLeft := s.dev.usageLeft ++ [u] } }

/-- The first record of a destroyed partition that waits is written where its ring has an entry free (R350). -/
def postLeft (s : State) : State :=
  match s.dev.usageLeft with
  | [] => s
  | u :: us =>
    match u.waiting with
    | [] => { s with dev := { s.dev with usageLeft := us } }
    | e :: rest =>
      if decide (0 < u.entries) && decide (u.posted - hostGet s (u.base + 8) 8 < u.entries) then
        let s1 := hostPut (hostPut s (u.base + 64 + usageEntryBytes * (u.posted % u.entries)) e) u.base (bytesLE 8 (u.posted + 1))
        { s1 with dev := { s1.dev with usageLeft := us ++ if rest.isEmpty then [] else [{ u with posted := u.posted + 1, waiting := rest }] } }
      else { s with dev := { s.dev with usageLeft := us ++ [u] } }

/-- The halt that destroys a partition; one that has no work yet posts the event all the same, and no result to come delays it (R115,
R347). -/
def haltDestroyed (s : State) (part : Nat) (p : Part) : State :=
  let s1 := if p.state == .unconfigured then modPart s part fun q => { q with haltCause := 8, haltDue := true, haltedInPeriod := true }
    else haltPart s part 8
  match tget s1.parts part with
  | some q => if q.haltDue then postEvent s1 1 part (bytesLE 1 q.haltCause) else s1
  | none => s1

/-- The commands of a supervisor ring that are not completed complete with general status 4; the fuel counts entries (R347 step 4). -/
def destroyCommands (s : State) (part : Nat) (p : Part) : Nat → State
  | 0 => s
  | n + 1 =>
    if supervisorPending s part p then
      let done := physKey part (p.ringBase + 8)
      let s1 := writeMem s .pantry false (bytesAt (supervisorEntry s part p + 2) 2 stDestroyed)
      destroyCommands (writeMem s1 .pantry false (bytesAt done 8 (memLE s done 8 + 1))) part p n
    else s

/-- DESTROY (R347): halt, final usage record, crews ended without publication, supervisor commands completed, dies erased, partition
free.  With 8 records waiting the final one waits for the ring, and the command with it (R350). -/
def execDestroy (part : Nat) (s : State) : Outcome :=
  partCommand .host 14 part [] false stNotFree s fun s p =>
    if 8 ≤ p.usageWaiting.length && p.usageEntries != 0 then none else
    let s1 := haltDestroyed s part p
    let s2 := match tget s1.parts part with
      | some q => makeUsage s1 part q true
      | none => s1
    let s3 := clearPart (leaveUsage s2 part) part
    some (eraseDies (destroyCommands s3 part p p.ringEntries) part p.dies, stExecuted)

/-! ### place, map, set root (R272, R274, R343) -/

/-- The bytes of a continuation record that a place command names: a physical address of the host, a virtual one of a supervisor;
`none` where the address is outside the windows. -/
def placeBytes (s : State) (ring : RingRef) (part : Nat) (p : Part) (record : DWord) : Option (List Byte) :=
  match ring with
  | .host => if inWindow p record.toNat 32 then some (memBytes s (physKey part record.toNat) 32) else none
  | .supervisor _ =>
    match deviceRead s { part := part, cluster := (partClusters p).headD 0, super := true } record 32 with
    | .ok bs => some bs
    | .error _ => some []

/-- PLACE (R343): result 0 placed, 1 queue area full, 2 record refused. -/
def execPlace (ring : RingRef) (part : Nat) (record : DWord) (die : Nat) (super : Bool) (s : State) : Outcome :=
  partCommand ring 3 part [record.toNat, die] true stLive s fun s p =>
    match p.dies[die]?, placeBytes s ring part p record with
    | some d, some bs =>
      let sup := super && ring == .host
      let v : View := { part := part, cluster := d * 20, super := sup || ring != .host }
      if bs.isEmpty || record.toNat % 32 != 0 then some (s, 2)
      else
        match checkCont (parseCont bs) sup fun a => deviceRead s v a launchBytes with
        | .error _ => some (s, 2)
        | .ok pl =>
          if pl.cont.join != 0 then some (s, 0)
          else if queueTakes s part d 1 then some ((placeRange s part d pl none false).2, 0)
          else some (s, 1)
    | _, _ => some (s, stRange)

/-- A fault-buffer key, or a 64 KiB page, lies in a range of addresses. -/
def inRange (lo len key : Nat) : Bool := decide (lo ≤ key * 2 ^ 16) && decide (key * 2 ^ 16 < lo + len)

/-- A TLB entry meets a range. -/
def tlbMeets (part lo len : Nat) (e : TlbEntry) : Bool := e.part == part && decide (e.va < lo + len) && decide (lo < e.va + 2 ^ e.size)

/-- Porch entries of a partition that were translated through a range (R272). -/
def through (part lo len : Nat) (e : PorchEntry) : Bool := e.part == part && e.pages.any fun pg => inRange lo len (pg % 2 ^ 41)

/-- A store of a deterministic launch is performed at its commit (R236). -/
def detEntry (s : State) (e : PorchEntry) : Bool := (tget s.gangs e.gang).any (gangDet s)

/-- An entry translated through a range cannot be published yet: a publication is under way for its gang, something stands before it, or
its commit is to come (R219, R236, R272). -/
def entryWaits (s : State) (core : Nat) (e : PorchEntry) : Bool :=
  !entryFree s core e || !(pubsOfGang s e.gang).isEmpty || detEntry s e

/-- A request translated through a range that has not been served; a wait in a Pantry's tables has been (R256, R272). -/
def requestThrough (part lo len : Nat) (r : Request) : Bool :=
  r.part == part && !r.table && r.pages.any fun pg => inRange lo len (pg % 2 ^ 41)

/-- An access translated through a range has not been performed and cannot be yet, so the invalidation is not acknowledged (R272). -/
def invalidateWaits (s : State) (part lo len : Nat) : Bool :=
  (s.cores.any fun c => c.2.porch.any fun e => through part lo len e && entryWaits s c.1 e) ||
    s.requests.any fun r => requestThrough part lo len r.2

/-- A copy has written bytes through a range that have not reached package scope (R155, R272). -/
def copyThrough (part lo len : Nat) (cp : Copy) : Bool :=
  cp.part == part && !cp.out.isEmpty && (List.range (boxCount cp.box)).any fun n =>
    [globalNibble cp n, localNibble cp n].any fun x =>
      inRange lo len (x / 2 ^ 17 % 2 ^ 41) || inRange lo len ((x + elemNibbles cp.fmt - 1) / 2 ^ 17 % 2 ^ 41)

/-- The bytes that a copy has written through a range reach package scope. -/
def passCopy (part lo len : Nat) (s : State) (e : Nat × Copy) : State :=
  if copyThrough part lo len e.2 then modCopy (publishOut s e.2) e.1 fun c => { c with out := [] } else s

/-- An invalidation acknowledged: no TLB holds the range, and what was written through it is published (R219, R272). -/
def invalidate (s : State) (part lo len : Nat) : State :=
  let s1 := { s with clusters := s.clusters.map fun c => (c.1, { c.2 with tlb := c.2.tlb.filter fun e => !tlbMeets part lo len e }) }
  let s2 := (s.cores.map (·.1)).foldl (fun s c => publishNow s c (through part lo len)) s1
  s2.copies.foldl (passCopy part lo len) s2

/-- Fault-buffer entries that a mapping request covers are released: their copies go on, gangs and MCCs stay parked (R274). -/
def releaseFaults (s : State) (part lo len : Nat) : State :=
  let covered (e : FaultEntry) : Bool := e.part == part && inRange lo len (e.key % 2 ^ 41)
  let copies := s.clusters.flatMap fun c => (c.2.faults.filter covered).flatMap fun e => e.waiters
  { s with
    clusters := s.clusters.map fun c => (c.1, { c.2 with faults := c.2.faults.filter fun e => !covered e })
    copies := s.copies.map fun e => (e.1, if copies.contains (.copy e.1) then { e.2 with held := false } else e.2) }

/-- A mapping request performed, or `none` while its conditions do not hold (R272, R274). -/
def performMap (s : State) (part lo len : Nat) (inv : Bool) : Option State :=
  if inv && invalidateWaits s part lo len then none
  else some (releaseFaults (if inv then invalidate s part lo len else s) part lo len)

/-- MAP (R272, R343). -/
def execMap (ring : RingRef) (part : Nat) (va len : DWord) (invalidate : Bool) (s : State) : Outcome :=
  partCommand ring 4 part [va.toNat, len.toNat, (boolW invalidate).toNat] true stConfigured s fun s _ =>
    if va.toNat % 65536 != 0 || len.toNat % 65536 != 0 then some (s, stRange)
    else (performMap s part (va.toNat % 2 ^ 57) len.toNat invalidate).map fun s1 => (s1, stExecuted)

/-- SET_ROOT (R343): a map with invalidation of the whole space. -/
def execSetRoot (ring : RingRef) (part root : Nat) (s : State) : Outcome :=
  partCommand ring 5 part [root] true stConfigured s fun s p =>
    if root % 4096 != 0 || !inWindow p root 4096 then some (s, stRange)
    else (performMap (modPart s part fun q => { q with root := root }) part 0 (2 ^ 57) true).map fun s1 => (s1, stExecuted)

/-! ### The other commands (R343) -/

/-- HOST_HALT (R115). -/
def execHostHalt (part : Nat) (s : State) : Outcome :=
  partCommand .host 6 part [] false (fun st => st == .running) s fun s _ => some (haltPart s part 3, stExecuted)

/-- RESUME (R316, R343): the gangs and MCCs go on, and a stepmark at which the partition was stopped completes; one that waited
for its replica when another cause halted the partition waits on.  A halt that has not been announced is awaited (R115). -/
def execResume (part : Nat) (s : State) : Outcome :=
  partCommand .host 7 part [] false (fun st => st == .halted) s fun s p =>
    if p.haltDue then none else
    let s1 := modPart s part fun q => { q with state := .running, haltCause := 0 }
    some (match p.stepWait with
      | some w => if p.haltCause = 4 then finishStep s1 part w else compareStep s1 part
      | none => s1, stExecuted)

/-- A route entry as its 64 bytes give it (R336). -/
def parseRoute (bs : List Byte) : Route :=
  { peer := bs.take 16, remotePart := leAt bs 0x10 1, flags := leAt bs 0x11 1, ports := leAt bs 0x12 2, apertureGiB := leAt bs 0x14 2,
    exportGiB := leAt bs 0x16 2, apertureBase := BitVec.ofNat 64 (leAt bs 0x18 8), remoteBase := BitVec.ofNat 64 (leAt bs 0x20 8),
    exportBase := BitVec.ofNat 64 (leAt bs 0x28 8) }

/-- Two apertures overlap; one of size 0 holds no address. -/
def aperturesMeet (x y : Route) : Bool :=
  x.apertureGiB != 0 && y.apertureGiB != 0 && decide (x.apertureBase.toNat < y.apertureBase.toNat + y.apertureGiB * 2 ^ 30)
    && decide (y.apertureBase.toNat < x.apertureBase.toNat + x.apertureGiB * 2 ^ 30)

/-- The rules of R336's table on an entry. -/
def routeOk (p : Part) (n : Nat) (bs : List Byte) (r : Route) : Bool :=
  let valid := r.flags.testBit 0
  1 ≤ n && n ≤ 255 && bs.length == 64 && fieldN r.flags 4 4 == 0 && (!valid || r.ports != 0)
  && decide (r.apertureGiB ≤ 1024) && decide (r.exportGiB ≤ 1024)
  && r.apertureBase.toNat % 2 ^ 30 == 0 && r.remoteBase.toNat % 2 ^ 30 == 0 && r.exportBase.toNat % 2 ^ 30 == 0
  && leAt bs 0x30 16 == 0
  && p.routes.all fun e => e.1 == n || !aperturesMeet e.2 r

/-- Messages in flight under a route entry are delivered before the entry changes (R343). -/
def deliverBefore (s : State) (part n : Nat) : State :=
  (s.messages.filter fun e => e.2.part == part && e.2.peer == n).foldl (fun s e => forwardMessage s e.1 e.2) s

/-- SET_ROUTE (R336, R343). -/
def execSetRoute (part entry : Nat) (bytes : List Byte) (s : State) : Outcome :=
  partCommand .host 8 part [] false stConfigured s fun s p =>
    let r := parseRoute bytes
    if !routeOk p entry bytes r then some (s, stRange)
    else some (modPart (deliverBefore s part entry) part fun q => { q with routes := tset q.routes entry r }, stExecuted)

/-- SET_REPLICA (R315, R343): a timeout of 0 stands for the default of 100 ms. -/
def execSetReplica (part peer replica timeoutUs : Nat) (s : State) : Outcome :=
  partCommand .host 9 part [] false stConfigured s fun s _ =>
    let us := if timeoutUs = 0 then 100000 else timeoutUs
    if peer = 0xFF then some (modPart s part fun q => { q with replica := none }, stExecuted)
    else if us < 1000 || 10000000 < us || 255 < peer || 255 < replica then some (s, stRange)
    else some (modPart s part fun q => { q with replica := some { peer := peer, part := replica, timeoutUs := us } }, stExecuted)

/-- The clusters of a mask. -/
def maskClusters (mask : Nat) : List Nat := (List.range 160).filter fun cl => mask.testBit cl

/-- The ratio that a request gives a cluster; 3 leaves it unchanged (R321). -/
def askedRatio (c : ClusterSt) (ratio : Nat) : Nat := if ratio = 3 then c.ratio else ratio

/-- R321's status of a request, before it is applied. -/
def operatingStatus (s : State) (own : Nat → Bool) (cls : List Nat) (mhz ratio mv : Nat) : Nat :=
  if mv != 0 && mv < 550 then 1
  else if mhz < 1000 || 1800 < mhz || mhz % 50 != 0 || cls.any (fun cl => decide (maxFront (askedRatio (getCluster s cl) ratio) < mhz)) then 2
  else if mv != 0 && cls.any (fun cl => decide (mv < neededMv mhz (askedRatio (getCluster s cl) ratio))) then 4
  else if cls.any (fun cl => !own cl) then 5
  else 0

/-- The ratio of a request: in force at once where it is the one that runs, begun in the order of R323 where the cluster is empty, and
pending otherwise, or while a step is under way (R319, R323). -/
def newRatio (c : ClusterSt) (want : Nat) (empty : Bool) : ClusterSt :=
  if want = c.ratio then { c with defaultRatio := want, pendingRatio := none }
  else if empty && !stepUnderWay c then settlePoint { c with pendingRatio := some want }
  else { c with pendingRatio := some want }

/-- An accepted request applied to a cluster; the second component tells that crews keep its ratio pending (R319, R321). -/
def applyPoint (s : State) (mhz ratio mv cl : Nat) : State × Bool :=
  let c := getCluster s cl
  let empty := clusterEmpty s cl
  let c1 := requestPoint c mhz mv
  (setCluster s cl (if ratio = 3 then c1 else newRatio c1 ratio empty), ratio != 3 && ratio != c.ratio && !empty)

/-- A request applied to every cluster of its mask; the status is 3 where a ratio is pending. -/
def applyPoints (s : State) (mhz ratio mv : Nat) (cls : List Nat) : State × Nat :=
  cls.foldl (fun a cl =>
    let (s1, p) := applyPoint a.1 mhz ratio mv cl
    (s1, if p then 3 else a.2)) (s, 0)

/-- OPERATING_POINT (R321): the host may name any cluster, a supervisor those of its partition. -/
def execOperatingPoint (ring : RingRef) (part mask mhz ratio mv : Nat) (s : State) : Outcome :=
  let body (s : State) (own : Nat → Bool) : State × Nat :=
    let cls := maskClusters mask
    if 900 < mv || 3 < ratio then (s, stRange)
    else
      let st := operatingStatus s own cls mhz ratio mv
      if st = 0 then applyPoints s mhz ratio mv cls else (s, st)
  match ring with
  | .host => deviceCommand 10 part s fun s => body s fun _ => true
  | .supervisor _ => partCommand ring 10 part [mask, mhz, ratio, mv] true (fun _ => true) s fun s p => some (body s fun cl => p.dies.contains (clusterDie cl))

/-- BUDGET_TOKEN (R330): result 0 taken, 1 refused, 2 ignored. -/
def execBudgetToken (seq watts leaseMs : Nat) (s : State) : Outcome :=
  deviceCommand 11 0 s fun s =>
    if leaseMs = 0 || 60000 < leaseMs then (s, 1)
    else if seq ≤ s.dev.leaseSeq then (s, 2)
    else
      ({ s with dev := { s.dev with budget := max 1000 (min 3600 watts), leaseSeq := seq, leaseMs := leaseMs,
                                    leaseEnd := some (s.ctl.clock + microCycles (1000 * leaseMs)) } }, 0)

/-- The fields of a slot header (R307). -/
def headerFields (h : SlotHeader) : List Nat := [h.generation, h.boundary, h.cause, h.flags, h.granules, h.crc.toNat]

/-- What the telemetry of a cluster shows (R343): the counters of R324, the overflow counts of R262, the slot headers of R307. -/
def clusterTelemetry (s : State) (cl : Nat) : List Nat :=
  let c := getCluster s cl
  c.issue ++ c.fifoFull ++ [c.laneBusy, c.arrayBusy, c.current] ++ ((clusterCores cl).map fun k => (getCore s k).overflow)
    ++ headerFields c.slotA.header ++ headerFields c.slotB.header

/-- The 4 KiB of a telemetry buffer, whose layout the spec leaves open (R343; log entry 19). -/
def telemetryBytes (s : State) : List Byte := padTo 4096 (Config.telemetry ((List.range 160).flatMap (clusterTelemetry s)))

/-- READ_TELEMETRY (R343). -/
def execReadTelemetry (hostAddr : Nat) (s : State) : Outcome :=
  deviceCommand 12 0 s fun s => (hostPut s hostAddr (telemetryBytes s), stExecuted)

/-! ### Supervisor rings served (R342) -/

/-- The next entry of a supervisor ring served with the operands that its bytes give (R342, R343). -/
def serveEntry (s : State) (q : Nat) : Outcome :=
  match tget s.parts q with
  | none => .next s
  | some p =>
    let code := memLE s (supervisorEntry s q p) 2
    let part := memLE s (supervisorEntry s q p + 4) 1
    let o (n : Nat) : Nat := operandOf s q p code n
    if !supervisorPending s q p then .next s
    else match code with
      | 3 => execPlace (.supervisor q) part (BitVec.ofNat 64 (o 0)) (o 1) false s
      | 4 => execMap (.supervisor q) part (BitVec.ofNat 64 (o 0)) (BitVec.ofNat 64 (o 1)) (o 2 == 1) s
      | 5 => execSetRoot (.supervisor q) part (o 0) s
      | 10 => execOperatingPoint (.supervisor q) part (o 0) (o 1) (o 2) (o 3) s
      | 13 => execAttest (.supervisor q) part (bytesLE 32 (o 0)) (BitVec.ofNat 64 (o 1)) s
      | _ => .next (refuseEntry s q)

end Sys2Proof.Machine
end

