-- ==== Sys2Proof/Machine/Dispatch.lean ====
section
/-! DEFINITION. The meaning of every instruction and event: one arm per constructor, each one call of its meaning. -/

namespace Sys2Proof.Machine

/-- The effect of an instruction, issued by the unit that `ctl.cur` names, or of an event. -/
def exec (i : Instr) (s : State) : Host.Outcome State Fault Refusal :=
  match i with
  | .nop => Sys2Proof.Machine.execNop s
  | .exit => Sys2Proof.Machine.execExit s
  | .yield => Sys2Proof.Machine.execYield s
  | .brk => Sys2Proof.Machine.execBrk s
  | .eret a => Sys2Proof.Machine.execEret a s
  | .icinv sc => Sys2Proof.Machine.execIcinv sc s
  | .pfence cl => Sys2Proof.Machine.execPfence cl s
  | .phase => Sys2Proof.Machine.execPhase s
  | .halt => Sys2Proof.Machine.execHalt s
  | .ret a => Sys2Proof.Machine.execRet a s
  | .trap n => Sys2Proof.Machine.execTrap n s
  | .srd d r => Sys2Proof.Machine.execSrd d r s
  | .swr a r => Sys2Proof.Machine.execSwr a r s
  | .setfmt a => Sys2Proof.Machine.execSetfmt a s
  | .winb n => Sys2Proof.Machine.execWinb n s
  | .bra x => Sys2Proof.Machine.execBra x s
  | .brz a x => Sys2Proof.Machine.execBrz a x s
  | .brnz a x => Sys2Proof.Machine.execBrnz a x s
  | .brany a x => Sys2Proof.Machine.execBrany a x s
  | .brall a x => Sys2Proof.Machine.execBrall a x s
  | .bkz a x => Sys2Proof.Machine.execBkz a x s
  | .bknz a x => Sys2Proof.Machine.execBknz a x s
  | .call a x => Sys2Proof.Machine.execCall a x s
  | .jmpk a => Sys2Proof.Machine.execJmpk a s
  | .callk d a => Sys2Proof.Machine.execCallk d a s
  | .iadd d a b => Sys2Proof.Machine.execIadd d a b s
  | .isub d a b => Sys2Proof.Machine.execIsub d a b s
  | .imul d a b => Sys2Proof.Machine.execImul d a b s
  | .imulh d a b => Sys2Proof.Machine.execImulh d a b s
  | .imulhu d a b => Sys2Proof.Machine.execImulhu d a b s
  | .imin d a b => Sys2Proof.Machine.execImin d a b s
  | .imax d a b => Sys2Proof.Machine.execImax d a b s
  | .iminu d a b => Sys2Proof.Machine.execIminu d a b s
  | .and d a b => Sys2Proof.Machine.execAnd d a b s
  | .or d a b => Sys2Proof.Machine.execOr d a b s
  | .xor d a b => Sys2Proof.Machine.execXor d a b s
  | .shl d a b => Sys2Proof.Machine.execShl d a b s
  | .shr d a b => Sys2Proof.Machine.execShr d a b s
  | .sra d a b => Sys2Proof.Machine.execSra d a b s
  | .rot d a b => Sys2Proof.Machine.execRot d a b s
  | .andn d a b => Sys2Proof.Machine.execAndn d a b s
  | .imad d a b => Sys2Proof.Machine.execImad d a b s
  | .iabsd d a b => Sys2Proof.Machine.execIabsd d a b s
  | .sel d a b => Sys2Proof.Machine.execSel d a b s
  | .bfe d a b => Sys2Proof.Machine.execBfe d a b s
  | .bfi d a b => Sys2Proof.Machine.execBfi d a b s
  | .popc d a => Sys2Proof.Machine.execPopc d a s
  | .clz d a => Sys2Proof.Machine.execClz d a s
  | .ctz d a => Sys2Proof.Machine.execCtz d a s
  | .brev d a => Sys2Proof.Machine.execBrev d a s
  | .iabs d a => Sys2Proof.Machine.execIabs d a s
  | .ineg d a => Sys2Proof.Machine.execIneg d a s
  | .not d a => Sys2Proof.Machine.execNot d a s
  | .iadd64 d a b => Sys2Proof.Machine.execIadd64 d a b s
  | .isub64 d a b => Sys2Proof.Machine.execIsub64 d a b s
  | .imul64 d a b => Sys2Proof.Machine.execImul64 d a b s
  | .shf d a b => Sys2Proof.Machine.execShf d a b s
  | .iset c d a b => Sys2Proof.Machine.execIset c d a b s
  | .iaddi d a imm => Sys2Proof.Machine.execIaddi d a imm s
  | .andi d a imm => Sys2Proof.Machine.execAndi d a imm s
  | .ori d a imm => Sys2Proof.Machine.execOri d a imm s
  | .xori d a imm => Sys2Proof.Machine.execXori d a imm s
  | .shli d a imm => Sys2Proof.Machine.execShli d a imm s
  | .shri d a imm => Sys2Proof.Machine.execShri d a imm s
  | .shriA d a imm => Sys2Proof.Machine.execShriA d a imm s
  | .iseti c d a imm => Sys2Proof.Machine.execIseti c d a imm s
  | .movi d imm => Sys2Proof.Machine.execMovi d imm s
  | .movk d a => Sys2Proof.Machine.execMovk d a s
  | .mov d a => Sys2Proof.Machine.execMov d a s
  | .idot k d a b => Sys2Proof.Machine.execIdot k d a b s
  | .imulw g d a b => Sys2Proof.Machine.execImulw g d a b s
  | .kadd d a b => Sys2Proof.Machine.execKadd d a b s
  | .ksub d a b => Sys2Proof.Machine.execKsub d a b s
  | .kmul d a b => Sys2Proof.Machine.execKmul d a b s
  | .kmulh d a b => Sys2Proof.Machine.execKmulh d a b s
  | .kmulhu d a b => Sys2Proof.Machine.execKmulhu d a b s
  | .kmin d a b => Sys2Proof.Machine.execKmin d a b s
  | .kmax d a b => Sys2Proof.Machine.execKmax d a b s
  | .kminu d a b => Sys2Proof.Machine.execKminu d a b s
  | .kand d a b => Sys2Proof.Machine.execKand d a b s
  | .kor d a b => Sys2Proof.Machine.execKor d a b s
  | .kxor d a b => Sys2Proof.Machine.execKxor d a b s
  | .kshl d a b => Sys2Proof.Machine.execKshl d a b s
  | .kshr d a b => Sys2Proof.Machine.execKshr d a b s
  | .ksra d a b => Sys2Proof.Machine.execKsra d a b s
  | .krot d a b => Sys2Proof.Machine.execKrot d a b s
  | .kandn d a b => Sys2Proof.Machine.execKandn d a b s
  | .kmad d a b => Sys2Proof.Machine.execKmad d a b s
  | .ksel d a b => Sys2Proof.Machine.execKsel d a b s
  | .kbfe d a b => Sys2Proof.Machine.execKbfe d a b s
  | .kbfi d a b => Sys2Proof.Machine.execKbfi d a b s
  | .kpopc d a => Sys2Proof.Machine.execKpopc d a s
  | .kclz d a => Sys2Proof.Machine.execKclz d a s
  | .kadd64 d a b => Sys2Proof.Machine.execKadd64 d a b s
  | .ksub64 d a b => Sys2Proof.Machine.execKsub64 d a b s
  | .kmul64 d a b => Sys2Proof.Machine.execKmul64 d a b s
  | .kmulw d a b => Sys2Proof.Machine.execKmulw d a b s
  | .kdivu d a b => Sys2Proof.Machine.execKdivu d a b s
  | .kremu d a b => Sys2Proof.Machine.execKremu d a b s
  | .kset c d a b => Sys2Proof.Machine.execKset c d a b s
  | .kaddi d a imm => Sys2Proof.Machine.execKaddi d a imm s
  | .kmovi d imm => Sys2Proof.Machine.execKmovi d imm s
  | .kshlImm d a imm => Sys2Proof.Machine.execKshlImm d a imm s
  | .kshrImm d a imm => Sys2Proof.Machine.execKshrImm d a imm s
  | .ksraImm d a imm => Sys2Proof.Machine.execKsraImm d a imm s
  | .kldt d imm => Sys2Proof.Machine.execKldt d imm s
  | .kread d a b => Sys2Proof.Machine.execKread d a b s
  | .kvoteAny d a => Sys2Proof.Machine.execKvoteAny d a s
  | .kvoteAll d a => Sys2Proof.Machine.execKvoteAll d a s
  | .kvoteBallot d a => Sys2Proof.Machine.execKvoteBallot d a s
  | .kfirst d a => Sys2Proof.Machine.execKfirst d a s
  | .spawn d a imm => Sys2Proof.Machine.execSpawn d a imm s
  | .chunk d a => Sys2Proof.Machine.execChunk d a s
  | .msgsend d a b => Sys2Proof.Machine.execMsgsend d a b s
  | .join a => Sys2Proof.Machine.execJoin a s
  | .fadd d a b => Sys2Proof.Machine.execFadd d a b s
  | .fsub d a b => Sys2Proof.Machine.execFsub d a b s
  | .fmul d a b => Sys2Proof.Machine.execFmul d a b s
  | .ffma d a b => Sys2Proof.Machine.execFfma d a b s
  | .fmin d a b => Sys2Proof.Machine.execFmin d a b s
  | .fmax d a b => Sys2Proof.Machine.execFmax d a b s
  | .fset c d a b => Sys2Proof.Machine.execFset c d a b s
  | .fclass d a => Sys2Proof.Machine.execFclass d a s
  | .frnd m d a => Sys2Proof.Machine.execFrnd m d a s
  | .cvt c d a => Sys2Proof.Machine.execCvt c d a s
  | .fpack f d a b => Sys2Proof.Machine.execFpack f d a b s
  | .fscale d a b => Sys2Proof.Machine.execFscale d a b s
  | .fdot2 f d a b => Sys2Proof.Machine.execFdot2 f d a b s
  | .fq4 d a => Sys2Proof.Machine.execFq4 d a s
  | .rxcfg a => Sys2Proof.Machine.execRxcfg a s
  | .rxbody => Sys2Proof.Machine.execRxbody s
  | .rxend => Sys2Proof.Machine.execRxend s
  | .rxabort => Sys2Proof.Machine.execRxabort s
  | .sgfork d a b => Sys2Proof.Machine.execSgfork d a b s
  | .sgreward d b => Sys2Proof.Machine.execSgreward d b s
  | .sgcancel d a b => Sys2Proof.Machine.execSgcancel d a b s
  | .sgstat d a => Sys2Proof.Machine.execSgstat d a s
  | .rcp d a l => Sys2Proof.Machine.execRcp d a l s
  | .rsqrt d a l => Sys2Proof.Machine.execRsqrt d a l s
  | .sqrt d a l => Sys2Proof.Machine.execSqrt d a l s
  | .exp2 d a l => Sys2Proof.Machine.execExp2 d a l s
  | .log2 d a l => Sys2Proof.Machine.execLog2 d a l s
  | .sinpi d a l => Sys2Proof.Machine.execSinpi d a l s
  | .cospi d a l => Sys2Proof.Machine.execCospi d a l s
  | .tanh d a l => Sys2Proof.Machine.execTanh d a l s
  | .sigmoid d a l => Sys2Proof.Machine.execSigmoid d a l s
  | .erf d a l => Sys2Proof.Machine.execErf d a l s
  | .texp d a l => Sys2Proof.Machine.execTexp d a l s
  | .idiv d a b l => Sys2Proof.Machine.execIdiv d a b l s
  | .idivu d a b l => Sys2Proof.Machine.execIdivu d a b l s
  | .irem d a b l => Sys2Proof.Machine.execIrem d a b l s
  | .iremu d a b l => Sys2Proof.Machine.execIremu d a b l s
  | .fdiv d a b l => Sys2Proof.Machine.execFdiv d a b l s
  | .digest a b => Sys2Proof.Machine.execDigest a b s
  | .stepmark d a => Sys2Proof.Machine.execStepmark d a s
  | .qend => Sys2Proof.Machine.execQend s
  | .lshfl m d a b => Sys2Proof.Machine.execLshfl m d a b s
  | .lbcast d a imm => Sys2Proof.Machine.execLbcast d a imm s
  | .leqm d a => Sys2Proof.Machine.execLeqm d a s
  | .lscan o ex d a => Sys2Proof.Machine.execLscan o ex d a s
  | .lred o d a => Sys2Proof.Machine.execLred o d a s
  | .lrank d a => Sys2Proof.Machine.execLrank d a s
  | .lpopm d a => Sys2Proof.Machine.execLpopm d a s
  | .rngnext d => Sys2Proof.Machine.execRngnext d s
  | .rngsplit a => Sys2Proof.Machine.execRngsplit a s
  | .rngu d => Sys2Proof.Machine.execRngu d s
  | .ldgB d a kb o l => Sys2Proof.Machine.execLdgB d a kb o l s
  | .ldgH d a kb o l => Sys2Proof.Machine.execLdgH d a kb o l s
  | .ldgW d a kb o l => Sys2Proof.Machine.execLdgW d a kb o l s
  | .ldgD d a kb o l => Sys2Proof.Machine.execLdgD d a kb o l s
  | .ldgQ d a kb o l => Sys2Proof.Machine.execLdgQ d a kb o l s
  | .stgB d a kb o => Sys2Proof.Machine.execStgB d a kb o s
  | .stgH d a kb o => Sys2Proof.Machine.execStgH d a kb o s
  | .stgW d a kb o => Sys2Proof.Machine.execStgW d a kb o s
  | .stgD d a kb o => Sys2Proof.Machine.execStgD d a kb o s
  | .stgQ d a kb o => Sys2Proof.Machine.execStgQ d a kb o s
  | .ldsB d a kb l => Sys2Proof.Machine.execLdsB d a kb l s
  | .ldsH d a kb l => Sys2Proof.Machine.execLdsH d a kb l s
  | .ldsW d a kb l => Sys2Proof.Machine.execLdsW d a kb l s
  | .ldsD d a kb l => Sys2Proof.Machine.execLdsD d a kb l s
  | .ldsQ d a kb l => Sys2Proof.Machine.execLdsQ d a kb l s
  | .stsB d a kb => Sys2Proof.Machine.execStsB d a kb s
  | .stsH d a kb => Sys2Proof.Machine.execStsH d a kb s
  | .stsW d a kb => Sys2Proof.Machine.execStsW d a kb s
  | .stsD d a kb => Sys2Proof.Machine.execStsD d a kb s
  | .stsQ d a kb => Sys2Proof.Machine.execStsQ d a kb s
  | .atomAdd d a kb o l => Sys2Proof.Machine.execAtomAdd d a kb o l s
  | .atomMin d a kb o l => Sys2Proof.Machine.execAtomMin d a kb o l s
  | .atomMax d a kb o l => Sys2Proof.Machine.execAtomMax d a kb o l s
  | .atomAnd d a kb o l => Sys2Proof.Machine.execAtomAnd d a kb o l s
  | .atomOr d a kb o l => Sys2Proof.Machine.execAtomOr d a kb o l s
  | .atomXor d a kb o l => Sys2Proof.Machine.execAtomXor d a kb o l s
  | .atomXchg d a kb o l => Sys2Proof.Machine.execAtomXchg d a kb o l s
  | .atomCas d a kb o l => Sys2Proof.Machine.execAtomCas d a kb o l s
  | .atomFadd d a kb o l => Sys2Proof.Machine.execAtomFadd d a kb o l s
  | .red p d a kb o => Sys2Proof.Machine.execRed p d a kb o s
  | .satom f d a b => Sys2Proof.Machine.execSatom f d a b s
  | .fence first second sc => Sys2Proof.Machine.execFence first second sc s
  | .cpyin tag ka kl bar c => Sys2Proof.Machine.execCpyin tag ka kl bar c s
  | .cpyout tag ka kl bar c => Sys2Proof.Machine.execCpyout tag ka kl bar c s
  | .cpyatt tag ka kl bar c => Sys2Proof.Machine.execCpyatt tag ka kl bar c s
  | .cpyg tag ka kl bar c => Sys2Proof.Machine.execCpyg tag ka kl bar c s
  | .tagwany a => Sys2Proof.Machine.execTagwany a s
  | .tagwall a => Sys2Proof.Machine.execTagwall a s
  | .tagff d a => Sys2Proof.Machine.execTagff d a s
  | .tagclr a => Sys2Proof.Machine.execTagclr a s
  | .barr d a b => Sys2Proof.Machine.execBarr d a b s
  | .barw d a b => Sys2Proof.Machine.execBarw d a b s
  | .barwait d a b => Sys2Proof.Machine.execBarwait d a b s
  | .barx d a b => Sys2Proof.Machine.execBarx d a b s
  | .bart d a b => Sys2Proof.Machine.execBart d a b s
  | .barp a b => Sys2Proof.Machine.execBarp a b s
  | .barq d b => Sys2Proof.Machine.execBarq d b s
  | .barcfg a b => Sys2Proof.Machine.execBarcfg a b s
  | .waitc a b => Sys2Proof.Machine.execWaitc a b s
  | .sigc a b => Sys2Proof.Machine.execSigc a b s
  | .readc d a => Sys2Proof.Machine.execReadc d a s
  | .mma sh acc ka kb side add tsp => Sys2Proof.Machine.execMma sh acc ka kb side add tsp s
  | .mmag sh acc ka g side add tsp => Sys2Proof.Machine.execMmag sh acc ka g side add tsp s
  | .mzero j => Sys2Proof.Machine.execMzero j s
  | .mdrain d a j z => Sys2Proof.Machine.execMdrain d a j z s
  | .mwait => Sys2Proof.Machine.execMwait s
  | .gset g a => Sys2Proof.Machine.execGset g a s
  | .mccRdv => Sys2Proof.Machine.execMccRdv s
  | .fork a => Sys2Proof.Machine.execFork a s
  | .rdv => Sys2Proof.Machine.execRdv s
  | .geval d a b g => Sys2Proof.Machine.execGeval d a b g s
  | .heldFaultRecordPost q => Sys2Proof.Machine.execHeldFaultRecordPost q s
  | .crewLimit => Sys2Proof.Machine.execCrewLimit s
  | .copyCompletion copy => Sys2Proof.Machine.execCopyCompletion copy s
  | .copyFault copy => Sys2Proof.Machine.execCopyFault copy s
  | .arrayExecute cohort => Sys2Proof.Machine.execArrayExecute cohort s
  | .pantryRequestServe cluster => Sys2Proof.Machine.execPantryRequestServe cluster s
  | .faultBufferRetry agent => Sys2Proof.Machine.execFaultBufferRetry agent s
  | .schedulerPlacement part die => Sys2Proof.Machine.execSchedulerPlacement part die s
  | .recordAging range => Sys2Proof.Machine.execRecordAging range s
  | .headRecordSpill range => Sys2Proof.Machine.execHeadRecordSpill range s
  | .clusterReservation range => Sys2Proof.Machine.execClusterReservation range s
  | .reservationPreempt range => Sys2Proof.Machine.execReservationPreempt range s
  | .preemptSave cohort => Sys2Proof.Machine.execPreemptSave cohort s
  | .cohortRestore cohort => Sys2Proof.Machine.execCohortRestore cohort s
  | .gangQuantumEnd gang => Sys2Proof.Machine.execGangQuantumEnd gang s
  | .quantumEnd range => Sys2Proof.Machine.execQuantumEnd range s
  | .idleQuantumEnd range => Sys2Proof.Machine.execIdleQuantumEnd range s
  | .sgDeadline group => Sys2Proof.Machine.execSgDeadline group s
  | .messageArrival m => Sys2Proof.Machine.execMessageArrival m s
  | .portBufferMessageEntry part die => Sys2Proof.Machine.execPortBufferMessageEntry part die s
  | .heldRecordEntry part die => Sys2Proof.Machine.execHeldRecordEntry part die s
  | .remoteAccess port senderPart part va len data => Sys2Proof.Machine.execRemoteAccess port senderPart part va len data s
  | .replicaDigestArrival part step digest => Sys2Proof.Machine.execReplicaDigestArrival part step digest s
  | .replicaTimeout part => Sys2Proof.Machine.execReplicaTimeout part s
  | .seal cluster cause => Sys2Proof.Machine.execSeal cluster cause s
  | .dirtyBudget cluster => Sys2Proof.Machine.execDirtyBudget cluster s
  | .supplyFailure cluster torn => Sys2Proof.Machine.execSupplyFailure cluster torn s
  | .cellarResume cluster badA badB tablesLost => Sys2Proof.Machine.execCellarResume cluster badA badB tablesLost s
  | .uncorrectableError p => Sys2Proof.Machine.execUncorrectableError p s
  | .clockGate cluster => Sys2Proof.Machine.execClockGate cluster s
  | .retentionEntry cluster => Sys2Proof.Machine.execRetentionEntry cluster s
  | .powerGating cluster => Sys2Proof.Machine.execPowerGating cluster s
  | .clusterWake cluster parityGood badA badB => Sys2Proof.Machine.execClusterWake cluster parityGood badA badB s
  | .powerSample die samples stackCurrents hot => Sys2Proof.Machine.execPowerSample die samples stackCurrents hot s
  | .supplyDroop cluster => Sys2Proof.Machine.execSupplyDroop cluster s
  | .railSettled cluster => Sys2Proof.Machine.execRailSettled cluster s
  | .leaseExpiry => Sys2Proof.Machine.execLeaseExpiry s
  | .flitCrcFailure l => Sys2Proof.Machine.execFlitCrcFailure l s
  | .linkDown l => Sys2Proof.Machine.execLinkDown l s
  | .linkTraining port peer => Sys2Proof.Machine.execLinkTraining port peer s
  | .boot c => Sys2Proof.Machine.execBoot c s
  | .managementRegisterWrite offset value => Sys2Proof.Machine.execManagementRegisterWrite offset value s
  | .hostMemoryWrite part pa data => Sys2Proof.Machine.execHostMemoryWrite part pa data s
  | .hostMemoryRead part pa len => Sys2Proof.Machine.execHostMemoryRead part pa len s
  | .create part dieMask carveGiB period usageBase usageEntries => Sys2Proof.Machine.execCreate part dieMask carveGiB period usageBase usageEntries s
  | .configure part ops => Sys2Proof.Machine.execConfigure part ops s
  | .place ring part record die super => Sys2Proof.Machine.execPlace ring part record die super s
  | .map ring part va len invalidate => Sys2Proof.Machine.execMap ring part va len invalidate s
  | .setRoot ring part root => Sys2Proof.Machine.execSetRoot ring part root s
  | .hostHalt part => Sys2Proof.Machine.execHostHalt part s
  | .resume part => Sys2Proof.Machine.execResume part s
  | .setRoute part entry bytes => Sys2Proof.Machine.execSetRoute part entry bytes s
  | .setReplica part peer replica timeoutUs => Sys2Proof.Machine.execSetReplica part peer replica timeoutUs s
  | .operatingPoint ring part mask mhz ratio mv => Sys2Proof.Machine.execOperatingPoint ring part mask mhz ratio mv s
  | .budgetToken seq watts leaseMs => Sys2Proof.Machine.execBudgetToken seq watts leaseMs s
  | .readTelemetry hostAddr => Sys2Proof.Machine.execReadTelemetry hostAddr s
  | .attest ring part nonce addr => Sys2Proof.Machine.execAttest ring part nonce addr s
  | .destroy part => Sys2Proof.Machine.execDestroy part s
  | .usagePeriodEnd part => Sys2Proof.Machine.execUsagePeriodEnd part s
  | .heldUsageRecordPost part => Sys2Proof.Machine.execHeldUsageRecordPost part s
  | .heldEventPost => Sys2Proof.Machine.execHeldEventPost s
  | .nonInstructionWord w => Sys2Proof.Machine.execNonInstructionWord w s
  | .instructionFetchFault => Sys2Proof.Machine.execInstructionFetchFault s
  | .publicationAcknowledgement pub => Sys2Proof.Machine.execPublicationAcknowledgement pub s
  | .linkRetrained l => Sys2Proof.Machine.execLinkRetrained l s

end Sys2Proof.Machine
end

