-- ==== Sys2Proof/Machine/Arbiter.lean ====
section
/-! DEFINITION. What the machine does next of its own accord: which unit issues, which event takes place, how time passes
(R24, R99, R100, R109, R115, R206, R209, R245 to R254, R268, R274, R297, R306, R310, R328, R329, R342, R350, R368, R369).
Where the spec fixes no order, the choice among what may happen is free (log entry 2). -/

namespace Sys2Proof.Machine

/-- One act of the machine. -/
inductive Act
  /-- a unit issues its next instruction -/
  | grant (i : Issuer)
  /-- an event that is due takes place: its meaning -/
  | event (f : State → Outcome)
  /-- a program reads its constant table before its first instruction (R368) -/
  | table (i : Issuer)
  /-- a spilled stack entry is read back at its merge point (R100) -/
  | refill (gid si : Nat)
  /-- SG_CANCEL at a gang's next instruction boundary (R209) -/
  | cancel (gid : Nat)
  /-- a gang is parked for a copy of its own that met a PERM (R369) -/
  | copyPark (gid si : Nat)
  /-- something else that the machine, its firmware or its host does of its own accord -/
  | own (f : State → State)

/-! ### Fetch -/

/-- The program counter, the view of memory and the fetch bound of whoever issues. -/
def actorPc : Actor → DWord
  | .gang _ _ _ sp => sp.pc
  | .mcc _ _ m => m.pc

def actorView (s : State) : Actor → View
  | .gang _ g _ _ => gangView g
  | .mcc _ c _ => mccView s c

def actorBound (s : State) : Actor → FetchBound
  | .gang _ g _ sp => splitBound s g sp
  | .mcc _ c _ => cohortBound s c

/-- The word that the unit which is granted fetches (R74, R94); `none` where no such unit is there. -/
def fetched (s : State) : Option (Except (TrapCode × Nat × DWord) Word) :=
  (issuer s).map fun a => fetchAt s (actorView s a) .fetch (actorBound s a) (actorPc a)

/-- The code line that a split runs, with what bounds its age: a line that it runs already stays as it was filled (R269; log entry 44). -/
def enterLine (q : Nat) (sp : Split) : Split :=
  if sp.line.any fun l => l.1 == sp.pc.toNat / 128 then sp else { sp with line := some (sp.pc.toNat / 128, q) }

/-- The state in which a fetched instruction executes: the cluster's TLB has taken the translation of the fetch (R272), and the split has
the line of its word (R269). -/
def afterFetch (s : State) : State :=
  match issuer s with
  | none => s
  | some a =>
    let s1 := tlbFill s (actorView s a) (actorPc a)
    match a with
    | .gang gid g si _ => modSplit s1 gid si (enterLine (gangBound s g).pk)
    | .mcc .. => s1

/-- The granted split cannot issue an instruction yet: a late landing holds a source of it (R251, R257). -/
def awaitsSource (s : State) (i : Instr) : Bool :=
  match issuer s with
  | some (.gang _ g _ sp) => heldByLanding sp && readsAwaited g sp i
  | _ => false

/-- The cells that an instruction of a split writes as it retires. -/
def cellsWritten (g : Gang) (sp : Split) (i : Instr) : List Nat :=
  (vWrites i).flatMap fun j => (lanesOf sp.mask).map fun l => (g.wbase + j) * 64 + l

/-- What an instruction leaves: the late landings of its split, where it had any, give up the registers that a retired instruction has
written (R29). -/
def afterLate (s : State) (i : Instr) (o : Outcome) : Outcome :=
  match issuer s, o with
  | some (.gang gid g si sp), .next t =>
    if heldByLanding sp && (tget t.gangs gid).any (fun x => x.rtc != g.rtc) then .next (modSplit t gid si (outlive (cellsWritten g sp i))) else o
  | _, o => o

/-- The granted unit fetches one word and executes it, once the sources of its instruction are there, or takes the trap of R74. -/
def issueNext (s : State) : Outcome :=
  match fetched s with
  | none => .next s
  | some (.error _) => execInstructionFetchFault s
  | some (.ok w) =>
    match decodeWord w.toNat with
    | some i => if awaitsSource s i then .next (afterFetch s) else afterLate s i (exec i (afterFetch s))
    | none => execNonInstructionWord w.toNat (afterFetch s)

/-! ### Who may issue (R251, R254) -/

/-- A gang may issue: it runs on an active cluster of a partition that runs, is not stopped for a save, and holds the stair unit if
its region is in its body (R277, R289, R298). -/
def mayIssue (s : State) (gid : Nat) (g : Gang) : Bool :=
  g.status == .running && isResident s g && partRuns s g.part && clusterRuns s (gangCluster g)
  && !((tget s.cohorts g.cohort).any (fun c => c.preempt) && gangStops g)
  && (regionState g != 2 || (getCore s g.core).stair == some gid)

/-- Splits in rotating order, starting at an index. -/
def rotated (turn : Nat) (sps : Tab Split) : Tab Split := sps.filter (fun p => decide (turn ≤ p.1)) ++ sps.filter fun p => decide (p.1 < turn)

/-- The ready splits of a gang, in the order of its turns. -/
def readySplits (s : State) (g : Gang) : Tab Split := (rotated g.turn g.splits).filter fun p => splitReady s g p.2

/-- A gang that has yielded may issue again: every gang that was ready has issued or is no longer ready, or 64 front-end cycles have
passed (R109). -/
def yieldOver (s : State) (gid : Nat) (g : Gang) : Bool :=
  match g.yielded with
  | none => true
  | some (others, until') => (readyGangs s g.core gid).all (fun x => !others.contains x) || decide (until' ≤ s.ctl.clock)

/-- What a gang does before it issues again, if anything. -/
def beforeIssue (gid : Nat) (g : Gang) : Option Act :=
  if g.cancelled then some (.cancel gid)
  else if g.needTable then some (.table (.gang gid 0))
  else ((g.splits.find? fun p => needsRefill p.2 && !splitOpen p.2 && p.2.wait == .none).map fun p => .refill gid p.1)

/-- The prio of a crew: the highest of its gangs that have not ended (R106). -/
def crewPrio (s : State) (wid : Nat) : Nat :=
  ((s.gangs.filter fun e => e.2.crew == wid && e.2.status != .ended).map fun e => e.2.prio).foldl max 0

/-- A candidate for an issue slot: its gang, its split, and the cycle since which it has been ready. -/
structure Candidate where
  gid : Nat
  si : Nat
  prio : Nat
  place : Nat
  last : Nat
  deriving DecidableEq, Repr

/-- The ready splits of the free-running gangs of a core. -/
def freeCandidates (s : State) (core : Nat) : List Candidate :=
  (coreGangs s core).flatMap fun e =>
    if gangDet s e.2 || !mayIssue s e.1 e.2 || !yieldOver s e.1 e.2 || (beforeIssue e.1 e.2).isSome || !e.2.copyFaults.isEmpty then []
    else (readySplits s e.2).zipIdx.map fun p =>
      { gid := e.1, si := p.1.1, prio := crewPrio s e.2.crew,
        place := (e.2.slot + 31 - (getCore s core).lastSlot) % 32 * 4 + p.2, last := p.1.2.last }

/-- The candidates of a core in the order of R251: those ready for 1,024 front-end cycles, oldest first, then by prio, then in slot
and split order from the last issue on. -/
def issueOrder (s : State) (core : Nat) : List Candidate :=
  let cs := freeCandidates s core
  let old (c : Candidate) : Bool := decide (c.last + frontCycles s (coreCluster core) 1024 ≤ s.ctl.clock)
  rankSort (fun c => c.last) (cs.filter old) ++ rankSort (fun c => (127 - min 127 c.prio) * 128 + c.place) (cs.filter fun c => !old c)

/-- The next instruction of a split stalls at issue: it would leave the machine as it is.  Such a split takes no place of its cycle, so that
a core's other gangs go on within the bound of R251 (R155, R256, R268, R277; log entry 6); in deterministic mode its gang keeps its turn
(R254). -/
def stallsAtIssue (s : State) (gid si : Nat) : Bool :=
  let s1 : State := { s with ctl := { s.ctl with cur := .gang gid si } }
  match issueNext s1 with
  | .next t => decide (t = afterFetch s1)
  | _ => false

/-- The split that a core takes next in its front-end cycle: the first in order, or, once a gang has taken the first place, the first of
another gang (R250, R251). -/
def issueNow (s : State) (core : Nat) : List Act :=
  let other (c : Candidate) : Bool := (getCore s core).half.all fun h => c.gid != h
  (((issueOrder s core).find? fun c => other c && !stallsAtIssue s c.gid c.si).map fun c => Act.grant (.gang c.gid c.si)).toList

/-- The gangs of a core's rotation in deterministic mode, in ascending gang identifier (R254). -/
def rotation (s : State) (core : Nat) : Tab Gang :=
  rankSort (fun e => rankOf s e.1) ((coreGangs s core).filter fun e => gangDet s e.2 && !e.2.qEnded && !e.2.qOut)

/-- The gang that holds the turn of a core (R254). -/
def turnHolder (s : State) (core : Nat) : Option (Nat × Gang) :=
  let r := rotation s core
  match r.find? fun e => decide ((getCore s core).detTurn ≤ rankOf s e.1) with
  | some e => some e
  | none => r.head?

/-- What the gang that holds the turn does: nothing where it cannot issue, which leaves its turn a bubble (R254); a copy's fault
parks it before the first turn of a quantum (R369). -/
def turnAct (s : State) (core : Nat) : List Act :=
  match turnHolder s core with
  | none => []
  | some (gid, g) =>
    if !mayIssue s gid g then []
    else
      match beforeIssue gid g, readySplits s g with
      | some a, _ => [a]
      | none, [] => []
      | none, p :: _ =>
        if !g.copyFaults.isEmpty && g.qCount == 0 then [.copyPark gid p.1]
        else if stallsAtIssue s gid p.1 then [] else [.grant (.gang gid p.1)]

/-- Acts of a gang outside the issue order: a cancel reaches every gang, also one that waits, and the constant tables of a crew are read at its
start (R368); the others belong to free-running gangs.  DESIGN CHOICE, on R369: a producer whose splits all stand in a blocking wait is parked for its copy's fault once one of them is ready
again, which is the next instruction boundary that it reaches (log entry 59). -/
def gangActs (s : State) (gid : Nat) (g : Gang) : List Act :=
  if g.cancelled then (if g.status == .running && isResident s g && partRuns s g.part then [.cancel gid] else [])
  else if !mayIssue s gid g then []
  else if gangDet s g then (if g.needTable then [.table (.gang gid 0)] else [])
  else
    match beforeIssue gid g, readySplits s g with
    | some a, _ => [a]
    | none, p :: _ => if g.copyFaults.isEmpty then [] else [.copyPark gid p.1]
    | none, [] => []

/-- The MCC of a cohort may issue (R165, R298). -/
def mccMayIssue (s : State) (cid : Nat) (m : Mcc) : Bool :=
  m.running && m.status == .running && m.wait == .none
  && match tget s.cohorts cid with
    | some c => !c.saved && !c.preempt && partRuns s c.part && clusterRuns s c.cluster
    | none => false

/-- The next act of an MCC. -/
def mccActs (s : State) (cid : Nat) (m : Mcc) : List Act :=
  if !mccMayIssue s cid m then [] else if m.needTable then [.table (.mcc cid)] else [.grant (.mcc cid)]

/-! ### Events that are due -/

/-- The meaning of an event. -/
abbrev Event := State → Outcome

/-- The state after an event. -/
def afterEvent (s : State) (f : Event) : State :=
  match f s with
  | .next s' => s'
  | _ => s

/-- An event does something as things stand. -/
def due (s : State) (f : Event) : Bool := decide (afterEvent s f ≠ s)

/-- A message in the port buffer of a die may go to its Pantry (R241, R256). -/
def portOpen (s : State) (die : Nat) : Bool := !queueFull s (die * 20)

/-- Events of the partitions and their dies. -/
def partEvents (s : State) (part : Nat) (p : Part) : List Event :=
  [execHeldFaultRecordPost (.partition part), execReplicaTimeout part, execUsagePeriodEnd part]
  ++ (if usageRoom s p then [execHeldUsageRecordPost part] else [])
  ++ p.dies.flatMap fun d =>
    [execSchedulerPlacement part d, execHeldRecordEntry part d] ++ if portOpen s d then [execPortBufferMessageEntry part d] else []

/-- Events of the ranges. -/
def rangeEvents (rid : Nat) : List Event :=
  [execRecordAging rid, execHeadRecordSpill rid, execClusterReservation rid, execReservationPreempt rid, execQuantumEnd rid,
   execIdleQuantumEnd rid]

/-- A held agent tries again. -/
def retryEvent : Agent → Option Event
  | .gang g => some (execFaultBufferRetry (.gang g))
  | .mcc m => some (execFaultBufferRetry (.mcc m))
  | .copy x => some (execFaultBufferRetry (.copy x))
  | .none => none

/-- Events of the clusters. -/
def clusterEvents (cl : Nat) (c : ClusterSt) : List Event :=
  [execClockGate cl, execRetentionEntry cl, execPowerGating cl, execRailSettled cl, execClusterWake cl true false false]
  ++ c.heldFaults.filterMap retryEvent

/-- Every event that may become due by itself. -/
def innerEvents (s : State) : List Event :=
  (s.parts.flatMap fun e => partEvents s e.1 e.2)
  ++ (s.ranges.flatMap fun e => rangeEvents e.1)
  ++ (s.clusters.flatMap fun e => clusterEvents e.1 e.2)
  ++ (s.copies.map fun e => execCopyFault e.1)
  ++ ((s.requests.map fun e => e.2.home).eraseDups.map execPantryRequestServe)
  ++ (s.pubs.map fun e => execPublicationAcknowledgement e.1)
  ++ (s.messages.map fun e => execMessageArrival (.inFlight e.1))
  ++ (s.cohorts.flatMap fun e => (if e.2.preempt then [execPreemptSave e.1] else []) ++ if firstRestorable s e.1 then [execCohortRestore e.1] else [])
  ++ (s.parts.map fun e s => serveEntry s e.1)
  ++ (s.gangs.map fun e => execGangQuantumEnd e.1)
  ++ (s.groups.map fun e => execSgDeadline e.1)
  ++ (s.dev.digests.map fun d => execReplicaDigestArrival d.dest d.step d.digest)
  ++ [execLeaseExpiry, execHeldFaultRecordPost .firmware] ++ (if eventRoom s then [execHeldEventPost] else [])

/-- The array of a cohort may execute its oldest instruction (R170). -/
def arrayDue (s : State) (cid : Nat) (m : Mcc) : Bool :=
  !m.queue.isEmpty && (tget s.cohorts cid).any fun c => !c.saved && partRuns s c.part && clusterRuns s c.cluster

/-- A copy may move one more element before its completion (R155, R157). -/
def mayMove (s : State) (cp : Copy) : Bool := copyFree s cp && !copyDet s cp && !(unmoved cp).isEmpty

/-- What a copy may do next: move one more element, make a plain counter add before its bytes are published, publish one of those
bytes, or complete (R155, R164). -/
def copyActs (s : State) (id : Nat) (cp : Copy) : List Act :=
  let go (f : State → State) : List Act := if decide (f s ≠ s) then [.own f] else []
  (if mayMove s cp then [.own fun s => copyAhead s id cp] else [])
  ++ (if copyFree s cp && !copyDet s cp && cp.ctr.isSome && !cp.ctrRel then go fun s => counterFirst s id cp else [])
  ++ (if cp.out.isEmpty then [] else go fun s => outAhead s id cp)
  ++ go fun s => afterEvent s (execCopyCompletion id)

/-- What the host does to its own memory: it consumes entries of the event ring and of the usage rings (R350, R353). -/
def hostActs (s : State) : List (State → State) :=
  (fun s => consumeNext s s.dev.eventBase.toNat s.dev.eventPosted)
    :: (s.parts.map fun e s => consumeNext s e.2.usageBase e.2.usagePosted)
    ++ s.dev.usageLeft.map fun u s => consumeNext s u.base u.posted

/-- What the firmware's handler writes into a record: a resume point and flags [7], of its own choice (R292, R294; log entry 39). -/
def firmwareWrites (n : Nat) (s : State) : State :=
  let a := firmwareRecordAddr n
  let k := s.ctl.free
  let flags := (s.dev.firmwareMem.read (a + 1)) &&& 0x7F ||| (Config.freeByte 20 k &&& 0x80)
  let point := (List.range 8).map fun i => Config.freeByte 20 (k * 2 ^ 8 + 1 + i)
  bumpFree (writeFirmware (writeFirmware s (a + 1) [flags]) (a + 0x10) point)

/-- Its eret on a record: the agent goes on as the bytes of the record say, unless the eret traps (R294). -/
def firmwareErets (n : Nat) (r : FaultRecord) (s : State) : State :=
  match answerRecord s r (firmwareFields s n).1 (firmwareFields s n).2 Known.none with
  | none => s
  | some s1 => closeFirmware s1 n

/-- Its consumer count moves on by one, not beyond the producer count (R291, R295). -/
def firmwareConsumes (s : State) : State :=
  if firmwareConsumed s < s.dev.firmwarePosted then writeFirmware s 8 (bytesLE 8 (firmwareConsumed s + 1)) else s

/-- What the firmware does with the records of its queue (R36, R291, R294; log entry 39). -/
def firmwareActs (s : State) : List (State → State) :=
  firmwareConsumes :: s.dev.firmwareQueue.flatMap fun e => [firmwareWrites e.1, firmwareErets e.1 e.2]

/-- Acts of no unit that issues: waits on counters that hold, ratios of empty clusters, free Attics, parent joins, clocks in the wake
order, seals from hold-up energy, halts to be announced, rings (R115, R164, R189, R268, R310, R319, R329, R342, R350). -/
def ownActs (s : State) : List (State → State) :=
  [wakeCounters, wakeDrains, refuseHost, postLeft]
  ++ (s.clusters.flatMap fun e => [fun s => settleRatio s e.1, fun s => passAttic s e.1, fun s => finishHoldUp s e.1])
  ++ (s.ranges.map fun e s => joinLater s e.1)
  ++ ((List.range 8).map fun d s => raiseNext s d)
  ++ (s.parts.map fun e s => announceHalt s e.1)
  ++ hostActs s ++ firmwareActs s

/-- Everything the machine may do next. -/
def acts (s : State) : List Act :=
  let cores := (s.gangs.map fun e => e.2.core).eraseDups
  (cores.flatMap fun c => issueNow s c ++ turnAct s c)
  ++ (s.gangs.flatMap fun e => gangActs s e.1 e.2)
  ++ (s.mccs.flatMap fun e => mccActs s e.1 e.2)
  ++ ((innerEvents s).filter (due s)).map .event
  ++ ((s.mccs.filter fun e => arrayDue s e.1 e.2).map fun e => .event (execArrayExecute e.1))
  ++ (s.copies.flatMap fun e => copyActs s e.1 e.2)
  ++ ((ownActs s).filter fun f => decide (f s ≠ s)).map .own

/-! ### Time, and taking an act -/

/-- A sample group's time runs: it is open, free-running, and a sibling stands on a cluster (R206, R297). -/
def groupRuns (s : State) (gid : Nat) (g : Group) : Bool :=
  !g.closed && !g.det && s.cohorts.any fun c => c.2.group == some gid && !c.2.saved && !c.2.ended

/-- The 64ths of a cycle of bubbles in some time, with those that the time before has left over (R326). -/
def bubbleParts (s : State) (n : Nat) : Nat := s.dev.bubbleRest + n * s.dev.bubbles

/-- The cycle from which a split's time without an issue counts moves on with the time in which it was not ready, and with bubbles
(R251, R326). -/
def shiftLast (s : State) (n : Nat) (e : Nat × Gang) : Nat × Gang :=
  (e.1, { e.2 with splits := e.2.splits.map fun p =>
    (p.1, { p.2 with last := p.2.last + if mayIssue s e.1 e.2 && splitReady s e.2 p.2 then bubbleParts s n / 64 else n }) })

/-- A core's next front-end cycle begins (R250). -/
def nextCycle (c : CoreSt) : CoreSt := { c with half := none, cycle := c.cycle + 1 }

/-- Reference cycles pass; how many is free (R24; log entry 2).  Each core begins a new front-end cycle (R250). -/
def passTime (s : State) : State :=
  let n := Config.elapsed s.ctl.free
  if n = 0 then s
  else
    let s1 : State := { s with ctl := { s.ctl with clock := s.ctl.clock + n }, gangs := s.gangs.map (shiftLast s n),
                               cores := s.cores.map fun c => (c.1, nextCycle c.2),
                               dev := { s.dev with bubbleRest := bubbleParts s n % 64 } }
    ageRecords (s.groups.foldl (fun s' e => if groupRuns s e.1 e.2 then tickGroup s' e.1 n else s') s1)

/-- The counters of a cluster on which an instruction issues: an issue cycle where it is the first of its cycle, its passes, and an
open number of stalled cycles (R324). -/
def countIssue (s : State) (cl core : Nat) (first : Bool) : State :=
  modCluster s cl fun c =>
    { c with issue := c.issue.zipIdx.map (fun x => if x.2 = core && first then x.1 + 1 else x.1),
             fifoFull := c.fifoFull.zipIdx.map (fun x => if x.2 = core then x.1 + Config.freeNat 15 s.ctl.free else x.1),
             laneBusy := c.laneBusy + c.pass }

/-- A gang has taken a place of its core's front-end cycle: the first, or the second, with which the cycle is over (R250, R251). -/
def takePlace (c : CoreSt) (gid : Nat) (g : Gang) : CoreSt :=
  let c1 : CoreSt := { c with lastSlot := g.slot }
  if c.half.isNone then { c1 with half := some gid } else nextCycle c1

/-- A unit is granted the next step; its core's rotation moves on (R251, R254). -/
def grant (s : State) (i : Issuer) : State :=
  let s1 : State := { s with ctl := { s.ctl with granted := true, cur := i } }
  match i with
  | .none => s
  | .mcc _ => s1
  | .gang gid si =>
    match tget s.gangs gid with
    | none => s
    | some g =>
      let s2 := modGang s1 gid fun x => { x with turn := si + 1, yielded := none }
      let s3 := modCore s2 g.core fun c => if gangDet s g then { c with detTurn := rankOf s gid + 1 } else takePlace c gid g
      countIssue s3 (gangCluster g) (coreIndex g.core) (gangDet s g || (getCore s g.core).half.isNone)

/-- A gang is parked with SG_CANCEL at one of its splits: one that is ready, or else its first (R209). -/
def cancelGang (s : State) (gid : Nat) : State :=
  match tget s.gangs gid with
  | none => s
  | some g =>
    match (readySplits s g ++ g.splits).head? with
    | some p => takeTrap s gid g p.1 (plainTrap .sgCancel) 0
    | none => s

/-- A gang is parked with PERM for the first of its copies' faults, flags [1] (R369). -/
def parkForCopy (s : State) (gid si : Nat) : State :=
  match tget s.gangs gid with
  | none => s
  | some g =>
    match g.copyFaults with
    | [] => s
    | (va, cause, k) :: rest =>
      if gangOpen g then s
      else
        let t : TrapInfo := { plainTrap .perm with cause := cause, access := k, addr := va }
        let g1 : Gang := { g with copyFaults := rest }
        takeTrap (setGang s gid g1) gid g1 si t 2

/-- The cluster of a gang, or of a cohort's MCC. -/
def issuerCluster (s : State) : Issuer → Nat
  | .none => 0
  | .gang gid _ => ((tget s.gangs gid).map gangCluster).getD 0
  | .mcc cid => ((tget s.cohorts cid).map (·.cluster)).getD 0

/-- A program's constant table is read. -/
def readTableOf (i : Issuer) (s : State) : State :=
  match i with
  | .none => s
  | .gang gid _ => startTable s gid
  | .mcc cid => startTableMcc s cid

/-- A spilled entry is read back. -/
def refillOf (gid si : Nat) (s : State) : State :=
  match tget s.gangs gid with
  | none => s
  | some g =>
    match tget g.splits si with
    | none => s
    | some sp => refillSplit s gid g si sp

/-- What an act changes at once: a granted unit issues in the step that follows. -/
def actChange : Act → State → State
  | .grant i, s => grant s i
  | .event f, s => afterEvent s f
  | .table i, s => readTableOf i s
  | .refill gid si, s => refillOf gid si s
  | .cancel gid, s => cancelGang s gid
  | .copyPark gid si, s => parkForCopy s gid si
  | .own f, s => f s

/-- The clusters whose shadowed state an act writes, what a granted unit then does included (R306). -/
def actTouches (s : State) (a : Act) : List Nat :=
  match a with
  | .grant i => (issuerCluster s i :: touched s (afterEvent (grant s i) issueNext)).eraseDups
  | a => touched s (actChange a s)

/-- An act is the issue of an instruction. -/
def actIssues : Act → Bool
  | .grant _ => true
  | _ => false

/-- What an act does: its writes to shadowed state are marked, or one of them stalls for the dirty budget (R306, R310). -/
def takeAct (s : State) (a : Act) : State := writeShadowed s (actTouches s a) (actIssues a) (actChange a)

/-- With nothing due from outside and no unit granted, time passes and one of the acts that may happen is taken, freely; with none
there is only the time. -/
def arbitrate (s : State) : State :=
  let s1 := passTime s
  match chooseFrom s1 11 0 (acts s1) with
  | none => bumpFree s1
  | some a => bumpFree (takeAct s1 a)

/-- The grant is used up. -/
def ungrant (s : State) : State := { s with ctl := { s.ctl with granted := false } }

/-- The inputs that are left. -/
def withInputs (s : State) (es : List Instr) : State := { s with ctl := { s.ctl with inputs := es } }

/-- The clusters whose shadowed state an input writes, but for those that it seals itself (R306, R310). -/
def inputTouches (s t : State) : List Nat :=
  (touched s t).filter fun cl => (activeSlot (getCluster t cl)).header.generation == (activeSlot (getCluster s cl)).header.generation

/-- An input takes place: its writes to shadowed state are marked, or one of them stalls for the dirty budget, and the input with it (R306,
R310). -/
def takeInput (s : State) (e : Instr) (rest : List Instr) : Outcome :=
  let s1 := withInputs s rest
  match exec e s1 with
  | .next t =>
    let cls := inputTouches s1 t
    match cls.find? (budgetSeals s) with
    | some cl => .next (sealCluster s cl 3)
    | none => exec e (cls.foldl markDirty s1)
  | o => o

/-! ### A word placed for the next step -/

/-- The address of the placed word. -/
def wordAddr : Nat := 0x100000

/-- Matrix words, which only the MCC runs (R73). -/
def mccWord : Instr → Bool
  | .mma .. | .mmag .. | .mzero _ | .mdrain .. | .mwait | .mccRdv => true
  | _ => false

/-- Page tables for the first GiB of the virtual space, in the first pages of the partition: read, write, execute. -/
def placedTables : List (Nat × Byte) :=
  listAt 0x1000 (bytesLE 8 (0x2000 + 3)) ++ listAt 0x2000 (bytesLE 8 (0x3000 + 3)) ++ listAt 0x3000 (bytesLE 8 0x3D)

/-- The launch record of the placed program. -/
def placedLaunch : Launch :=
  { entry := BitVec.ofNat 64 wordAddr, table := 0, seed := 0, widths := [0, 0, 0, 0, 0], gangs := 1, crews := 1, producer := 0,
    det := false, durable := false, quantum := 0, limit := 0, prio := 0, ratio := 0, regs := 256, scratch := 65536, tiles := 4 }

/-- The range of the placed program, under supervisor rights so that a privileged word acts. -/
def placedRange : Range :=
  { part := 0, die := 0, level := 0, entry := 0, time := 0, aged := 0, cursor := 1, count := 1, launch := placedLaunch,
    launchAddr := 0, frame := 0x200000, parent := 0, super := true, pinned := false, spill := false, group := none, cancelled := [],
    ended := [], returned := [], bars := freshBarriers 4 1, barHome := 0, quantum := 0, qStart := 0, placed := 0, holds := [],
    queued := false, done := false, joined := false, joinDue := false }

/-- The cohort of the placed program. -/
def placedCohort : Cohort :=
  { part := 0, range := 0, index := 0, cluster := 0, crews := [0], bars := freshBarriers 8 1, attic := false, seq := 0, preempt := false,
    saved := false, savedAttic := [], answers := [], ended := false, group := none, ratio := 2, outAt := 0 }

/-- The crew of the placed program. -/
def placedCrew : Crew :=
  { part := 0, range := 0, cohort := 0, index := 0, core := 0, gangs := [0], scratch := [], olds := [], acc := [],
    bars := freshBarriers 16 1, rdy := 0, tags := [], tagAt := [], ended := false, share := true }

/-- The gang of the placed program at its first word, its constant table read. -/
def placedGang (now : Nat) : Gang := { freshGang placedRange 0 0 0 0 0 0 0 now with needTable := false }

/-- The MCC at the placed word. -/
def placedMcc : Mcc :=
  { running := true, pc := BitVec.ofNat 64 wordAddr, k := [], gens := [], fmt := 0, fpf := 0, fpfNew := 0, rtc := 0, srseed := 0, queue := [],
    wait := .none, status := .running, needTable := false }

/-- The partition of the placed program: die 0, its tables at 0x1000, a fault queue. -/
def placedPart (s : State) : Part :=
  { newPart s [0] [0] 10 0 0 with state := .running, root := 0x1000, queueArea := 0x10000, queueRecords := 1024, faultBase := 0x8000,
                                  faultEntries := 64 }

/-- A state whose next step fetches this word: partition 0 runs a program of one gang, or of the MCC for its own words, at a word
of its memory (log entry 1). -/
def placeWord (s : State) (nbits w : Nat) : State :=
  let onMcc := match decodeTableWord nbits w with
    | some i => mccWord i
    | none => false
  let s1 := modCore s 0 fun c => { c with icBound := s.mem.seq, icCluster := 0 }
  let s2 := modCluster s1 0 fun c => { c with mccBound := s.mem.seq, mccCluster := 0, tlb := [] }
  { s2 with
    ctl := { s.ctl with inputs := [], granted := true, cur := if onMcc then .mcc 0 else .gang 0 0 }
    mem := { s.mem with bytes := s.mem.bytes.writes (placedTables ++ listAt wordAddr (bytesOfWord w)) }
    parts := tset s.parts 0 (placedPart s)
    ranges := tset s.ranges 0 { placedRange with placed := s.mem.seq }
    cohorts := tset s.cohorts 0 placedCohort
    crews := tset s.crews 0 placedCrew
    gangs := tset s.gangs 0 (placedGang s.ctl.clock)
    mccs := if onMcc then tset s.mccs 0 placedMcc else tdrop s.mccs 0 }

end Sys2Proof.Machine
end

