-- ==== Sys2Proof/Machine/Step.lean ====
section
/-! DEFINITION. One step: an input that is due, or the instruction of the unit that was granted, or the machine's own next act. -/

namespace Sys2Proof.Machine

/-- One step of the machine. -/
def step (s : State) : Host.Outcome State Fault Refusal :=
  match s.ctl.inputs with
  | e :: rest => takeInput s e rest
  | [] => if s.ctl.granted then issueNext (ungrant s) else .next (arbitrate s)

/-- A state whose next step fetches and runs the instruction with these bits (log entry 1). -/
def State.withFetchWord (s : State) (nbits w : Nat) : State := placeWord s nbits w

end Sys2Proof.Machine
end

