-- ==== Sys2Proof/Safety.lean ====
section
/-! DEFINITION. The terms that claims are made in: who issues, what lets an instruction have its own effect, and what it leaves
behind when it retires.  A safe run of this machine is one whose steps all answer a next state, in memory of canonical form. -/

namespace Sys2Proof.Machine

/-! ### Who issues, and what stands in the way -/

/-- Split `si` of gang `gid` is the unit that issues. -/
structure Issues (s : State) (gid : Nat) (g : Gang) (si : Nat) (sp : Split) : Prop where
  cur : s.ctl.cur = .gang gid si
  gang : tget s.gangs gid = some g
  split : tget g.splits si = some sp

/-- The MCC that runs the program of cohort `cid` is the unit that issues (R165). -/
structure MccIssues (s : State) (cid : Nat) (c : Cohort) (m : Mcc) : Prop where
  cur : s.ctl.cur = .mcc cid
  cohort : tget s.cohorts cid = some c
  mcc : tget s.mccs cid = some m

/-- Nothing stops an instruction that names the v fields `vs` before it executes: its registers are allocated (R18), the crew limit is not
reached (R249), and a region's body may hold it (R196). -/
structure Clear (s : State) (g : Gang) (sp : Split) (vs : List Nat) (b : InBody) : Prop where
  window : outOfWindow g vs = false
  limit : limitReached s g.range g.rtc = false
  region : breaksRegion g b = false

/-- The gang and the split at an instruction that closes its windows: their pending writes have landed (R29). -/
def closedGang (g : Gang) (si : Nat) : Gang := landSplit g si
def closedSplit (sp : Split) : Split := { sp with pend := [] }

/-- The same for an instruction that closes the windows of its split, whose results have all come back. -/
structure ClearClosing (s : State) (g : Gang) (si : Nat) (sp : Split) (vs : List Nat) (b : InBody) : Prop where
  back : splitOpen sp = false
  window : outOfWindow (closedGang g si) vs = false
  limit : limitReached s (closedGang g si).range (closedGang g si).rtc = false
  region : breaksRegion (closedGang g si) b = false

/-! ### What a retirement leaves -/

/-- No pending write of a gang names this register cell. -/
def NoWindowOn (g : Gang) (c : Nat) : Prop := ∀ e ∈ g.splits, ∀ p ∈ e.2.pend, ∀ w ∈ p.writes, w.1 ≠ c

/-- No pending write of a gang carries flags. -/
def NoFlagsPending (g : Gang) : Prop := ∀ e ∈ g.splits, ∀ p ∈ e.2.pend, p.flags = 0

/-- A split waits at its merge point: its writes have landed, and lanes of its record's join mask are still to come (R99). -/
def WaitsToMerge (g : Gang) (sp : Split) : Prop :=
  sp.pend = [] ∧ ∃ e rest, sp.recs = e :: rest ∧ e.stack = none ∧
    e.join &&& ~~~((standing g e).foldl (fun m x => m ||| x.2.mask) 0#64 ||| g.exited) ≠ 0

/-- The gang with its split `si` at an address. -/
def movedTo (g : Gang) (si : Nat) (npc : DWord) : Gang := { g with splits := tmod g.splits si fun q => { q with pc := npc } }

/-- No split listed as `j` stands at its merge point. -/
def Underway (g : Gang) (j : Nat) : Prop := ∀ e ∈ g.splits, e.1 = j → atMerge e.2 = false

/-- No merge takes place, and no split goes over to its other path (R98, R99): the splits that stand at a merge point wait there, and split
`si` is none of them. -/
def NoMerge (g : Gang) (si : Nat) : Prop :=
  risingFrom 0 g.splits = true ∧ ∀ e ∈ g.splits, atMerge e.2 = true → e.1 ≠ si ∧ WaitsToMerge g e.2

/-- The gang `g'` that the retirement of split `si` towards `npc` leaves of a gang `g` as its instruction made it: but for windows
that land, its registers and flags are those of `g`; rtc is one more (R25); the split stands at `npc` unless that is its own merge point
(R99); another split stays as it is where it stands at no merge point, and every other one does where no merge takes place; all else is as in
`g`. -/
structure GangAfter (g g' : Gang) (si : Nat) (npc : DWord) : Prop where
  regs : ∀ c, NoWindowOn g c → cget g'.v c = cget g.v c
  flags : NoFlagsPending g → g'.fpf = g.fpf
  place : Underway (movedTo g si npc) si →
    (tget g'.splits si).map (fun q => (q.pc, q.mask, q.fmt, q.recs)) =
      (tget g.splits si).map (fun q => (npc, q.mask, q.fmt, q.recs))
  others : ∀ j, j ≠ si → Underway g j → tget g'.splits j = tget g.splits j
  waiting : NoMerge (movedTo g si npc) si → ∀ j, j ≠ si → tget g'.splits j = tget g.splits j
  rest : g' = { g with v := g'.v, fpf := g'.fpf, rtc := g.rtc + 1, qCount := g'.qCount, qEnded := g'.qEnded, splits := g'.splits,
                       nextSeg := g'.nextSeg }

/-- One retired instruction is counted for its cluster and its partition, and for nobody else (R25, R348). -/
structure Counted (s t : State) (part cluster : Nat) : Prop where
  clusters : ∀ c, getCluster t c = if c = cluster then { getCluster s c with retired := (getCluster s c).retired + 1 } else getCluster s c
  parts : ∀ p, tget t.parts p = (tget s.parts p).map fun q => if p = part then { q with retired := q.retired + 1 } else q

/-- State `t` is state `s` after the instruction of split `si` of gang `gid`, which made the gang `g`, has retired towards `npc`:
memory, every other unit and every table but these is as in `s`; other gangs of the core may count the issue of this one for a
yield (R109). -/
structure Retired (s t : State) (gid : Nat) (g : Gang) (si : Nat) (npc : DWord) : Prop where
  gang : ∃ g', tget t.gangs gid = some g' ∧ GangAfter g g' si npc
  others : ∀ h, h ≠ gid → (tget t.gangs h).map (fun x => { x with yielded := none }) =
    (tget s.gangs h).map (fun x => { x with yielded := none })
  counted : Counted s t g.part (gangCluster g)
  rest : t = { s with gangs := t.gangs, clusters := t.clusters, parts := t.parts, ctl := { s.ctl with free := s.ctl.free + 1 } }

/-- State `t` is state `s` after the instruction of the MCC of cohort `cid`, which made the MCC `m`, has retired towards `npc`. -/
structure MccRetired (s t : State) (cid : Nat) (c : Cohort) (m : Mcc) (npc : DWord) : Prop where
  mcc : tget t.mccs cid = some { m with rtc := m.rtc + 1, pc := npc, wait := .none }
  others : ∀ h, h ≠ cid → tget t.mccs h = tget s.mccs h
  counted : Counted s t c.part c.cluster
  rest : t = { s with mccs := t.mccs, clusters := t.clusters, parts := t.parts, ctl := { s.ctl with free := s.ctl.free + 1 } }

/-! ### Claims about one instruction -/

/-- The state in which an instruction of a gang executes: its gang as its issue has left it. -/
def atIssue (s : State) (gid : Nat) (g : Gang) : State := setGang s gid g

/-- Wherever split `si` of a gang issues instruction `i` with its checks passed and `pre` true, `i` answers a next state, of which
`post` holds.  `vs` and `b` are the v fields and the region rights that its checks look at. -/
def OnGang (i : Instr) (vs : List Nat) (b : InBody) (pre : State → Nat → Gang → Nat → Split → Prop)
    (post : State → Nat → Gang → Nat → Split → State → Prop) : Prop :=
  ∀ s gid g si sp, Issues s gid g si sp → Clear s g sp vs b → pre (atIssue s gid g) gid g si sp →
    ∃ t, exec i s = .next t ∧ post (atIssue s gid g) gid g si sp t

/-- The same for an instruction that closes the windows of its split. -/
def OnGangClosing (i : Instr) (vs : List Nat) (b : InBody) (pre : State → Nat → Gang → Nat → Split → Prop)
    (post : State → Nat → Gang → Nat → Split → State → Prop) : Prop :=
  ∀ s gid g si sp, Issues s gid g si sp → ClearClosing s g si sp vs b →
    pre (atIssue s gid (closedGang g si)) gid (closedGang g si) si (closedSplit sp) →
      ∃ t, exec i s = .next t ∧ post (atIssue s gid (closedGang g si)) gid (closedGang g si) si (closedSplit sp) t

/-- The same on the MCC, below its crew limit. -/
def OnMcc (i : Instr) (pre : State → Nat → Cohort → Mcc → Prop) (post : State → Nat → Cohort → Mcc → State → Prop) : Prop :=
  ∀ s cid c m, MccIssues s cid c m → limitReached s c.range m.rtc = false → pre s cid c m →
    ∃ t, exec i s = .next t ∧ post s cid c m t

/-- An instruction of a gang has made the gang `make` of its gang, and has retired towards the next instruction; nothing else has
changed. -/
def Makes (make : State → Gang → Split → Gang) (s : State) (gid : Nat) (g : Gang) (si : Nat) (sp : Split) (t : State) : Prop :=
  Retired s t gid (make s g sp) si (nextPc sp.pc)

/-- The same of an instruction on the k registers of either side. -/
def MakesK (i : Instr) (f : Cells 32 → Cells 32) : Prop :=
  OnGang i [] none (fun _ _ _ _ _ => True) (Makes fun _ g _ => { g with k := f g.k })
  ∧ OnMcc i (fun _ _ _ _ => True) fun s cid c m t => MccRetired s t cid c { m with k := f m.k } (nextPc m.pc)

/-- Instruction `i` writes `f` to register `d` of every active strand and does nothing else. -/
def WritesLanes (i : Instr) (vs : List Nat) (b : InBody) (d : Nat) (f : State → Gang → Split → Nat → Word) : Prop :=
  OnGang i vs b (fun _ _ _ _ _ => True) (Makes fun s g sp => perLane g sp.mask d (f s g sp))

/-- Instruction `i` writes `f` to the pair vd:d+1 of every active strand and does nothing else. -/
def WritesPairs (i : Instr) (vs : List Nat) (b : InBody) (d : Nat) (f : State → Gang → Split → Nat → DWord) : Prop :=
  OnGang i vs b (fun _ _ _ _ _ => True) (Makes fun s g sp => perLanePair g sp.mask d (f s g sp))

/-- Instruction `i` writes the results of `f` to register `d` of every active strand and ORs their flags into fpf. -/
def WritesFloats (i : Instr) (vs : List Nat) (b : InBody) (d : Nat) (f : State → Gang → Split → Nat → Word × Flags) : Prop :=
  OnGang i vs b (fun _ _ _ _ _ => True) (Makes fun s g sp =>
    perLaneFlags (perLane g sp.mask d fun l => (f s g sp l).1) sp.mask fun l => (f s g sp l).2)

/-- Instruction `i` opens a window: the results of `f` land in register `d` of every active strand, with their flags, after `la`
more instructions of the split (R29). -/
def OpensWindow (i : Instr) (vs : List Nat) (d la : Nat) (f : State → Gang → Split → Nat → Word × Flags) : Prop :=
  ∀ s gid g si sp, Issues s gid g si sp → Clear s g sp vs (some [d]) →
    ∃ t, exec i s = .next t ∧ Retired (atIssue s gid g) t gid
      (openPending g si { left := la + 1, writes := laneWrites g sp.mask d (fun l => (f s g sp l).1),
                          flags := flUnion ((lanesOf sp.mask).map fun l => (f s g sp l).2), replies := [], slots := 0,
                          acquire := none, dst := [], dead := [] }) si (nextPc sp.pc)

/-- V(s, d) ← f(x, y), and the other operand forms of R84 to R91. -/
def Lanes2 (mk : Nat → Nat → Nat → Instr) (f : Word → Word → Word) : Prop :=
  ∀ d a b, WritesLanes (mk d a b) [d, a, b] (some [d]) d fun _ g _ l => f (vget g a l) (vget g b l)
def Lanes3 (mk : Nat → Nat → Nat → Instr) (f : Word → Word → Word → Word) : Prop :=
  ∀ d a b, WritesLanes (mk d a b) [d, a, b] (some [d]) d fun _ g _ l => f (vget g a l) (vget g b l) (vget g d l)
def Lanes1 (mk : Nat → Nat → Instr) (f : Word → Word) : Prop :=
  ∀ d a, WritesLanes (mk d a) [d, a] (some [d]) d fun _ g _ l => f (vget g a l)
def LanesImm (mk : Nat → Nat → Nat → Instr) (f : Word → Nat → Word) : Prop :=
  ∀ d a i, WritesLanes (mk d a i) [d, a] (some [d]) d fun _ g _ l => f (vget g a l) i
def Pairs2 (mk : Nat → Nat → Nat → Instr) (f : DWord → DWord → DWord) : Prop :=
  ∀ d a b, WritesPairs (mk d a b) [d, d + 1, a, a + 1, b, b + 1] (some [d, d + 1]) d fun _ g _ l => f (vpair g a l) (vpair g b l)

/-- K(d) ← f of K(a), K(b) and K(d), and the other operand forms of R92 and R93. -/
def Uniform2 (mk : Nat → Nat → Nat → Instr) (f : Word → Word → Word) : Prop :=
  ∀ d a b, MakesK (mk d a b) fun k => cset k d (f (cget k a) (cget k b))
def Uniform3 (mk : Nat → Nat → Nat → Instr) (f : Word → Word → Word → Word) : Prop :=
  ∀ d a b, MakesK (mk d a b) fun k => cset k d (f (cget k a) (cget k b) (cget k d))
def Uniform1 (mk : Nat → Nat → Instr) (f : Word → Word) : Prop := ∀ d a, MakesK (mk d a) fun k => cset k d (f (cget k a))
def UniformImm (mk : Nat → Nat → Nat → Instr) (f : Word → Nat → Word) : Prop :=
  ∀ d a i, MakesK (mk d a i) fun k => cset k d (f (cget k a) i)
def UniformPairs (mk : Nat → Nat → Nat → Instr) (f : DWord → DWord → DWord) : Prop :=
  ∀ d a b, MakesK (mk d a b) fun k => setKPair k d (f (kPair k a) (kPair k b))

/-- The floating-point operand forms, with the rounding control of the strand for element 0 (R118). -/
def Floats2 (mk : Nat → Nat → Nat → Instr) (f : RoundCtl → Word → Word → Word × Flags) : Prop :=
  ∀ d a b, WritesFloats (mk d a b) [d, a, b] (some [d]) d fun s g sp l => f (strandCtl s g sp l 0) (vget g a l) (vget g b l)
def Floats3 (mk : Nat → Nat → Nat → Instr) (f : RoundCtl → Word → Word → Word → Word × Flags) : Prop :=
  ∀ d a b, WritesFloats (mk d a b) [d, a, b] (some [d]) d fun s g sp l =>
    f (strandCtl s g sp l 0) (vget g a l) (vget g b l) (vget g d l)
def Floats1 (mk : Nat → Nat → Instr) (f : RoundCtl → Word → Word × Flags) : Prop :=
  ∀ d a, WritesFloats (mk d a) [d, a] (some [d]) d fun s g sp l => f (strandCtl s g sp l 0) (vget g a l)

/-- A state in which a publication instruction goes on: where its launch is durable, a seal comes first, once the results of its cluster
have come (R237, R308; log entry 31). -/
structure Sealed (s : State) (gid : Nat) (g : Gang) (si : Nat) (s1 : State) (g1 : Gang) (sp1 : Split) : Prop where
  ready : gangDurable s g = true → sealReady s (gangCluster g) = true
  state : s1 = if gangDurable s g then sealCluster s (gangCluster g) 0 else s
  gang : tget s1.gangs gid = some g1
  split : tget g1.splits si = some sp1

/-- The instruction of split `si` waits: nothing but the wait of its split, and in deterministic mode the end of its quantum, has
changed (R252). -/
def Waits (s t : State) (gid si : Nat) (w : Wait) (det : Bool) : Prop :=
  t = modGang s gid fun g => { g with qEnded := g.qEnded || det, splits := tmod g.splits si fun sp => { sp with wait := w } }

/-- The instruction of split `si` has sent a request of this kind, for which its split waits; memory and the registers of its gang
are as they were (R186, R256, R257). -/
def Asks (s t : State) (gid : Nat) (g : Gang) (si : Nat) (kind : ReqKind) : Prop :=
  ∃ id r g', tget t.requests id = some r ∧ r.kind = kind ∧ r.gang = gid ∧ r.split = si ∧ tget t.gangs gid = some g'
    ∧ (tget g'.splits si).map (fun q => (q.pc, q.wait)) = (tget g.splits si).map (fun q => (q.pc, .reply id))
    ∧ g'.v = g.v ∧ g'.k = g.k ∧ g'.rtc = g.rtc ∧ t.mem = s.mem

/-- A command of the host ring has completed with a status: it is written over the entry's status field, and the completion count
has advanced by 1 (R342). -/
def HostCompletes (s t : State) (status : Nat) : Prop :=
  t.dev.ringDone = s.dev.ringDone + 1 ∧ hostGet t (hostEntry s + 2) 2 = status

/-- A split but for what it has acquired and observed, and the copies that its fences have ordered (R151, R223, R225, R226). -/
def bare (q : Split) : Split := { q with known := Known.none, acqs := [], seen := [], saw := [], after := [], near := [] }

/-- A gang has learned through its acquires and loads, and may have a request in the log of its quantum; its registers and the places of
its splits are as they were. -/
def Learned (g g' : Gang) : Prop :=
  g' = { g with splits := g'.splits, qLog := g'.qLog }
    ∧ g'.splits.map (fun e => (e.1, bare e.2)) = g.splits.map (fun e => (e.1, bare e.2))

/-- The state after the refresh that an instruction of a split makes, if it makes one (R221). -/
def refreshedBy (s : State) (gid si core : Nat) (refresh : Option Scope) : State :=
  match refresh with
  | some sc => refreshSplit s gid si core sc
  | none => s

/-- The instruction of split `si` has made the state `u`, in which its gang has learned what it acquires, and has retired. -/
def RetiredFrom (u t : State) (gid : Nat) (g : Gang) (si : Nat) (npc : DWord) : Prop :=
  ∃ g', tget u.gangs gid = some g' ∧ Learned g g' ∧ Retired u t gid g' si npc

/-- Every byte of memory, published or on its way to a scope, is as it was. -/
def SameMemory (s t : State) : Prop := t.mem = s.mem

/-! ### Traps -/

/-- Gang `gid` is parked by a trap described by `i` at its split `si`, its writes landed (R31, R33), and the record of the trap is
posted (R36); nothing of the gang retires. -/
def Trapped (s t : State) (gid : Nat) (g : Gang) (si : Nat) (sp : Split) (i : TrapInfo) : Prop :=
  let s2 := modGang (setGang s gid (landGang g)) gid fun x => { x with status := .parked }
  t = bumpFree (postRecord s2 g.part (g.level != .user) (gangRecord s2 gid g si sp i 0))

/-- The MCC of cohort `cid` is parked by a trap, and its record is posted with flags [0] (R33, R175). -/
def MccTrapped (s t : State) (cid : Nat) (c : Cohort) (m : Mcc) (i : TrapInfo) : Prop :=
  let s2 := modMcc s cid fun x => { x with status := .parked }
  t = bumpFree (postRecord s2 c.part (cohortSuper s c) (mccRecord s2 cid c m i))

/-! ### Invariants -/

/-- Partition memory and host memory are in canonical form. -/
def CanonicalMemory (s : State) : Prop := s.mem.bytes.wf = true ∧ s.mem.host.wf = true

end Sys2Proof.Machine
end

