-- ==== Sys2Proof/Certificates/Slice0/Obligations.lean ====
section
/-! DEFINITION. The statements for the provers. -/

open Sys2Proof Sys2Proof.Machine

/-! ### The machine -/

namespace Sys2Proof

/-- R341, R319, R322, R327, R330, R347: at power-on the device is booting with no boot error, its rings are empty, its budget is the
floor of 1,800 W, every stack has 16 activations per window; a cluster stands at 1,650 MHz, ratio 2 and 750 mV with one pass per
macro-instruction; there is no partition.  That a cluster is active, its Cellar slots of generation 0 and its Attic empty at power-on is
the model's choice (log entry 4). -/
def ResetRegisters : Prop :=
  State.reset.dev.bootState = 0 ∧ State.reset.dev.bootError = 0 ∧ State.reset.dev.ringEntries = 0 ∧ State.reset.dev.ringDone = 0
  ∧ State.reset.dev.ringProduced = 0 ∧ State.reset.dev.eventEntries = 0 ∧ State.reset.dev.budget = 1800
  ∧ State.reset.dev.leaseEnd = none ∧ State.reset.dev.windows = List.replicate 16 16
  ∧ (∀ c, (getCluster State.reset c).mhz = 1650 ∧ (getCluster State.reset c).ratio = 2 ∧ (getCluster State.reset c).mv = 750
      ∧ (getCluster State.reset c).pass = 1 ∧ (getCluster State.reset c).power = .active
      ∧ (getCluster State.reset c).slotA.header.generation = 0 ∧ (getCluster State.reset c).slotB.header.generation = 0
      ∧ (getCluster State.reset c).attic = [])
  ∧ State.reset.parts = [] ∧ State.reset.gangs = [] ∧ State.reset.requests = [] ∧ State.reset.ctl.granted = false

/-- Memory at reset is in canonical form, and every byte reads 0 (log entry 3 for host memory, R276 for the device's). -/
def ResetMemory : Prop :=
  CanonicalMemory State.reset ∧ (∀ a, State.reset.mem.bytes.read a = 0) ∧ ∀ a, State.reset.mem.host.read a = 0

end Sys2Proof

/-- R276, R319, R322, R327, R330, R341, R347: the machine right after reset: its registers, and its memory; the clauses on the power state,
the Cellar's slots and the Attic are the model's choice (log entry 4), as is that host memory reads 0 (log entry 3). -/
def Obligations.ResetState : Prop :=
  ResetRegisters ∧ ResetMemory

/-- Every step keeps memory in its canonical form: addresses strictly rising, no byte listed that holds 0. -/
def Obligations.StepKeepsCanonicalMemory : Prop :=
  ∀ s s', CanonicalMemory s → step s = .next s' → CanonicalMemory s'

/-- No step of this machine refuses or faults: wherever a unit is there to issue, every instruction answers a next state, and with
no input due every step does.  What cannot go on waits, traps or halts in a next state.  That events are constructors that act at any
time, that inputs come first and that the machine takes acts of its own is the model's choice (log entries 5, 6 and 10). -/
def Obligations.StepAlwaysAnswers : Prop :=
  (∀ i s, issuer s ≠ none → ∃ t, exec i s = .next t) ∧ ∀ s : State, s.ctl.inputs = [] → ∃ t, step s = .next t

/-- R62 to R74: the word of every well-formed instruction decodes to that instruction, with every operand. -/
def Obligations.DecodeEncode : Prop :=
  ∀ i : Instr, i.wf = true → i.isEvent = false → ∃ w, w < 2 ^ 32 ∧ encode i = some w ∧ decodeWord w = some i

/-- R74: a word has at most one meaning, and what it decodes to is well-formed: the decoded instruction encodes to the word. -/
def Obligations.EncodeDecode : Prop :=
  ∀ w i, w < 2 ^ 32 → decodeWord w = some i → encode i = some w ∧ i.wf = true ∧ i.isEvent = false

/-- Words written out from the formats of R62 and the map of R70: one of each format. -/
def Obligations.WorkedWords : Prop :=
  decodeWord 0x00000000 = some .nop
  ∧ decodeWord (0x10 * 2 ^ 25 + 3 * 2 ^ 18 + 1 * 2 ^ 11 + 2 * 2 ^ 4 + 0) = some (.iadd 3 1 2)
  ∧ decodeWord (0x13 * 2 ^ 25 + 5 * 2 ^ 18 + 4 * 2 ^ 11 + 0xFF * 2 ^ 3 + 0) = some (.iaddi 5 4 255)
  ∧ decodeWord (0x40 * 2 ^ 25 + 9 * 2 ^ 18 + 8 * 2 ^ 11 + 1 * 2 ^ 4 + 3) = some (.rsqrt 9 8 3)
  ∧ decodeWord (0x08 * 2 ^ 25 + 7 * 2 ^ 18 + 0x3FFFF) = some (.brnz 7 0x3FFFF)
  ∧ decodeWord (0x52 * 2 ^ 25 + 6 * 2 ^ 18 + 2 * 2 ^ 11 + 5 * 2 ^ 7 + 2 * 2 ^ 4 + 15) = some (.ldgW 6 2 5 (.acq .pk) 15)
  ∧ decodeWord (0x70 * 2 ^ 25 + 12 * 2 ^ 18 + 32 * 2 ^ 11 + 3 * 2 ^ 7 + 2 * 2 ^ 4 + 8) = some (.cpyin (some 12) 32 3 2 .plain)
  ∧ decodeWord (0x78 * 2 ^ 25 + 3 * 2 ^ 22 + 2 * 2 ^ 18 + 10 * 2 ^ 11 + 11 * 2 ^ 4 + 2) = some (.mma .m64n64 2 10 11 false true false)
  ∧ decodeWord (0x75 * 2 ^ 25 + 1 * 2 ^ 18 + 2 * 2 ^ 11 + (1 * 64 + 3 * 4) * 2 ^ 3 + 1) = some (.barw 1 2 (.cohort 3))
  ∧ decodeWord (0x1F * 2 ^ 25) = none

/-- No landing of the split that issues has come due before its results (R251, R257). -/
def Sys2Proof.NothingLate (s : State) : Prop := ∀ gid g si sp, issuer s = some (.gang gid g si sp) → heldByLanding sp = false

/-- R7, R62, R74, R251: when the unit that is granted fetches a word that decodes, the step is the meaning of that instruction in the
state after the fetch, the grant used up.  Where a landing of its split has come due before its results, the instruction waits if it reads a
register that is still to land, and else is executed, the landing giving up the registers that it has written (R29). -/
def Obligations.StepRunsTheFetchedWord : Prop :=
  ∀ s w i, s.ctl.inputs = [] → s.ctl.granted = true → fetched (ungrant s) = some (.ok w) → decodeWord w.toNat = some i →
    (NothingLate (ungrant s) → step s = exec i (afterFetch (ungrant s)))
    ∧ (awaitsSource (ungrant s) i = false → step s = afterLate (ungrant s) i (exec i (afterFetch (ungrant s))))
    ∧ (awaitsSource (ungrant s) i = true → step s = .next (afterFetch (ungrant s)))

namespace Sys2Proof

/-- R74: a fetched word that is no instruction, and a fetch that faults, take their traps. -/
def StepTrapsWhatIsNoInstruction : Prop :=
  (∀ s w, s.ctl.inputs = [] → s.ctl.granted = true → fetched (ungrant s) = some (.ok w) → decodeWord w.toNat = none →
    step s = exec (.nonInstructionWord w.toNat) (afterFetch (ungrant s)))
  ∧ ∀ s e, s.ctl.inputs = [] → s.ctl.granted = true → fetched (ungrant s) = some (.error e) →
    step s = exec .instructionFetchFault (ungrant s)

/-- An input that is due takes place before anything else, in the state in which the clusters whose shadowed state it writes are marked; it
stalls only where that would exceed a dirty budget, and that cluster seals first (R306, R310).  With none due and no unit granted, the
machine takes an act of its own.  That a due input comes first is the model's choice (log entry 5), and which writes count log entry 51's. -/
def StepTakesInputsFirst : Prop :=
  (∀ s e rest t, s.ctl.inputs = e :: rest → exec e (withInputs s rest) = .next t →
    ((inputTouches (withInputs s rest) t).all (fun cl => !budgetSeals s cl) = true →
      step s = exec e ((inputTouches (withInputs s rest) t).foldl markDirty (withInputs s rest)))
    ∧ ((inputTouches (withInputs s rest) t).any (budgetSeals s) = true →
      ∃ cl ∈ inputTouches (withInputs s rest) t, dirtyDue s cl = true ∧ step s = .next (sealCluster s cl 3)))
  ∧ (∀ s e rest, s.ctl.inputs = e :: rest → (∀ t, exec e (withInputs s rest) ≠ .next t) → step s = exec e (withInputs s rest))
  ∧ ∀ s, s.ctl.inputs = [] → s.ctl.granted = false → step s = .next (arbitrate s)

end Sys2Proof

/-- R74, R306, R310: what a step does where no instruction is fetched: a due input first, which is the model's choice (log entry 5), the traps of a
word that is none and of a fetch that faults, an act of the machine where no unit is granted. -/
def Obligations.StepOrder : Prop :=
  StepTrapsWhatIsNoInstruction ∧ StepTakesInputsFirst

/-! ### Traps and privilege -/

namespace Sys2Proof

/-- R18: an instruction that names a register beyond the allocation traps ILLEGAL before it executes; said of iadd. -/
def WindowTraps : Prop :=
  ∀ (s : State) (gid : Nat) (g : Gang) (si : Nat) (sp : Split) (d a b : Nat), Issues s gid g si sp → gangOpen g = false →
    outOfWindow g [d, a, b] = true →
      ∃ t, exec (.iadd d a b) s = .next t ∧ Trapped s t gid g si sp (plainTrap .illegal)

/-- R32, R273: eret and halt in a gang below supervisor level trap PERM with cause 4. -/
def PrivilegeTraps : Prop :=
  ∀ i, (i = .halt ∨ ∃ a, i = .eret a) → ∀ s gid g si sp, Issues s gid g si sp → splitOpen sp = false →
    gangOpen (closedGang g si) = false → (closedGang g si).level = .user →
      ∃ t, exec i s = .next t ∧ Trapped s t gid (closedGang g si) si (closedSplit sp) privilegeTrap

/-- R73: the instructions that the MCC has, by the By column of the opcode map. -/
def onMcc : Instr → Bool
  | .nop | .exit | .yield | .brk | .trap _ | .icinv _ | .pfence _ | .phase | .ret _ | .setfmt _ | .bra _ | .bkz .. | .bknz .. | .call ..
  | .jmpk _ | .callk .. | .kadd .. | .ksub .. | .kmul .. | .kmulh .. | .kmulhu .. | .kmin .. | .kmax .. | .kminu .. | .kand ..
  | .kor .. | .kxor .. | .kshl .. | .kshr .. | .ksra .. | .krot .. | .kandn .. | .kmad .. | .ksel .. | .kbfe .. | .kbfi .. | .kpopc ..
  | .kclz .. | .kadd64 .. | .ksub64 .. | .kmul64 .. | .kmulw .. | .kdivu .. | .kremu .. | .kset .. | .kaddi .. | .kmovi ..
  | .kshlImm .. | .kshrImm .. | .ksraImm .. | .kldt .. | .gset .. | .srd .. | .swr .. | .mma .. | .mmag .. | .mzero _ | .mdrain ..
  | .mwait | .mccRdv => true
  | _ => false

/-- R73: a matrix instruction of a gang traps MATRIX_RIGHTS, and every instruction that only gangs have traps ILLEGAL on the MCC. -/
def RightsTraps : Prop :=
  (∀ i, (i = .mwait ∨ i = .mccRdv ∨ (∃ j, i = .mzero j) ∨ (∃ d a j z, i = .mdrain d a j z) ∨ (∃ sh acc ka kb x y z, i = .mma sh acc ka kb x y z)
      ∨ ∃ sh acc ka g x y z, i = .mmag sh acc ka g x y z) →
    ∀ s gid g si sp, Issues s gid g si sp → gangOpen g = false →
      ∃ t, exec i s = .next t ∧ Trapped s t gid g si sp (plainTrap .matrixRights))
  ∧ ∀ i : Instr, i.isEvent = false → onMcc i = false →
    ∀ s cid c m, MccIssues s cid c m → ∃ t, exec i s = .next t ∧ MccTrapped s t cid c m (plainTrap .illegal)

end Sys2Proof

/-- R18, R32, R73, R273: the checks before an instruction executes: its registers, its level, its rights. -/
def Obligations.IssueTraps : Prop :=
  WindowTraps ∧ PrivilegeTraps ∧ RightsTraps

namespace Sys2Proof

/-- R249: an instruction of a gang or of an MCC whose launch has a limit that its rtc has reached traps CREW_LIMIT and does not
execute; said of the event of that name, and of iadd and kadd. -/
def CrewLimitTraps : Prop :=
  (∀ s gid g si sp, Issues s gid g si sp → limitReached s g.range g.rtc = true → gangOpen g = false →
    (∃ t, exec .crewLimit s = .next t ∧ Trapped s t gid g si sp (plainTrap .crewLimit))
    ∧ ∀ d a b, outOfWindow g [d, a, b] = false →
        ∃ t, exec (.iadd d a b) s = .next t ∧ Trapped s t gid g si sp (plainTrap .crewLimit))
  ∧ ∀ s cid c m, MccIssues s cid c m → limitReached s c.range m.rtc = true →
    (∃ t, exec .crewLimit s = .next t ∧ MccTrapped s t cid c m (plainTrap .crewLimit))
    ∧ ∀ d a b, ∃ t, exec (.kadd d a b) s = .next t ∧ MccTrapped s t cid c m (plainTrap .crewLimit)

/-- R33, R36, R291: a supervisor continuation's record goes to the firmware, whose queue takes it where it has room: its 64 bytes stand in
its slot and the producer count is one more; where it has none the record waits.  How large that queue is and where it lies is the
model's choice (log entries 30 and 39). -/
def FirmwareRecords : Prop :=
  (∀ s part r, (postRecord s part true r).parts = s.parts
      ∧ (postRecord s part true r).dev = { s.dev with firmwareHeld := insertHeld s.ctl.clock r s.dev.firmwareHeld })
  ∧ (∀ s r rest, firstHeld s s.dev.firmwareHeld = some (r, rest) → firmwareHasRoom s = true →
      ∃ t, exec (.heldFaultRecordPost .firmware) s = .next t ∧ t.parts = s.parts ∧ SameMemory s t ∧ t.dev.firmwareHeld = rest
        ∧ t.dev.firmwareQueue = (if isNotice r then s.dev.firmwareQueue else s.dev.firmwareQueue ++ [(s.dev.firmwarePosted, r)])
        ∧ t.dev.firmwarePosted = s.dev.firmwarePosted + 1 ∧ t.dev.firmwareMem.readN 0 8 = bytesLE 8 (s.dev.firmwarePosted + 1)
        ∧ t.dev.firmwareMem.readN (firmwareRecordAddr s.dev.firmwarePosted) 64 = recordBytes r)
  ∧ ∀ s, firmwareHasRoom s = false → exec (.heldFaultRecordPost .firmware) s = .next s

/-- R110, R35: brk and trap park their gang; the record holds the code, imm8, the pc, the resume point NPC and the lanes of the
split. -/
def BreakAndTrap : Prop :=
  OnGang .brk [] none (fun _ _ g _ _ => gangOpen g = false) (fun s gid g si sp t => Trapped s t gid g si sp (plainTrap .brk))
  ∧ (∀ i, OnGangClosing (.trap i) [] none (fun _ _ g _ _ => gangOpen g = false)
      fun s gid g si sp t => Trapped s t gid g si sp { plainTrap .trapInsn with imm := i })
  ∧ OnMcc .brk (fun _ _ _ _ => True) (fun s cid c m t => MccTrapped s t cid c m (plainTrap .brk))
  ∧ (∀ i, OnMcc (.trap i) (fun _ _ _ _ => True) fun s cid c m t => MccTrapped s t cid c m { plainTrap .trapInsn with imm := i })
  ∧ (∀ s gid g si sp i, let r := gangRecord s gid g si sp { plainTrap .trapInsn with imm := i } 0
      r.code = .trapInsn ∧ r.imm = i ∧ r.pc = sp.pc ∧ r.point = sp.pc + 4 ∧ r.splitMask = sp.mask ∧ r.resume = 1 ∧ r.split = si)
  ∧ (∀ s gid g si sp, let r := gangRecord s gid g si sp (plainTrap .brk) 0
      r.code = .brk ∧ r.pc = sp.pc ∧ r.point = sp.pc + 4 ∧ r.splitMask = sp.mask ∧ r.resume = 1)
  ∧ (∀ s cid c m i, let r := mccRecord s cid c m { plainTrap .trapInsn with imm := i }
      r.code = .trapInsn ∧ r.imm = i ∧ r.pc = m.pc ∧ r.point = m.pc + 4 ∧ r.flags = 1)
  ∧ (∀ s cid c m, let r := mccRecord s cid c m (plainTrap .brk)
      r.code = .brk ∧ r.pc = m.pc ∧ r.point = m.pc + 4 ∧ r.flags = 1)
  ∧ FirmwareRecords
  ∧ decodeWord 0x02000160 = some (.trap 0x2C) ∧ (∀ i, i < 256 → decodeWord (2 ^ 25 + 8 * i) = some (.trap i))
  ∧ ∀ w, w < 2 ^ 32 → w / 2 ^ 25 = 1 → (w / 2 ^ 11 % 2 ^ 14 ≠ 0 ∨ w % 8 ≠ 0) → decodeWord w = none

end Sys2Proof

/-- R31, R33, R35, R36, R110, R249, R291: the traps of a limit reached, of brk and of trap, what their record says, and where a
supervisor's record goes; the size and the place of the firmware's queue are the model's (log entries 30 and 39). -/
def Obligations.TrapEntries : Prop :=
  CrewLimitTraps ∧ BreakAndTrap

namespace Sys2Proof

/-- R36, R291, R293: with a free slot, the first record on its way to a partition's queue becomes its next record once the cycle of its
trap is over: it is counted, stays open until it is answered unless it is a notice, and its 64 bytes stand in its slot of the queue. -/
def RecordsArePosted : Prop :=
  ∀ s part p r rest, tget s.parts part = some p → firstHeld s p.heldRecords = some (r, rest) → queueHasRoom s part p = true →
    s.requests = [] →
    ∃ t q, exec (.heldFaultRecordPost (.partition part)) s = .next t ∧ tget t.parts part = some q ∧ q.heldRecords = rest
      ∧ q.posted = p.posted + 1 ∧ q.open' = (if isNotice r then p.open' else p.open' ++ [(p.posted, r)])
      ∧ memBytes t (physKey part (recordAddr p p.posted)) 64 = recordBytes r

/-- R36: the order of the records on their way: by the cycle of the trap, then by die, cluster, core and gang slot, an MCC after the
gangs of its cluster. -/
def heldBefore (a b : Nat × FaultRecord) : Prop := a.1 < b.1 ∨ a.1 = b.1 ∧ heldPlace a.2 ≤ heldPlace b.2

/-- R36: a record that is raised takes its place in that order among those on their way to its queue, of which none is lost and which
keep their order; without a free slot, and in the cycle of its trap, none is posted and nothing changes. -/
def RecordsAreHeld : Prop :=
  (∀ s part p r, tget s.parts part = some p →
    ∃ l, postToPart s part r = modPart s part (fun q => { q with heldRecords := l })
      ∧ l.Perm ((s.ctl.clock, r) :: p.heldRecords) ∧ p.heldRecords.Sublist l
      ∧ (p.heldRecords.Pairwise heldBefore → l.Pairwise heldBefore))
  ∧ (∀ s part p, tget s.parts part = some p → queueHasRoom s part p = false ∨ firstHeld s p.heldRecords = none →
      exec (.heldFaultRecordPost (.partition part)) s = .next s)
  ∧ ∀ r q : FaultRecord, isNotice r = false → isNotice q = false → r.flags.testBit 0 = false → r.slot < 32 → q.slot < 32 →
      r.cluster < 20 → q.cluster < 20 →
      (r.die < q.die ∨ r.die = q.die ∧ r.cluster < q.cluster → heldPlace r < heldPlace q)
      ∧ (r.die = q.die → r.cluster = q.cluster →
          (q.flags.testBit 0 = true → heldPlace r < heldPlace q)
          ∧ (q.flags.testBit 0 = false → r.coreGang % 4 < q.coreGang % 4 ∨ r.coreGang % 4 = q.coreGang % 4 ∧ r.slot < q.slot →
              heldPlace r < heldPlace q))

/-- R34, R292: the faulting lanes of a gang's record are those that its trap names, or (log entry 42) all lanes of the split where
it names none, and the lowest of them stands beside them; an MCC's record has no lanes, no split and no slot. -/
def RecordLanes : Prop :=
  (∀ s gid g si sp i, let r := gangRecord s gid g si sp i 0
    r.lanes = (if i.lanes = 0 then sp.mask else i.lanes) ∧ ∀ l, lowestLane r.lanes = some l → r.lowLane = l)
  ∧ ∀ s cid c m i, let r := mccRecord s cid c m i
    r.lanes = 0 ∧ r.splitMask = 0 ∧ r.split = 0 ∧ r.lowLane = 0xFF ∧ r.coreGang = 0 ∧ r.slot = 0

end Sys2Proof

/-- R36, R291 to R293: a record is posted where its queue has room, and waits in the order of R36 where it has none; the lanes that it
names.  Where notices stand in that order, and which lanes a trap that names none has, is the model's reading (log entries 2 and 42). -/
def Obligations.Records : Prop :=
  RecordsArePosted ∧ RecordsAreHeld ∧ RecordLanes

/-! ### Registers -/

/-- R17 to R19: a register file reads what was written last, and a write leaves every other register alone. -/
def Obligations.RegisterFiles : Prop :=
  (∀ (c : Cells 32) k j x, cget (cset c k x) j = if j = k then x else cget c j)
  ∧ (∀ (c : Cells 32) k x, kPair (setKPair c k x) k = x)
  ∧ (∀ g m d f c, cget (perLane g m d f).v c =
      if c / 64 = g.wbase + d ∧ m.getLsbD (c % 64) = true then f (c % 64) else cget g.v c)
  ∧ ∀ g m d f l, l < 64 → m.getLsbD l = true → vpair (perLanePair g m d f) d l = f l

/-- R29: a pending write lands with the retirement before its landing point: its registers take its values, but for those that a write with a
later landing point, or one of an earlier instruction with the same, has taken, and it is pending no more. -/
def Obligations.WindowsLand : Prop :=
  ∀ s gid g si sp p npc, tget g.splits si = some sp → sp.pend = [p] → p.left = 1 → p.replies = [] → sp.recs = [] →
    (∀ e ∈ g.splits, e.1 ≠ si → atMerge e.2 = false) → (g.splits.map (·.1)).Nodup →
      ∃ g', tget (retireAt (setGang s gid g) gid si npc).gangs gid = some g' ∧ g'.v = csets g.v (p.writes.filter fun w => !p.dead.contains w.1) ∧ g'.fpf = g.fpf ||| p.flags
        ∧ (tget g'.splits si).map (·.pend) = some []

/-! ### Integer instructions of strands (R84 to R91) -/

namespace Sys2Proof

/-- R84: the sixteen functions of ialu. -/
def IntegerTwoOperand : Prop :=
  Lanes2 .iadd (fun x y => x + y) ∧ Lanes2 .isub (fun x y => x - y) ∧ Lanes2 .imul (fun x y => x * y)
  ∧ Lanes2 .imulh imulhW ∧ Lanes2 .imulhu imulhuW ∧ Lanes2 .imin iminW ∧ Lanes2 .imax imaxW ∧ Lanes2 .iminu iminuW
  ∧ Lanes2 .and (fun x y => x &&& y) ∧ Lanes2 .or (fun x y => x ||| y) ∧ Lanes2 .xor (fun x y => x ^^^ y)
  ∧ Lanes2 .shl shlW ∧ Lanes2 .shr shrW ∧ Lanes2 .sra sraW ∧ Lanes2 .rot rotW ∧ Lanes2 .andn andnW

/-- R85: the functions of ialx; R86: kbfe and kbfi. -/
def IntegerExtended : Prop :=
  Lanes3 .imad (fun x y z => x * y + z) ∧ Lanes2 .iabsd iabsdW ∧ Lanes3 .sel (fun x y z => if z ≠ 0 then x else y)
  ∧ Lanes2 .bfe bfeW ∧ Lanes3 .bfi bfiW ∧ Lanes1 .popc popcW ∧ Lanes1 .clz clzW ∧ Lanes1 .ctz ctzW ∧ Lanes1 .brev brevW
  ∧ Lanes1 .iabs iabsW ∧ Lanes1 .ineg (fun x => 0 - x) ∧ Lanes1 .not (fun x => ~~~x)
  ∧ Pairs2 .iadd64 (fun x y => x + y) ∧ Pairs2 .isub64 (fun x y => x - y) ∧ Pairs2 .imul64 (fun x y => x * y)
  ∧ (∀ d a b, WritesLanes (.shf d a b) [d, a, a + 1, b] (some [d]) d fun _ g _ l => shfW (vpair g a l) (vget g b l))
  ∧ Uniform2 .kbfe bfeW ∧ Uniform3 .kbfi bfiW

/-- R87, R90, R91: compares, dot products and wide products. -/
def ComparesAndProducts : Prop :=
  (∀ c, Lanes2 (.iset c) fun x y => if isetHolds c x y then 1 else 0)
  ∧ (∀ c, Uniform2 (.kset c) fun x y => if isetHolds c x y then 1 else 0)
  ∧ (∀ k, Lanes3 (.idot k) (idotW k))
  ∧ ∀ w d a b, WritesPairs (.imulw w d a b) [d, d + 1, a, b] (some [d, d + 1]) d fun _ g _ l => imulwD w (vget g a l) (vget g b l)

/-- R88, R89: immediates sign-extend but for shift counts; moves. -/
def IntegerImmediates : Prop :=
  LanesImm .iaddi (fun x i => x + sextImm i) ∧ LanesImm .andi (fun x i => x &&& sextImm i) ∧ LanesImm .ori (fun x i => x ||| sextImm i)
  ∧ LanesImm .xori (fun x i => x ^^^ sextImm i) ∧ LanesImm .shli (fun x i => shlW x (zextImm i))
  ∧ LanesImm .shri (fun x i => shrW x (zextImm i)) ∧ LanesImm .shriA (fun x i => sraW x (zextImm i))
  ∧ (∀ c, LanesImm (.iseti c) fun x i => if immHolds c x (sextImm i) then 1 else 0)
  ∧ (∀ d i, WritesLanes (.movi d i) [d] (some [d]) d fun _ _ _ _ => sextImm i)
  ∧ (∀ d a, WritesLanes (.movk d a) [d] (some [d]) d fun _ g _ _ => cget g.k a)
  ∧ Lanes1 .mov fun x => x

/-- R84: the results of ialu as numbers and bits; shifts by counts of 32 and more. -/
def TwoOperandValues : Prop :=
  (∀ x y, imulhW x y = BitVec.ofInt 32 (x.toInt * y.toInt / 2 ^ 32))
  ∧ (∀ x y, imulhuW x y = BitVec.ofNat 32 (x.toNat * y.toNat / 2 ^ 32))
  ∧ (∀ x y, (iminW x y).toInt = min x.toInt y.toInt) ∧ (∀ x y, (imaxW x y).toInt = max x.toInt y.toInt)
  ∧ (∀ x y, (iminuW x y).toNat = min x.toNat y.toNat)
  ∧ (∀ x y : Word, 32 ≤ y.toNat → shlW x y = 0 ∧ shrW x y = 0 ∧ sraW x y = if x.msb then BitVec.allOnes 32 else 0)
  ∧ (∀ x y : Word, y.toNat < 32 → (shlW x y).toNat = x.toNat * 2 ^ y.toNat % 2 ^ 32 ∧ (shrW x y).toNat = x.toNat / 2 ^ y.toNat
      ∧ (sraW x y).toInt = x.toInt / 2 ^ y.toNat)
  ∧ (∀ (x y : Word) (i : Nat), i < 32 → (rotW x y).getLsbD ((i + y.toNat) % 32) = x.getLsbD i)
  ∧ (∀ x y : Word, andnW x y = x &&& ~~~y) ∧ decodeWord 0x20143074 = some (.imulhu 5 6 7)

end Sys2Proof

/-- R84: the results of the sixteen instructions of ialu. -/
def Obligations.IntegerResults : Prop :=
  IntegerTwoOperand ∧ TwoOperandValues

namespace Sys2Proof

/-- R85, R86: differences, counts of bits, bit fields, bit by bit; descriptors of any length. -/
def ExtendedValues : Prop :=
  (∀ x y, (iabsdW x y).toNat = (x.toInt - y.toInt).natAbs) ∧ (∀ x, (iabsW x).toNat = x.toInt.natAbs)
  ∧ (∀ x : Word, (popcW x).toNat = ((List.range 32).filter fun i => x.getLsbD i).length)
  ∧ (∀ x : Word, x ≠ 0 → (ctzW x).toNat < 32 ∧ x.getLsbD (ctzW x).toNat = true ∧ ∀ i, i < (ctzW x).toNat → x.getLsbD i = false)
  ∧ (∀ x : Word, x ≠ 0 → (clzW x).toNat < 32 ∧ x.getLsbD (31 - (clzW x).toNat) = true ∧ ∀ i, 31 - (clzW x).toNat < i → x.getLsbD i = false)
  ∧ ctzW 0 = 32 ∧ clzW 0 = 32 ∧ (∀ (x : Word) (i : Nat), i < 32 → (brevW x).getLsbD i = x.getLsbD (31 - i))
  ∧ (∀ (p : DWord) (y : Word), shfW p y = (p >>> (y.toNat % 64)).setWidth 32)
  ∧ ∀ x y z : Word, ∀ pos len, pos = y.toNat % 32 → len = min (y.toNat / 256 % 64) 32 →
      (∀ i, i < 32 → (bfeW x y).getLsbD i =
        if i < len then x.getLsbD (pos + i) else y.getLsbD 15 && decide (0 < len) && x.getLsbD (pos + len - 1))
      ∧ ∀ i, i < 32 → (bfiW x y z).getLsbD i = if pos ≤ i ∧ i < pos + len then x.getLsbD (i - pos) else z.getLsbD i

/-- R85: the words of ialx that are no instruction, and the spec's example. -/
def ExtendedWords : Prop :=
  (∀ w, w < 2 ^ 32 → w / 2 ^ 25 = 0x11 → 5 ≤ w % 16 → w % 16 ≤ 11 → w / 2 ^ 4 % 128 ≠ 0 → decodeWord w = none)
  ∧ (∀ w, w < 2 ^ 32 → w / 2 ^ 25 = 0x11 → 12 ≤ w % 16 → w % 16 ≤ 14 →
      (w / 2 ^ 18 % 2 = 1 ∨ w / 2 ^ 11 % 2 = 1 ∨ w / 2 ^ 4 % 2 = 1) → decodeWord w = none)
  ∧ (∀ w, w < 2 ^ 32 → w / 2 ^ 25 = 0x11 → w % 16 = 15 → w / 2 ^ 11 % 2 = 1 → decodeWord w = none)
  ∧ decodeWord 0x22101033 = some (.bfe 4 2 3)

end Sys2Proof

/-- R85, R86: the results of ialx, bit fields, and the words that ialx has. -/
def Obligations.IntegerExtensions : Prop :=
  IntegerExtended ∧ ExtendedValues ∧ ExtendedWords

namespace Sys2Proof

/-- R87, R88, R90, R91: conditions, immediates, exact totals and products, on the numbers that the words hold. -/
def FormValues : Prop :=
  (∀ x y : Word, (isetHolds .eq x y = true ↔ x = y) ∧ (isetHolds .ne x y = true ↔ x ≠ y)
    ∧ (isetHolds .lt x y = true ↔ x.toInt < y.toInt) ∧ (isetHolds .le x y = true ↔ x.toInt ≤ y.toInt)
    ∧ (isetHolds .gt x y = true ↔ y.toInt < x.toInt) ∧ (isetHolds .ge x y = true ↔ y.toInt ≤ x.toInt)
    ∧ (isetHolds .ltu x y = true ↔ x.toNat < y.toNat) ∧ (isetHolds .leu x y = true ↔ x.toNat ≤ y.toNat)
    ∧ (isetHolds .gtu x y = true ↔ y.toNat < x.toNat) ∧ (isetHolds .geu x y = true ↔ y.toNat ≤ x.toNat))
  ∧ (∀ x y : Word, immHolds .eq x y = isetHolds .eq x y ∧ immHolds .ne x y = isetHolds .ne x y ∧ immHolds .lt x y = isetHolds .lt x y
    ∧ immHolds .le x y = isetHolds .le x y ∧ immHolds .gt x y = isetHolds .gt x y ∧ immHolds .ge x y = isetHolds .ge x y
    ∧ immHolds .ltu x y = isetHolds .ltu x y ∧ immHolds .geu x y = isetHolds .geu x y)
  ∧ (∀ i, i < 256 → (sextImm i).toInt = if i < 128 then (i : Int) else (i : Int) - 256) ∧ (∀ i, i < 32 → (zextImm i).toNat = i)
  ∧ (∀ x y z t, t = z.toInt + ((List.range 4).map fun i => (x.extractLsb' (8 * i) 8).toInt * (y.extractLsb' (8 * i) 8).toInt).sum →
      idotW .s8w x y z = BitVec.ofInt 32 t ∧ (idotW .s8 x y z).toInt = max (-(2 ^ 31)) (min (2 ^ 31 - 1) t))
  ∧ (∀ x y z t, t = z.toInt + ((List.range 4).map fun i => ((x.extractLsb' (8 * i) 8).toNat : Int) * (y.extractLsb' (8 * i) 8).toInt).sum →
      (idotW .us8 x y z).toInt = max (-(2 ^ 31)) (min (2 ^ 31 - 1) t))
  ∧ (∀ x y z t, t = z.toInt + ((List.range 8).map fun i => (x.extractLsb' (4 * i) 4).toInt * (y.extractLsb' (4 * i) 4).toInt).sum →
      (idotW .s4 x y z).toInt = max (-(2 ^ 31)) (min (2 ^ 31 - 1) t))
  ∧ (∀ x y z t, t = z.toInt + ((List.range 8).map fun i => ((x.extractLsb' (4 * i) 4).toNat : Int) * (y.extractLsb' (4 * i) 4).toInt).sum →
      (idotW .us4 x y z).toInt = max (-(2 ^ 31)) (min (2 ^ 31 - 1) t))
  ∧ (∀ x y, (imulwD .signed x y).toInt = x.toInt * y.toInt) ∧ ∀ x y, (imulwD .unsigned x y).toNat = x.toNat * y.toNat

/-- R87 to R91: the words of these majors that are no instruction, and the spec's examples. -/
def FormWords : Prop :=
  (∀ w, w < 2 ^ 32 → w / 2 ^ 25 = 0x12 ∨ w / 2 ^ 25 = 0x22 → 10 ≤ w % 16 → decodeWord w = none)
  ∧ (∀ w, w < 2 ^ 32 → 0x13 ≤ w / 2 ^ 25 → w / 2 ^ 25 ≤ 0x17 → w % 8 ≠ 0 → decodeWord w = none)
  ∧ (∀ w, w < 2 ^ 32 → w / 2 ^ 25 = 0x17 ∨ w / 2 ^ 25 = 0x18 → 32 ≤ w / 8 % 256 → decodeWord w = none)
  ∧ (∀ w, w < 2 ^ 32 → w / 2 ^ 25 = 0x18 → 2 ≤ w % 8 → decodeWord w = none)
  ∧ (∀ w, w < 2 ^ 32 → w / 2 ^ 25 = 0x1A → (w / 2 ^ 11 % 128 ≠ 0 ∨ w % 8 ≠ 0) → decodeWord w = none)
  ∧ (∀ w, w < 2 ^ 32 → w / 2 ^ 25 = 0x1B ∨ w / 2 ^ 25 = 0x1C → w % 2 ^ 11 ≠ 0 → decodeWord w = none)
  ∧ (∀ w, w < 2 ^ 32 → w / 2 ^ 25 = 0x1D → 5 ≤ w % 16 → decodeWord w = none)
  ∧ (∀ w, w < 2 ^ 32 → w / 2 ^ 25 = 0x1E → (2 ≤ w % 16 ∨ w / 2 ^ 18 % 2 = 1) → decodeWord w = none)
  ∧ decodeWord 0x24041036 = some (.iset .ltu 1 2 3) ∧ decodeWord 0x44041032 = some (.kset .lt 1 2 3)
  ∧ decodeWord 0x26080700 = some (.iaddi 2 0 0xE0) ∧ decodeWord 0x28102878 = some (.andi 4 5 0x0F) ∧ decodeWord 0x2A102008 = some (.ori 4 4 1)
  ∧ decodeWord 0x2C1027F8 = some (.xori 4 4 0xFF) ∧ decodeWord 0x2E040010 = some (.shli 1 0 2) ∧ decodeWord 0x300C1821 = some (.shriA 3 3 4)
  ∧ decodeWord 0x320C1002 = some (.iseti .lt 3 2 0) ∧ decodeWord 0x341807F8 = some (.movi 6 0xFF)
  ∧ decodeWord 0x380C0800 = some (.mov 3 1) ∧ decodeWord 0x3620A000 = some (.movk 8 20)
  ∧ decodeWord 0x3A281030 = some (.idot .s8 10 2 3) ∧ decodeWord 0x3C101031 = some (.imulw .unsigned 4 2 3)

end Sys2Proof

/-- R87 to R91: compares, immediates, moves, dot products and wide products: their results, and the words that they have. -/
def Obligations.IntegerForms : Prop :=
  ComparesAndProducts ∧ IntegerImmediates ∧ FormValues ∧ FormWords

namespace Sys2Proof

/-- R93, R131: integer divides truncate toward zero; a zero divisor gives all ones and leaves the dividend as the remainder, and
the most negative number divided by −1 wraps. -/
def DivideCorners : Prop :=
  (∀ x, divuW x 0 = 0xFFFFFFFF ∧ remuW x 0 = x ∧ idivW x 0 = 0xFFFFFFFF ∧ iremW x 0 = x)
  ∧ (∀ x y, y ≠ 0 → (divuW x y).toNat = x.toNat / y.toNat ∧ (remuW x y).toNat = x.toNat % y.toNat)
  ∧ (∀ x y, y ≠ 0 → idivW x y = BitVec.ofInt 32 (x.toInt.tdiv y.toInt) ∧ (iremW x y).toInt = x.toInt.tmod y.toInt)
  ∧ idivW 0x80000000 0xFFFFFFFF = 0x80000000 ∧ iremW 0x80000000 0xFFFFFFFF = 0 ∧ decodeWord 0x82101034 = some (.idiv 4 2 3 4)

/-- R131, R132: the divides open windows; the integer ones raise no flag. -/
def DividesOpenWindows : Prop :=
  ∀ d a b l,
    OpensWindow (.idiv d a b l) [d, a, b] d l (fun _ g _ x => (idivW (vget g a x) (vget g b x), 0))
    ∧ OpensWindow (.idivu d a b l) [d, a, b] d l (fun _ g _ x => (divuW (vget g a x) (vget g b x), 0))
    ∧ OpensWindow (.irem d a b l) [d, a, b] d l (fun _ g _ x => (iremW (vget g a x) (vget g b x), 0))
    ∧ OpensWindow (.iremu d a b l) [d, a, b] d l (fun _ g _ x => (remuW (vget g a x) (vget g b x), 0))
    ∧ OpensWindow (.fdiv d a b l) [d, a, b] d l (fun s g sp x => fdiv32 (strandCtl s g sp x 0) (vget g a x) (vget g b x))

/-! ### Uniform instructions (R92 to R96) -/

end Sys2Proof

/-- R92, R93: the uniform arithmetic, on the k registers of a gang and of the MCC. -/
def Obligations.UniformArithmetic : Prop :=
  Uniform2 .kadd (fun x y => x + y) ∧ Uniform2 .ksub (fun x y => x - y) ∧ Uniform2 .kmul (fun x y => x * y)
  ∧ Uniform2 .kmulh imulhW ∧ Uniform2 .kmulhu imulhuW ∧ Uniform2 .kmin iminW ∧ Uniform2 .kmax imaxW ∧ Uniform2 .kminu iminuW
  ∧ Uniform2 .kand (fun x y => x &&& y) ∧ Uniform2 .kor (fun x y => x ||| y) ∧ Uniform2 .kxor (fun x y => x ^^^ y)
  ∧ Uniform2 .kshl shlW ∧ Uniform2 .kshr shrW ∧ Uniform2 .ksra sraW ∧ Uniform2 .krot rotW ∧ Uniform2 .kandn andnW
  ∧ Uniform3 .kmad (fun x y z => x * y + z) ∧ Uniform3 .ksel (fun x y z => if z ≠ 0 then x else y)
  ∧ Uniform1 .kpopc popcW ∧ Uniform1 .kclz clzW
  ∧ UniformPairs .kadd64 (fun x y => x + y) ∧ UniformPairs .ksub64 (fun x y => x - y) ∧ UniformPairs .kmul64 (fun x y => x * y)
  ∧ (∀ d a b, MakesK (.kmulw d a b) fun k => setKPair k d (zextW (cget k a) * zextW (cget k b)))
  ∧ Uniform2 .kdivu divuW ∧ Uniform2 .kremu remuW
  ∧ UniformImm .kaddi (fun x i => x + sextImm i) ∧ UniformImm .kshlImm (fun x i => shlW x (zextImm i))
  ∧ UniformImm .kshrImm (fun x i => shrW x (zextImm i)) ∧ UniformImm .ksraImm (fun x i => sraW x (zextImm i))
  ∧ ∀ d i, MakesK (.kmovi d i) fun k => cset k d (sextImm i)

namespace Sys2Proof

/-- R94: kldt reads word `i` of the launch's constant table; the value goes to kd, and but for the cluster's TLB nothing else
changes.  A word that cannot be read traps as that access. -/
def TableLoads : Prop :=
  ∀ d i w,
    OnGang (.kldt d i) [] none
      (fun s _ g _ _ => fetchAt s (gangView g) .table (gangBound s g) (tableAddr s g.range i) = .ok w)
      (fun s gid g si sp t => Retired (tlbFill s (gangView g) (tableAddr s g.range i)) t gid { g with k := cset g.k d w } si (nextPc sp.pc)
        ∧ SameMemory s t)
    ∧ OnMcc (.kldt d i)
      (fun s _ c _ => fetchAt s (mccView s c) .table (cohortBound s c) (tableAddr s c.range i) = .ok w)
      (fun s cid c m t => MccRetired (tlbFill s (mccView s c) (tableAddr s c.range i)) t cid c { m with k := cset m.k d w } (nextPc m.pc)
        ∧ SameMemory s t)
    ∧ ∀ e, OnGang (.kldt d i) [] none
        (fun s _ g _ _ => fetchAt s (gangView g) .table (gangBound s g) (tableAddr s g.range i) = .error e
          ∧ takesPlace (accessTrap .table e) = false ∧ gangOpen g = false)
        fun s gid g si sp t => Trapped s t gid g si sp (accessTrap .table e)

/-- R95, R96: kread takes any lane, active or not; the votes and kfirst look at the active lanes. -/
def UniformFromLanes : Prop :=
  (∀ d a b, OnGang (.kread d a b) [a] none (fun _ _ g _ _ => (cget g.k b).toNat ≤ 63)
    (Makes fun _ g _ => setK g d (vget g a (cget g.k b).toNat)))
  ∧ (∀ d a, OnGang (.kvoteAny d a) [a] none (fun _ _ _ _ _ => True)
      (Makes fun _ g sp => setK g d (if ∃ l ∈ lanesOf sp.mask, vget g a l ≠ 0 then 1 else 0)))
  ∧ (∀ d a, OnGang (.kvoteAll d a) [a] none (fun _ _ _ _ _ => True)
      (Makes fun _ g sp => setK g d (if ∀ l ∈ lanesOf sp.mask, vget g a l ≠ 0 then 1 else 0)))
  ∧ (∀ d a, OnGang (.kvoteBallot d a) [a] none (fun _ _ _ _ _ => True)
      (Makes fun _ g sp => { g with k := setKPair g.k d (maskOf ((lanesOf sp.mask).filter fun l => vget g a l != 0)) }))
  ∧ (∀ d a, OnGang (.kfirst d a) [a] none (fun _ _ _ _ _ => True)
      (Makes fun _ g sp => match lowestLane sp.mask with | some l => setK g d (vget g a l) | none => g))
  ∧ ∀ d a b, OnGang (.kread d a b) [a] none (fun _ _ g _ _ => 63 < (cget g.k b).toNat ∧ gangOpen g = false)
      fun s gid g si sp t => Trapped s t gid g si sp (plainTrap .invalidParam)

/-- R95, R96: the words of kread, kvote and kfirst that are no instruction. -/
def UniformReadWords : Prop :=
  (∀ w, w < 2 ^ 32 → w / 2 ^ 25 = 0x27 → w % 16 ≠ 0 → decodeWord w = none)
  ∧ (∀ w, w < 2 ^ 32 → w / 2 ^ 25 = 0x28 → (3 ≤ w % 16 ∨ w % 16 = 2 ∧ w / 2 ^ 18 % 2 = 1) → decodeWord w = none)
  ∧ (∀ w, w < 2 ^ 32 → w / 2 ^ 25 = 0x29 → w % 16 ≠ 0 → decodeWord w = none)
  ∧ decodeWord 0x4E181070 = some (.kread 6 2 7) ∧ decodeWord 0x50281802 = some (.kvoteBallot 10 3)
  ∧ decodeWord 0x52242000 = some (.kfirst 9 4)

end Sys2Proof

/-- R94 to R96: loads of the constant table, reads of a lane, votes. -/
def Obligations.UniformReads : Prop :=
  TableLoads ∧ UniformFromLanes ∧ UniformReadWords

/-! ### Special registers (R23 to R28, R103 to R106) -/

namespace Sys2Proof

/-- R15, R23 to R28, R255: what the special registers of a gang read as. -/
def GangSpecialValues : Prop :=
  ∀ s g si sp l, let x := gangSpecial s g si sp l
    x .lane = BitVec.ofNat 32 l ∧ x .gidx = BitVec.ofNat 32 g.index ∧ x .fmt = sp.fmt ∧ x .fpf = g.fpf.setWidth 32
    ∧ x .rxs = g.rxs ∧ x .rxr = g.rxr ∧ x .sgidx = g.sgidx ∧ x .temp = g.temp ∧ x .tmode = BitVec.ofNat 32 (tmodeOf g.temp)
    ∧ x .wbase = BitVec.ofNat 32 g.wbase ∧ x .prio = BitVec.ofNat 32 g.prio
    ∧ x .splits = BitVec.ofNat 32 (g.splits.length + 16 * si) ∧ x .pass = BitVec.ofNat 32 (getCluster s (g.core / 4)).pass
    ∧ x .core = BitVec.ofNat 32 (g.core % 4) ∧ x .cluster = BitVec.ofNat 32 (g.core / 4 % 20) ∧ x .die = BitVec.ofNat 32 (g.core / 80)
    ∧ x .part = BitVec.ofNat 32 (g.part % 256)
    ∧ pairOf (x .rtcLo) (x .rtcHi) = g.rtc ∧ pairOf (x .widLo) (x .widHi) = strandWid s g l
    ∧ pairOf (x .srseedLo) (x .srseedHi) = g.srseed ∧ pairOf (x .rngLo) (x .rngHi) = (tget g.rng l).getD rngSeed
    ∧ (∀ w, tget s.crews g.crew = some w → pairOf (x .rdyLo) (x .rdyHi) = w.rdy)
    ∧ (∀ p, tget s.parts g.part = some p →
        pairOf (x .cycLo) (x .cycHi) = if gangDet s g then g.rtc else BitVec.ofNat 64 (s.ctl.clock - p.born))
    ∧ ∀ y, launchOf s g.range = some y → (x .dmode).toNat = (if y.det then 1 else 0) + if y.durable then 2 else 0

/-- R23 to R28, R255: what the special registers of the MCC read as, and those that only gangs hold. -/
def MccSpecialValues : Prop :=
  (∀ s c m, let x := mccSpecial s c m
    x .fmt = some m.fmt ∧ x .fpf = some (m.fpf.setWidth 32) ∧ x .rtcLo = some (loWord m.rtc) ∧ x .rtcHi = some (hiWord m.rtc)
    ∧ x .srseedLo = some (loWord m.srseed) ∧ x .srseedHi = some (hiWord m.srseed)
    ∧ x .cluster = some (BitVec.ofNat 32 (c.cluster % 20)) ∧ x .die = some (BitVec.ofNat 32 (c.cluster / 20))
    ∧ x .part = some (BitVec.ofNat 32 (c.part % 256)) ∧ x .dmode = some (dmodeOf s c.range)
    ∧ ∀ p y, tget s.parts c.part = some p → launchOf s c.range = some y → y.det = false →
        x .cycLo = some (loWord (BitVec.ofNat 64 (s.ctl.clock - p.born))) ∧ x .cycHi = some (hiWord (BitVec.ofNat 64 (s.ctl.clock - p.born))))
  ∧ ∀ s c m r, mccSpecial s c m r = none ↔ r ∈ [SpecialReg.lane, .gidx, .widLo, .widHi, .pass, .rdyLo, .rdyHi, .rngLo, .rngHi, .rxs, .rxr,
      .wbase, .temp, .tmode, .prio, .core, .splits, .sgidx]

end Sys2Proof

/-- R23, R105: srd gives every active strand the register's value, on the MCC kd; a register that only gangs hold is ILLEGAL on
the MCC. -/
def Obligations.SpecialRegisterReads : Prop :=
  (∀ d r, OnGang (.srd d r) [d] (if bodyMayRead r then some [d] else none) (fun _ _ _ _ _ => True) fun s gid g si sp t =>
      Learned g (seeReady s g si r)
        ∧ Retired s t gid (perLane (seeReady s g si r) sp.mask d fun l => gangSpecial s g si sp l r) si (nextPc sp.pc))
  ∧ (∀ d r, OnMcc (.srd d r) (fun s _ c m => mccSpecial s c m r ≠ none) fun s cid c m t =>
      ∃ x, mccSpecial s c m r = some x ∧ MccRetired s t cid c { m with k := cset m.k d x } (nextPc m.pc))
  ∧ (∀ d r s cid c m, MccIssues s cid c m → mccSpecial s c m r = none →
      ∃ t, exec (.srd d r) s = .next t ∧ MccTrapped s t cid c m (plainTrap .illegal))
  ∧ GangSpecialValues ∧ MccSpecialValues

namespace Sys2Proof

/-- The first active lane's value is written to a gang's register where it keeps to `ok`, and else INVALID_PARAM or WINDOW; a
register that is not written so is ILLEGAL. -/
def GangSpecialWrites : Prop :=
  (∀ a, OnGang (.swr a .fmt) [a] none (fun _ _ g _ sp => ∃ l, lowestLane sp.mask = some l ∧ fmtOk (vget g a l) = true)
    fun s gid g si sp t => ∃ l, lowestLane sp.mask = some l ∧
      Retired s t gid { g with splits := tmod g.splits si fun p => { p with fmt := vget g a l } } si (nextPc sp.pc))
  ∧ (∀ a, OnGang (.swr a .fpf) [a] none (fun _ _ g _ sp => ∃ l, lowestLane sp.mask = some l ∧ (vget g a l).toNat < 32)
    fun s gid g si sp t => ∃ l, lowestLane sp.mask = some l ∧
      Retired s t gid { g with fpf := (vget g a l).setWidth 5 } si (nextPc sp.pc))
  ∧ (∀ a, OnGang (.swr a .temp) [a] none (fun _ _ g _ sp => ∃ l, lowestLane sp.mask = some l ∧ tempOk (vget g a l) = true)
    fun s gid g si sp t => ∃ l, lowestLane sp.mask = some l ∧ Retired s t gid { g with temp := vget g a l } si (nextPc sp.pc))
  ∧ (∀ a, OnGang (.swr a .wbase) [a] none
      (fun _ _ g _ sp => ∃ l, lowestLane sp.mask = some l ∧ divergent g sp = false ∧ (vget g a l).toNat % 256 % 16 = 0
        ∧ (vget g a l).toNat % 256 < g.nregs)
    fun s gid g si sp t => ∃ l, lowestLane sp.mask = some l ∧
      Retired s t gid { g with wbase := (vget g a l).toNat % 256 } si (nextPc sp.pc))
  ∧ (∀ a, OnGang (.swr a .prio) [a] none (fun _ _ _ _ sp => lowestLane sp.mask ≠ none)
    fun s gid g si sp t => ∃ l, lowestLane sp.mask = some l ∧
      ∃ p, Retired s t gid { g with prio := p } si (nextPc sp.pc)
        ∧ (g.level ≠ .user → p = (vget g a l).toNat % 128)
        ∧ (g.level = .user → ∀ x, launchOf s g.range = some x → p = min ((vget g a l).toNat % 128) x.prio))
  ∧ (∀ a, OnGang (.swr a .srseedLo) [a] none (fun _ _ _ _ sp => lowestLane sp.mask ≠ none)
    fun s gid g si sp t => ∃ l, lowestLane sp.mask = some l ∧
      Retired s t gid { g with srseed := pairOf (vget g a l) (hiWord g.srseed) } si (nextPc sp.pc))
  ∧ (∀ a, OnGang (.swr a .srseedHi) [a] none (fun _ _ _ _ sp => lowestLane sp.mask ≠ none)
    fun s gid g si sp t => ∃ l, lowestLane sp.mask = some l ∧
      Retired s t gid { g with srseed := pairOf (loWord g.srseed) (vget g a l) } si (nextPc sp.pc))
  ∧ (∀ a, OnGang (.swr a .rngLo) [a] none (fun _ _ _ _ _ => True)
    (Makes fun _ g sp => setRngs g sp.mask fun l => pairOf (vget g a l) (hiWord (rngGet g l))))
  ∧ (∀ a, OnGang (.swr a .rngHi) [a] none (fun _ _ _ _ _ => True)
    (Makes fun _ g sp => setRngs g sp.mask fun l => pairOf (loWord (rngGet g l)) (vget g a l)))
  ∧ (∀ a, OnGang (.swr a .wbase) [a] none
      (fun _ _ g _ sp => gangOpen g = false ∧ ∃ l, lowestLane sp.mask = some l ∧ (divergent g sp = true
        ∨ (vget g a l).toNat % 256 % 16 ≠ 0 ∨ g.nregs ≤ (vget g a l).toNat % 256))
      fun s gid g si sp t => Trapped s t gid g si sp (plainTrap .window))
  ∧ (∀ a r, r = .fmt ∨ r = .fpf ∨ r = .temp → OnGang (.swr a r) [a] none
      (fun s _ g si sp => gangOpen g = false ∧ ∃ l, lowestLane sp.mask = some l ∧ writeSpecial s g si sp r (vget g a l) = .error .invalidParam)
      fun s gid g si sp t => Trapped s t gid g si sp (plainTrap .invalidParam))
  ∧ ∀ a r s gid g si sp, r ∉ [SpecialReg.fmt, .fpf, .temp, .wbase, .prio, .srseedLo, .srseedHi, .rngLo, .rngHi] →
      Issues s gid g si sp → gangOpen g = false →
      ∃ t, exec (.swr a r) s = .next t ∧ Trapped s t gid g si sp (plainTrap .illegal)

/-- R26, R27, R103, R104, R106: setfmt and winb of a gang, what the MCC writes of its own registers, and the values they refuse. -/
def FormatAndWindow : Prop :=
  (∀ a, OnGang (.setfmt a) [] none (fun _ _ g _ _ => fmtOk (cget g.k a) = true) fun s gid g si sp t =>
      Retired s t gid { g with splits := tmod g.splits si fun p => { p with fmt := cget g.k a } } si (nextPc sp.pc))
  ∧ (∀ a, OnGang (.setfmt a) [] none (fun _ _ g _ _ => fmtOk (cget g.k a) = false ∧ gangOpen g = false) fun s gid g si sp t =>
      Trapped s t gid g si sp (plainTrap .invalidParam))
  ∧ (∀ a, OnMcc (.setfmt a) (fun _ _ _ m => fmtOk (cget m.k a) = true) fun s cid c m t =>
      MccRetired s t cid c { m with fmt := cget m.k a } (nextPc m.pc))
  ∧ (∀ i, OnGang (.winb i) [] none (fun _ _ g _ sp => divergent g sp = false ∧ i * 16 < g.nregs)
      (Makes fun _ g _ => { g with wbase := i * 16 }))
  ∧ (∀ i, OnGang (.winb i) [] none (fun _ _ g _ sp => (divergent g sp = true ∨ g.nregs ≤ i * 16) ∧ gangOpen g = false)
      fun s gid g si sp t => Trapped s t gid g si sp (plainTrap .window))
  ∧ (∀ a, OnMcc (.swr a .fmt) (fun _ _ _ m => fmtOk (cget m.k a) = true) fun s cid c m t =>
      MccRetired s t cid c { m with fmt := cget m.k a } (nextPc m.pc))
  ∧ (∀ a, OnMcc (.swr a .fpf) (fun _ _ _ m => (cget m.k a).toNat < 32) fun s cid c m t =>
      MccRetired s t cid c { m with fpf := (cget m.k a).setWidth 5, fpfNew := 0 } (nextPc m.pc))
  ∧ (∀ a, OnMcc (.swr a .srseedLo) (fun _ _ _ _ => True) fun s cid c m t =>
      MccRetired s t cid c { m with srseed := pairOf (cget m.k a) (hiWord m.srseed) } (nextPc m.pc))
  ∧ (∀ a, OnMcc (.swr a .srseedHi) (fun _ _ _ _ => True) fun s cid c m t =>
      MccRetired s t cid c { m with srseed := pairOf (loWord m.srseed) (cget m.k a) } (nextPc m.pc))
  ∧ (∀ a i, i = .setfmt a ∨ i = .swr a .fmt → OnMcc i (fun _ _ _ m => fmtOk (cget m.k a) = false) fun s cid c m t =>
      MccTrapped s t cid c m (plainTrap .invalidParam))
  ∧ (∀ a, OnMcc (.swr a .fpf) (fun _ _ _ m => 32 ≤ (cget m.k a).toNat) fun s cid c m t =>
      MccTrapped s t cid c m (plainTrap .invalidParam))
  ∧ ∀ a r s cid c m, r ∉ [SpecialReg.fmt, .fpf, .srseedLo, .srseedHi] → MccIssues s cid c m →
      ∃ t, exec (.swr a r) s = .next t ∧ MccTrapped s t cid c m (plainTrap .illegal)

end Sys2Proof

/-- R23 to R27, R103 to R106: what swr, setfmt and winb write and refuse, on a gang and on the MCC. -/
def Obligations.SpecialRegisterWrites : Prop :=
  GangSpecialWrites ∧ FormatAndWindow

/-! ### Floating point (R116 to R132) -/

/-- R118 to R127: the floating-point forms write their results to every active strand and OR its flags into fpf. -/
def Obligations.FloatResults : Prop :=
  Floats2 .fadd fadd32 ∧ Floats2 .fsub fsub32 ∧ Floats2 .fmul fmul32 ∧ Floats3 .ffma ffma32 ∧ (∀ c, Floats2 (.fset c) (fset32 c)) ∧ Floats1 .fclass (fun _ x => (fclassW x, 0))
  ∧ (∀ m, Floats1 (.frnd m) (frnd32 m)) ∧ (∀ c, Floats1 (.cvt c) (cvt32 c)) ∧ Floats2 .fscale fscale32
  ∧ (∀ f, Floats3 (.fdot2 f) (fdot2W (dotFmt f)))
  ∧ (∀ f d a b, WritesFloats (.fpack f d a b) [d, a, b] (some [d]) d fun s g sp l =>
      fpackW f (strandCtl s g sp l (packElem f)) (strandCtl s g sp l (packElem f + 1)) (vget g a l) (vget g b l) (vget g d l))
  ∧ ∀ d a, WritesFloats (.fq4 d a) [d, a] none d fun _ g sp l =>
      let blk := fq4Block (fq4Inputs g sp.mask a (l / 8))
      (fq4Result blk l, blk.2.2)

namespace Sys2Proof

/-- R129, R130: the special functions open windows; texp reads the temperature and the old vd. -/
def SpecialFunctions : Prop :=
  ∀ d a l,
    OpensWindow (.rcp d a l) [d, a] d l (fun _ g sp x => rcp32 (sp.fmt.getLsbD 15) (vget g a x))
    ∧ OpensWindow (.rsqrt d a l) [d, a] d l (fun _ g sp x => rsqrt32 (sp.fmt.getLsbD 15) (vget g a x))
    ∧ OpensWindow (.sqrt d a l) [d, a] d l (fun _ g sp x => sqrt32 (sp.fmt.getLsbD 15) (vget g a x))
    ∧ OpensWindow (.exp2 d a l) [d, a] d l (fun _ g sp x => exp2_32 (sp.fmt.getLsbD 15) (vget g a x))
    ∧ OpensWindow (.log2 d a l) [d, a] d l (fun _ g sp x => log2_32 (sp.fmt.getLsbD 15) (vget g a x))
    ∧ OpensWindow (.sinpi d a l) [d, a] d l (fun _ g sp x => sinpi32 (sp.fmt.getLsbD 15) (vget g a x))
    ∧ OpensWindow (.cospi d a l) [d, a] d l (fun _ g sp x => cospi32 (sp.fmt.getLsbD 15) (vget g a x))
    ∧ OpensWindow (.tanh d a l) [d, a] d l (fun _ g sp x => tanh32 (sp.fmt.getLsbD 15) (vget g a x))
    ∧ OpensWindow (.sigmoid d a l) [d, a] d l (fun _ g sp x => sigmoid32 (sp.fmt.getLsbD 15) (vget g a x))
    ∧ OpensWindow (.erf d a l) [d, a] d l (fun _ g sp x => erf32 (sp.fmt.getLsbD 15) (vget g a x))
    ∧ OpensWindow (.texp d a l) [d, a] d l (fun _ g sp x =>
        texp32 (sp.fmt.getLsbD 15) g.temp (tmodeOf g.temp) (vget g a x) (vget g d x))

end Sys2Proof

/-- R129 to R132: divides and special functions open windows; the table of R131. -/
def Obligations.LongLatency : Prop :=
  DividesOpenWindows ∧ DivideCorners ∧ SpecialFunctions

namespace Sys2Proof

/-- A word holds a NaN (R40). -/
def nanWord (w : Word) : Bool := fIsNan (fmtDecode fmtF32 w.toNat)

end Sys2Proof

/-- R41: a NaN operand of an addition, subtraction, product, quotient or fused sum gives the canonical quiet NaN, a signalling one
raises invalid, and no NaN but the canonical one comes out of them. -/
def Obligations.NansAreCanonical : Prop :=
  (∀ c x y, nanWord x || nanWord y → (fadd32 c x y).1 = 0x7FC00000 ∧ (fsub32 c x y).1 = 0x7FC00000
      ∧ (fmul32 c x y).1 = 0x7FC00000 ∧ (fdiv32 c x y).1 = 0x7FC00000)
  ∧ (∀ c x y z, nanWord x || nanWord y || nanWord z → (ffma32 c x y z).1 = 0x7FC00000)
  ∧ (∀ c x y, fIsSnan (fmtDecode fmtF32 x.toNat) || fIsSnan (fmtDecode fmtF32 y.toNat) →
      (fadd32 c x y).2 &&& flInvalid ≠ 0 ∧ (fsub32 c x y).2 &&& flInvalid ≠ 0 ∧ (fmul32 c x y).2 &&& flInvalid ≠ 0
      ∧ (fdiv32 c x y).2 &&& flInvalid ≠ 0 ∧ ∀ k, (fminmax32 k c x y).2 &&& flInvalid ≠ 0)
  ∧ (∀ c x y z, (nanWord (fadd32 c x y).1 → (fadd32 c x y).1 = 0x7FC00000) ∧ (nanWord (fsub32 c x y).1 → (fsub32 c x y).1 = 0x7FC00000)
      ∧ (nanWord (fmul32 c x y).1 → (fmul32 c x y).1 = 0x7FC00000) ∧ (nanWord (ffma32 c x y z).1 → (ffma32 c x y z).1 = 0x7FC00000)
      ∧ (nanWord (fdiv32 c x y).1 → (fdiv32 c x y).1 = 0x7FC00000) ∧ ∀ k, nanWord (fminmax32 k c x y).1 → (fminmax32 k c x y).1 = 0x7FC00000)

/-- R40, R48: rounding a value that the format holds gives that value and raises nothing, whatever the method. -/
def Obligations.RoundingKeepsValues : Prop :=
  ∀ F ∈ [fmtF32, fmtF16, fmtBf16, fmtE4m3, fmtE5m2, fmtE2m1], ∀ c bits, c.flush = false → bits < 2 ^ (fmtSign F + 1) →
    fIsFinite (fmtDecode F bits) = true → roundVal F c (fmtDecode F bits) = (bits, 0)

namespace Sys2Proof

/-- A word with a subnormal read as the zero of its sign (R53). -/
def flushedWord (x : Word) : Word := if x.toNat / 2 ^ 23 % 256 = 0 then x &&& 0x80000000 else x

end Sys2Proof

/-- R119: fmin and fmax return one of their operands, the other one where one is NaN, and −0 counts below +0; two NaNs give the
canonical one, only a signalling one raises invalid, and under flush a subnormal operand counts as zero; R120: the order that fset
tests. -/
def Obligations.MinimaAndOrder : Prop :=
  Floats2 .fmin (fminmax32 false) ∧ Floats2 .fmax (fminmax32 true)
  ∧ (∀ k c x y, c.flush = false → nanWord x = false → nanWord y = false → (fminmax32 k c x y).1 = x ∨ (fminmax32 k c x y).1 = y)
  ∧ (∀ c x y, c.flush = false → nanWord x = false → nanWord y = false →
      (fset32 .lt c x (fminmax32 false c x y).1).1 = 0 ∧ (fset32 .lt c y (fminmax32 false c x y).1).1 = 0
      ∧ (fset32 .lt c (fminmax32 true c x y).1 x).1 = 0 ∧ (fset32 .lt c (fminmax32 true c x y).1 y).1 = 0)
  ∧ (∀ k c x y, c.flush = false → nanWord x = true → nanWord y = false →
      (fminmax32 k c x y).1 = y ∧ (fminmax32 k c y x).1 = y)
  ∧ (∀ c, (fminmax32 false c 0 0x80000000).1 = 0x80000000 ∧ (fminmax32 true c 0x80000000 0).1 = 0
      ∧ (fminmax32 false c 0x80000000 0).1 = 0x80000000 ∧ (fminmax32 true c 0 0x80000000).1 = 0)
  ∧ (∀ k c x y, nanWord x = true → nanWord y = true → (fminmax32 k c x y).1 = 0x7FC00000)
  ∧ (∀ k c x y, (fminmax32 k c x y).2 =
      if fIsSnan (fmtDecode fmtF32 x.toNat) || fIsSnan (fmtDecode fmtF32 y.toNat) then flInvalid else 0)
  ∧ (∀ k c x y, c.flush = true → fminmax32 k c x y = fminmax32 k { c with flush := false } (flushedWord x) (flushedWord y))
  ∧ ∀ c x y, nanWord x = false → nanWord y = false → (fset32 .lt c x y).1 + (fset32 .eq c x y).1 + (fset32 .lt c y x).1 = 1

/-! ### Lanes and random numbers (R133 to R139) -/

namespace Sys2Proof

/-- R133 to R138: the cross-lane instructions read every source before they write; only active strands receive results. -/
def LaneExchanges : Prop :=
  (∀ d a b, WritesLanes (.lshfl .idx d a b) [d, a, b] none d fun _ g _ l => vget g a ((vget g b l).toNat % 64))
  ∧ (∀ d a b, WritesLanes (.lshfl .up d a b) [d, a, b] none d fun _ g _ l =>
      vget g a (if (vget g b l).toNat ≤ l then l - (vget g b l).toNat else l))
  ∧ (∀ d a b, WritesLanes (.lshfl .down d a b) [d, a, b] none d fun _ g _ l =>
      vget g a (if l + (vget g b l).toNat ≤ 63 then l + (vget g b l).toNat else l))
  ∧ (∀ d a b, WritesLanes (.lshfl .xor d a b) [d, a, b] none d fun _ g _ l => vget g a (l ^^^ ((vget g b l).toNat % 64)))
  ∧ (∀ d a i, WritesLanes (.lbcast d a i) [d, a] none d fun _ g _ _ => vget g a i)
  ∧ (∀ d a, WritesPairs (.leqm d a) [d, d + 1, a] none d fun _ g sp l =>
      maskOf ((lanesOf sp.mask).filter fun t => vget g a t == vget g a l))
  ∧ (∀ d a, WritesLanes (.lrank d a) [d, a] none d fun _ g sp l =>
      BitVec.ofNat 32 (((lanesOf sp.mask).filter fun t => vget g a t == vget g a l && decide (t < l)).length))
  ∧ (∀ d a, WritesLanes (.lpopm d a) [d, a] none d fun _ g sp l =>
      BitVec.ofNat 32 (((lanesOf sp.mask).filter fun t => vget g a t != 0 && decide (t < l)).length))

/-- R137: scans and reductions combine the active lanes in ascending order, from the operation's identity. -/
def ScansAndReductions : Prop :=
  (∀ o ex d a, OnGang (.lscan o ex d a) [d, a] none (fun _ _ _ _ _ => True) (Makes fun _ g sp =>
      let sc := scanOf o g sp a
      { perLane g sp.mask d (fun l => scanAt sc.1 ex sp.mask l) with fpf := g.fpf ||| sc.2.2 }))
  ∧ (∀ o d a, OnGang (.lred o d a) [d, a] none (fun _ _ _ _ _ => True) (Makes fun _ g sp =>
      let sc := scanOf o g sp a
      { perLane g sp.mask d (fun _ => sc.2.1) with fpf := g.fpf ||| sc.2.2 }))
  ∧ (∀ o fl acc vs, (laneScan o fl acc vs).2.1 = vs.foldl (fun x v => (laneCombine o fl x v).1) acc
      ∧ (laneScan o fl acc vs).1.length = vs.length)
  ∧ (∀ o fl acc vs i, i < vs.length → (laneScan o fl acc vs).1[i]? =
      some ((vs.take i).foldl (fun x v => (laneCombine o fl x v).1) acc, (vs.take (i + 1)).foldl (fun x v => (laneCombine o fl x v).1) acc))
  ∧ ∀ o fl v, o ≠ .fmax → o ≠ .fadd → laneCombine o fl (laneIdent o) v = (v, 0)

/-- R134, R135, R136, R138: the words of the cross-lane instructions that are no instruction, and the spec's examples. -/
def CrossLaneWords : Prop :=
  (∀ w, w < 2 ^ 32 → w / 2 ^ 25 = 0x48 → 4 ≤ w % 16 → decodeWord w = none)
  ∧ (∀ w, w < 2 ^ 32 → w / 2 ^ 25 = 0x49 → (63 < w / 8 % 256 ∨ w % 8 ≠ 0) → decodeWord w = none)
  ∧ (∀ w, w < 2 ^ 32 → w / 2 ^ 25 = 0x4A → (w / 2 ^ 18 % 2 = 1 ∨ w % 2 ^ 11 ≠ 0) → decodeWord w = none)
  ∧ (∀ w, w < 2 ^ 32 → w / 2 ^ 25 = 0x4D ∨ w / 2 ^ 25 = 0x4E → w % 2 ^ 11 ≠ 0 → decodeWord w = none)
  ∧ decodeWord 0x90101033 = some (.lshfl .xor 4 2 3) ∧ decodeWord 0x92101028 = some (.lbcast 4 2 5)
  ∧ decodeWord 0x94101000 = some (.leqm 4 2) ∧ decodeWord 0x9A101000 = some (.lrank 4 2) ∧ decodeWord 0x9C101000 = some (.lpopm 4 2)

end Sys2Proof

/-- R133 to R138: the cross-lane instructions, scans and reductions. -/
def Obligations.CrossLane : Prop :=
  LaneExchanges ∧ ScansAndReductions ∧ CrossLaneWords

/-- R139: each draw steps the state of every active strand and of no other; rngnext gives its high word, rngu 24 bits of it as a
fraction; rngsplit hashes the seed pair and the work identifier, and never leaves 0. -/
def Obligations.RandomNumbers : Prop :=
  (∀ d, OnGang (.rngnext d) [d] none (fun _ _ _ _ _ => True) (Makes fun _ g sp =>
      setRngs (perLane g sp.mask d fun l => hiWord (rngDraw (rngGet g l))) sp.mask fun l => rngDraw (rngGet g l)))
  ∧ (∀ d, OnGang (.rngu d) [d] none (fun _ _ _ _ _ => True) (Makes fun _ g sp =>
      setRngs (perLane g sp.mask d fun l => unitF32 ((rngDraw (rngGet g l)).toNat / 2 ^ 40)) sp.mask fun l => rngDraw (rngGet g l)))
  ∧ (∀ a, OnGang (.rngsplit a) [a, a + 1] none (fun _ _ _ _ _ => True) (Makes fun s g sp => setRngs g sp.mask fun l =>
      if hashH (vpair g a l) (strandWid s g l) 0 = 0 then rngSeed else hashH (vpair g a l) (strandWid s g l) 0))
  ∧ (∀ g m f l, l < 64 → rngGet (setRngs g m f) l = if m.getLsbD l = true then f l else rngGet g l)
  ∧ (∀ x, rngDraw x ≠ 0)
  ∧ ∀ x : DWord, ∃ x0 x1 x2, x0 = (if x = 0 then 0x2545F4914F6CDD1D else x) ∧ x1 = x0 ^^^ (x0 <<< 13) ∧ x2 = x1 ^^^ (x1 >>> 7)
      ∧ rngDraw x = x2 ^^^ (x2 <<< 17)

/-! ### Control (R75, R97 to R114) -/

namespace Sys2Proof

/-- The lanes of a split that take a per-strand branch. -/
def takers (hold : Word → Bool) (g : Gang) (sp : Split) (a : Nat) : Mask := maskOf ((lanesOf sp.mask).filter fun l => hold (vget g a l))

/-- What a per-strand branch to `x` that `hold` decides does: no lane divides, the lanes divide with fewer than four splits, and the
fall-through path is stacked with four, the older entries spilled to memory, up to 80 (R97, R98, R100).  In region state 2 a target or
a merge point outside the body traps (R196).  An empty ACTIVE branches to the target, the 80 entries count for each split, and a spill is
checked as a store: the model's choice (log entry 46). -/
def DividesLanes (i : Instr) (hold : Word → Bool) (a x : Nat) : Prop :=
  (OnGangClosing i [a] (some [])
    (fun s _ g _ sp => (∃ w, joinWord s g sp.pc (branchTarget sp.pc x) = .ok w
        ∧ bodyBranchOk s g [branchTarget sp.pc x, mergePoint sp.pc (branchTarget sp.pc x) w] = true) ∧ takers hold g sp a = sp.mask)
    fun s gid g si sp t => Retired s t gid g si (branchTarget sp.pc x))
  ∧ (OnGangClosing i [a] (some [])
    (fun s _ g _ sp => (∃ w, joinWord s g sp.pc (branchTarget sp.pc x) = .ok w
        ∧ bodyBranchOk s g [branchTarget sp.pc x, mergePoint sp.pc (branchTarget sp.pc x) w] = true)
      ∧ takers hold g sp a ≠ sp.mask ∧ (takers hold g sp a = 0 ∨ branchTarget sp.pc x = nextPc sp.pc))
    fun s gid g si sp t => Retired s t gid g si (nextPc sp.pc))
  ∧ (OnGangClosing i [a] (some [])
    (fun s _ g _ sp => (∃ w, joinWord s g sp.pc (branchTarget sp.pc x) = .ok w
        ∧ bodyBranchOk s g [branchTarget sp.pc x, mergePoint sp.pc (branchTarget sp.pc x) w] = true)
      ∧ takers hold g sp a ≠ sp.mask ∧ takers hold g sp a ≠ 0 ∧ branchTarget sp.pc x ≠ nextPc sp.pc ∧ g.splits.length < 4)
    fun s gid g si sp t => ∃ w, joinWord s g sp.pc (branchTarget sp.pc x) = .ok w ∧ Retired s t gid
      (divideSplit g si (shortHistory s gid g sp) (takers hold g sp a) (branchTarget sp.pc x) (mergePoint sp.pc (branchTarget sp.pc x) w)) si (nextPc sp.pc))
  ∧ (OnGangClosing i [a] (some [])
    (fun s _ g _ sp => (∃ w, joinWord s g sp.pc (branchTarget sp.pc x) = .ok w
        ∧ bodyBranchOk s g [branchTarget sp.pc x, mergePoint sp.pc (branchTarget sp.pc x) w] = true)
      ∧ takers hold g sp a ≠ sp.mask ∧ takers hold g sp a ≠ 0 ∧ branchTarget sp.pc x ≠ nextPc sp.pc ∧ 4 ≤ g.splits.length
      ∧ stackDepth sp < 80 ∧ ∃ s1, spillEntry s g (stackDepth sp) = .ok s1)
    fun s gid g si sp t => ∃ w s1, joinWord s g sp.pc (branchTarget sp.pc x) = .ok w ∧ spillEntry s g (stackDepth sp) = .ok s1
      ∧ Retired s1 t gid (divideStack g si sp (takers hold g sp a) (mergePoint sp.pc (branchTarget sp.pc x) w)) si (branchTarget sp.pc x)
      ∧ (stackDepth sp < 16 → s1 = s))
  ∧ (OnGangClosing i [a] (some [])
    (fun s _ g _ sp => (∃ w, joinWord s g sp.pc (branchTarget sp.pc x) = .ok w
        ∧ bodyBranchOk s g [branchTarget sp.pc x, mergePoint sp.pc (branchTarget sp.pc x) w] = true)
      ∧ takers hold g sp a ≠ sp.mask ∧ takers hold g sp a ≠ 0 ∧ branchTarget sp.pc x ≠ nextPc sp.pc ∧ 4 ≤ g.splits.length
      ∧ 80 ≤ stackDepth sp ∧ gangOpen g = false)
    fun s gid g si sp t => Trapped s t gid g si sp (plainTrap .invalidParam))
  ∧ (∀ e, OnGangClosing i [a] (some [])
    (fun s _ g _ sp => (∃ w, joinWord s g sp.pc (branchTarget sp.pc x) = .ok w
        ∧ bodyBranchOk s g [branchTarget sp.pc x, mergePoint sp.pc (branchTarget sp.pc x) w] = true)
      ∧ takers hold g sp a ≠ sp.mask ∧ takers hold g sp a ≠ 0 ∧ branchTarget sp.pc x ≠ nextPc sp.pc ∧ 4 ≤ g.splits.length
      ∧ stackDepth sp < 80 ∧ spillEntry s g (stackDepth sp) = .error e ∧ takesPlace (accessTrap .store e) = false ∧ gangOpen g = false)
    fun s gid g si sp t => Trapped s t gid g si sp (accessTrap .store e))
  ∧ OnGangClosing i [a] (some [])
    (fun s _ g _ sp => (∃ w, joinWord s g sp.pc (branchTarget sp.pc x) = .ok w
        ∧ bodyBranchOk s g [branchTarget sp.pc x, mergePoint sp.pc (branchTarget sp.pc x) w] = false) ∧ gangOpen g = false)
    fun s gid g si sp t => Trapped s t gid g si sp (plainTrap .invalidParam)

/-- What it does where the word at T − 4 cannot be fetched, which R11 and R75 leave open (the model's choice, log entry 46): a branch that
does not divide goes on, one that divides traps as that fetch does, and in region state 2 it traps INVALID_PARAM. -/
def DividesUnread (i : Instr) (hold : Word → Bool) (a x : Nat) : Prop :=
  ∀ e,
  (OnGangClosing i [a] (some [])
    (fun s _ g _ sp => joinWord s g sp.pc (branchTarget sp.pc x) = .error e ∧ regionState g ≠ 2
      ∧ (takers hold g sp a = sp.mask ∨ takers hold g sp a = 0))
    fun s gid g si sp t => Retired s t gid g si (if takers hold g sp a = sp.mask then branchTarget sp.pc x else nextPc sp.pc))
  ∧ (OnGangClosing i [a] (some [])
    (fun s _ g _ sp => joinWord s g sp.pc (branchTarget sp.pc x) = .error e ∧ regionState g ≠ 2
      ∧ takers hold g sp a ≠ sp.mask ∧ takers hold g sp a ≠ 0 ∧ takesPlace (accessTrap .fetch e) = false ∧ gangOpen g = false)
    fun s gid g si sp t => Trapped s t gid g si sp (accessTrap .fetch e))
  ∧ OnGangClosing i [a] (some [])
    (fun s _ g _ sp => joinWord s g sp.pc (branchTarget sp.pc x) = .error e ∧ regionState g = 2 ∧ gangOpen g = false)
    fun s gid g si sp t => Trapped s t gid g si sp (plainTrap .invalidParam)

/-- R75: a backward branch merges at NPC; a forward one to `t` at `t`, or where the bra before `t` goes, if that lies beyond `t`; `w` is
the word at t − 4. -/
def MergePoints : Prop :=
  (∀ p t w, t.toNat ≤ p.toNat → mergePoint p t w = p + 4)
  ∧ (∀ (p t : DWord) (w : Word) (t2 : DWord), p.toNat < t.toNat → t2 = t + BitVec.ofInt 64 (4 * (w.extractLsb' 0 18).toInt) →
      mergePoint p t w = if w.toNat / 2 ^ 18 = 0x06 * 2 ^ 7 ∧ t.toNat < t2.toNat ∧ p.toNat < (t - 4).toNat then t2 else t)
  ∧ (∀ (p t : DWord) (x : Nat), x < 2 ^ 17 → p.toNat < (t - 4).toNat → p.toNat < t.toNat → t.toNat + 4 * x < 2 ^ 64 → 0 < x →
      mergePoint p t (BitVec.ofNat 32 (0x06 * 2 ^ 25 + x)) = t + BitVec.ofNat 64 (4 * x))
  ∧ ∀ s g p t, (nextPc p).toNat < t.toNat → joinWord s g p t = fetchAt s (gangView g) .fetch (gangBound s g) (t - 4)

/-- R97, R98: brz and brnz; a DIVIDE parts the lanes of its split between the fall-through path and a new split at the target. -/
def BranchesDivide : Prop :=
  (∀ a x, DividesLanes (.brz a x) (fun w => w == 0) a x) ∧ (∀ a x, DividesLanes (.brnz a x) (fun w => w != 0) a x)
  ∧ (∀ a x, DividesUnread (.brz a x) (fun w => w == 0) a x) ∧ (∀ a x, DividesUnread (.brnz a x) (fun w => w != 0) a x)
  ∧ ∀ g si sp take t mp, tget g.splits si = some sp → g.splits.length < 4 →
      ∃ n, n < 4 ∧ n ≠ si ∧ tget g.splits n = none
        ∧ (tget (divideSplit g si sp take t mp).splits si).map (fun q => (q.pc, q.mask)) = some (sp.pc, sp.mask &&& ~~~take)
        ∧ (tget (divideSplit g si sp take t mp).splits n).map (fun q => (q.pc, q.mask, q.fmt)) = some (t, take, sp.fmt)
        ∧ ∀ m, m ≠ si → m ≠ n → tget (divideSplit g si sp take t mp).splits m = tget g.splits m

end Sys2Proof

/-- R75, R97, R98, R100: the branches that look at each strand, and where the paths they part will merge.  That a branch with no active
lane goes to its target, that the limit of 80 entries counts for each split, that a spill is checked as a store, and what a branch does
whose word at T − 4 cannot be fetched, is the model's choice (log entry 46). -/
def Obligations.StrandBranches : Prop :=
  BranchesDivide ∧ MergePoints

namespace Sys2Proof

/-- R99: two splits at the merge point of the record they share, whose lanes are all of its join mask that has not exited, become
one split in the lower index, with the format of the record. -/
def SplitsMerge : Prop :=
  ∀ g i a j b e rest, g.splits = [(i, a), (j, b)] → i < j → a.recs = e :: rest → b.recs = e :: rest → e.stack = none
    → a.pc = e.mp → b.pc = e.mp → a.pend = [] → b.pend = [] → e.join &&& ~~~((a.mask ||| b.mask) ||| g.exited) = 0
    → (∀ f r, rest = f :: r → f.mp ≠ e.mp) →
      (settled g).splits.map (fun x => (x.1, x.2.pc, x.2.mask, x.2.fmt, x.2.recs)) = [(i, e.mp, a.mask ||| b.mask, e.fmt, rest)]
        ∧ settled g = { g with splits := (settled g).splits, nextSeg := (settled g).nextSeg }

/-- A split stands at the merge point of its records `rs`, with no write pending. -/
def Stands (q : Split) (mp : DWord) (rs : List DivEntry) : Prop := q.pc = mp ∧ q.recs = rs ∧ q.pend = []

/-- These lanes and the exited ones hold all of a record's join mask. -/
def Holds (g : Gang) (e : DivEntry) (m : Mask) : Prop := e.join &&& ~~~(m ||| g.exited) = 0

/-- A divergence record, which is no stack entry, at this merge point (R11). -/
def PlainEntry (e : DivEntry) (mp : DWord) : Prop := e.mp = mp ∧ e.stack = none

/-- The splits of a gang have settled into one with these lanes and records, in the lowest of the indices. -/
def OneSplit (g : Gang) (low : Nat) (mp : DWord) (m : Mask) (fmt : Word) (recs : List DivEntry) : Prop :=
  (settled g).splits.map (fun x => (x.1, x.2.pc, x.2.mask, x.2.fmt, x.2.recs)) = [(low, mp, m, fmt, recs)]
    ∧ settled g = { g with splits := (settled g).splits, nextSeg := (settled g).nextSeg }

/-- R99: three splits at one address merge from the innermost record outward. -/
def ThreeMerge : Prop :=
  ∀ g i j k a b c e f rest mp, g.splits.length = 3 → i ≠ j → i ≠ k → j ≠ k →
    tget g.splits i = some a → tget g.splits j = some b → tget g.splits k = some c →
    PlainEntry e mp → PlainEntry f mp → f.join ≠ e.join → Stands a mp (e :: rest) → Stands b mp (f :: e :: rest) →
    Stands c mp (f :: e :: rest) → ¬ Holds g e a.mask → Holds g f (b.mask ||| c.mask) → Holds g e (a.mask ||| b.mask ||| c.mask) →
    (∀ r q, rest = r :: q → r.mp ≠ mp) → OneSplit g (min i (min j k)) mp (a.mask ||| b.mask ||| c.mask) e.fmt rest

/-- R99: four splits at one address merge so too, whether the later branches divided one path again and again, as in the loop of R100, or
both paths. -/
def FourMerge : Prop :=
  ∀ g i j k l a b c d e f h rest mp, g.splits.length = 4 → [i, j, k, l].Nodup →
    tget g.splits i = some a → tget g.splits j = some b → tget g.splits k = some c → tget g.splits l = some d →
    PlainEntry e mp → PlainEntry f mp → PlainEntry h mp → [e.join, f.join, h.join].Nodup → (∀ r q, rest = r :: q → r.mp ≠ mp) →
    Holds g e (a.mask ||| b.mask ||| c.mask ||| d.mask) →
    (Stands a mp (e :: rest) → Stands b mp (f :: e :: rest) → Stands c mp (h :: f :: e :: rest) → Stands d mp (h :: f :: e :: rest) →
      ¬ Holds g e a.mask → ¬ Holds g f b.mask → Holds g h (c.mask ||| d.mask) → Holds g f (b.mask ||| c.mask ||| d.mask) →
      OneSplit g (min (min i j) (min k l)) mp (a.mask ||| b.mask ||| c.mask ||| d.mask) e.fmt rest)
    ∧ (Stands a mp (f :: e :: rest) → Stands b mp (f :: e :: rest) → Stands c mp (h :: e :: rest) → Stands d mp (h :: e :: rest) →
      ¬ Holds g e (a.mask ||| b.mask) → ¬ Holds g e (c.mask ||| d.mask) → Holds g f (a.mask ||| b.mask) → Holds g h (c.mask ||| d.mask) →
      OneSplit g (min (min i j) (min k l)) mp (a.mask ||| b.mask ||| c.mask ||| d.mask) e.fmt rest)

/-- R98, R99: at the merge point of a reconvergence-stack entry the fall-through path runs first, then the lanes of the entry go on
together, and at the same address test the record beneath. -/
def StackEntriesMerge : Prop :=
  (∀ g i sp e p rest, g.splits = [(i, sp)] → Stands sp e.mp (e :: rest) → e.stack = some p → stackDepth sp ≤ 16 →
    (p.second = false → p.npc ≠ e.mp → settled g = { g with splits := [(i, { sp with
      pc := p.npc, mask := p.fall, fmt := e.fmt, recs := { e with stack := some { p with second := true } } :: rest })] })
    ∧ (p.second = true → (∀ r q, rest = r :: q → r.mp ≠ e.mp) → settled g = { g with splits := [(i, { sp with
      mask := e.join &&& ~~~g.exited, fmt := e.fmt, recs := rest })] }))
  ∧ ∀ g i j a b e f p rest mp, g.splits.length = 2 → i ≠ j → tget g.splits i = some a → tget g.splits j = some b →
    PlainEntry e mp → f.mp = mp → f.stack = some p → p.second = true → stackDepth b ≤ 16 → Stands a mp (e :: rest) →
    Stands b mp (f :: e :: rest) → ¬ Holds g e a.mask → Holds g e (a.mask ||| (f.join &&& ~~~g.exited)) →
    (∀ r q, rest = r :: q → r.mp ≠ mp) → OneSplit g (min i j) mp (a.mask ||| (f.join &&& ~~~g.exited)) e.fmt rest

/-- R99: splits at a merge point wait there while the splits at it do not hold every lane of the record, and while one has results still
to come; they do not issue, nor does a split whose next instruction reads a register that a late landing is still to write (R251). -/
def SplitsWait : Prop :=
  (∀ g, (g.splits.map (·.1)).Pairwise (· < ·) →
    (∀ x ∈ g.splits, atMerge x.2 = true → splitOpen x.2 = true
      ∨ x.2.pend = [] ∧ ∃ e rest, x.2.recs = e :: rest ∧ e.stack = none ∧ ¬ Holds g e ((standing g e).foldl (fun m y => m ||| y.2.mask) 0)) →
    settled g = g)
  ∧ (∀ s g sp, atMerge sp = true → splitReady s g sp = false)
  ∧ (∀ s g sp, sourcesHeld s g sp = true → splitReady s g sp = false)
  ∧ ∀ s g sp, heldByLanding sp = false → sp.wait = .none → atMerge sp = false → splitReady s g sp = true

end Sys2Proof

/-- R98, R99: how the paths of a divided split merge: two, three and four splits, stack entries, and splits that wait. -/
def Obligations.Merging : Prop :=
  SplitsMerge ∧ ThreeMerge ∧ FourMerge ∧ StackEntriesMerge ∧ SplitsWait

/-- R97, R101: branches that a whole split takes or does not take, and transfers through a register pair; what they link. -/
def Obligations.UniformTransfers : Prop :=
  (∀ x, OnGangClosing (.bra x) [] (some []) (fun s _ g _ sp => bodyBranchOk s g [branchTarget sp.pc x] = true)
      fun s gid g si sp t => Retired s t gid g si (branchTarget sp.pc x))
  ∧ (∀ x, OnMcc (.bra x) (fun _ _ _ _ => True) fun s cid c m t => MccRetired s t cid c m (branchTarget m.pc x))
  ∧ (∀ a x, OnGangClosing (.brany a x) [a] none (fun _ _ _ _ _ => True) fun s gid g si sp t =>
      ((∃ l ∈ lanesOf sp.mask, vget g a l ≠ 0) → Retired s t gid g si (branchTarget sp.pc x))
      ∧ ((∀ l ∈ lanesOf sp.mask, vget g a l = 0) → Retired s t gid g si (nextPc sp.pc)))
  ∧ (∀ a x, OnGangClosing (.brall a x) [a] none (fun _ _ _ _ _ => True) fun s gid g si sp t =>
      ((∀ l ∈ lanesOf sp.mask, vget g a l ≠ 0) → Retired s t gid g si (branchTarget sp.pc x))
      ∧ ((∃ l ∈ lanesOf sp.mask, vget g a l = 0) → Retired s t gid g si (nextPc sp.pc)))
  ∧ (∀ i a x, (i = .bkz a x ∨ i = .bknz a x) →
      (OnGangClosing i [] none (fun _ _ _ _ _ => True) fun s gid g si sp t =>
        Retired s t gid g si (if (cget g.k a = 0) = (i = .bkz a x) then branchTarget sp.pc x else nextPc sp.pc))
      ∧ OnMcc i (fun _ _ _ _ => True) fun s cid c m t =>
        MccRetired s t cid c m (if (cget m.k a = 0) = (i = .bkz a x) then branchTarget m.pc x else nextPc m.pc))
  ∧ (∀ a x, OnGangClosing (.call a x) [] none (fun _ _ _ _ sp => targetTrap (branchTarget sp.pc x) = none) fun s gid g si sp t =>
      Retired s t gid { g with k := setKPair g.k a (nextPc sp.pc) } si (branchTarget sp.pc x))
  ∧ (∀ d a, OnGangClosing (.callk d a) [] none (fun _ _ g _ _ => targetTrap (kPair g.k a) = none) fun s gid g si sp t =>
      Retired s t gid { g with k := setKPair g.k d (nextPc sp.pc) } si (kPair g.k a))
  ∧ (∀ i a, (i = .jmpk a ∨ i = .ret a) →
      (OnGangClosing i [] none (fun _ _ g _ _ => targetTrap (kPair g.k a) = none) fun s gid g si _ t => Retired s t gid g si (kPair g.k a))
      ∧ (OnGangClosing i [] none (fun _ _ g _ _ => targetTrap (kPair g.k a) ≠ none ∧ gangOpen g = false) fun s gid g si sp t =>
        ∃ e, targetTrap (kPair g.k a) = some e ∧ Trapped s t gid g si sp e)
      ∧ (OnMcc i (fun _ _ _ m => targetTrap (kPair m.k a) ≠ none) fun s cid c m t =>
        ∃ e, targetTrap (kPair m.k a) = some e ∧ MccTrapped s t cid c m e)
      ∧ OnMcc i (fun _ _ _ m => targetTrap (kPair m.k a) = none) fun s cid c m t => MccRetired s t cid c m (kPair m.k a))
  ∧ (∀ a x, OnMcc (.call a x) (fun _ _ _ m => targetTrap (branchTarget m.pc x) = none) fun s cid c m t =>
      MccRetired s t cid c { m with k := setKPair m.k a (nextPc m.pc) } (branchTarget m.pc x))
  ∧ (∀ d a, OnMcc (.callk d a) (fun _ _ _ m => targetTrap (kPair m.k a) = none) fun s cid c m t =>
      MccRetired s t cid c { m with k := setKPair m.k d (nextPc m.pc) } (kPair m.k a))
  ∧ (∀ a x, OnGangClosing (.call a x) [] none (fun _ _ g _ sp => targetTrap (branchTarget sp.pc x) ≠ none ∧ gangOpen g = false)
      fun s gid g si sp t => ∃ e, targetTrap (branchTarget sp.pc x) = some e ∧ Trapped s t gid g si sp e)
  ∧ (∀ a x, OnMcc (.call a x) (fun _ _ _ m => targetTrap (branchTarget m.pc x) ≠ none)
      fun s cid c m t => ∃ e, targetTrap (branchTarget m.pc x) = some e ∧ MccTrapped s t cid c m e)
  ∧ (∀ d a, OnGangClosing (.callk d a) [] none (fun _ _ g _ _ => targetTrap (kPair g.k a) ≠ none ∧ gangOpen g = false)
      fun s gid g si sp t => ∃ e, targetTrap (kPair g.k a) = some e ∧ Trapped s t gid g si sp e)
  ∧ (∀ d a, OnMcc (.callk d a) (fun _ _ _ m => targetTrap (kPair m.k a) ≠ none)
      fun s cid c m t => ∃ e, targetTrap (kPair m.k a) = some e ∧ MccTrapped s t cid c m e)
  ∧ decodeWord 0x1E782000 = some (.callk 30 4) ∧ decodeWord 0x1C002000 = some (.jmpk 4) ∧ decodeWord 0x0000F009 = some (.ret 30)
  ∧ (∀ x : DWord, x.toNat % 4 ≠ 0 → targetTrap x = some { plainTrap .misalign with addr := x })
  ∧ ∀ x : DWord, x.toNat % 4 = 0 →
      ((∀ i, 57 ≤ i → i < 64 → x.getLsbD i = x.getLsbD 56) → targetTrap x = none)
      ∧ ((∃ i, 57 ≤ i ∧ i < 64 ∧ x.getLsbD i ≠ x.getLsbD 56) → targetTrap x = some { plainTrap .perm with cause := 3, addr := x })

/-- R107 to R109, R112: nop only retires; yield steps back behind the ready gangs of its core, or ends its quantum; icinv bounds
what is fetched from then on, once the releases before it have been performed; exit ends its split's lanes.  That icinv waits for those
releases, that it acts at its issue and at the commit in a deterministic launch, and what it discards on the MCC is the model's reading (log
entry 44). -/
def Obligations.SystemFunctions : Prop :=
  (OnGang .nop [] (some []) (fun _ _ _ _ _ => True) (Makes fun _ g _ => g))
  ∧ (OnMcc .nop (fun _ _ _ _ => True) fun s cid c m t => MccRetired s t cid c m (nextPc m.pc))
  ∧ (OnGangClosing .yield [] none (fun _ _ _ _ _ => True) fun s gid g si sp t => ∃ u g', Retired s u gid g si (nextPc sp.pc)
      ∧ tget u.gangs gid = some g' ∧ tget t.gangs gid = some (if gangDet s g then { g' with qEnded := true }
          else { g' with yielded := some (readyGangs s g.core gid, s.ctl.clock + frontCycles s (gangCluster g) 64) })
      ∧ t = { u with gangs := t.gangs } ∧ ∀ h, h ≠ gid → tget t.gangs h = tget u.gangs h)
  ∧ (OnMcc .yield (fun _ _ _ _ => True) fun s cid c m t => MccRetired s t cid c m (nextPc m.pc))
  ∧ (OnMcc .phase (fun _ _ _ _ => True) fun s cid c m t => MccRetired s t cid c m (nextPc m.pc))
  ∧ (∀ sc, OnGang (.icinv sc) [] none (fun s gid g _ sp => gangDet s g = false ∧ releasesBefore s gid sp = []) fun s gid g si sp t =>
      Retired (discardCaches s g.core (gangCluster g) g.part sc) t gid g si (nextPc sp.pc) ∧ SameMemory s t
        ∧ (g.core < 640 → sc = .core → (getCore t g.core).icBound = s.mem.seq))
  ∧ (∀ sc, OnGang (.icinv sc) [] none (fun s gid g _ sp => gangDet s g = false ∧ releasesBefore s gid sp ≠ []) fun s gid _ si sp t =>
      Waits s t gid si (.discard (releasesBefore s gid sp) sc) false)
  ∧ (∀ sc, OnGang (.icinv sc) [] none (fun s _ g _ _ => gangDet s g = true) fun s gid g si sp t => SameMemory s t ∧ RetiredFrom
      (logRequest (discardCaches s g.core (gangCluster g) g.part sc) gid (gangRequest g gid si 0 (.discard sc) [])) t gid g si (nextPc sp.pc))
  ∧ (∀ sc, OnMcc (.icinv sc) (fun _ _ _ _ => True) fun s cid c m t =>
      MccRetired (discardCaches s noCore c.cluster c.part sc) t cid c m (nextPc m.pc))
  ∧ (OnGangClosing .exit [] none (fun s gid g si sp => exitEndsCrew s gid g si sp = false) fun s gid g _ sp t =>
      SameMemory s t ∧ ∃ g', tget t.gangs gid = some g' ∧ g'.exited = g.exited ||| sp.mask ∧ g'.rtc = g.rtc + 1 ∧ g'.k = g.k ∧ g'.part = g.part)
  ∧ (OnGangClosing .exit [] none (fun s gid g si sp => exitEndsCrew s gid g si sp = true ∧ gangDet s g = false ∧ gangDurable s g = false)
      fun _ gid _ _ _ t => ∃ g', tget t.gangs gid = some g' ∧ g'.status = .ended ∧ g'.splits = [])
  ∧ OnMcc .exit (fun _ _ _ m => m.queue = []) fun _ cid _ m t => ∃ m', tget t.mccs cid = some m' ∧ m'.running = false
      ∧ m'.status = .ended ∧ m'.k = m.k

/-! ### Memory (R140 to R151, R215 to R232) -/

namespace Sys2Proof

/-- The loads and the stores of global memory with their sizes in bytes (R143). -/
def loadForms : List (Nat × (Nat → Nat → Nat → LdOrd → Nat → Instr)) := [(1, .ldgB), (2, .ldgH), (4, .ldgW), (8, .ldgD), (16, .ldgQ)]

def storeForms : List (Nat × (Nat → Nat → Nat → StOrd → Instr)) := [(1, .stgB), (2, .stgH), (4, .stgW), (8, .stgD), (16, .stgQ)]

/-- The bytes of a list of stores, in lane order, and the newest one for a key. -/
def lastByte (bs : List (Nat × Byte)) (key : Nat) : Option Byte := ((bs.filter fun b => b.1 == key).getLast?).map (·.2)

/-- R140, R143: every lane of an access is checked before any is performed: the access goes on exactly where no lane is misaligned
and every address translates, and its lanes are then the active ones, in order. -/
def LanesAreChecked : Prop :=
  ∀ s g sp k n a kb,
    ((∃ lanes, globalLanes s g sp k n a kb = .ok lanes) ↔
      ∀ l ∈ lanesOf sp.mask, (globalAddr g a kb l).toNat % n = 0 ∧ ∃ key, translate s (gangView g) k (globalAddr g a kb l) = .ok key)
    ∧ (∀ lanes, globalLanes s g sp k n a kb = .ok lanes → lanes.map (fun x => (x.1, x.2.1)) =
        (lanesOf sp.mask).map fun l => (l, globalAddr g a kb l))
    ∧ ∀ t, globalLanes s g sp k n a kb = .error t → t.access = k ∧ t.lanes ≠ 0 ∧ t.lanes &&& ~~~sp.mask = 0

/-- R34, R143, R144, R196, R29: a load opens a window: its registers land with the bytes that it read at issue, zero-extended; it stores
nothing; a lane that fails its checks traps instead, and so does, behind those, a destination in the bc block of a region's body. -/
def GlobalLoads : Prop :=
  ∀ e ∈ loadForms, ∀ d a kb o l,
    (OnGang (e.2 d a kb o l) (a :: regBlock d e.1) (match o with | .acq _ => none | _ => some [])
      (fun s _ g _ sp => ∃ lanes, globalLanes s g sp .load e.1 a kb = .ok lanes ∧ inCommitted g (regBlock d e.1) = false
        ∧ acquireOpen sp = false ∧ openWords s g.core (lanes.flatMap fun x => keyRun x.2.2 e.1) = [])
      fun s gid g si sp t => ∃ lanes s1 s2 g1, globalLanes s g sp .load e.1 a kb = .ok lanes
        ∧ s1 = loadRefresh (tlbFills s (gangView g) (lanes.map (·.2.1))) gid g si o (lanes.flatMap fun x => keyRun x.2.2 e.1)
        ∧ s2 = loadObserve s1 gid g si sp o (lanes.flatMap fun x => keyRun x.2.2 e.1) ∧ tget s2.gangs gid = some g1 ∧ Learned g g1
        ∧ Retired s2 t gid (openPending g1 si
            { left := l + 1, flags := 0, replies := [], dst := [], dead := [], slots := 0, acquire := none
              writes := lanes.flatMap fun x => loadedCells g d x.1 ((keyRun x.2.2 e.1).map (loadedByte s1 gid g sp o)) }) si (nextPc sp.pc)
        ∧ SameMemory s t ∧ ∀ c, (getCore t c).porch = (getCore s c).porch)
    ∧ (OnGang (e.2 d a kb o l) (a :: regBlock d e.1) (match o with | .acq _ => none | _ => some [])
      (fun s _ g _ sp => gangOpen g = false ∧ ∃ i, globalLanes s g sp .load e.1 a kb = .error i ∧ takesPlace i = false)
      fun s gid g si sp t => ∃ i, globalLanes s g sp .load e.1 a kb = .error i ∧ Trapped s t gid g si sp i)
    ∧ OnGang (e.2 d a kb o l) (a :: regBlock d e.1) (match o with | .acq _ => none | _ => some [])
      (fun s _ g _ sp => gangOpen g = false ∧ (∃ lanes, globalLanes s g sp .load e.1 a kb = .ok lanes)
        ∧ inCommitted g (regBlock d e.1) = true)
      fun s gid g si sp t => Trapped s t gid g si sp (plainTrap .invalidParam)

/-- R218, R222, R223, R236, R261: a load returns its core's own Porch byte first; a fresh load else the byte published at package
scope, unless it is bound to a later one of its cluster (log entry 43); in deterministic mode a load else the byte that stood at the
quantum's start; a plain load of a byte that the epoch has observed returns what it observed, and else the byte of one of the writes that
R222 leaves its core: the last one that its refreshes, its reads or its stores bind it to, and those after it.  The line of a byte that a
plain load reads from outside the Porch counts as observed. -/
def LoadedValues : Prop :=
  (∀ s c gid sp q key b, porchByte (getCore s c) key = some b → loadByte s c q key = b ∧ freshByte s c gid sp q key = b)
  ∧ (∀ s c gid sp key, porchByte (getCore s c) key = none → freshByte s c gid sp none key =
      match boundOverlay s c gid sp key with
      | some o => o.val
      | none => newestByte s key)
  ∧ (∀ s c gid sp n key, porchByte (getCore s c) key = none →
      loadByte s c (some n) key = byteAt s n key ∧ freshByte s c gid sp (some n) key = byteAt s n key)
  ∧ (∀ s c key b, porchByte (getCore s c) key = none → tget (getCore s c).obs key = some b → loadByte s c none key = b)
  ∧ (∀ s c key, porchByte (getCore s c) key = none → tget (getCore s c).obs key = none →
      ∃ v ∈ loadCandidates s c key, v.1 = loadByte s c none key)
  ∧ (∀ s c key, ∃ before last after, versions s c key = before ++ last :: after ∧ last.must = true ∧ (∀ w ∈ after, w.must = false)
      ∧ loadCandidates s c key = (last :: after).map fun w => (w.val, w.id))
  ∧ (∀ s c key, pastOf s key = [] → overlayOf s (coreCluster c) key = [] → ∀ v ∈ loadCandidates s c key, v.1 = newestByte s key)
  ∧ (∀ s c key, loadByte (observeByte s c none key (loadByte s c none key)) c none key = loadByte s c none key)
  ∧ ∀ s gid g si sp keys, ∀ key ∈ keys, porchByte (getCore s g.core) key = none →
      key / 128 ∈ (getCore (loadObserve s gid g si sp .plain keys) g.core).lines

end Sys2Proof

/-- R29, R140, R143, R144: the loads of global memory, their checks and the bytes they see. -/
def Obligations.Loads : Prop :=
  LanesAreChecked ∧ GlobalLoads ∧ LoadedValues

namespace Sys2Proof

/-- R140, R143, R145, R219, R237, R263: a store that finds room puts its bytes into its core's Porch; partition memory is as it was; a release
also begins a publication; a deterministic store is logged for the commit, a release with its scope; a store one of whose lanes is misaligned
or does not translate traps with that lane, and no byte of it enters a Porch. -/
def GlobalStores : Prop :=
  ∀ e ∈ storeForms, ∀ d a kb o,
    (OnGang (e.2 d a kb o) (a :: regBlock d e.1) none
      (fun s _ g _ sp => ∃ i, globalLanes s g sp .store e.1 a kb = .error i)
      fun s gid g si sp t => (∃ i, globalLanes s g sp .store e.1 a kb = .error i ∧ t = takeTrap s gid g si i 0
          ∧ (gangOpen g = false → takesPlace i = false → Trapped s t gid g si sp i))
        ∧ (∀ c, (getCore t c).porch = (getCore s c).porch) ∧ SameMemory s t)
    ∧ ((∀ sc, o ≠ .rel sc) → OnGang (e.2 d a kb o) (a :: regBlock d e.1) none
      (fun s gid g si sp => ∃ lanes, globalLanes s g sp .store e.1 a kb = .ok lanes ∧ acquireOpen sp = false ∧ gangDet s g = false
        ∧ porchFull s g gid si ((storeLanes g d e.1 lanes).flatMap (·.2)) = false)
      fun s gid g si sp t => ∃ lanes, globalLanes s g sp .store e.1 a kb = .ok lanes ∧ SameMemory s t
        ∧ Retired (putStores (tlbFills s (gangView g) (lanes.map (·.2.1))) gid g si sp (storeLanes g d e.1 lanes)) t gid g si (nextPc sp.pc))
    ∧ (∀ sc, o = .rel sc → OnGang (e.2 d a kb o) (a :: regBlock d e.1) none
      (fun s gid g si sp => ∃ lanes s1 g1 sp1, Sealed s gid g si s1 g1 sp1 ∧ (∃ x, globalLanes s g sp .store e.1 a kb = .ok x)
        ∧ globalLanes s1 g1 sp1 .store e.1 a kb = .ok lanes ∧ gangDet s1 g1 = false
        ∧ porchFull s1 g1 gid si ((storeLanes g1 d e.1 lanes).flatMap (·.2)) = false)
      fun s gid g si _ t => ∃ lanes s1 g1 sp1 u, Sealed s gid g si s1 g1 sp1 ∧ globalLanes s1 g1 sp1 .store e.1 a kb = .ok lanes
        ∧ u = startRelease (putStores (tlbFills s1 (gangView g1) (lanes.map (·.2.1))) gid g1 si sp1 (storeLanes g1 d e.1 lanes)) gid g1 sp1 sc
            (((storeLanes g1 d e.1 lanes).flatMap (·.2)).map (·.1))
        ∧ Retired u.2 t gid g1 si (nextPc sp1.pc) ∧ SameMemory s1 t
        ∧ (tget t.pubs u.1).map (fun p => (p.core, p.scope, p.gang)) = some (g1.core, sc, gid))
    ∧ ((∀ sc, o ≠ .rel sc) → OnGang (e.2 d a kb o) (a :: regBlock d e.1) none
      (fun s gid g si sp => ∃ lanes, globalLanes s g sp .store e.1 a kb = .ok lanes ∧ acquireOpen sp = false ∧ gangDet s g = true
        ∧ porchFull s g gid si ((storeLanes g d e.1 lanes).flatMap (·.2)) = false)
      fun s gid g si sp t => ∃ lanes u, globalLanes s g sp .store e.1 a kb = .ok lanes ∧ SameMemory s t
        ∧ u = detStore s gid g si sp none (storeLanes g d e.1 lanes)
        ∧ Retired u t gid { g with qLog := g.qLog ++ [s.ctl.nextId] } si (nextPc sp.pc)
        ∧ (tget t.requests s.ctl.nextId).map (fun r => (r.kind, r.rel)) = some (.store ((storeLanes g d e.1 lanes).flatMap (·.2)), none))
    ∧ (∀ sc, o = .rel sc → OnGang (e.2 d a kb o) (a :: regBlock d e.1) none
      (fun s gid g si sp => ∃ lanes s1 g1 sp1, Sealed s gid g si s1 g1 sp1 ∧ (∃ x, globalLanes s g sp .store e.1 a kb = .ok x)
        ∧ globalLanes s1 g1 sp1 .store e.1 a kb = .ok lanes ∧ gangDet s1 g1 = true
        ∧ porchFull s1 g1 gid si ((storeLanes g1 d e.1 lanes).flatMap (·.2)) = false)
      fun s gid g si _ t => ∃ lanes s1 g1 sp1 u, Sealed s gid g si s1 g1 sp1 ∧ globalLanes s1 g1 sp1 .store e.1 a kb = .ok lanes
        ∧ SameMemory s1 t ∧ u = detStore s1 gid g1 si sp1 (some sc) (storeLanes g1 d e.1 lanes)
        ∧ Retired u t gid { g1 with qLog := g1.qLog ++ [s1.ctl.nextId] } si (nextPc sp1.pc)
        ∧ (tget t.requests s1.ctl.nextId).map (fun r => (r.kind, r.rel)) =
            some (.store ((storeLanes g1 d e.1 lanes).flatMap (·.2)), some sc))

/-- The bytes of a Porch carry no place after the core's order of stores. -/
def PorchOrder (c : CoreSt) : Prop := ∀ e ∈ c.porch, ∀ b ∈ e.bytes, b.2.2 ≤ c.order

/-- R145, R218, R263: after a store the core's Porch holds, of every byte stored to, the value of the highest lane that stored it,
and of every other byte what it held; other cores' Porches are as they were. -/
def StoredBytes : Prop :=
  ∀ s gid g si sp ls, PorchOrder (getCore s g.core) →
    PorchOrder (getCore (putStores s gid g si sp ls) g.core)
    ∧ (∀ key, porchByte (getCore (putStores s gid g si sp ls) g.core) key =
        match lastByte (ls.flatMap (·.2)) key with
        | some b => some b
        | none => porchByte (getCore s g.core) key)
    ∧ (∀ c, c ≠ g.core → getCore (putStores s gid g si sp ls) c = getCore s c)
    ∧ SameMemory s (putStores s gid g si sp ls)

end Sys2Proof

/-- R143, R145, R218, R219, R221, R263: the stores of global memory and what the Porch then holds. -/
def Obligations.Stores : Prop :=
  GlobalStores ∧ StoredBytes

namespace Sys2Proof

/-- A publication whose turn has come is performed: `t` is the state after it, `bs` its bytes in merge order; its entries have left the
Porch, and it is under way no more. -/
def PerformsPub (s : State) (id : Nat) (p : Pub) (post : State → List (Nat × Byte) → Prop) : Prop :=
  ∃ t bs, exec (.publicationAcknowledgement id) s = .next t
    ∧ bs = mergedBytes ((getCore s p.core).porch.filter fun e => e.taken == some id)
    ∧ tget t.pubs id = none ∧ (∀ e ∈ (getCore t p.core).porch, e.taken ≠ some id) ∧ t.mem.host = s.mem.host ∧ post t bs

/-- The last byte that a core has published at cluster scope and no further. -/
def ownOverlay (s : State) (core key : Nat) : Option Byte :=
  ((s.mem.overlay.filter fun o => o.core == core && o.addr == key).getLast?).map (·.val)

/-- The bytes `bs` are published at the scope of a publication: at package scope or beyond every one of them then reads as the last of its
merge, one that its core had published at cluster scope as the last one there, and every other byte as before; at cluster scope they stand
last in their cluster, and no byte of package scope or of another cluster changes (R219, R223, R231). -/
def PublishesAt (s t : State) (p : Pub) (bs : List (Nat × Byte)) : Prop :=
  (p.scope ≠ .cl → ∀ key, newestByte t key = (lastByte bs key).getD ((ownOverlay s p.core key).getD (newestByte s key)))
  ∧ (p.scope = .cl → (∀ key, newestByte t key = newestByte s key)
      ∧ (∀ key b, lastByte bs key = some b → ((overlayOf t (coreCluster p.core) key).getLast?).map (·.val) = some b)
      ∧ (∀ key, lastByte bs key = none → overlayOf t (coreCluster p.core) key = overlayOf s (coreCluster p.core) key)
      ∧ ∀ cl key, cl ≠ coreCluster p.core → overlayOf t cl key = overlayOf s cl key)

/-- What a replayed publication has still to publish: of each entry the bytes that others have stored since the resume (R312; log entry 58). -/
def stillNew (s : State) (id : Nat) (p : Pub) : List PorchEntry :=
  ((getCore s p.core).porch.filter fun e => e.taken == some id).map (newBytes (getCore s p.core).resumed p.gang p.hist)

end Sys2Proof

/-- R219, R220, R223, R231, R263, R312: a publication whose turn has come is performed.  At package scope or beyond, every byte that it
holds then reads as the last one of its merge, one that its core had published at cluster scope as the last one there, and every other
byte as before.  At cluster scope its bytes stand last in their cluster, and no byte of package scope or of another cluster changes.  A
replayed one is acknowledged and changes no byte, but for those that others have stored since the resume, which it publishes; that it does is
the model's reading (log entry 58). -/
def Obligations.Publications : Prop :=
  (∀ s id p, tget s.pubs id = some p → pubReady s p = true → pubDone s id p = false →
    PerformsPub s id p fun t bs => PublishesAt s t p bs)
  ∧ (∀ s id p, tget s.pubs id = some p → pubReady s p = true → pubDone s id p = true → (∀ e ∈ stillNew s id p, e.bytes = []) →
    PerformsPub s id p fun t _ => SameMemory s t)
  ∧ ∀ s id p, tget s.pubs id = some p → pubReady s p = true → pubDone s id p = true → (∃ e ∈ stillNew s id p, e.bytes ≠ []) →
    PerformsPub s id p fun t _ => PublishesAt s t p (mergedBytes (stillNew s id p))

/-- The gang as its scratchpad access leaves it: the copies that its split's fences have ordered before it have been noted, and nothing else of
it has changed (R156, R175). -/
def Sys2Proof.AfterCopies (g g1 : Gang) (si : Nat) : Prop :=
  g1 = g ∨ g1 = { g with splits := tmod g.splits si fun q => { q with after := [] } }

/-- The scratchpads of all crews are as they were. -/
def Sys2Proof.SameScratch (s t : State) : Prop := ∀ c, (tget t.crews c).map (·.scratch) = (tget s.crews c).map (·.scratch)

/-- R146, R150, R175: lds, sts and satom work on the scratchpad of the gang's crew at issue; partition memory is untouched, of
that scratchpad only the bytes stored, and no other crew.  satom leaves the bytes of its lanes' words as the operations of the lanes, in their
order, leave them. -/
def Obligations.Scratchpads : Prop :=
  (∀ e ∈ [(1, Instr.ldsB), (2, Instr.ldsH), (4, Instr.ldsW), (8, Instr.ldsD), (16, Instr.ldsQ)], ∀ d a kb l,
    OnGang (e.2 d a kb l) (a :: regBlock d e.1) (some [])
      (fun s _ g _ sp => ∃ lanes, scratchLanes s g sp e.1 (scratchAddr g a kb) = .ok lanes ∧ inCommitted g (regBlock d e.1) = false
        ∧ acquireOpen sp = false)
      fun s gid g si sp t => ∃ lanes u g1, scratchLanes s g sp e.1 (scratchAddr g a kb) = .ok lanes ∧ SameMemory s t
        ∧ u = scratchAccess s gid g si sp ∧ tget u.gangs gid = some g1 ∧ AfterCopies g g1 si
        ∧ Retired u t gid (openPending g1 si
            { left := l + 1, flags := 0, replies := [], dst := [], dead := [], slots := 0, acquire := none
              writes := lanes.flatMap fun x => loadedCells g d x.1 ((scratchOf s g).readN x.2 e.1) }) si (nextPc sp.pc)
        ∧ SameScratch s t)
  ∧ (∀ e ∈ [(1, Instr.stsB), (2, Instr.stsH), (4, Instr.stsW), (8, Instr.stsD), (16, Instr.stsQ)], ∀ d a kb,
    OnGang (e.2 d a kb) (a :: regBlock d e.1) none
      (fun s _ g _ sp => ∃ lanes, scratchLanes s g sp e.1 (scratchAddr g a kb) = .ok lanes ∧ acquireOpen sp = false)
      fun s gid g si sp t => ∃ lanes bs, scratchLanes s g sp e.1 (scratchAddr g a kb) = .ok lanes
        ∧ bs = lanes.flatMap (fun x => listAt x.2 (storedBytes g d e.1 x.1)) ∧ SameMemory s t
        ∧ (∃ g1, AfterCopies g g1 si
          ∧ Retired (scratchPut (scratchAccess s gid g si sp) g.crew (.strand gid sp.seg) bs) t gid g1 si (nextPc sp.pc))
        ∧ (tget s.crews g.crew ≠ none → ∀ key, (scratchOf t g).read key = (lastByte bs key).getD ((scratchOf s g).read key))
        ∧ ∀ c, c ≠ g.crew → (tget t.crews c).map (·.scratch) = (tget s.crews c).map (·.scratch)
          ∧ (sp.after = [] → tget t.crews c = tget s.crews c))
  ∧ (∀ f d a b, OnGang (.satom f d a b) (if f = .cas then [d, a, b, b + 1] else [d, a, b]) none
      (fun s _ g _ sp => ∃ lanes, scratchLanes s g sp 4 (fun l => vget g a l) = .ok lanes ∧ acquireOpen sp = false)
      fun s gid g si sp t => ∃ lanes r bs, scratchLanes s g sp 4 (fun l => vget g a l) = .ok lanes
        ∧ r = satomLanes (satomKind f) g b (scratchOf s g) lanes
        ∧ bs = (lanes.flatMap fun x => keyRun x.2 4).map (fun k => (k, r.1.read k)) ∧ SameMemory s t
        ∧ (∃ g1, AfterCopies g g1 si
          ∧ Retired (scratchPut (scratchAccess s gid g si sp) g.crew (.strand gid sp.seg) bs) t gid
              { g1 with v := csets g.v (r.2.map fun x => (vkey g d x.1, x.2)) } si (nextPc sp.pc))
        ∧ (tget s.crews g.crew ≠ none → ∀ key, (scratchOf t g).read key = r.1.read key)
        ∧ (∀ key, (∀ x ∈ lanes, key < x.2 ∨ x.2 + 4 ≤ key) → r.1.read key = (scratchOf s g).read key)
        ∧ ∀ c, c ≠ g.crew → (tget t.crews c).map (·.scratch) = (tget s.crews c).map (·.scratch)
          ∧ (sp.after = [] → tget t.crews c = tget s.crews c))
  ∧ (∀ op g b m x, satomLanes op g b m [x] =
      (m.writeList x.2 (bytesLE 4 (rmwApply op (BitVec.ofNat 64 (natLE (m.readN x.2 4))) (zextW (vget g b x.1)) (zextW (vget g (b + 1) x.1))).toNat),
        [(x.1, loWord (BitVec.ofNat 64 (natLE (m.readN x.2 4))))]))
  ∧ (∀ op g b m x xs, satomLanes op g b m (x :: xs) =
      ((satomLanes op g b (satomLanes op g b m [x]).1 xs).1, (satomLanes op g b m [x]).2 ++ (satomLanes op g b (satomLanes op g b m [x]).1 xs).2))
  ∧ ∀ s g sp n addr, (∃ lanes, scratchLanes s g sp n addr = .ok lanes) ↔
      ∀ l ∈ lanesOf sp.mask, (addr l).toNat % n = 0 ∧ (addr l).toNat + n ≤ scratchSize s g

namespace Sys2Proof

/-- R147, R149, R256: what an atomic or a reduction sends: one request for each word that its lanes name, to the word's home, with the
operation, and the lanes of the word in ascending order with their operands. -/
def SentWords : Prop :=
  (∀ s gid g si sp op ret o pages ls, let u := sendRmw s gid g si sp op ret o pages ls
    u.1.length = (byWord ls).length ∧ u.1.Nodup
    ∧ ∀ (i id : Nat) (w : List RmwLane), (byWord ls)[i]? = some w → u.1[i]? = some id →
        ∃ r a, tget u.2.requests id = some r ∧ r.kind = .rmw op w ret ∧ (w.head?).map (·.addr) = some a ∧ r.home = homeOfKey s a
          ∧ r.part = g.part ∧ r.gang = gid ∧ r.split = si ∧ r.core = g.core ∧ r.rtc = g.rtc ∧ r.rel = atomRel o
          ∧ r.acq = (if gangDet s g then none else atomAcq o) ∧ r.table = false)
  ∧ (∀ ls, (∀ w ∈ byWord ls, ∃ l ∈ ls, w = ls.filter fun x => x.addr == l.addr)
      ∧ (∀ l ∈ ls, ∃ w ∈ byWord ls, l ∈ w) ∧ ((byWord ls).map fun w => (w.head?).map (·.addr)).Nodup)
  ∧ (∀ g op d lanes, (rmwOperands g op d lanes).map (fun l => (l.lane, l.addr, l.dst)) = lanes.map fun x => (x.1, x.2.2, (g.wbase + d) * 64 + x.1))
  ∧ (∀ g d lanes, ∀ l ∈ rmwOperands g .add64 d lanes, l.x = vpair g d l.lane)
  ∧ ∀ g op d lanes, op ≠ .add64 → ∀ l ∈ rmwOperands g op d lanes,
      l.x = zextW (vget g d l.lane) ∧ (op = .cas → l.y = zextW (vget g (d + 1) l.lane))

end Sys2Proof

/-- R147, R148, R149, R256, R257: an atomic leaves its words' requests with their homes and a window that waits for their results; a
reduction only the requests.  They stall at issue only while the queue of a home is full, an atomic also while its lanes' return slots are. -/
def Obligations.Atomics : Prop :=
  SentWords ∧
  (∀ op mk, (op, mk) ∈ [(RmwOp.add, Instr.atomAdd), (.min, .atomMin), (.max, .atomMax), (.and, .atomAnd), (.or, .atomOr),
      (.xor, .atomXor), (.xchg, .atomXchg), (.cas, .atomCas), (.fadd, .atomFadd)] → ∀ d a kb o l,
    OnGang (mk d a kb o l) (if op = .cas then [a, d, d + 1] else [a, d]) none
      (fun s gid g si sp => (∃ x, globalLanes s g sp .rmw 4 a kb = .ok x ∧ rmwStalls s g x = false) ∧ slotsFull g sp.mask = false
        ∧ ∃ lanes s1 g1 sp1, Sealed s gid g si s1 g1 sp1 ∧ globalLanes s1 g1 sp1 .rmw 4 a kb = .ok lanes)
      fun s gid g si _ t => ∃ lanes s1 g1 sp1 u g2, Sealed s gid g si s1 g1 sp1 ∧ globalLanes s1 g1 sp1 .rmw 4 a kb = .ok lanes
        ∧ u = sendRmw (tlbFills s1 (gangView g1) (lanes.map (·.2.1))) gid g1 si sp1 op true o (wordVas lanes) (rmwOperands g1 op d lanes)
        ∧ tget u.2.gangs gid = some g2
        ∧ Retired u.2 t gid { openPending g2 si { left := l + 1, writes := [], flags := 0, replies := u.1,
                                                  dst := (rmwOperands g1 op d lanes).map (·.dst), dead := [], slots := sp1.mask, acquire := atomAcq o } with qEnded := g2.qEnded || gangDet s1 g1 } si (nextPc sp1.pc)
        ∧ Learned g1 g2)
  ∧ (∀ p d a kb o, OnGang (.red p d a kb o) (if p = .add64 then [a, d, d + 1] else [a, d]) none
      (fun s gid g si sp => (∃ x, globalLanes s g sp .rmw (rmwBytes (redKind p)) a kb = .ok x ∧ rmwStalls s g x = false)
        ∧ ∃ lanes s1 g1 sp1, Sealed s gid g si s1 g1 sp1 ∧ globalLanes s1 g1 sp1 .rmw (rmwBytes (redKind p)) a kb = .ok lanes)
      fun s gid g si _ t => ∃ lanes s1 g1 sp1 u, Sealed s gid g si s1 g1 sp1
        ∧ globalLanes s1 g1 sp1 .rmw (rmwBytes (redKind p)) a kb = .ok lanes
        ∧ u = sendRmw (tlbFills s1 (gangView g1) (lanes.map (·.2.1))) gid g1 si sp1 (redKind p) false o (wordVas lanes) (rmwOperands g1 (redKind p) d lanes)
        ∧ RetiredFrom (modSplit u.2 gid si (holdAcquire o (gangDet s1 g1) u.1)) t gid g1 si (nextPc sp1.pc))
  ∧ ∀ s g lanes, rmwStalls s g lanes = true ↔ gangDet s g = false ∧ ∃ h ∈ ((lanes.map (·.2.2)).eraseDups).map (homeOfKey s),
      queueRoom s h ((((lanes.map (·.2.2)).eraseDups).map (homeOfKey s)).filter (· == h)).length = false

/-- R147, R149: what a read-modify-write leaves in its word; several lanes on a word are served one after another, in order, and
touch no other byte. -/
def Obligations.ReadModifyWrites : Prop :=
  (∀ old x y, rmwApply .add old x y = zextW (loWord old + loWord x) ∧ rmwApply .xchg old x y = zextW (loWord x)
      ∧ rmwApply .cas old x y = zextW (if loWord old = loWord x then loWord y else loWord old)
      ∧ rmwApply .add64 old x y = old + x ∧ rmwApply .or old x y = zextW (loWord old ||| loWord x)
      ∧ rmwApply .and old x y = zextW (loWord old &&& loWord x) ∧ rmwApply .xor old x y = zextW (loWord old ^^^ loWord x)
      ∧ (loWord (rmwApply .min old x y)).toInt = min (loWord old).toInt (loWord x).toInt
      ∧ (loWord (rmwApply .max old x y)).toInt = max (loWord old).toInt (loWord x).toInt
      ∧ rmwApply .fadd old x y = zextW (fadd32 { mode := .rne, sat := false, flush := false, z := 0 } (loWord old) (loWord x)).1
      ∧ hiWord (rmwApply .min old x y) = 0 ∧ hiWord (rmwApply .max old x y) = 0)
  ∧ (∀ s c own op l, (rmwLanes s c own op [l]).2 = [(l, BitVec.ofNat 64 (memLE s l.addr (rmwBytes op)))]
      ∧ memLE (rmwLanes s c own op [l]).1 l.addr (rmwBytes op) =
          (rmwApply op (BitVec.ofNat 64 (memLE s l.addr (rmwBytes op))) l.x l.y).toNat % 2 ^ (8 * rmwBytes op))
  ∧ (∀ s c own op ls key, (∀ l ∈ ls, key < l.addr ∨ l.addr + rmwBytes op ≤ key) →
      newestByte (rmwLanes s c own op ls).1 key = newestByte s key)
  ∧ ∀ s c own op l ls, rmwLanes s c own op (l :: ls) =
      ((rmwLanes (rmwLanes s c own op [l]).1 c own op ls).1,
        (rmwLanes s c own op [l]).2 ++ (rmwLanes (rmwLanes s c own op [l]).1 c own op ls).2)

/-- R113, R114, R151, R219, R228, R237, R252, R306 to R310: phase, fence and pfence, the events seal and dirtyBudget, and what a
seal makes.  phase and a fence after strand publish what their split has stored and wait for it, and go on at once, with the refresh of
their scope, where nothing is under way; in deterministic mode they only retire.  A fence after the Pantry waits for the split's requests;
after copies it waits for the bytes they owe, and else, as after the host or matrix work, goes on at once.  pfence seals, pfence.cl once
array work and the copies issued before it are done.  A seal makes the slot that was not active the active one, with the next generation,
the cause, a CRC that holds and the image of the cluster; the other slot is as it was.  What a fence publishes and refreshes rests on log
entry 15, when a seal lands on log entry 31, and which writes count against the dirty budget on log entry 51. -/
def Obligations.Boundaries : Prop :=
  (OnGang .phase [] none (fun s gid g si _ => ∃ s1 g1 sp1, Sealed s gid g si s1 g1 sp1) fun s gid g si _ t =>
      ∃ s1 g1 sp1, Sealed s gid g si s1 g1 sp1 ∧ SameMemory s1 t ∧
        (gangDet s1 g1 = true → Retired s1 t gid g1 si (nextPc sp1.pc))
        ∧ (gangDet s1 g1 = false → nothingLeft s1 gid g1 sp1 .pk = true → splitQuiet s1 gid g1.core sp1 = true →
            RetiredFrom (refreshSplit s1 gid si g1.core .pk) t gid g1 si (nextPc sp1.pc))
        ∧ (gangDet s1 g1 = false → (nothingLeft s1 gid g1 sp1 .pk && splitQuiet s1 gid g1.core sp1) = false →
            Waits (startRelease s1 gid g1 sp1 .pk []).2 t gid si (.pub [(startRelease s1 gid g1 sp1 .pk []).1] (some .pk)) false))
  ∧ OnMcc .phase (fun _ _ _ _ => True) (fun s cid c m t => MccRetired s t cid c m (nextPc m.pc) ∧ SameMemory s t)
  ∧ (∀ second sc ps, second ≠ .host → fencePub second sc = some ps → OnGang (.fence .strand second sc) [] none
      (fun s gid g si _ => ∃ s1 g1 sp1, Sealed s gid g si s1 g1 sp1) fun s gid g si _ t =>
      ∃ s1 g1 sp1, Sealed s gid g si s1 g1 sp1 ∧ SameMemory s1 t
        ∧ (gangDet s1 g1 = true → RetiredFrom (logOrder s1 gid g1 si ps) t gid g1 si (nextPc sp1.pc))
        ∧ (gangDet s1 g1 = false → nothingLeft s1 gid g1 sp1 ps = true → splitQuiet s1 gid g1.core sp1 = true →
            RetiredFrom (refreshedBy s1 gid si g1.core (fenceRefresh second sc)) t gid g1 si (nextPc sp1.pc))
        ∧ (gangDet s1 g1 = false → (nothingLeft s1 gid g1 sp1 ps && splitQuiet s1 gid g1.core sp1) = false →
            Waits (startRelease s1 gid g1 sp1 ps []).2 t gid si (.pub [(startRelease s1 gid g1 sp1 ps []).1] (fenceRefresh second sc)) false))
  ∧ (∀ second, second ≠ .host → OnGang (.fence .strand second .core) [] none (fun _ _ _ _ _ => True) fun s gid g si sp t =>
      SameMemory s t ∧ RetiredFrom (refreshedBy s gid si g.core (if gangDet s g then none else fenceRefresh second .core)) t gid g si (nextPc sp.pc))
  ∧ (∀ second sc, second ≠ .host → OnGang (.fence .pantry second sc) [] none (fun _ _ _ _ _ => True) fun s gid g si sp t => SameMemory s t
        ∧ (gangDet s g = true → Retired s t gid g si (nextPc sp.pc))
        ∧ (gangDet s g = false → splitQuiet s gid g.core sp = true →
            RetiredFrom (refreshedBy s gid si g.core (fenceRefresh second sc)) t gid g si (nextPc sp.pc))
        ∧ (gangDet s g = false → splitQuiet s gid g.core sp = false → ∃ u, u = startPub s (splitPub s gid g sp .cl []) (fun _ => false)
            ∧ Waits u.2 t gid si (.pub [u.1] (fenceRefresh second sc)) false))
  ∧ (∀ second sc, second ≠ .host → OnGang (.fence .copy second sc) [] none (fun s _ g _ _ => copiesOwe s g = true)
      fun s _ _ _ _ t => t = s)
  ∧ (∀ first second sc, first ≠ .strand → first ≠ .pantry → second ≠ .host → OnGang (.fence first second sc) [] none
      (fun s _ g _ _ => first = .copy → copiesOwe s g = false) fun s gid g si sp t => SameMemory s t
        ∧ (gangDet s g = true → RetiredFrom (afterCopies s gid g si sp first second) t gid g si (nextPc sp.pc))
        ∧ (gangDet s g = false →
            RetiredFrom (refreshedBy (afterCopies s gid g si sp first second) gid si g.core (fenceScope first second sc)) t gid g si (nextPc sp.pc)))
  ∧ (∀ first sc, OnGang (.fence first .host sc) [] none (fun _ _ g _ _ => gangOpen g = false) fun s gid g si sp t =>
      Trapped s t gid g si sp (plainTrap .invalidParam))
  ∧ (∀ cl, OnGang (.pfence cl) [] none (fun s _ g _ _ => sealReady s (gangCluster g) = true
        ∧ (cl = true → clusterDrained s (gangCluster g) s.ctl.nextId = true)) fun s gid g si sp t =>
      ∃ g1, tget (sealCluster s (gangCluster g) (if cl then 2 else 1)).gangs gid = some g1
        ∧ Retired (sealCluster s (gangCluster g) (if cl then 2 else 1)) t gid g1 si (nextPc sp.pc) ∧ SameMemory s t)
  ∧ (∀ cl, OnMcc (.pfence cl) (fun s _ c _ => sealReady s c.cluster = true ∧ (cl = true → clusterDrained s c.cluster s.ctl.nextId = true))
      fun s cid c m t => MccRetired (sealCluster s c.cluster (if cl then 2 else 1)) t cid c m (nextPc m.pc) ∧ SameMemory s t)
  ∧ (OnGang (.pfence true) [] none (fun s _ g _ _ => clusterDrained s (gangCluster g) s.ctl.nextId = false) fun s gid g si _ t =>
      Waits s t gid si (.drain s.ctl.nextId) (gangDet s g))
  ∧ (OnMcc (.pfence true) (fun s _ c _ => clusterDrained s c.cluster s.ctl.nextId = false) fun s cid _ _ t =>
      t = modMcc s cid fun x => { x with wait := .drain s.ctl.nextId })
  ∧ (∀ cl, OnGang (.pfence cl) [] none (fun s _ g _ _ => sealReady s (gangCluster g) = false
        ∧ (cl = true → clusterDrained s (gangCluster g) s.ctl.nextId = true)) fun s _ _ _ _ t => t = s)
  ∧ (∀ s cl n, clusterDrained s cl n = true ↔ (∀ c ∈ clusterCohorts s cl, ∀ m, tget s.mccs c = some m → m.queue = [])
      ∧ ∀ e ∈ s.copies, e.2.cohort ∈ clusterCohorts s cl → n ≤ e.1)
  ∧ (∀ s cl cause, cause < 8 → clusterAwake s cl = true → sealReady s cl = true →
      ∃ t, exec (.seal cl cause) s = .next t ∧ t = bumpFree (sealCluster s cl cause))
  ∧ (∀ s cl, dirtyDue s cl = true → sealReady s cl = true → ∃ t, exec (.dirtyBudget cl) s = .next t ∧ t = bumpFree (sealCluster s cl 3))
  ∧ (∀ s cls stalls f, (∀ cl ∈ cls, dirtyDue s cl = false) → writeShadowed s cls stalls f = f (cls.foldl markDirty s))
  ∧ (∀ s cls stalls f, (∃ cl ∈ cls, dirtyDue s cl = true ∧ sealReady s cl = true) →
      ∃ cl ∈ cls, dirtyDue s cl = true ∧ sealReady s cl = true ∧ writeShadowed s cls stalls f = sealCluster s cl 3)
  ∧ (∀ s cls f, (∃ cl ∈ cls, dirtyDue s cl = true) → (∀ cl ∈ cls, dirtyDue s cl = true → sealReady s cl = false) →
      writeShadowed s cls true f = s ∧ writeShadowed s cls false f = f (cls.foldl markDirty s))
  ∧ ∀ s cl cause, let c := getCluster s cl; let c' := getCluster (sealCluster s cl cause) cl
    c'.activeB = !c.activeB ∧ (activeSlot c').header.generation = (activeSlot c).header.generation + 1
    ∧ (activeSlot c').header.cause = cause ∧ slotValid (activeSlot c') false = true
    ∧ (if c.activeB then c'.slotB = c.slotB else c'.slotA = c.slotA)
    ∧ SameMemory s (sealCluster s cl cause)

namespace Sys2Proof

/-- A handler at an eret: `s0` is its state at issue, `read` that in which it has read the record. -/
structure HandlerReads (s : State) (gid : Nat) (g : Gang) (si : Nat) (sp : Split) (s0 : State) : Prop where
  issues : Issues s gid g si sp
  clear : ClearClosing s g si sp [] none
  atissue : s0 = atIssue s gid (closedGang g si)
  first : alreadyPublished s0 gid g.rtc eventAnswer = false

/-- A free-running handler whose earlier accesses are performed and whose stores are published: once it has read the record, in the state
`read`, it goes on in `s1`, after the seal of a durable launch (R111, R237, R308). -/
structure HandlerReady (s0 : State) (gid : Nat) (g : Gang) (si : Nat) (read s1 : State) (g1 : Gang) (sp1 : Split) : Prop where
  back : gangDurable s0 g = true → sealReady s0 (gangCluster g) = true
  sealed : Sealed read gid g si s1 g1 sp1
  free : gangDet s1 g1 = false
  quiet : splitQuiet s1 gid g1.core sp1 = true
  stores : nothingLeft s1 gid g1 sp1 .pk = true

/-- The handler has read a record of a partition's queue as its own plain loads do: `s1` is the state in which they are made, behind the
refresh of a Larder that would overflow, and `read` the one in which what they have observed stands (R261, R262, R294). -/
def ReadsRecord (s0 : State) (gid : Nat) (g : Gang) (si : Nat) (sp : Split) (key : Nat) (s1 read : State) : Prop :=
  s1 = loadRefresh s0 gid g si .plain (recordKeys key) ∧ read = loadObserve s1 gid g si sp .plain (recordKeys key)

/-- Record `r` is that of another gang `x`, under the name `h`, which is in and may go on at `point` in its split `y` (R111, R294). -/
structure MayResume (s : State) (gid : Nat) (r : FaultRecord) (point : DWord) (abort : Bool) (h : Nat) (x : Gang) (y : Split) : Prop where
  owner : r.owner = .gang h
  other : h ≠ gid
  kind : r.resume ≠ 2
  gang : tget s.gangs h = some x
  live : x.status ≠ .ended
  split : tget x.splits r.split = some y
  table : x.needTable = false
  region : x.region = none
  inside : ∀ c, tget s.cohorts x.cohort = some c → c.saved = false
  target : point ≠ 0 ∧ point.toNat % 4 = 0 ∧ canonicalVa point = true
  goesOn : abort = false
  apart : ∀ e ∈ tmod x.splits r.split (fun q => { q with pc := point, wait := .none }), atMerge e.2 = false

/-- The gang of a record runs again, its trapping split at the resume point, its registers as they were (R111, R294). -/
def HasResumed (t : State) (r : FaultRecord) (point : DWord) (h : Nat) (x : Gang) (y : Split) : Prop :=
  ∃ x', tget t.gangs h = some x' ∧ x'.status = .running ∧ x'.v = x.v ∧ x'.k = x.k
    ∧ (tget x'.splits r.split).map (fun q => (q.pc, q.mask, q.wait)) = some (point, y.mask, .none)

/-- Record `r` is no longer among those of a queue, nor, where no two of the queue had the same number, another of its number. -/
def Closed (before after : List (Nat × FaultRecord)) (n : Nat) (r : FaultRecord) : Prop :=
  (n, r) ∉ after ∧ ((before.map (·.1)).Nodup → ∀ e ∈ after, e.1 ≠ n)

/-- Record `r` is no longer open in the queue of a partition. -/
def ClosedIn (s t : State) (part n : Nat) (r : FaultRecord) : Prop :=
  ∀ p q, tget s.parts part = some p → tget t.parts part = some q → Closed p.open' q.open' n r

/-- R111, R261, R262, R294: a supervisor answers the records of its partition's queue, as its plain loads read them: the resume point is the
eight bytes at 0x10, and bit 7 of the byte at 1 aborts the region; an address that is no open record's, or whose answer is under way, is
refused. -/
def SupervisorErets : Prop :=
  (∀ a s gid g si sp s0, HandlerReads s gid g si sp s0 → (closedGang g si).level = .supervisor →
    ∀ key p n r u read s1 g1 sp1 f h x y, translate s0 (gangView g) .load (kPair g.k a) = .ok key → tget s0.parts g.part = some p →
      openRecord p g.part key = some (n, r) → answering s0 r = false → ReadsRecord s0 gid (closedGang g si) si (closedSplit sp) key u read →
      HandlerReady s0 gid (closedGang g si) si read s1 g1 sp1 → f = answerFields u gid (closedGang g si) (closedSplit sp) key →
      MayResume s1 gid r f.1 f.2 h x y →
      ∃ t, exec (.eret a) s = .next t ∧ HasResumed t r f.1 h x y ∧ ClosedIn s t g.part n r ∧ SameMemory s t)
  ∧ (∀ s gid g sp key i, i < 64 →
      ((answerFields s gid g sp key).1.getLsbD i = (loadedByte s gid g sp .plain (key + 0x10 + i / 8)).getLsbD (i % 8))
      ∧ (answerFields s gid g sp key).2 = (loadedByte s gid g sp .plain (key + 1)).getLsbD 7)
  ∧ ∀ a s gid g si sp s0, HandlerReads s gid g si sp s0 → (closedGang g si).level = .supervisor → gangOpen (closedGang g si) = false →
    ∀ key p, translate s0 (gangView g) .load (kPair g.k a) = .ok key → tget s.parts g.part = some p →
      (∀ e, openRecord p g.part key = some e → answering s0 e.2 = true) →
      ∃ t, exec (.eret a) s = .next t ∧ Trapped s t gid (closedGang g si) si (closedSplit sp) (plainTrap .invalidParam)

/-- R32, R36, R111, R294: the firmware answers the records of its own queue, and as a supervisor does those of a partition.  How it names
a record of its own and the partition of another is the model's choice (log entries 30 and 39). -/
def FirmwareErets : Prop :=
  (∀ a s gid g si sp s0, HandlerReads s gid g si sp s0 → (closedGang g si).level = .firmware →
    ∀ n r s1 g1 sp1 f h x y, HandlerReady s0 gid (closedGang g si) si s0 s1 g1 sp1 → firmwareRecord s0 (kPair g.k a) = some (n, r) →
      f = firmwareFields s0 n → MayResume s1 gid r f.1 f.2 h x y →
      ∃ t, exec (.eret a) s = .next t ∧ HasResumed t r f.1 h x y ∧ Closed s.dev.firmwareQueue t.dev.firmwareQueue n r ∧ SameMemory s t)
  ∧ (∀ a s gid g si sp s0, HandlerReads s gid g si sp s0 → (closedGang g si).level = .firmware →
    ∀ part key n r u read s1 g1 sp1 f h x y, firmwareRecord s0 (kPair g.k a) = none →
      supervisorRecord s0 (closedGang g si) (kPair g.k a) = some (part, key, n, r) →
      ReadsRecord s0 gid (closedGang g si) si (closedSplit sp) key u read → HandlerReady s0 gid (closedGang g si) si read s1 g1 sp1 →
      f = answerFields u gid (closedGang g si) (closedSplit sp) key → MayResume s1 gid r f.1 f.2 h x y →
      ∃ t, exec (.eret a) s = .next t ∧ HasResumed t r f.1 h x y ∧ ClosedIn s t part n r ∧ SameMemory s t)
  ∧ ∀ a s gid g si sp s0, HandlerReads s gid g si sp s0 → (closedGang g si).level = .firmware → gangOpen (closedGang g si) = false →
    firmwareRecord s0 (kPair g.k a) = none → supervisorRecord s0 (closedGang g si) (kPair g.k a) = none →
    ∃ t, exec (.eret a) s = .next t ∧ Trapped s t gid (closedGang g si) si (closedSplit sp) (plainTrap .invalidParam)

end Sys2Proof

/-- R32, R36, R111, R221, R294: the answer to a posted record, by a supervisor or by the firmware, resumes its gang at the point the
record holds, takes the record from the open ones of its queue, and is refused where the address is no open record's; the firmware's
clauses rest on log entries 30 and 39. -/
def Obligations.ReturnFromTrap : Prop :=
  SupervisorErets ∧ FirmwareErets

/-- R115, R353: a halt of a running partition, by its supervisor or by the firmware, parks it: nothing of it issues any more, and event
1 with the cause is posted, where results are still to come once they have. -/
def Obligations.Halts : Prop :=
  (∀ s gid g si sp part cause, Issues s gid g si sp → ClearClosing s g si sp [] none →
    (g.level = .supervisor ∧ part = g.part ∧ cause = 1) ∨ (g.level = .firmware ∧ part = (cget g.k 0).toNat ∧ cause = 2) →
    ∀ p, tget s.parts part = some p → p.state = .running ∨ p.state = .ready →
      ∃ t p', exec .halt s = .next t ∧ tget t.parts part = some p' ∧ p'.state = .halted ∧ p'.haltCause = cause
        ∧ partRuns t part = false ∧ SameMemory { s with mem := { s.mem with host := t.mem.host } } t
        ∧ t.dev.eventPosted + t.dev.eventWaiting.length =
            s.dev.eventPosted + s.dev.eventWaiting.length + (if p'.haltDue then 0 else 1)
        ∧ ((∀ e ∈ s.gangs, e.2.part = part → gangOpen e.2 = false) → p'.haltDue = false))
  ∧ ∀ s part p, commandDue s .host 6 part = true → tget s.parts part = some p → p.state = .running →
      ∃ t p', exec (.hostHalt part) s = .next t ∧ tget t.parts part = some p' ∧ p'.state = .halted ∧ p'.haltCause = 3
        ∧ partRuns t part = false ∧ HostCompletes s t 0 ∧ t.mem.bytes = s.mem.bytes

/-! ### Copies, tags, counters and barriers (R152 to R164) -/

namespace Sys2Proof

/-- The copy instructions with their kinds. -/
def copyForms : List (CopyKind × (Option Nat → Nat → Nat → Nat → CtrAdd → Instr)) :=
  [(.cin, .cpyin), (.cout, .cpyout), (.catt, .cpyatt), (.cg, .cpyg)]

/-- Where a copy that passes its checks goes on: with the Attic where it writes there, and after the seal of a durable launch where it
publishes bytes or adds to a counter (R237, R268, R308). -/
def CopyFrom (s : State) (gid : Nat) (g : Gang) (si : Nat) (sp : Split) (k : CopyKind) (cp : Copy) (s1 : State) (g1 : Gang) (sp1 : Split) :
    Prop :=
  ∃ s0, (if k = .catt then takeAttic s (gangCluster g) g.cohort = some s0 else s0 = s)
    ∧ (if copyPublishes cp || cp.ctr.isSome then Sealed s0 gid g si s1 g1 sp1 else s1 = s0 ∧ g1 = g ∧ sp1 = sp)

/-- R152, R153, R155, R237, R268: a copy of the producer gang that passes its checks is under way when it retires, its tag's count one
higher and its ready bit clear; any other gang traps COPY_RIGHTS. -/
def CopiesIssue : Prop :=
  (∀ e ∈ copyForms, ∀ tag ka kl bar c, OnGang (e.2 tag ka kl bar c) [] none
    (fun s gid g si sp => copyStalls s g tag = false
      ∧ ∃ cp s1 g1 sp1, checkCopy e.1 s gid g tag ka kl bar c = .ok cp ∧ CopyFrom s gid g si sp e.1 cp s1 g1 sp1)
    fun s gid g si sp t => ∃ cp s1 g1 sp1 u, checkCopy e.1 s gid g tag ka kl bar c = .ok cp ∧ CopyFrom s gid g si sp e.1 cp s1 g1 sp1
      ∧ Retired u t gid g1 si (nextPc sp1.pc) ∧ tget t.copies s1.ctl.nextId = some { cp with seq := s1.ctl.nextId }
      ∧ SameMemory s1 t
      ∧ ∀ n w, cp.tag = some n → tget s1.crews g1.crew = some w → ∃ w', tget t.crews g1.crew = some w'
          ∧ tget w'.tags n = some ((tget w.tags n).getD 0 + 1) ∧ w'.rdy = w.rdy &&& ~~~(1#64 <<< n) ∧ w'.scratch = w.scratch)
  ∧ (∀ e ∈ copyForms, ∀ tag ka kl bar c, OnGang (e.2 tag ka kl bar c) [] none
    (fun s _ g _ _ => g.index ≠ ((launchOf s g.range).map (·.producer)).getD 0 ∧ gangOpen g = false)
    fun s gid g si sp t => Trapped s t gid g si sp (plainTrap .copyRights))

/-- R47, R154, R155: the place of an element in the packed box, pre-shuffled in groups of 128 or not; and where a copy of a free-running launch moves all its bytes without a
fault, it is under way no more, its tag's count has fallen by 1, and the ready bit is set where it has reached 0. -/
def CopiesComplete : Prop :=
  (∀ n, n < 128 → localPlace true n = 16 * (n % 8) + n / 8)
  ∧ (∀ n m, n < 128 → m < 128 → localPlace true n = localPlace true m → n = m)
  ∧ (∀ n, localPlace true (128 + n) = 128 + localPlace true n) ∧ (∀ n, localPlace false n = n)
  ∧ (∀ cp n, elemNibbles cp.fmt = 1 → cp.shuffle = true → cp.loc = 0 → n < 128 →
      localNibble cp n / 2 = (16 * (n % 8) + n / 8) / 2 ∧ (localNibble cp n % 2 = 0 ↔ n / 8 % 2 = 0))
  ∧ ∀ s id cp s1 cp1, tget s.copies id = some cp → copyDet s cp = false → copyFree s cp = true → cp.ctr = none → cp.bar = 0 →
    runCopy s id cp = (s1, cp1, none) →
    ∃ t, exec (.copyCompletion id) s = .next t ∧ tget t.copies id = none ∧ t.mem = s1.mem
      ∧ ∀ n w, cp.tag = some n → cp.tagDone = false → tget s1.crews cp.crew = some w → ∃ w', tget t.crews cp.crew = some w'
          ∧ tget w'.tags n = some ((tget w.tags n).getD 0 - 1)
          ∧ w'.rdy = (if (tget w.tags n).getD 0 - 1 = 0 then w.rdy ||| (1#64 <<< n) else w.rdy) ∧ w'.scratch = w.scratch

/-- R47, R152, R154: what a cpyin of this device's memory leaves in the scratchpad of its crew, nibble by nibble: of an element in bounds the
global bytes published at package scope at its address, of one out of bounds the fill pattern; no other byte changes, and no global one. -/
def CopiesIn : Prop :=
  ∀ s id cp w (at' : Nat → Nat), cp.kind = .cin → cp.remote = none → cp.moved = [] → cp.out = [] → tget s.crews cp.crew = some w →
    (∀ n j, n < boxCount cp.box → inBounds cp n = true → j < elemNibbles cp.fmt →
      copyKey s cp .copyRead ((globalNibble cp n + j) / 2) = .ok (at' ((globalNibble cp n + j) / 2))) →
    ∃ s1 cp1 w1, runCopy s id cp = (s1, cp1, none) ∧ SameMemory s s1 ∧ tget s1.crews cp.crew = some w1
      ∧ (∀ n j, n < boxCount cp.box → j < elemNibbles cp.fmt →
          nibbleOf (localNibble cp n + j) (w1.scratch.read ((localNibble cp n + j) / 2)) =
            if inBounds cp n then nibbleOf (globalNibble cp n + j) (newestByte s (at' ((globalNibble cp n + j) / 2)))
            else cp.fill.toNat / 16 ^ j % 16)
      ∧ (∀ a, (∀ n j, n < boxCount cp.box → j < elemNibbles cp.fmt → (localNibble cp n + j) / 2 ≠ a) → w1.scratch.read a = w.scratch.read a)
      ∧ ∀ c, c ≠ cp.crew → tget s1.crews c = tget s.crews c

/-- R47, R152, R154: what a cpyout writes, element after element in the order of the box: of an element in bounds its bytes of the scratchpad
at its global address, each published at package scope; of one out of bounds nothing.  No scratchpad changes. -/
def CopiesOut : Prop :=
  (∀ s cp n, cp.kind = .cout → inBounds cp n = false → writeElem s cp n = .ok s)
  ∧ (∀ s cp n w, cp.kind = .cout → cp.remote = none → tget s.crews cp.crew = some w → inBounds cp n = true → elemNibbles cp.fmt ≠ 1 →
    writeElem s cp n = putAll (fun s a b => putGlobal s cp a b) s ((List.range (elemNibbles cp.fmt / 2)).map fun i =>
      (globalNibble cp n / 2 + i, w.scratch.read (localNibble cp n / 2 + i))))
  ∧ (∀ s cp n w key, cp.kind = .cout → cp.remote = none → tget s.crews cp.crew = some w → inBounds cp n = true → elemNibbles cp.fmt = 1 →
    copyKey s cp .copyWrite (globalNibble cp n / 2) = .ok key →
    writeElem s cp n = putGlobal s cp (globalNibble cp n / 2) (withNibble (globalNibble cp n)
      (nibbleOf (localNibble cp n) (w.scratch.read (localNibble cp n / 2))) (newestByte s key)))
  ∧ (∀ s cp a key b, cp.remote = none → copyKey s cp .copyWrite a = .ok key → copyMade s cp.gang cp.rtc (eventOut key) = false →
    ∃ s1, putGlobal s cp a b = .ok s1 ∧ s1.crews = s.crews ∧ ∀ k, newestByte s1 k = if k = key then b else newestByte s k)
  ∧ (∀ s cp n ns s1, moveElem s cp n = .ok s1 → moveList s cp (n :: ns) =
    ((moveList s1 cp ns).1, n :: (moveList s1 cp ns).2.1, (moveList s1 cp ns).2.2))
  ∧ (∀ s id cp, cp.out = [] → (runCopy s id cp).2.2 = (moveList s cp (unmoved cp)).2.2
    ∧ (runCopy s id cp).1.mem = (moveList s cp (unmoved cp)).1.mem ∧ (runCopy s id cp).1.crews = (moveList s cp (unmoved cp)).1.crews)
  ∧ ∀ cp n, n ∈ unmoved cp ↔ n < boxCount cp.box ∧ n ∉ cp.moved

end Sys2Proof

/-- R47, R152 to R155, R268: a copy from its issue to its end, and the bytes that a cpyin and a cpyout move. -/
def Obligations.Copies : Prop :=
  CopiesIssue ∧ CopiesComplete ∧ CopiesIn ∧ CopiesOut

namespace Sys2Proof

/-- R158: the waits on tags pass at once or block, and an empty mask is refused; tagff gives the lowest ready tag, 64 with none; the
producer clears. -/
def Tags : Prop :=
  (∀ i all a, (i = .tagwany a ∧ all = false ∨ i = .tagwall a ∧ all = true) →
    (OnGangClosing i [] none
      (fun s _ g _ _ => kPair g.k a ≠ 0 ∧ gangDet s g = false
        ∧ (if all then readyBits s g &&& kPair g.k a = kPair g.k a else readyBits s g &&& kPair g.k a ≠ 0))
      fun s gid g si sp t => RetiredFrom (refreshSplit (learnWait s gid si g (.tag all (kPair g.k a))) gid si g.core .pk) t gid g si (nextPc sp.pc)
        ∧ SameMemory s t)
    ∧ (OnGangClosing i [] none
      (fun s _ g _ _ => kPair g.k a ≠ 0
        ∧ ¬ (if all then readyBits s g &&& kPair g.k a = kPair g.k a else readyBits s g &&& kPair g.k a ≠ 0))
      fun s gid g si _ t => Waits s t gid si (.tag all (kPair g.k a)) (gangDet s g))
    ∧ OnGangClosing i [] none (fun _ _ g _ _ => kPair g.k a = 0 ∧ gangOpen g = false)
      fun s gid g si sp t => Trapped s t gid g si sp (plainTrap .invalidParam))
  ∧ (∀ d a, OnGang (.tagff d a) [] none (fun _ _ _ _ _ => True) fun s gid g si sp t =>
      ∃ n g1, n = trailingZeros (readyBits s g &&& kPair g.k a).toNat 64 ∧ g1 = seeTags s g si [n] ∧ Learned g g1
        ∧ Retired s t gid (setK g1 d (BitVec.ofNat 32 n)) si (nextPc sp.pc))
  ∧ (∀ a, OnGang (.tagclr a) [] none (fun s _ g _ _ => g.index = ((launchOf s g.range).map (·.producer)).getD 0)
      fun s gid g si sp t => ∃ u, u = modCrew s g.crew (fun w => { w with rdy := w.rdy &&& ~~~(kPair g.k a) })
        ∧ Retired u t gid g si (nextPc sp.pc))
  ∧ ∀ x n, n ≤ 64 → (∀ i, i < n → x.testBit i = false) → (n < 64 → x.testBit n = true) → trailingZeros x 64 = n

/-- R164: waitc and readc ask the counter's Pantry and wait; sigc sends its add behind a release and goes on; an address that is not
a multiple of 8 traps MISALIGN. -/
def Counters : Prop :=
  (∀ a b, OnGangClosing (.waitc a b) [] none
    (fun s _ g _ sp => ∃ key, counterKey s g .load a = .ok key
      ∧ (gangDet s g = false → acquireOpen sp = false ∧ queueFull s (homeOfKey s key) = false))
    fun s gid g si _ t => ∃ key, counterKey s g .load a = .ok key ∧ Asks s t gid g si (.waitc key (kPair g.k b)))
  ∧ (∀ d a, OnGang (.readc d a) [] none
    (fun s _ g _ sp => ∃ key, counterKey s g .load a = .ok key
      ∧ (gangDet s g = false → acquireOpen sp = false ∧ slotsFull g sp.mask = false ∧ queueFull s (homeOfKey s key) = false))
    fun s gid g si _ t => ∃ key, counterKey s g .load a = .ok key ∧ Asks s t gid g si (.readc key d))
  ∧ (∀ a b, OnGang (.sigc a b) [] none
    (fun s gid g si _ => (∃ key, counterKey s g .rmw a = .ok key
        ∧ (gangDet s g = false → queueFull s (homeOfKey s key) = false))
      ∧ ∃ s1 g1 sp1, Sealed s gid g si s1 g1 sp1)
    fun s gid g si _ t => ∃ key s1 g1 sp1 u g2 id r, counterKey s g .rmw a = .ok key ∧ Sealed s gid g si s1 g1 sp1
      ∧ tget u.gangs gid = some g2 ∧ Retired u t gid g2 si (nextPc sp1.pc) ∧ g2.v = g1.v ∧ g2.k = g1.k ∧ SameMemory s1 t
      ∧ tget t.requests id = some r ∧ r.kind = .ctrAdd key (kPair g1.k b))
  ∧ (∀ a b, OnGangClosing (.waitc a b) [] none (fun s _ g _ sp => gangDet s g = false ∧ acquireOpen sp = true
        ∧ ∃ key, counterKey s g .load a = .ok key)
      fun s _ _ _ _ t => t = s)
  ∧ (∀ a b, OnGangClosing (.waitc a b) [] none (fun _ _ g _ _ => (kPair g.k a).toNat % 8 ≠ 0 ∧ gangOpen g = false)
      fun s gid g si sp t => Trapped s t gid g si sp { plainTrap .misalign with access := .load, addr := kPair g.k a })
  ∧ ∀ s src own key n, s.requests = [] → n < 2 ^ 64 → memLE (addCounter s src own key n) key 8 = (memLE s key 8 + n) % 2 ^ 64

end Sys2Proof

/-- R158, R164: tags and counters.  The access kind in the record of a counter's fault, load for waitc and read-modify-write for sigc, is the
model's reading (log entry 20). -/
def Obligations.TagsAndCounters : Prop :=
  Tags ∧ Counters

namespace Sys2Proof

/-- R160: an arrival counts; the phase is released, its bit flipped and its payloads combined, exactly when the arrivals are the
expected ones and no byte is pending; payloads combine in the order of their gangs, whatever the order of arrival. -/
def BarrierPhases : Prop :=
  (∀ b rank v pend k, b.arrivals + 1 = b.expected → b.pending + pend = 0 →
    (arrive b rank v pend k).phase = !b.phase ∧ (arrive b rank v pend k).arrivals = 0 ∧ (arrive b rank v pend k).payloads = [])
  ∧ (∀ b rank v pend k, (b.arrivals + 1 ≠ b.expected ∨ b.pending + pend ≠ 0) →
    (arrive b rank v pend k).phase = b.phase ∧ (arrive b rank v pend k).arrivals = b.arrivals + 1
      ∧ (arrive b rank v pend k).pending = b.pending + pend)
  ∧ (∀ b rank v pend k, b.reducer = 1 → b.arrivals + 1 = b.expected → b.pending + pend = 0 →
    (arrive b rank v pend k).result = (putPayload rank v b.payloads).foldl (fun x p => x + p.2) 0)
  ∧ (∀ j k v w ps, j ≠ k → putPayload j v (putPayload k w ps) = putPayload k w (putPayload j v ps))
  ∧ (∀ b pend c, b.arrivals ≠ b.expected → (addPending b pend c).phase = b.phase ∧ (addPending b pend c).arrivals = b.arrivals)
  ∧ ∀ b, (barrierWord b).toNat % 2 = (if b.phase then 1 else 0)

/-- A gang's barrier after an instruction, and the gang: it has gone on, its k registers but `d` and its v registers as they were. -/
def BarrierMade (s t : State) (gid : Nat) (g : Gang) (b : BarRef) (x : Barrier) (d : Option (Nat × Word)) : Prop :=
  ∃ g', tget t.gangs gid = some g' ∧ getBar t g' b = x ∧ g'.rtc = g.rtc + 1 ∧ g'.v = g.v
    ∧ (∀ c, cget g'.k c = match d with | some e => if c = e.1 then e.2 else cget g.k c | none => cget g.k c)
    ∧ ∀ h, h ≠ gid → (tget t.gangs h).map (·.part) = (tget s.gangs h).map (·.part)

/-- What the barriers of a cluster stand on after the publication that an arrival makes (R162). -/
def published (s : State) (gid : Nat) (g : Gang) (sp : Split) (b : BarRef) : State :=
  match barPubScope b with
  | some sc => publishOwn s gid g sp sc
  | none => s

/-- A gang with the token of an arrival of its own: the phase bit, in K(d), where the form writes one (R161). -/
def withToken (g : Gang) (x : Barrier) (d : Nat) (long : Bool) : Gang := if long || longForm x d then setK g d (boolW x.phase) else g

/-- The arriving forms with what they arrive with: the payload, or the identity, and the pending add (R161). -/
def arrivingForms (d a : Nat) (b : BarRef) : List (Instr × (Gang → Arriving)) :=
  [(.barr d a b, fun g => { ident := false, payload := cget g.k a, pend := 0, wait := false, long := false }),
   (.barw d a b, fun g => { ident := false, payload := cget g.k a, pend := 0, wait := true, long := false }),
   (.barx d a b, fun g => { ident := true, payload := 0, pend := pendingAdd (cget g.k a), wait := false, long := true })]

/-- R161 to R163: the bar family and barcfg at the barriers of a crew and of a cohort in a free-running launch.  Where nothing stands before
it an arrival counts as it issues; else it is under way, and its split goes on with its token, or waits (R142; log entry 65).  A phase that has
its expected arrivals, those under way among them, makes a further one wait at issue, without an effect (R160).  What barr and barw with d = 0
and a not 0 take as their payload under a reducer, K(a), is the model's choice (log entry 56). -/
def BarriersHere : Prop :=
  (∀ d a b long s gid g si sp, atPantry b = false → Issues s gid g si sp → ClearClosing s g si sp [] none →
    ∀ s0 g0 x k s1, s0 = atIssue s gid g0 → g0 = closedGang g si → gangDet s0 g0 = false → g0.splits.length ≤ 1 →
    arrivesNow s0 gid g0 (closedSplit sp) b = true → (barPubScope b ≠ none → gangDurable s0 g0 = false) →
    tget s0.crews g0.crew ≠ none → tget s0.cohorts g0.cohort ≠ none → x = getBar s0 g0 b → barTaken s0 g0 b = false →
    sp.recs = [] → long = longForm x d → s1 = published s0 gid g0 (closedSplit sp) b →
    k = sp.known.carried s1.mem.seq gid (poOf (closedSplit sp)) →
      (∃ t, exec (.barr d a b) s = .next t ∧ SameMemory s1 t ∧ BarrierMade s1 t gid g0 b
        (arrive x (rankOf s0 gid) (cget g0.k a) 0 k) (if long then some (d, boolW x.phase) else none))
      ∧ (∃ t, exec (.barx d a b) s = .next t ∧ SameMemory s1 t ∧ BarrierMade s1 t gid g0 b
        (arrive x (rankOf s0 gid) (reducerIdent x.reducer) (pendingAdd (cget g0.k a)) k) (some (d, boolW x.phase)))
      ∧ ((arrive x (rankOf s0 gid) (cget g0.k a) 0 k).phase = x.phase →
        ∃ t g', exec (.barw d a b) s = .next t ∧ SameMemory s1 t ∧ tget t.gangs gid = some g'
          ∧ getBar t g' b = arrive x (rankOf s0 gid) (cget g0.k a) 0 k
          ∧ (tget g'.splits si).map (·.wait) = some (.bar b x.phase d long) ∧ g'.k = g0.k ∧ g'.v = g0.v ∧ g'.rtc = g0.rtc)
      ∧ (ownArriving s0 gid g0 b = [] → ∃ t, exec (.barp a b) s = .next t ∧ SameMemory s t ∧ BarrierMade s0 t gid g0 b
        (addPending x (pendingAdd (cget g0.k a)) none) none))
  ∧ (∀ d a b, atPantry b = false → ∀ f ∈ arrivingForms d a b, OnGangClosing f.1 [] none
      (fun s gid g si sp => g.splits.length ≤ 1 ∧ gangDet s g = false ∧ barTaken s g b = false ∧ ∃ s1 g1 sp1,
        (if barPubScope b = none then s1 = s ∧ g1 = g ∧ sp1 = sp else Sealed s gid g si s1 g1 sp1) ∧ arrivesNow s1 gid g1 sp1 b = false)
      fun s gid g si sp t => ∃ s1 g1 sp1 id r, (if barPubScope b = none then s1 = s ∧ g1 = g ∧ sp1 = sp else Sealed s gid g si s1 g1 sp1)
        ∧ tget t.requests id = some r ∧ r.gang = gid ∧ r.home = gangCluster g1
        ∧ r.kind = .bar b true (f.2 g).ident (f.2 g).payload (f.2 g).pend d false (f.2 g).wait ∧ SameMemory s1 t
        ∧ ((f.2 g).wait = false → ∃ u, u.gangs = s1.gangs ∧ u.crews = s1.crews ∧ u.cohorts = s1.cohorts
            ∧ Retired u t gid (withToken g1 (getBar s1 g1 b) d (f.2 g).long) si (nextPc sp1.pc))
        ∧ ((f.2 g).wait = true → Asks s1 t gid g1 si r.kind))
  ∧ (∀ d a b, atPantry b = false → ∀ f ∈ arrivingForms d a b, OnGangClosing f.1 [] none
      (fun s _ g _ _ => g.splits.length ≤ 1 ∧ gangDet s g = false ∧ barTaken s g b = true) fun s _ _ _ _ t => t = s)
  ∧ (∀ d a b, atPantry b = false → OnGangClosing (.barwait d a b) [] none (fun s _ g _ _ => gangDet s g = false
        ∧ (getBar s g b).phase = (cget g.k a).getLsbD 0)
      fun s gid g si _ t => Waits s t gid si (.bar b ((cget g.k a).getLsbD 0) d true) false)
  ∧ (∀ d a b, atPantry b = false → OnGangClosing (.barwait d a b) [] none (fun s _ g _ _ => gangDet s g = false
        ∧ (getBar s g b).phase ≠ (cget g.k a).getLsbD 0)
      fun s gid g si sp t => SameMemory s t ∧
        RetiredFrom (refreshSplit (writeKs (learnBar s gid si b (getBar s g b)) gid [(d, (getBar s g b).result)]) gid si g.core (barScope b)) t
          gid (setK g d (getBar s g b).result) si (nextPc sp.pc))
  ∧ (∀ d a b, OnGangClosing (.bart d a b) [] none (fun s gid g _ _ => atPantry b = false ∧ ownArriving s gid g b = [] ∨ gangDet s g = true)
      fun s gid g si sp t => Learned g (seeBar s g si b)
        ∧ Retired s t gid (setK (seeBar s g si b) d (if (getBar s g b).phase = (cget g.k a).getLsbD 0 then 0 else 1)) si (nextPc sp.pc))
  ∧ (∀ d b, OnGangClosing (.barq d b) [] none (fun s gid g _ _ => atPantry b = false ∧ ownArriving s gid g b = [] ∨ gangDet s g = true)
      fun s gid g si sp t => Learned g (seeBar s g si b)
        ∧ Retired s t gid (setK (seeBar s g si b) d (barrierWord (getBar s g b))) si (nextPc sp.pc))
  ∧ (∀ a b, atPantry b = false → OnGang (.barcfg a b) [] none
      (fun s _ g _ _ => gangDet s g = false ∧ barcfgOk (cget g.k a) = true ∧ arriving s g b = [] ∧ barrierIdle (getBar s g b) = true)
      fun s gid g si sp t => Retired (setBar s g b (configured (getBar s g b) (cget g.k a))) t gid g si (nextPc sp.pc))
  ∧ ∀ a b, OnGang (.barcfg a b) [] none (fun _ _ g _ _ => barcfgOk (cget g.k a) = false ∧ gangOpen g = false)
      fun s gid g si sp t => Trapped s t gid g si sp (plainTrap .invalidParam)

/-- R142, R159, R160, R162, R225, R256: at the barriers of a launch the forms ask the launch's Pantry; an arrival is under way to it, behind
the publication of what its split has stored, and barr and barx go on with their token at once; a deterministic arrival is logged for the
commit. -/
def BarriersOfTheLaunch : Prop :=
  (∀ i kind n d a, ((i = .barwait d a (.launch n) ∧ kind = fun (g : Gang) => ReqKind.barwait (.launch n) ((cget g.k a).getLsbD 0) d)
      ∨ (i = .bart d a (.launch n) ∧ kind = fun (g : Gang) => ReqKind.bart (.launch n) ((cget g.k a).getLsbD 0) d)
      ∨ (i = .barq d (.launch n) ∧ kind = fun _ => ReqKind.barq (.launch n) d)) →
    OnGangClosing i [] none (fun s _ g _ sp => gangDet s g = false ∧ acquireOpen sp = false ∧ queueFull s (barHomeOf s g) = false)
      (fun s gid g si _ t => Asks s t gid g si (kind g))
    ∧ OnGangClosing i [] none (fun s _ g _ sp => gangDet s g = false ∧ acquireOpen sp = true) fun s _ _ _ _ t => t = s)
  ∧ (∀ n d a, ∀ f ∈ arrivingForms d a (.launch n), OnGangClosing f.1 [] none
      (fun s gid g si _ => g.splits.length ≤ 1 ∧ gangDet s g = false ∧ g.replay = none ∧ barTaken s g (.launch n) = false
        ∧ queueFull s (barHomeOf s g) = false ∧ ∃ s1 g1 sp1, Sealed s gid g si s1 g1 sp1)
      fun s gid g si _ t => ∃ s1 g1 sp1 pub u r, Sealed s gid g si s1 g1 sp1 ∧ pub = startRelease s1 gid g1 sp1 .pk []
        ∧ u = sendRequest pub.2 (arrivalRequest s1 gid g1 si d (.launch n) (f.2 g) (pub.1 :: openReads s1 gid sp1))
        ∧ tget t.requests u.1 = some r ∧ r.kind = .bar (.launch n) true (f.2 g).ident (f.2 g).payload (f.2 g).pend d false (f.2 g).wait
        ∧ r.home = barHomeOf s1 g1
        ∧ ((f.2 g).wait = false → SameMemory s1 t
          ∧ Retired u.2 t gid (withToken g1 (getBar s1 g1 (.launch n)) d (f.2 g).long) si (nextPc sp1.pc))
        ∧ ((f.2 g).wait = true → Asks s1 t gid g1 si r.kind))
  ∧ (∀ n d a, ∀ f ∈ arrivingForms d a (.launch n), OnGangClosing f.1 [] none
      (fun s _ g _ _ => g.splits.length ≤ 1 ∧ gangDet s g = false ∧ g.replay = none
        ∧ (barTaken s g (.launch n) = true ∨ queueFull s (barHomeOf s g) = true)) fun s _ _ _ _ t => t = s)
  ∧ (∀ n a, OnGang (.barcfg a (.launch n)) [] none (fun s _ g _ sp => gangDet s g = false ∧ barcfgOk (cget g.k a) = true
        ∧ acquireOpen sp = false ∧ queueFull s (barHomeOf s g) = false)
      fun s gid g si _ t => Asks s t gid g si (.barcfg (.launch n) (cget g.k a)))
  ∧ (∀ d a b, OnGangClosing (.barw d a b) [] none (fun s _ g _ _ => g.splits.length ≤ 1 ∧ gangDet s g = true ∧ gangDurable s g = false)
      fun s gid g si _ t => Asks s t gid g si (.bar b true false (cget g.k a) 0 d true true))
  ∧ (∀ d a b, OnGangClosing (.barr d a b) [] none (fun s _ g _ _ => g.splits.length ≤ 1 ∧ gangDet s g = true ∧ gangDurable s g = false)
      fun s gid g si sp t => (d ≠ 0 → Asks s t gid g si (.bar b true false (cget g.k a) 0 d true false))
        ∧ (d = 0 → ∃ u id r, Retired u t gid { g with qLog := g.qLog ++ [id] } si (nextPc sp.pc) ∧ tget t.requests id = some r
          ∧ r.kind = .bar b true false (cget g.k a) 0 d true false ∧ SameMemory s t))
  ∧ (∀ n a, OnGangClosing (.barp a (.launch n)) [] none
      (fun s _ g _ sp => gangDet s g = false ∧ acquireOpen sp = false ∧ queueFull s (barHomeOf s g) = false)
      fun s gid g si sp t => ∃ u id r, Retired u t gid g si (nextPc sp.pc) ∧ tget t.requests id = some r
        ∧ r.kind = .bar (.launch n) false false 0 (pendingAdd (cget g.k a)) 0 false false ∧ r.home = barHomeOf s g ∧ SameMemory s t)
  ∧ ∀ a b, OnGangClosing (.barp a b) [] none (fun s _ g _ _ => gangDet s g = true)
      fun s gid g si sp t => ∃ u id r, Retired u t gid { g with qLog := g.qLog ++ [id] } si (nextPc sp.pc)
        ∧ tget t.requests id = some r ∧ r.kind = .bar b false false 0 (pendingAdd (cget g.k a)) 0 false false ∧ SameMemory s t

end Sys2Proof

/-- R142, R159 to R163, R256: the phases of a barrier, and the instructions on the barriers of crews, cohorts and launches.  The payload of barr
and barw with d = 0 and a not 0 under a reducer is the model's choice (log entry 56), and so is how an arrival is under way (log entry
65). -/
def Obligations.Barriers : Prop :=
  BarrierPhases ∧ BarriersHere ∧ BarriersOfTheLaunch

/-! ### The array, generators (R165 to R185) -/

namespace Sys2Proof

/-- R170, R174, R176, R177: below a full queue, an array instruction that passes its checks enters the MCC's queue; a check that
fails traps; mwait goes on with an empty queue, and shows in fpf the flags of the work that has ended. -/
def ArrayIssue : Prop :=
  (∀ sh acc ka kb side add tsp, OnMcc (.mma sh acc ka kb side add tsp)
    (fun s _ c m => m.queue.length < 8
      ∧ mmaCheck s c sh acc (some (cget m.k ka).toNat) (some (cget m.k kb).toNat) none side tsp m.fmt = none)
    fun s cid c m t => SameMemory s t ∧ MccRetired s t cid c
      { m with queue := m.queue ++ [.mma sh acc (cget m.k ka).toNat (cget m.k kb).toNat none side tsp add 0 0 m.fmt] } (nextPc m.pc))
  ∧ (∀ sh acc ka kb side add tsp, OnMcc (.mma sh acc ka kb side add tsp)
    (fun s _ c _ => (mccLaunch s c).1 ≤ acc) fun s cid c m t => MccTrapped s t cid c m (plainTrap .invalidParam))
  ∧ (∀ sh acc ka n side add tsp, OnMcc (.mmag sh acc ka n side add tsp)
    (fun s _ c m => m.queue.length < 8 ∧ mmaCheck s c sh acc (if side then some (cget m.k ka).toNat else none)
        (if side then none else some (cget m.k ka).toNat) (some (tget m.gens n)) side tsp m.fmt = none)
    fun s cid c m t => SameMemory s t ∧ MccRetired s t cid c
      { m with queue := m.queue ++ [.mma sh acc (if side then (cget m.k ka).toNat else 0) (if side then 0 else (cget m.k ka).toNat)
          (tget m.gens n) side tsp add (cget m.k (ka + 1)) (cget m.k (ka + 2)) m.fmt] } (nextPc m.pc))
  ∧ (∀ sh acc ka n side add tsp, OnMcc (.mmag sh acc ka n side add tsp)
    (fun s _ c m => acc < (mccLaunch s c).1 ∧ tget m.gens n = none) fun s cid c m t => MccTrapped s t cid c m (plainTrap .invalidParam))
  ∧ (∀ j, OnMcc (.mzero j) (fun s _ c m => m.queue.length < 8 ∧ j < (mccLaunch s c).1) fun s cid c m t =>
      MccRetired s t cid c { m with queue := m.queue ++ [.mzero j] } (nextPc m.pc))
  ∧ (∀ d a j z, OnMcc (.mdrain d a j z)
    (fun s _ c m => m.queue.length < 8 ∧ j < (mccLaunch s c).1 ∧ fieldW m.fmt 8 4 ≤ 4 ∧ (cget m.k a).toNat % 16 = 0
      ∧ (cget m.k a).toNat + 4096 * drainBytes (fieldW m.fmt 8 4) ≤ (mccLaunch s c).2)
    fun s cid c m t => SameMemory s t ∧ MccRetired s t cid c
      { m with queue := m.queue ++ [.mdrain j (cget m.k a).toNat z (kPair m.k d) m.fmt m.srseed m.rtc] } (nextPc m.pc))
  ∧ OnMcc .mwait (fun _ _ _ m => m.queue = []) fun s cid c m t => MccRetired s t cid c
      { m with fpf := m.fpf ||| m.fpfNew, fpfNew := 0 } (nextPc m.pc)

/-- R57, R59, R170, R173, R176: the oldest instruction of the queue executes: mzero leaves its tile at +0.0 and no other, an mma
leaves in a cell one RNE per group of 32 products, partition memory is untouched; and a drain to FP32 without scales gives the
accumulator.  Its flags wait for the next mwait or rdv. -/
def ArrayExecutes : Prop :=
  (∀ s cid c m op rest, tget s.cohorts cid = some c → tget s.mccs cid = some m → m.queue = op :: rest → c.saved = false →
    partRuns s c.part = true →
    ∃ t m', exec (.arrayExecute cid) s = .next t ∧ tget t.mccs cid = some m' ∧ m'.queue = rest ∧ m'.k = m.k ∧ m'.pc = m.pc
      ∧ m'.fpf = m.fpf ∧ m'.fpfNew = m.fpfNew ||| (runArray s c op).2 ∧ SameMemory s t
      ∧ (m.running = true ∨ rest ≠ [] → t.gangs = s.gangs ∧ t.crews = (runArray s c op).1.crews))
  ∧ (∀ s c j w x k, w ∈ c.crews → tget s.crews w = some x →
      ∃ x', tget (runArray s c (.mzero j)).1.crews w = some x' ∧ cget x'.acc k = (if k / 4096 = j then 0 else cget x.acc k)
        ∧ x' = { x with acc := x'.acc })
  ∧ (∀ fl acc row col, row.length = 32 → col.length = 32 →
      (mmaCell fl acc row col).1 = (groupAdd fl acc (groupSum row col)).1)
  ∧ ∀ fmt j bands seed rtc r c acc, fieldW fmt 8 4 = 0 → fieldW fmt 16 4 = 0 → fmt.getLsbD 15 = false → nanWord acc = false →
      drainVal fmt j bands seed rtc r c acc = (acc.toNat, 0)

/-- R171, R182, R183, log entry 57: row `x` of A of an mma, whose row of cells lies on crew `w`: a row of the slice in the scratchpad, or generated where the
generator is A's. -/
def operandRow (s : State) (w : Nat) (sh : MatShape) (gen : Option Gen) (side tsp : Bool) (row0 col0 fmt : Word) (aAddr x : Nat) :
    List FVal :=
  let f := operandFmts fmt gen side
  let k := ((pairK f.1 f.2).getD 0) * (1 + shapeDouble sh)
  match gen, side with
  | some g, false => (List.range k).map fun t =>
      genVal g (fmt.getLsbD 15) (genCoords false tsp row0 col0 x t).1 (genCoords false tsp row0 col0 x t).2
  | _, _ => sliceRow (arrayScratch s w) f.1 (shapeDouble sh) k (tsp && gen.isNone && !side) (fmt.getLsbD 15) aAddr (x % 32)

/-- R172, R182, R183, log entry 57: column `n` of B: a column in the cluster's Attic, or generated where the generator is B's. -/
def operandColumn (s : State) (cl : Nat) (sh : MatShape) (gen : Option Gen) (side tsp : Bool) (row0 col0 fmt : Word) (bAddr n : Nat) :
    List FVal :=
  let f := operandFmts fmt gen side
  let k := ((pairK f.1 f.2).getD 0) * (1 + shapeDouble sh)
  match gen, side with
  | some g, true => (List.range k).map fun t =>
      genVal g (fmt.getLsbD 15) (genCoords true tsp row0 col0 n t).1 (genCoords true tsp row0 col0 n t).2
  | _, _ => atticColumn (arrayAttic s cl) f.2 (shapeDouble sh) (fmt.getLsbD 15) bAddr n

/-- R21, R57, R173, R175, R177: an mma or mmag leaves in each cell of its shape, on the core that holds the cell's row, the products of its row
and column added to the cell, or to +0.0, group after group of 32 with one RNE each; a drain writes the rounded cells to every core's
scratchpad and leaves the tile, or clears it with z.  All else stays: of the crews of the cohort every field but the accumulators, with a drain
the scratchpad and what the array may still read of it before; the crews of others; and the rest of the machine.  Without an unordered write
the array reads the scratchpad and the Attic as they stand.  That an mma flushes the subnormals which its generator makes under fmt [15] is the
model's reading (log entry 57). -/
def ArrayResults : Prop :=
  (∀ s c sh acc aAddr bAddr gen side tsp add row0 col0 fmt i w x, c.crews.length = 4 → c.crews.Nodup → c.crews[i]? = some w →
    tget s.crews w = some x →
    ∃ x', tget (runArray s c (.mma sh acc aAddr bAddr gen side tsp add row0 col0 fmt)).1.crews w = some x' ∧ x' = { x with acc := x'.acc }
      ∧ ∀ key, cget x'.acc key =
        if 32 * i < (shapeDims sh).1 ∧ key / 4096 = acc ∧ key % 128 < (shapeDims sh).2 then
          (mmaCell (fmt.getLsbD 15) (if add then cget x.acc key else 0)
            (operandRow s w sh gen side tsp row0 col0 fmt aAddr (32 * i + key % 4096 / 128))
            (operandColumn s c.cluster sh gen side tsp row0 col0 fmt bAddr (key % 128))).1
        else cget x.acc key)
  ∧ (∀ fl acc r1 c1 r2 c2, r1.length = 32 → c1.length = 32 →
      (mmaCell fl acc (r1 ++ r2) (c1 ++ c2)).1 = (mmaCell fl (groupAdd fl acc (groupSum r1 c1)).1 r2 c2).1)
  ∧ (∀ s c j off z bands fmt seed rtc i w x, c.crews.length = 4 → c.crews.Nodup → c.crews[i]? = some w → tget s.crews w = some x →
    ∃ x' e, e = drainBytes (fieldW fmt 8 4) ∧ tget (runArray s c (.mdrain j off z bands fmt seed rtc)).1.crews w = some x'
      ∧ x' = { x with scratch := x'.scratch, acc := x'.acc, olds := x'.olds } ∧ (∀ o ∈ x'.olds, o ∈ x.olds)
      ∧ (∀ r n b, r < 32 → n < 128 → b < e → x'.scratch.read (off + (128 * r + n) * e + b) =
          (bytesLE e (drainVal fmt j bands seed rtc (32 * i + r) n (cget x.acc (accKey j r n))).1)[b]?.getD 0)
      ∧ (∀ a, a < off ∨ off + 4096 * e ≤ a → x'.scratch.read a = x.scratch.read a)
      ∧ ∀ key, cget x'.acc key = if z = true ∧ key / 4096 = j then 0 else cget x.acc key)
  ∧ (∀ s c op, (runArray s c op).1 = { s with crews := (runArray s c op).1.crews })
  ∧ (∀ s c op w, c.crews.length = 4 → w ∉ c.crews → tget (runArray s c op).1.crews w = tget s.crews w)
  ∧ (∀ s w x a, tget s.crews w = some x → x.olds = [] → arrayScratch s w a = x.scratch.read a)
  ∧ ∀ s cl a, (getCluster s cl).atticOlds = [] → arrayAttic s cl a = (getCluster s cl).attic.read a

end Sys2Proof

/-- R57, R59, R170 to R177: array instructions from their issue to their end; generated subnormals under fmt [15] rest on log entry 57. -/
def Obligations.Array : Prop :=
  ArrayIssue ∧ ArrayExecutes ∧ ArrayResults

/-- R165 to R168: fork starts the MCC's program at its target with rtc 0, behind array work of the program before that goes on (R294); a
rendezvous waits for all of its participants; both belong to the cohort. -/
def Obligations.ForkAndRendezvous : Prop :=
  (∀ a, OnGangClosing (.fork a) [] none
    (fun s _ g _ _ => mayFork s g = true ∧ targetTrap (kPair g.k a) = none ∧ mccRunning s g.cohort = false
      ∧ takeAttic s (gangCluster g) g.cohort ≠ none)
    fun s gid g _ _ t => ∃ m, tget t.mccs g.cohort = some m ∧ m.running = true ∧ m.pc = kPair g.k a ∧ m.rtc = 0
      ∧ m.queue = ((tget s.mccs g.cohort).map (·.queue)).getD []
      ∧ (∀ c, 32 ≤ c → c < 48 → cget m.k c = cget g.k c)
      ∧ ((∀ e ∈ s.requests, e.2.gang ≠ gid) → ∃ g', tget t.gangs gid = some g' ∧ g'.rtc = g.rtc + 1 ∧ g'.k = g.k))
  ∧ (∀ a, OnGangClosing (.fork a) [] none (fun s _ g _ _ => mayFork s g = false ∧ gangOpen g = false)
    fun s gid g si sp t => Trapped s t gid g si sp (plainTrap .matrixRights))
  ∧ (OnGangClosing .rdv [] none
    (fun s gid g si _ => g.splits.length ≤ 1 ∧ rdvComplete (blockOn s gid si (gangDet s g) .rdv) g.cohort = false)
    fun s gid g si _ t => Waits s t gid si .rdv (gangDet s g))
  ∧ (OnGangClosing .rdv [] none
    (fun s gid g si sp => g.splits.length ≤ 1 ∧ rdvComplete (blockOn s gid si false .rdv) g.cohort = true ∧ cohortDet s g.cohort = false
      ∧ (s.gangs.map (·.1)).Nodup
      ∧ gangDet s g = false ∧ cohortOut s g.cohort = false ∧ g.status ≠ .ended ∧ sp.recs = [])
    fun s gid g si sp t => SameMemory s t ∧ ∃ g', tget t.gangs gid = some g' ∧ g'.rtc = g.rtc + 1 ∧ g'.k = g.k ∧ g'.v = g.v
      ∧ (tget g'.splits si).map (fun q => (q.pc, q.wait)) = some (nextPc sp.pc, .none))
  ∧ (OnMcc .mccRdv (fun s cid _ m => m.queue = [] ∧ rdvComplete (modMcc s cid fun x => { x with wait := .rdv }) cid = false)
    fun s cid _ _ t => t = modMcc s cid fun x => { x with wait := .rdv })
  ∧ OnMcc .mccRdv (fun s cid _ m => m.queue = [] ∧ m.running = true ∧ (s.mccs.map (·.1)).Nodup
      ∧ rdvComplete (modMcc s cid fun x => { x with wait := .rdv }) cid = true ∧ cohortDet s cid = false ∧ cohortOut s cid = false)
    fun _ cid _ m t => tget t.mccs cid = some { m with
      fpf := m.fpf ||| m.fpfNew, fpfNew := 0, rtc := m.rtc + 1, pc := nextPc m.pc, wait := .none }

/-- R180 to R184: gset loads a generator of the issuing side; geval gives its elements, and one that was never loaded traps; the sign
kind gives ±1, the causal kind 0 up to the diagonal and −∞ beyond. -/
def Obligations.Generators : Prop :=
  (∀ n a, OnGang (.gset n a) [] none
    (fun s _ g _ _ => ∃ x, makeGen s (gangView g) false (fun i => cget g.k (a + i)) (cohortOrigin s g.cohort).1 (cohortOrigin s g.cohort).2
      (((tget s.crews g.crew).map (·.index)).getD 0) g.index = .ok x)
    fun s gid g si sp t => ∃ x, makeGen s (gangView g) false (fun i => cget g.k (a + i)) (cohortOrigin s g.cohort).1
      (cohortOrigin s g.cohort).2 (((tget s.crews g.crew).map (·.index)).getD 0) g.index = .ok x
      ∧ Retired s t gid { g with gens := tset g.gens n x } si (nextPc sp.pc))
  ∧ (∀ n a, OnMcc (.gset n a)
    (fun s cid c m => ∃ x, makeGen s (mccView s c) true (fun i => cget m.k (a + i)) (cohortOrigin s cid).1 (cohortOrigin s cid).2 0 0 = .ok x)
    fun s cid c m t => ∃ x, makeGen s (mccView s c) true (fun i => cget m.k (a + i)) (cohortOrigin s cid).1 (cohortOrigin s cid).2 0 0 = .ok x
      ∧ MccRetired s t cid c { m with gens := tset m.gens n x } (nextPc m.pc))
  ∧ (∀ d a b n, OnGang (.geval d a b n) [d, a, b] (some [d]) (fun _ _ g _ _ => tget g.gens n ≠ none)
    fun s gid g si sp t => ∃ x, tget g.gens n = some x
      ∧ Retired s t gid (perLane g sp.mask d fun l => genWord x (vget g a l) (vget g b l)) si (nextPc sp.pc))
  ∧ (∀ d a b n, OnGang (.geval d a b n) [d, a, b] (some [d]) (fun _ _ g _ _ => tget g.gens n = none ∧ gangOpen g = false)
    fun s gid g si sp t => Trapped s t gid g si sp (plainTrap .invalidParam))
  ∧ (∀ g r c, g.kind = 0 → genF32 g r c = if (hashH g.seed (zextW r) (zextW c)).msb then 0xBF800000 else 0x3F800000)
  ∧ (∀ g r c, g.kind = 5 → genF32 g r c = if c.toNat ≤ r.toNat then 0 else 0xFF800000)
  ∧ ∀ g r c, g.kind = 0 → g.fmt = 6 → genWord g r c = genF32 g r c

/-! ### Tasks, regions, groups, determinism (R186 to R214) -/

/-- R186 to R191: spawn, join and chunk ask the Pantry of their record; msgsend sends its message and goes on.  Records are read as plain loads
are, behind the refresh of a Larder that would overflow (R262). -/
def Obligations.TasksAsk : Prop :=
  (∀ a, OnGang (.join a) [] none
    (fun s gid g si sp => (∃ key, recordKey s g 32 a = .ok key ∧ askHeld s g sp (homeOfKey s key) = false) ∧ ∃ s1 g1 sp1, Sealed s gid g si s1 g1 sp1)
    fun s gid g si _ t => ∃ key s1 g1 sp1, recordKey s g 32 a = .ok key ∧ Sealed s gid g si s1 g1 sp1
      ∧ Asks s1 t gid g1 si (.join (kPair g1.k a) key))
  ∧ (∀ d a, OnGang (.chunk d a) [] none
    (fun s gid g si sp => (∃ key, recordKey s g 16 a = .ok key ∧ slotHeld s g sp (homeOfKey s key) = false) ∧ ∃ s1 g1 sp1, Sealed s gid g si s1 g1 sp1)
    fun s gid g si _ t => ∃ key s1 g1 sp1, recordKey s g 16 a = .ok key ∧ Sealed s gid g si s1 g1 sp1
      ∧ Asks s1 t gid g1 si (.chunk key d))
  ∧ (∀ d a n, 0 < n → OnGang (.spawn d a n) [] none
    (fun s gid g si sp => (kPair g.k a).toNat % 32 = 0
      ∧ failed ((recordVas (kPair g.k a) n).map (readPlacement (recordView s g (recordVas (kPair g.k a) n)) g)) = []
      ∧ askHeld s g sp (homeAt s g (kPair g.k a)) = false
      ∧ openWords s g.core ((recordVas (kPair g.k a) n).flatMap (placementKeys (recordView s g (recordVas (kPair g.k a) n)) g)) = []
      ∧ ∃ s1 g1 sp1, Sealed (recordView s g (recordVas (kPair g.k a) n)) gid g si s1 g1 sp1)
    fun s gid g si _ t => ∃ s0 s1 g1 sp1, s0 = recordView s g (recordVas (kPair g.k a) n) ∧ Sealed s0 gid g si s1 g1 sp1
      ∧ Asks s1 t gid g1 si
        (.spawn ((passed ((recordVas (kPair g.k a) n).map (readPlacement s0 g))).filter fun p => p.cont.join == 0) d))
  ∧ (∀ d a b, OnGang (.msgsend d a b) [] none
    (fun s gid g _ sp => (kPair g.k a).toNat % 32 = 0 ∧ gangDet s g = false ∧ gangDurable s g = false ∧ acquireOpen sp = false
      ∧ alreadyPublished s gid g.rtc eventMessage = false ∧ openWords s g.core (readKeys s g (kPair g.k a) 32) = []
      ∧ ∃ bs, plainRead (overflowRefresh s g.core (readKeys s g (kPair g.k a) 32)) g (kPair g.k a) 32 = .ok bs
        ∧ messageTraps s g (cget g.k d) (parseCont bs) = [])
    fun s gid g si sp t => SameMemory s t ∧ ∃ bs u m,
      plainRead (overflowRefresh s g.core (readKeys s g (kPair g.k a) 32)) g (kPair g.k a) 32 = .ok bs ∧ Retired u t gid g si (nextPc sp.pc)
      ∧ tget t.messages s.ctl.nextId = some m ∧ m.cont = parseCont bs ∧ m.payload = payloadBytes g b ∧ m.gang = gid
      ∧ m.peer = (cget g.k d).toNat / 256 % 256)
  ∧ (∀ next stop lo n, lo ≠ 0 → n ≠ 0 → next < stop → ∃ size after, chunkPiece next stop lo n = some (next, size, after)
      ∧ 0 < size ∧ next + size ≤ stop ∧ min lo (stop - next) ≤ size)
  ∧ (∀ next stop lo n, lo ≠ 0 → n ≠ 0 → stop ≤ next → next < 2 ^ 32 → chunkPiece next stop lo n = some (next, 0, next))
  ∧ ∀ next stop lo n, lo = 0 ∨ n = 0 → chunkPiece next stop lo n = none

namespace Sys2Proof

/-- R193 to R196, R202, R277: rxcfg takes a descriptor that is in range and resets rxs and rxr; rxbody claims the stair unit, writes
the guesses and the inputs of the first slot; rxabort leaves the region.  That a region left in state 2 goes on in one split with the lanes
and the divergence records of rxbody is the model's reading (log entry 16). -/
def RegionsOpen : Prop :=
  (∀ a, OnGang (.rxcfg a) [] none (fun _ _ g _ sp => g.splits.length ≤ 1 ∧ regionOk g sp a (readRegion g a) = true)
    (Makes fun _ g _ => { g with rxs := 1#32 <<< 24, rxr := 0, region := some (readRegion g a) }))
  ∧ (∀ a, OnGang (.rxcfg a) [] none (fun _ _ g _ sp => regionOk g sp a (readRegion g a) = false ∧ gangOpen g = false)
    fun s gid g si sp t => Trapped s t gid g si sp (plainTrap .invalidParam))
  ∧ (OnGang .rxbody [] none
    (fun s gid g _ _ => regionState g = 1 ∧ g.splits.length ≤ 1 ∧ ∃ r, g.region = some r ∧ g.wbase = r.wbase
      ∧ ((getCore s g.core).stair = none ∨ (getCore s g.core).stair = some gid))
    fun s gid g si sp t => SameMemory s t ∧ ∃ r u, g.region = some r ∧ (getCore t g.core).stair = some gid
      ∧ Retired u t gid (startSlot { g with v := csets g.v (guessCells r), rxs := withRegionState g.rxs 2 } si
          { r with start := nextPc sp.pc, active := sp.mask, recs := sp.recs, slot := 0, caps := [], passRtc := g.rtc + 1 }) si (nextPc sp.pc))
  ∧ (OnGang .rxbody [] none (fun _ _ g _ _ => (regionState g ≠ 1 ∨ g.region = none) ∧ gangOpen g = false)
    fun s gid g si sp t => Trapped s t gid g si sp (plainTrap .invalidParam))
  ∧ (OnGang .rxabort [] (some []) (fun _ _ _ _ _ => True)
    fun s gid g si sp t => SameMemory s t ∧ Retired (releaseStair s g.core gid) t gid (abortRegion g si) si (nextPc sp.pc))
  ∧ (∀ g si, regionState g = 1 ∨ regionState g = 2 → regionState (abortRegion g si) = 0 ∧ (abortRegion g si).region = none
      ∧ (abortRegion g si).rxs.getLsbD 23 = true ∧ (abortRegion g si).v = g.v)
  ∧ (∀ g si, regionState g = 0 → abortRegion g si = g)
  ∧ (∀ g si, regionState g = 1 → (abortRegion g si).splits = g.splits)
  ∧ (∀ g si r sp, regionState g = 2 → g.region = some r → tget g.splits si = some sp →
      (abortRegion g si).splits = [(si, { sp with mask := r.active, recs := r.recs })])
  ∧ ∀ rxs st, st < 4 → fieldW (withRegionState rxs st) 24 2 = st ∧ fieldW (withRegionState rxs st) 0 24 = fieldW rxs 0 24

/-- R197, R199, R200: rxend inside a pass captures the slot and goes back to the body start; at the end of a pass it commits the new
states and goes back, or closes the region where it converged.  A pass that is not finite, or reaches a stall or its limit, closes the
region under policy 2, closes it and traps under policy 1, and under policy 0 commits the exact states and goes on with the fallback step
E; each fallback step commits its state, and the last one closes the region. -/
def RegionsEnd : Prop :=
  (OnGang .rxend [] (some [])
    (fun _ _ g _ sp => regionState g = 2 ∧ g.splits.length ≤ 1 ∧ sp.pend = [] ∧ ∃ r, g.region = some r ∧ r.fallback = none
      ∧ r.slot + 1 < r.steps ∧ r.slot + 1 < r.len)
    fun s gid g si _ t => ∃ r, g.region = some r
      ∧ Retired s t gid (startSlot g si { r with caps := r.caps ++ captureSteps g r, slot := r.slot + 1 }) si r.start)
  ∧ (OnGang .rxend [] (some [])
    (fun _ _ g _ sp => regionState g = 2 ∧ g.splits.length ≤ 1 ∧ sp.pend = [] ∧ ∃ r, g.region = some r ∧ r.fallback = none
      ∧ (r.steps ≤ r.slot + 1 ∨ r.len ≤ r.slot + 1))
    fun s gid g si sp t => ∃ r r0 p e, g.region = some r ∧ r0 = { r with caps := r.caps ++ captureSteps g r }
      ∧ p = passResult r0 ((List.range r.len).map (guessOf g r0)) (fieldW g.rxs 8 10) ∧ e = passEnd g r0 p
      ∧ (e.2.2 = .converged → Retired (releaseStair s g.core gid) t gid
          (closeRegion { e.1 with v := csets e.1.v (stateCells e.2.1 (p.xn.zipIdx.map fun x => (x.2, x.1))) } si e.2.1) si (nextPc sp.pc))
      ∧ (e.2.2 = .again → Retired s t gid
          (startSlot { e.1 with v := csets e.1.v (stateCells e.2.1 (p.xn.zipIdx.map fun x => (x.2, x.1))) } si
            { e.2.1 with passRtc := g.rtc + 1 }) si r.start)
      ∧ ((e.2.2 = .nonfinite ∨ e.2.2 = .stall ∨ e.2.2 = .limit) →
        (r.policy = 2 → Retired (releaseStair s g.core gid) t gid
          (closeRegion { e.1 with v := csets e.1.v (stateCells e.2.1 (p.xn.zipIdx.map fun x => (x.2, x.1))) } si e.2.1) si (nextPc sp.pc))
        ∧ (r.policy = 1 → Trapped (releaseStair s g.core gid) t gid
          (closeRegion { e.1 with v := csets e.1.v (stateCells e.2.1 (p.xn.zipIdx.map fun x => (x.2, x.1))) } si e.2.1) si
          { sp with mask := r.active, recs := r.recs } (plainTrap (if e.2.2 = .nonfinite then .stairNonfinite else .stairLimit)))
        ∧ (r.policy = 0 → Retired s t gid
          (startSlot { e.1 with v := csets e.1.v (stateCells e.2.1 ((p.xn.zipIdx.map fun x => (x.2, x.1)).take (fieldW e.1.rxs 8 10)))
                                rxs := e.1.rxs ||| 0x400000 } si
            { e.2.1 with fallback := some (fieldW e.1.rxs 8 10), passRtc := g.rtc + 1 }) si r.start)))
  ∧ (OnGang .rxend [] (some [])
    (fun _ _ g _ sp => regionState g = 2 ∧ g.splits.length ≤ 1 ∧ sp.pend = [] ∧ ∃ r j, g.region = some r ∧ r.fallback = some j)
    fun s gid g si sp t => ∃ r j g1, g.region = some r ∧ r.fallback = some j
      ∧ g1 = { g with v := csets g.v (stateCells r [(j, blockVals g r.by' r.dim (stepLane r j))]) }
      ∧ (j + 1 < r.len → Retired s t gid (startSlot g1 si { r with fallback := some (j + 1), passRtc := g.rtc + 1 }) si r.start)
      ∧ (r.len ≤ j + 1 → Retired (releaseStair s g.core gid) t gid (closeRegion g1 si r) si (nextPc sp.pc)))
  ∧ (OnGang .rxend [] (some []) (fun _ _ g _ _ => (regionState g ≠ 2 ∨ g.region = none) ∧ gangOpen g = false)
    fun s gid g si sp t => Trapped s t gid g si sp (plainTrap .invalidParam))
  ∧ ∀ r x, isFiniteF32 x = true → isZeroF32 r.tauA = true → isZeroF32 r.tauR = true → passesTest r x x = true

end Sys2Proof

/-- R193 to R202, R277: parallel-in-time regions. -/
def Obligations.Regions : Prop :=
  RegionsOpen ∧ RegionsEnd

namespace Sys2Proof

/-- R204, R205, R208 to R210: the instructions of a sample group ask the Pantry of the group's record; sgfork refuses a count of siblings
outside 2 to 64 before its other checks. -/
def SampleGroupsAsk : Prop :=
  (∀ d a, OnGang (.sgstat d a) [] none
    (fun s _ g _ sp => ∃ bl, groupRecord s g .load (kPair g.k a) 64 = .ok bl ∧ slotHeld s g sp (homeOfKey s (bl.headD 0)) = false)
    fun s gid g si _ t => ∃ bl, groupRecord s g .load (kPair g.k a) 64 = .ok bl ∧ Asks s t gid g si (.sgstat bl d))
  ∧ (∀ d a b, OnGang (.sgcancel d a b) [] none
    (fun s gid g si sp => (∃ bl, groupRecord s g .rmw (kPair g.k a) 64 = .ok bl ∧ slotHeld s g sp (homeOfKey s (bl.headD 0)) = false)
      ∧ (∃ x, translateRange s (gangView g) .rmw (kPair g.k a + BitVec.ofNat 64 (slotOff (cget g.k b).toNat)) 16 = .ok x)
      ∧ ∃ s1 g1 sp1, Sealed s gid g si s1 g1 sp1)
    fun s gid g si _ t => ∃ bl s1 g1 sp1, groupRecord s g .rmw (kPair g.k a) 64 = .ok bl ∧ Sealed s gid g si s1 g1 sp1
      ∧ Asks s1 t gid g1 si (.sgcancel bl (cget g.k b).toNat d))
  ∧ (∀ d b, OnGangClosing (.sgreward d b) [] none
    (fun s gid g si sp => g.sgidx ≠ 0xFFFFFFFF ∧ rewardBad (cget g.k b) = false
      ∧ (gangDet s g = false → slotsFull g sp.mask = false ∧ queueFull s (groupHome s gid) = false)
      ∧ ∃ s1 g1 sp1, Sealed s gid g si s1 g1 sp1)
    fun s gid g si _ t => ∃ s1 g1 sp1, Sealed s gid g si s1 g1 sp1 ∧ Asks s1 t gid g1 si (.sgreward (cget g.k b) d))
  ∧ (∀ d b, OnGangClosing (.sgreward d b) [] none
    (fun _ _ g _ _ => (g.sgidx = 0xFFFFFFFF ∨ rewardBad (cget g.k b) = true) ∧ gangOpen g = false)
    fun s gid g si sp t => Trapped s t gid g si sp (plainTrap .invalidParam))
  ∧ (∀ d a b, OnGangClosing (.sgfork d a b) [] none
    (fun _ _ g _ _ => ((cget g.k b).toNat < 2 ∨ 64 < (cget g.k b).toNat) ∧ gangOpen g = false)
    fun s gid g si sp t => Trapped s t gid g si sp (plainTrap .invalidParam))
  ∧ ∀ d a b, OnGangClosing (.sgfork d a b) [] none
    (fun s gid g si sp => 2 ≤ (cget g.k b).toNat ∧ (cget g.k b).toNat ≤ 64 ∧ epsBad (cget g.k (b + 5)) = false
      ∧ (∃ bl pl, groupRecord s g .rmw (kPair g.k a) (64 + 16 * (cget g.k b).toNat) = .ok bl
        ∧ promptTraps (recordView s g [kPair g.k (b + 1)]) g (kPair g.k (b + 1)) (cget g.k b).toNat = ([], some pl)
        ∧ slotHeld s g sp (homeOfKey s (bl.headD 0)) = false)
      ∧ openWords s g.core (placementKeys (recordView s g [kPair g.k (b + 1)]) g (kPair g.k (b + 1))) = []
      ∧ ∃ s1 g1 sp1, Sealed (recordView s g [kPair g.k (b + 1)]) gid g si s1 g1 sp1)
    fun s gid g si _ t => ∃ bl pl s0 s1 g1 sp1, groupRecord s g .rmw (kPair g.k a) (64 + 16 * (cget g.k b).toNat) = .ok bl
      ∧ s0 = recordView s g [kPair g.k (b + 1)]
      ∧ promptTraps s0 g (kPair g.k (b + 1)) (cget g.k b).toNat = ([], some pl) ∧ Sealed s0 gid g si s1 g1 sp1
      ∧ Asks s1 t gid g1 si (.sgfork (kPair g.k a) bl (cget g.k b).toNat pl (kPair g.k (b + 1)) (kPair g1.k (b + 3))
          (kPair g1.k (b + 6)) (cget g.k (b + 5)) d)

/-- R206, R207: a deadline closes its group; where the spread of the rewards is 0 every advantage is +0. -/
def SampleGroupsClose : Prop :=
  (∀ s gid g, tget s.groups gid = some g → g.det = false → deadlineReached s g = true →
    ∃ t g', exec (.sgDeadline gid) s = .next t ∧ tget t.groups gid = some g' ∧ g'.closed = true ∧ g'.blocks = g.blocks)
  ∧ (∀ eps rs, (advantages eps rs).2.2.length = rs.length)
  ∧ ∀ eps rs, (advantages eps rs).2.1 &&& 0x7FFFFFFF = 0 → ∀ a ∈ (advantages eps rs).2.2, a = 0

end Sys2Proof

/-- R204 to R210: sample groups. -/
def Obligations.SampleGroups : Prop :=
  SampleGroupsAsk ∧ SampleGroupsClose

/-- R212 to R214, R252: digest adds its range to the partition's set; stepmark asks behind its release; qend ends the quantum of a
deterministic gang, and else only retires.  That a digest whose length alone is misaligned reports the start of the range as the address of
its MISALIGN is the model's reading (log entry 20). -/
def Obligations.Determinism : Prop :=
  (∀ a b, OnGang (.digest a b) [] none
    (fun s _ g _ _ => (kPair g.k a).toNat % 64 = 0 ∧ (kPair g.k b).toNat % 64 = 0 ∧ kPair g.k b ≠ 0 ∧ (kPair g.k b).toNat ≤ 2 ^ 40
      ∧ ∃ p, tget s.parts g.part = some p ∧ p.digestRanges.length < 64)
    fun s gid g si sp t => SameMemory s t
      ∧ Retired (modPart s g.part fun p => { p with digestRanges := p.digestRanges ++ [(kPair g.k a, kPair g.k b)] }) t gid g si (nextPc sp.pc))
  ∧ (∀ a b, OnGang (.digest a b) [] none (fun _ _ g _ _ => ((kPair g.k a).toNat % 64 ≠ 0 ∨ (kPair g.k b).toNat % 64 ≠ 0) ∧ gangOpen g = false)
    fun s gid g si sp t => Trapped s t gid g si sp { plainTrap .misalign with addr := kPair g.k a })
  ∧ (∀ d a, OnGang (.stepmark d a) [] none
    (fun s gid g si _ => stepStale s g (kPair g.k a) = false ∧ ∃ s1 g1 sp1, Sealed s gid g si s1 g1 sp1)
    fun s gid g si _ t => ∃ s1 g1 sp1, Sealed s gid g si s1 g1 sp1 ∧ Asks s1 t gid g1 si (.stepmark (kPair g.k a) d))
  ∧ (∀ d a, OnGang (.stepmark d a) [] none (fun s _ g _ _ => stepStale s g (kPair g.k a) = true ∧ g.replay = none ∧ gangOpen g = false)
    fun s gid g si sp t => Trapped s t gid g si sp (plainTrap .invalidParam))
  ∧ (OnGang .qend [] none (fun _ _ _ _ _ => True) fun s gid g si sp t => SameMemory s t ∧ ∃ u, Retired s u gid g si (nextPc sp.pc)
      ∧ (gangDet s g = false → t = u) ∧ (gangDet s g = true → t = modGang u gid fun x => { x with qEnded := true }))
  ∧ (∀ s gid g, tget s.gangs gid = some g → gangDet s g = true → quantumOf s g ≤ g.qCount → g.qEnded = false →
      ∃ t, exec (.gangQuantumEnd gid) s = .next t ∧ tget t.gangs gid = some { g with qEnded := true } ∧ SameMemory s t)
  ∧ ∀ rs : List (DWord × DWord), (unionRanges rs).Pairwise fun x y => x.1 + x.2 < y.1

/-! ### The Pantry, faults, the scheduler (R256, R274, R241 to R247, R296 to R304) -/

/-- R256, R147, R190, R302, R328: a Pantry serves the earliest request that can be served: of an earlier cycle, and within one cycle of the
lower die, cluster, core and gang slot, a copy engine after the cores of its cluster; none in the cycle in which it was sent.  A reduction
leaves its words as R147 says and nothing else of memory; a chunk hands out the piece and advances its record, and a gang that is out, or
whose cluster sleeps, holds its answer. -/
def Obligations.PantryServes : Prop :=
  (∀ s home rid r, nextRequest s home = some (rid, r) → (rid, r) ∈ s.requests ∧ servable s home r = true ∧ r.sent < s.ctl.clock
      ∧ ∀ e ∈ s.requests, servable s home e.2 = true → r.sent < e.2.sent ∨ r.sent = e.2.sent ∧
          (r.place < e.2.place ∨ r.place = e.2.place ∧ r.seq ≤ e.2.seq))
  ∧ (∀ s r, tget (sendRequest s r).2.requests (sendRequest s r).1 =
      some { r with seq := s.ctl.nextId, sent := s.ctl.clock, place := senderPlace s r })
  ∧ (∀ s r q x y, r.copy = none → q.copy = none → tget s.gangs r.gang = some x → tget s.gangs q.gang = some y → x.slot < 32 → y.slot < 32 →
      (x.core < y.core ∨ x.core = y.core ∧ x.slot < y.slot → senderPlace s r < senderPlace s q))
  ∧ (∀ s r q x crew cl tag bar ctr gid, r.copy = none → tget s.gangs r.gang = some x → x.slot < 32 →
      q.copy = some (gid, .copy crew cl tag bar ctr) →
      (coreCluster x.core ≤ cl → senderPlace s r < senderPlace s q) ∧ (cl < coreCluster x.core → senderPlace s q < senderPlace s r))
  ∧ (∀ s home rid r op ls, nextRequest s home = some (rid, r) → r.kind = .rmw op ls false → s.mem.overlay = [] →
      recordedLanes s rid r ls = none →
      ∃ t, exec (.pantryRequestServe home) s = .next t ∧ tget t.requests rid = none
        ∧ t.mem.bytes = (rmwLanes s (.core r.core) (requestRel s r) op ls).1.mem.bytes ∧ t.mem.host = s.mem.host)
  ∧ ∀ s home rid r key d next size after, nextRequest s home = some (rid, r) → r.kind = .chunk key d → recorded s rid r = none →
      awaits s r rid = true →
      chunkPiece (memLE s key 4) (memLE s (key + 4) 4) (memLE s (key + 8) 4) (memLE s (key + 12) 4) = some (next, size, after) →
      ∃ t g, exec (.pantryRequestServe home) s = .next t ∧ tget t.requests rid = none ∧ memLE t key 4 = after
        ∧ memLE t (key + 4) 12 = memLE s (key + 4) 12 ∧ tget t.gangs r.gang = some g
        ∧ (splitReached s r.gang = true → cget g.k d = BitVec.ofNat 32 next ∧ cget g.k (d + 1) = BitVec.ofNat 32 size)
        ∧ (splitReached s r.gang = false → (tget g.splits r.split).map (·.wait) =
            some (.answered [(d, BitVec.ofNat 32 next), (d + 1, BitVec.ofNat 32 size)] none))

/-- R36, R74, R274, R296, R369: held records are posted in their order; a translation fault parks its gang with a place in the fault
buffer or holds it without a record; a held agent tries again; a copy that meets a PERM ends, one that meets an XLATE waits; errors. -/
def Obligations.FaultEvents : Prop :=
  (∀ s part p r rest, tget s.parts part = some p → firstHeld s p.heldRecords = some (r, rest) → queueHasRoom s part p = true →
    s.requests = [] →
    ∃ t p', exec (.heldFaultRecordPost (.partition part)) s = .next t ∧ tget t.parts part = some p' ∧ p'.heldRecords = rest
      ∧ p'.posted = p.posted + 1 ∧ memBytes t (physKey part (recordAddr p p.posted)) 64 = recordBytes r)
  ∧ (∀ s gid g si sp w, Issues s gid g si sp → gangOpen g = false → decodeWord w = none →
    ∃ t, exec (.nonInstructionWord w) s = .next t ∧ Trapped s t gid g si sp (plainTrap .illegal))
  ∧ (∀ s gid g si sp e, Issues s gid g si sp → gangOpen g = false →
    fetchAt s (gangView g) .fetch (splitBound s g sp) sp.pc = .error e → takesPlace (accessTrap .fetch e) = false →
    ∃ t, exec .instructionFetchFault s = .next t ∧ Trapped s t gid g si sp (accessTrap .fetch e))
  ∧ (∀ s gid g si sp i, tget s.gangs gid = some g → tget g.splits si = some sp → gangOpen g = false → takesPlace i = true →
    (tget (takeTrap s gid g si i 0).gangs gid).map (·.status) =
      some (if joinBuffer (setGang s gid (landGang g)) (gangCluster g) g.part i.addr (.gang gid) = none then .held else .parked))
  ∧ (∀ s gid g, tget s.gangs gid = some g → (getCluster s (gangCluster g)).heldFaults.contains (.gang gid) = true →
    bufferHasRoom (getCluster s (gangCluster g)) (.gang gid) = true →
    ∃ t, exec (.faultBufferRetry (.gang gid)) s = .next t ∧ tget t.gangs gid = some { g with status := .running }
      ∧ (getCluster t (gangCluster g)).heldFaults.contains (.gang gid) = false ∧ SameMemory s t)
  ∧ (∀ s id cp s1 cp1 e, tget s.copies id = some cp → copyFree s cp = true → copyAtEnd s cp = true →
    copyMeets s id cp (copyDet s cp) = (s1, cp1, some e) → ∃ t, exec (.copyFault id) s = .next t
      ∧ (e.1 ≠ .xlate → tget t.copies id = none)
      ∧ (e.1 = .xlate → (tget t.copies id).map (fun c => c.held || c.stuck) = some true))
  ∧ (∀ s, ∃ t, exec (.uncorrectableError .clean) s = .next t ∧ t = bumpFree s)
  ∧ ∀ s part p pa, tget s.parts part = some p → p.state = .running ∨ p.state = .ready →
    ∃ t p', exec (.uncorrectableError (.onlyCopy part pa)) s = .next t ∧ tget t.parts part = some p' ∧ p'.state = .halted
      ∧ p'.haltCause = 5 ∧ t.mem.bytes = s.mem.bytes

/-- R4, R17, R23, R206, R242 to R246, R319, R360: a queue is served by level, then by entry; a record that can be placed starts its next cohort
on its cluster, with the values of a crew start and the lane ratio of its launch, behind a deterministic record whose idle end is due; a
record that waits ages, and may spill to other dies; the head of a queue, which a saved cohort may be, reserves a cluster where it does not
fit, and asks for a victim.  That a pinned head reserves on its own die, that a saved cohort reserves as a head does, and that a victim lies
below the level of the record itself is the model's reading (log entry 25). -/
def Obligations.Scheduling : Prop :=
  (∀ s part die rid r cl, nextPlacement s part die = some (rid, r, cl) → partRuns s part = true →
    (∀ x ∈ restorable s part die, x.2 < effLevel r) → clusterAwake s cl = true →
    ∃ t c, exec (.schedulerPlacement part die) s = .next t ∧ tget t.cohorts s.ctl.nextId = some c ∧ c.range = rid ∧ c.cluster = cl
      ∧ (∀ q, launchRatio r.launch = some q → c.ratio = q) ∧ c.part = r.part ∧ c.ended = false ∧ c.crews.length = r.launch.crews ∧ (unplaced r).head? = some c.index
      ∧ (getCluster t cl).power = .active)
  ∧ (∀ s part die, (queueOrder s part die).Perm (queued s part die)
      ∧ (queueOrder s part die).Pairwise fun x y => effLevel y.2 < effLevel x.2 ∨ effLevel x.2 = effLevel y.2 ∧ x.2.entry ≤ y.2.entry)
  ∧ (∀ s part die e rest, queueOrder s part die = e :: rest → idleEndDue s e.1 e.2 = true → nextPlacement s part die = none)
  ∧ (∀ r rid cid wid i core slot ci now, let g := freshGang r rid cid wid i core slot ci now
    g.rtc = 0 ∧ g.fpf = 0 ∧ g.wbase = 0 ∧ g.temp = 0x3F800000 ∧ g.v = [] ∧ g.k = [] ∧ g.exited = 0 ∧ g.rxs = 0
      ∧ g.srseed = r.launch.seed ∧ g.prio = r.launch.prio
      ∧ (tget g.splits 0).map (fun q => (q.pc, q.mask, q.fmt)) = some (r.launch.entry, BitVec.allOnes 64, 0))
  ∧ (∀ s rid r, tget s.ranges rid = some r → r.queued = true → r.launch.det = false → r.aged < 16 →
    microCycles (1000 * (r.aged + 1)) ≤ waited s r →
    ∃ t r', exec (.recordAging rid) s = .next t ∧ tget t.ranges rid = some r' ∧ r'.aged = r.aged + 1 ∧ r'.level = r.level ∧ SameMemory s t)
  ∧ (∀ s rid r, tget s.ranges rid = some r → r.queued = true → placeable s r = true → r.pinned = false → r.spill = false →
    microCycles 20 ≤ waited s r → pickCluster s rid r = none →
    ∃ t, exec (.headRecordSpill rid) s = .next t ∧ tget t.ranges rid = some { r with spill := true } ∧ SameMemory s t)
  ∧ (∀ s id w cl, waiterOf s id = some w → headId s w.part w.die = some id →
    (∀ e ∈ s.clusters, e.2.reserved ≠ some id) → microCycles 20 ≤ w.waited → w.fits = false →
    (if w.pinned then dieClusters w.die else ((tget s.parts w.part).map partClusters).getD []).find?
      (fun x => (getCluster s x).reserved.isNone) = some cl →
    ∃ t, exec (.clusterReservation id) s = .next t ∧ (getCluster t cl).reserved = some id ∧ SameMemory s t ∧ t.cohorts = s.cohorts)
  ∧ (∀ s id w cl c cid, waiterOf s id = some w → (s.clusters.find? fun e => e.2.reserved == some id).map (·.1) = some cl →
    microCycles 50 ≤ w.waited → w.fits = false →
    firstVictim s ((s.cohorts.filter fun e => e.2.cluster == cl && !e.2.saved && !e.2.ended && !e.2.preempt
      && decide (cohortPrio s e.1 < w.level)).filter fun e => !cohortDet s e.1) = some (cid, c) →
    (∀ e ∈ s.cohorts, e.2.cluster = cl → e.2.preempt = false) → saveRoom s cid c = true →
    ∃ t, exec (.reservationPreempt id) s = .next t ∧ (tget t.cohorts cid).map (·.preempt) = some true ∧ SameMemory s t ∧ t.gangs = s.gangs)
  ∧ (∀ s rid r, tget s.ranges rid = some r → ∃ w, waiterOf s rid = some w ∧ w.part = r.part ∧ w.die = r.die ∧ w.level = r.level
      ∧ w.waited = s.ctl.clock - r.time
      ∧ (w.fits = true ↔ (r.launch.det = true ∧ detFirst s rid r ≠ none) ∨ (r.launch.det = false ∧ pickCluster s rid r ≠ none)))
  ∧ (∀ s cid c r, tget s.ranges cid = none → tget s.cohorts cid = some c → cohortRange s c = some r →
      ∃ w, waiterOf s cid = some w ∧ w.level = r.level ∧ w.waited = s.ctl.clock - c.outAt
        ∧ (w.fits = true ↔ pickRestore s cid c r ≠ none))
  ∧ ∀ s part die c l h, savedHead s part die = some (c, l) → queueHead s part die = some h →
      headId s part die = if effLevel h.2 ≤ l then some c else some h.1

/-- R241, R192, R242, R245, R298, R301, R339: a cohort asked to leave is saved once it has stopped on a cluster that is awake, and is placed
again where it fits, behind what a higher level can place, and on another die only once it has been out for 20 µs; held records and messages enter as their queue takes them.  That a message waits whole in the port buffer, its payload unwritten, is
the model's reading (log entry 22), as is the die that a cohort is restored to (log entry 24). -/
def Obligations.SavesAndMessages : Prop :=
  (∀ s cid c, tget s.cohorts cid = some c → c.preempt = true → c.saved = false → c.ended = false →
    ((tget s.mccs cid).map (·.queue.isEmpty)).getD true = true → clusterAwake s c.cluster = true → sealReady s c.cluster = true →
    (∀ e ∈ cohortLive s cid, gangStops e.2 = true ∧ gangQuiet s e.1 e.2 = true) →
    ∃ t, exec (.preemptSave cid) s = .next t ∧ (tget t.cohorts cid).map (fun x => (x.saved, x.preempt)) = some (true, false))
  ∧ (∀ s cid c r cl, tget s.cohorts cid = some c → cohortRange s c = some r → c.saved = true → c.ended = false → partRuns s c.part = true →
    (∀ e ∈ queued s c.part r.die, r.level < effLevel e.2 → couldPlace s e.1 e.2 = false) → firstRestorable s cid = true →
    pickRestore s cid c r = some cl → clusterAwake s cl = true →
    ∃ t, exec (.cohortRestore cid) s = .next t ∧ (tget t.cohorts cid).map (fun x => (x.saved, x.cluster)) = some (false, cl)
      ∧ (getCluster t cl).power = .active)
  ∧ (∀ s cid c r e, tget s.cohorts cid = some c → cohortRange s c = some r → e ∈ queued s c.part r.die → r.level < effLevel e.2 →
    couldPlace s e.1 e.2 = true → exec (.cohortRestore cid) s = .next s)
  ∧ (∀ s cid c r cl, pickRestore s cid c r = some cl →
    cl ∈ dieClusters r.die ∨ r.pinned = false ∧ microCycles 20 ≤ s.ctl.clock - c.outAt)
  ∧ (∀ s part p die d pl, tget s.parts part = some p → p.heldPlacements.find? (fun h => h.1 == die) = some (d, pl, none) →
    queueTakes s part die 1 = true →
    ∃ t p', exec (.heldRecordEntry part die) s = .next t ∧ tget t.parts part = some p' ∧ p'.heldPlacements = p.heldPlacements.erase (d, pl, none)
      ∧ SameMemory s t ∧ ∃ r, tget t.ranges s.ctl.nextId = some r ∧ r.part = part ∧ r.die = die ∧ r.launch = pl.launch ∧ r.queued = true)
  ∧ (∀ s part p die m, tget s.parts part = some p → p.portMessages.find? (fun x => x.die == die) = some m → queueTakes s part die 1 = true →
    m.part = part → ∃ t p', exec (.portBufferMessageEntry part die) s = .next t ∧ tget t.parts part = some p'
      ∧ p'.portMessages = p.portMessages.erase m)
  ∧ (∀ s id m p, tget s.messages id = some m → behindEarlier s m = false → m.peer = 0 → tget s.parts m.part = some p →
    (p.portMessages.any (fun x => x.die == m.die) = true ∨ queueTakes s m.part m.die 1 = false) →
    ∃ t p', exec (.messageArrival (.inFlight id)) s = .next t ∧ tget t.messages id = none ∧ tget t.parts m.part = some p'
      ∧ p'.portMessages = p.portMessages ++ [m] ∧ SameMemory s t)
  ∧ ∀ s m keys pl, translateRange s { part := m.part, cluster := m.die * 20, super := m.super } .store m.cont.frame 64 = .ok keys →
    checkCont m.cont m.super (fun a => deviceRead s { part := m.part, cluster := m.die * 20, super := m.super } a launchBytes) = .ok pl →
    keys.Nodup → m.payload.length = 64 →
    keys.map (fun k => newestByte (deliverMessage s m) k) = m.payload

/-- R253, R308, R328, R360, R361: after a quantum end, and after an idle one, every gang of the launch starts a quantum at 0, and what its loads
see is memory as the commit left it; a sleeping cluster that the next end places a cohort on is wanted; no end falls while a cluster of the
launch sleeps, is in hold-up or is without supply, which is the model's reading of R361 (log entry 26). -/
def Obligations.QuantumEnds : Prop :=
  (∀ s rid r s1, tget s.ranges rid = some r → quantumReady s rid r = true →
    runCopies (rankSort (fun id => ((tget s.copies id).map fun c => rankOf s c.gang * 2 ^ 64 + id).getD 0) ((rangeCopies s rid).map (·.1))) s = some s1 →
    lastSteps (quantumCommit s1 rid r) rid ≠ none →
    ∃ t, exec (.quantumEnd rid) s = .next t ∧ (∀ r', tget t.ranges rid = some r' → r'.qStart = t.mem.seq)
      ∧ ∀ e ∈ t.gangs, e.2.range = rid → e.2.qCount = 0 ∧ e.2.qEnded = false)
  ∧ (∀ s rid cl, cl ∈ detWants s rid → clusterRuns s cl = false → clusterWanted s cl = true)
  ∧ (∀ s rid e, e ∈ s.cohorts → e.2.range = rid → e.2.saved = false → e.2.ended = false →
    clusterAwake s e.2.cluster = false ∨ (getCluster s e.2.cluster).holdUp = true → exec (.quantumEnd rid) s = .next s)
  ∧ ∀ s rid r, tget s.ranges rid = some r → r.launch.det = true → r.queued = true → partRuns s r.part = true → rangeLive s rid = false →
    unplaced r ≠ [] → r.holds = [] → detFirst s rid r ≠ none → detBefore s rid r = false → lastSteps (enterHeld s r.part rid) rid ≠ none →
    ∃ t, exec (.idleQuantumEnd rid) s = .next t ∧ (∀ r', tget t.ranges rid = some r' → r'.qStart = t.mem.seq)
      ∧ ∀ e ∈ t.gangs, e.2.range = rid → e.2.qCount = 0 ∧ e.2.qEnded = false

/-! ### Power and the Cellar (R306 to R331) -/

/-- R306, R310, R311, R314, R319, R323 to R331: the power states of a cluster and the seals between them, a cluster that is wanted not going
down and waking in its turn; a supply failure seals with cause 7, once the results of the cluster have come, or its seal is torn; rails,
droops, samples, leases; a resume brings the gangs of the image back as they were at the seal.  That a seal from hold-up energy waits for
those results is the model's reading (log entry 31), and that a gang which the image holds parked is parked again its choice (log entry 63);
the operands of a power sample are what the model has the sensors tell (log entry 28), and that bubbles move once in a round of samples, and
not down while another die is hot, is its reading (log entry 64). -/
def Obligations.PowerAndCellar : Prop :=
  (∀ s cl, (getCluster s cl).power = .active → (getCluster s cl).holdUp = false → clusterIdle s cl = true →
    ∃ t, exec (.clockGate cl) s = .next t ∧ (getCluster t cl).power = .clockGated ∧ SameMemory s t ∧ t.gangs = s.gangs)
  ∧ (∀ s cl, (getCluster s cl).power = .clockGated → clusterIdle s cl = true → clusterWanted s cl = false → sealReady s cl = true →
    microCycles (retentionDelay s cl) ≤ s.ctl.clock - (getCluster s cl).since →
    ∃ t, exec (.retentionEntry cl) s = .next t ∧ (getCluster t cl).power = .retention
      ∧ (activeSlot (getCluster t cl)).header.cause = 6 ∧ SameMemory s t)
  ∧ (∀ s cl, (getCluster s cl).power = .retention → clusterWanted s cl = false → sealReady s cl = true → microCycles 1000 ≤ s.ctl.clock - (getCluster s cl).since →
    ∃ t, exec (.powerGating cl) s = .next t ∧ (getCluster t cl).power = .gated ∧ (activeSlot (getCluster t cl)).header.cause = 5)
  ∧ (∀ s cl, (getCluster s cl).power = .clockGated ∨ (getCluster s cl).power = .retention → clusterEmpty s cl = true → clusterIdle s cl = true →
    clusterWanted s cl = false → sealReady s cl = true → microCycles 1000 ≤ s.ctl.clock - (getCluster s cl).emptyAt →
    ∃ t, exec (.powerGating cl) s = .next t ∧ (getCluster t cl).power = .gated ∧ (activeSlot (getCluster t cl)).header.cause = 5)
  ∧ (∀ s cl, (getCluster s cl).power = .clockGated → s.ctl.clock - (getCluster s cl).emptyAt < microCycles 1000 →
    exec (.powerGating cl) s = .next s)
  ∧ (∀ s cl g a b, wakeTurn s cl = true → ∃ t, exec (.clusterWake cl g a b) s = .next t ∧ (getCluster t cl).power = .active)
  ∧ (∀ s cl g a b, wakeTurn s cl = false → exec (.clusterWake cl g a b) s = .next s)
  ∧ (∀ s cl torn, ∃ t, exec (.supplyFailure cl torn) s = .next t ∧ SameMemory s t
      ∧ ((getCluster s cl).power = .gated ∨ torn = true ∨ sealReady s cl = true →
          (getCluster t cl).power = .gated ∧ (getCluster t cl).failed = true ∧ (getCluster t cl).holdUp = false)
      ∧ ((getCluster s cl).power ≠ .gated → torn = false → sealReady s cl = false → t.gangs = s.gangs
          ∧ (getCluster t cl).holdUp = true ∧ clusterRuns t cl = false
          ∧ (getCluster t cl).slotA = (getCluster s cl).slotA ∧ (getCluster t cl).slotB = (getCluster s cl).slotB)
      ∧ ((getCluster s cl).power ≠ .gated → torn = false → sealReady s cl = true → (activeSlot (getCluster t cl)).header.cause = 7
          ∧ (activeSlot (getCluster t cl)).header.generation = (activeSlot (getCluster s cl)).header.generation + 1
          ∧ (activeSlot (getCluster t cl)).image ≠ none)
      ∧ ((getCluster s cl).power ≠ .gated → torn = true → activeSlot (getCluster t cl) = activeSlot (getCluster s cl)
          ∧ slotValid (if (getCluster s cl).activeB then (getCluster t cl).slotA else (getCluster t cl).slotB) false = false))
  ∧ (∀ s cl, (getCluster s cl).holdUp = true → sealReady s cl = true → (getCluster (finishHoldUp s cl) cl).power = .gated
      ∧ (getCluster (finishHoldUp s cl) cl).failed = true ∧ (activeSlot (getCluster (finishHoldUp s cl) cl)).header.cause = 7)
  ∧ (∀ s cl a b l, clusterAwake s cl = true ∨ wakeTurn s cl = true →
      ∃ t, exec (.cellarResume cl a b l) s = .next t ∧ (getCluster t cl).power = .active)
  ∧ (∀ s cl a b l, clusterAwake s cl = false → wakeTurn s cl = false → exec (.cellarResume cl a b l) s = .next s)
  ∧ (∀ s cl im, slotValid (getCluster s cl).slotA false = true → slotValid (getCluster s cl).slotB false = false →
    (getCluster s cl).slotA.image = some im → (im.gangs.map (·.1)).Nodup →
    ∀ e ∈ im.gangs, e.2.region = none → e.2.cohort ∈ imageCohorts s cl im →
      (tget (resumeCluster s cl false false false false).gangs e.1).map (fun x => { x with replay := none }) = some { e.2 with replay := none })
  ∧ (∀ s cl, (getCluster s cl).pass < 4 → ∃ t, exec (.supplyDroop cl) s = .next t ∧ (getCluster t cl).pass = 2 * (getCluster s cl).pass
      ∧ SameMemory s t)
  ∧ (∀ s cl, stepUnderWay (getCluster s cl) = true → ∃ t, exec (.railSettled cl) s = .next t ∧ SameMemory s t
      ∧ getCluster t cl = settleStep (getCluster s cl))
  ∧ (∀ c, (settleStep c).mv = c.targetMv ∧ (c.next = none → wantedMhz c = c.targetMhz → neededMv c.targetMhz c.ratio ≤ c.targetMv →
      (settleStep c).mhz = c.targetMhz))
  ∧ (∀ c mhz, stepUnderWay c = false → c.mhz < mhz → c.mv < pointMv c mhz →
      aimClock c mhz = { c with targetMhz := mhz, targetMv := pointMv c mhz })
  ∧ (∀ c mhz, stepUnderWay c = false → mhz ≤ c.mhz → aimClock c mhz = { c with mhz := mhz, targetMhz := mhz, targetMv := pointMv c mhz })
  ∧ (∀ c mhz mv, stepUnderWay c = true → requestPoint c mhz mv = { c with next := some (mhz, mv) })
  ∧ (∀ s die samples draws hot, ∃ t, exec (.powerSample die samples draws hot) s = .next t ∧ SameMemory s t ∧ t.gangs = s.gangs
      ∧ ((∀ w ∈ s.dev.windows, 16 ≤ w ∧ w ≤ 64) → ∀ w ∈ t.dev.windows, 16 ≤ w ∧ w ≤ 64)
      ∧ (s.dev.bubbles ≤ 48 → t.dev.bubbles ≤ 48)
      ∧ (hot = true → s.dev.moved = none → t.dev.bubbles = min 48 (s.dev.bubbles + 4))
      ∧ (s.dev.bubbles ≤ 48 → (∃ d ∈ s.dev.hot, d ≠ die) → s.dev.bubbles ≤ t.dev.bubbles)
      ∧ ∀ p ∈ (dieClusters die).zip samples, (getCluster t p.1).issue = [0, 0, 0, 0] ∧ (getCluster t p.1).current = p.2.current)
  ∧ (∀ s x, s.dev.leaseEnd = some x → x ≤ s.ctl.clock → ∃ t, exec .leaseExpiry s = .next t ∧ t.dev.budget = 1800 ∧ t.dev.leaseEnd = none)
  ∧ ∀ s seq w ms, commandDue s .host 11 0 = true → 0 < ms → ms ≤ 60000 →
    ∃ t, exec (.budgetToken seq w ms) s = .next t ∧ HostCompletes s t (if seq ≤ s.dev.leaseSeq then 2 else 0)
      ∧ (s.dev.leaseSeq < seq → t.dev.budget = max 1000 (min 3600 w) ∧ t.dev.leaseSeq = seq
          ∧ t.dev.leaseEnd = some (s.ctl.clock + ms * 1650000))

/-! ### Links, the host, management (R213, R315, R333 to R353) -/

/-- R213, R315, R316, R333 to R339: links fail, retrain and go down; a remote access is accepted or leaves nothing; replicas.  That each
flitCrcFailure counts as one more failure in a row is the model's choice (log entry 41). -/
def Obligations.FabricAndReplicas : Prop :=
  (∀ s l k, linkOf s l = some k → k.up = true → k.retraining = false →
    ∃ t, exec (.flitCrcFailure l) s = .next t ∧ linkOf t l = some { k with failed := k.failed + 1, retraining := decide (8 ≤ k.failed + 1) }
      ∧ SameMemory s t)
  ∧ (∀ s l k, linkOf s l = some k → k.retraining = true →
    (∃ t, exec (.linkRetrained l) s = .next t ∧ linkOf t l = some { k with failed := 0, retraining := false })
    ∧ ∃ t, exec (.linkDown l) s = .next t ∧ linkOf t l = some { k with up := false, retraining := false } ∧ t.mem.bytes = s.mem.bytes)
  ∧ (∀ s port peer k, linkOf s (.fabric port) = some k → ∃ t, exec (.linkTraining port peer) s = .next t
      ∧ (linkOf t (.fabric port)).map (fun x => (x.up, x.peer)) = some (true, padTo 16 peer))
  ∧ (∀ s port sp part va bs keys, acceptRemote s port sp part va bs.length true = some keys → keys.Nodup → keys.length = bs.length →
    ∃ t, exec (.remoteAccess port sp part va 0 (some bs)) s = .next t ∧ t.dev.remoteStatus = 0
      ∧ keys.map (fun k => newestByte t k) = bs ∧ ∀ k, k ∉ keys → newestByte t k = newestByte s k)
  ∧ (∀ s port sp part va n keys, acceptRemote s port sp part va n false = some keys →
    ∃ t, exec (.remoteAccess port sp part va n none) s = .next t ∧ t.dev.remoteStatus = 0 ∧ t.dev.remoteData = keys.map (hostByte s)
      ∧ SameMemory s t)
  ∧ (∀ s port sp part va n d, acceptRemote s port sp part va (match d with | some bs => bs.length | none => n) d.isSome = none →
    ∃ t, exec (.remoteAccess port sp part va n d) s = .next t ∧ t.dev.remoteStatus = 1 ∧ SameMemory s t)
  ∧ (∀ s part p r step dg, tget s.parts part = some p → p.replica = some r → r.peer ≠ 0 → p.stepWait = none →
    (∀ l, p.lastStep = some l → l.toNat < step.toNat) →
    ∃ t p', exec (.replicaDigestArrival part step dg) s = .next t ∧ tget t.parts part = some p'
      ∧ p'.peerDigests = p.peerDigests ++ [(step, padTo 32 dg)] ∧ SameMemory s t)
  ∧ ∀ s part p w r, tget s.parts part = some p → p.stepWait = some w → p.replica = some r → partRuns s part = true →
    microCycles r.timeoutUs ≤ s.ctl.clock - w.since →
    ∃ t p', exec (.replicaTimeout part) s = .next t ∧ tget t.parts part = some p' ∧ p'.state = .halted ∧ p'.haltCause = 4
      ∧ t.mem.bytes = s.mem.bytes

/-- R340, R341, R351: boot, registers, the host's accesses to partition memory. -/
def Obligations.BootAndHostAccess : Prop :=
  (∀ s, s.dev.bootState = 0 → (∃ t, exec (.boot .good) s = .next t ∧ t.dev.bootState = 1 ∧ t.dev.bootError = 0 ∧ SameMemory s t)
    ∧ ∃ t, exec (.boot .signature) s = .next t ∧ t.dev.bootState = 2 ∧ t.dev.bootError = 3)
  ∧ (∀ s v, s.dev.bootState = 1 → ∃ t, exec (.managementRegisterWrite 0x20 v) s = .next t ∧ t.dev.ringProduced = v ∧ readRegister t 0x20 = v
    ∧ (∀ o, o ≠ 0x20 → readRegister t o = readRegister s o) ∧ SameMemory s t)
  ∧ (∀ s v, s.dev.bootState = 1 → s.dev.ringProduced = s.dev.ringDone → v.toNat % 4096 = 0 →
    ∃ t, exec (.managementRegisterWrite 0x10 v) s = .next t ∧ t.dev.ringBase = v ∧ t.dev.ringEntries = s.dev.ringEntries
      ∧ readRegister t 0x10 = v ∧ ∀ o, o ≠ 0x10 → readRegister t o = readRegister s o)
  ∧ (∀ s v, s.dev.bootState = 2 → ∃ t, exec (.managementRegisterWrite 0x20 v) s = .next t ∧ t = s)
  ∧ (∀ s part pa bs, hostStatus s part pa bs.length = 0 → ∃ t, exec (.hostMemoryWrite part pa bs) s = .next t ∧ t.dev.hostStatus = 0
    ∧ memBytes t (physKey part pa) bs.length = bs ∧ (∀ k, (k < physKey part pa ∨ physKey part pa + bs.length ≤ k) → newestByte t k = newestByte s k)
    ∧ ∀ i, i < bs.length → hostByte t (physKey part pa + i) = newestByte t (physKey part pa + i))
  ∧ (∀ s part pa n, hostStatus s part pa n = 0 → ∃ t, exec (.hostMemoryRead part pa n) s = .next t ∧ t.dev.hostStatus = 0
    ∧ t.dev.hostData = (List.range n).map (fun i => hostByte s (physKey part pa + i)) ∧ SameMemory s t)
  ∧ ∀ s part pa n bs, hostStatus s part pa n ≠ 0 → (∃ t, exec (.hostMemoryRead part pa n) s = .next t ∧ t.dev.hostStatus = hostStatus s part pa n
      ∧ SameMemory s t)
    ∧ (bs.length = n → ∃ t, exec (.hostMemoryWrite part pa bs) s = .next t ∧ t.dev.hostStatus = hostStatus s part pa n ∧ SameMemory s t)

/-- R276, R321, R336, R342 to R347, R350, R352: the host's commands: each is completed with its status, and has its effect.  The operands that
a command's event carries are what the model has the host write into the ring's entry (log entry 18); the defaults that configure takes for
a size of 0, and the packing of a status word, rest on log entry 29; the order in which operands are hashed on log entry 27; the layout of the
telemetry buffer is open (log entry 19). -/
def Obligations.Commands : Prop :=
  (∀ s part mask carve period base n dies, commandDue s .host 1 part = true → dieGroup mask = some dies → (∀ c ∈ carve, c ≤ 149) →
    period ≤ 100 → part ≤ 255 → tget s.parts part = none → (∀ e ∈ s.parts, ∀ d ∈ e.2.dies, d ∉ dies) →
    ∃ t p, exec (.create part mask carve period base n) s = .next t ∧ HostCompletes s t 0 ∧ tget t.parts part = some p ∧ p.dies = dies
      ∧ p.state = .unconfigured ∧ (∀ a, a < 2 ^ 52 → newestByte t (physKey part a) = 0)
      ∧ ∀ q, q ≠ part → tget t.parts q = tget s.parts q)
  ∧ (∀ s part p ops, commandDue s .host 2 part = true → tget s.parts part = some p → p.state = .unconfigured → configureOk p ops = true →
    ∃ t p', exec (.configure part ops) s = .next t ∧ HostCompletes s t 0 ∧ tget t.parts part = some p' ∧ p'.state = .ready
      ∧ p'.root = ops.root ∧ p'.queueRecords = (if ops.queueRecords = 0 then 65536 else ops.queueRecords) ∧ p'.faultEntries = (if ops.faultEntries = 0 then 1024 else ops.faultEntries) ∧ p'.dies = p.dies
      ∧ p'.opDigest = sha256 (p.createOps ++ configureBytes ops))
  ∧ (∀ s part p ops, commandDue s .host 2 part = true → tget s.parts part = some p → p.state ≠ .unconfigured →
    ∃ t, exec (.configure part ops) s = .next t ∧ HostCompletes s t 0x200 ∧ t.parts = s.parts)
  ∧ (∀ s part p, commandDue s .host 7 part = true → tget s.parts part = some p → p.state = .halted → p.haltDue = false → p.stepWait = none →
    ∃ t, exec (.resume part) s = .next t ∧ HostCompletes s t 0 ∧ tget t.parts part = some { p with state := .running, haltCause := 0 }
      ∧ t.gangs = s.gangs)
  ∧ (∀ s part p n bs, commandDue s .host 8 part = true → tget s.parts part = some p → stConfigured p.state = true →
    routeOk p n bs (parseRoute bs) = true → (∀ e ∈ s.messages, e.2.part ≠ part ∨ e.2.peer ≠ n) →
    ∃ t p', exec (.setRoute part n bs) s = .next t ∧ HostCompletes s t 0 ∧ tget t.parts part = some p'
      ∧ tget p'.routes n = some (parseRoute bs) ∧ ∀ m, m ≠ n → tget p'.routes m = tget p.routes m)
  ∧ (∀ s part p peer r us, commandDue s .host 9 part = true → tget s.parts part = some p → stConfigured p.state = true →
    peer < 255 → r ≤ 255 → 1000 ≤ us → us ≤ 10000000 →
    ∃ t, exec (.setReplica part peer r us) s = .next t ∧ HostCompletes s t 0
      ∧ tget t.parts part = some { p with replica := some { peer := peer, part := r, timeoutUs := us } })
  ∧ (∀ s part p va len inv, commandDue s .host 4 part = true → tget s.parts part = some p → stConfigured p.state = true →
    va.toNat % 65536 = 0 → len.toNat % 65536 = 0 → invalidateWaits s part (va.toNat % 2 ^ 57) len.toNat = false →
    ∃ t, exec (.map .host part va len inv) s = .next t ∧ HostCompletes s t 0 ∧ t.gangs = s.gangs
      ∧ (inv = true → ∀ c ∈ t.clusters, ∀ e ∈ c.2.tlb, tlbMeets part (va.toNat % 2 ^ 57) len.toNat e = false))
  ∧ (∀ s part p root, commandDue s .host 5 part = true → tget s.parts part = some p → stConfigured p.state = true →
    root % 4096 = 0 → inWindow p root 4096 = true → invalidateWaits s part 0 (2 ^ 57) = false →
    ∃ t p', exec (.setRoot .host part root) s = .next t ∧ HostCompletes s t 0 ∧ tget t.parts part = some p' ∧ p'.root = root)
  ∧ (∀ s part p rec' die d pl, commandDue s .host 3 part = true → tget s.parts part = some p → stLive p.state = true →
    p.dies[die]? = some d → inWindow p rec'.toNat 32 = true → rec'.toNat % 32 = 0 →
    checkCont (parseCont (memBytes s (physKey part rec'.toNat) 32)) false
      (fun a => deviceRead s { part := part, cluster := d * 20, super := false } a launchBytes) = .ok pl →
    pl.cont.join = 0 → queueTakes s part d 1 = true →
    ∃ t r, exec (.place .host part rec' die false) s = .next t ∧ HostCompletes s t 0 ∧ tget t.ranges s.ctl.nextId = some r
      ∧ r.part = part ∧ r.die = d ∧ r.launch = pl.launch ∧ r.frame = pl.cont.frame ∧ r.super = pl.super ∧ r.queued = true)
  ∧ (∀ s part mask mhz ratio mv, commandDue s .host 10 part = true → mv ≤ 900 → ratio ≤ 3 →
    operatingStatus s (fun _ => true) (maskClusters mask) mhz ratio mv ≠ 0 →
    ∃ t, exec (.operatingPoint .host part mask mhz ratio mv) s = .next t
      ∧ HostCompletes s t (operatingStatus s (fun _ => true) (maskClusters mask) mhz ratio mv) ∧ t.clusters = s.clusters)
  ∧ (∀ s part mask mhz mv, commandDue s .host 10 part = true → mv ≤ 900 →
    operatingStatus s (fun _ => true) (maskClusters mask) mhz 3 mv = 0 →
    ∃ t, exec (.operatingPoint .host part mask mhz 3 mv) s = .next t ∧ HostCompletes s t 0
      ∧ ∀ cl ∈ maskClusters mask, (getCluster t cl).ratio = (getCluster s cl).ratio
        ∧ (if stepUnderWay (getCluster s cl) = true then (getCluster t cl).next = some (mhz, mv)
            else (getCluster t cl).ceilingMhz = mhz ∧ (getCluster t cl).ceilingMv = mv))
  ∧ (∀ s addr, commandDue s .host 12 0 = true → ∃ t, exec (.readTelemetry addr) s = .next t ∧ HostCompletes s t 0 ∧ t.mem.bytes = s.mem.bytes
      ∧ (telemetryBytes s).length = 4096
      ∧ (addr + 4096 ≤ hostEntry s ∨ hostEntry s + 5 ≤ addr → t.mem.host.readN addr 4096 = telemetryBytes s))
  ∧ (∀ s part p nonce addr, commandDue s .host 13 part = true → tget s.parts part = some p → p.state ≠ .free →
    (addr.toNat + 8112 ≤ hostEntry s ∨ hostEntry s + 5 ≤ addr.toNat) →
    ∃ t, exec (.attest .host part nonce addr) s = .next t ∧ HostCompletes s t 0
      ∧ (tget t.parts part).map (·.linkBytes) = some (p.linkBytes + 8112)
      ∧ t.mem.host.readN addr.toNat 8112 = signedReport s part p nonce ∧ t.mem.bytes = s.mem.bytes)
  ∧ (∀ s part p, commandDue s .host 14 part = true → tget s.parts part = some p → p.state ≠ .free → 8 ≤ p.usageWaiting.length →
    p.usageEntries ≠ 0 → exec (.destroy part) s = .next s)
  ∧ ∀ s part p, commandDue s .host 14 part = true → tget s.parts part = some p → p.state ≠ .free →
    (p.usageWaiting.length < 8 ∨ p.usageEntries = 0) →
    ∃ t, exec (.destroy part) s = .next t ∧ HostCompletes s t 0 ∧ tget t.parts part = none
      ∧ (∀ e ∈ t.gangs, e.2.part ≠ part) ∧ ∀ a, a < 2 ^ 52 → newestByte t (physKey part a) = 0

/-- R348 to R350, R353: a usage record closes its interval and starts the next, or, with 8 waiting, the interval goes on; waiting records and
events are written in their order as entries are free.  Where no entry is free, the event of the post stands for the host's having consumed
one, which is the model's choice (log entry 18). -/
def Obligations.UsageAndEvents : Prop :=
  (∀ s part p, tget s.parts part = some p → p.usageStart + p.usagePeriod * 100000000 ≤ deviceNs s →
    (8 ≤ p.usageWaiting.length → p.backlog = false → ∃ t, exec (.usagePeriodEnd part) s = .next t
        ∧ tget t.parts part = some { p with backlog := true } ∧ t.dev = s.dev ∧ SameMemory s t)
    ∧ (p.usageWaiting.length < 8 →
      ∃ t p', exec (.usagePeriodEnd part) s = .next t ∧ tget t.parts part = some p' ∧ p'.usageSeq = p.usageSeq + 1
        ∧ p'.usageStart = deviceNs s ∧ p'.peakWatts = 0 ∧ p'.retired = p.retired ∧ p'.usageHash = sha256 (usageRecord p part false (deviceNs s))
        ∧ p'.usagePosted + p'.usageWaiting.length = p.usagePosted + p.usageWaiting.length + 1 ∧ t.mem.bytes = s.mem.bytes))
  ∧ (∀ s part p e rest, tget s.parts part = some p → p.usageWaiting = e :: rest → p.usageEntries ≠ 0 →
    ∃ t p', exec (.heldUsageRecordPost part) s = .next t ∧ tget t.parts part = some p' ∧ p'.usageWaiting = rest
      ∧ p'.usagePosted = p.usagePosted + 1 ∧ t.mem.bytes = s.mem.bytes)
  ∧ (∀ s bs rest, s.dev.eventWaiting = bs :: rest → s.dev.eventEntries ≠ 0 →
    ∃ t, exec .heldEventPost s = .next t ∧ t.dev.eventWaiting = rest ∧ t.dev.eventPosted = s.dev.eventPosted + 1 ∧ t.mem.bytes = s.mem.bytes)
  ∧ ∀ code part ns fields, (eventBytes code part ns fields).length = 128
end

