-- ==== Sys2Proof/Laws/Cells.lean ====
section
/-! SUPPORT. Tables, register files and byte memory: a read after a write, other places left alone, and the canonical form kept
by every operation of memory. -/

namespace Sys2Proof.Machine

/-! ### Tables -/

theorem tget_dropKey {α : Type} (k j : Nat) (t : Tab α) : tget (dropKey k t) j = if j = k then none else tget t j := by
  induction t with
  | nil => simp [dropKey, tget]
  | cons e r ih =>
    simp only [dropKey, List.filter_cons] at ih ⊢
    by_cases h : e.1 = k
    · subst h
      simp only [bne_self_eq_false, Bool.false_eq_true, if_false, ih, tget]
      by_cases hj : j = e.1
      · simp [hj]
      · simp [hj, Ne.symm hj]
    · simp only [bne_iff_ne, ne_eq, h, not_false_eq_true, if_true, tget, ih]
      by_cases hj : e.1 = j
      · subst hj; simp [h]
      · simp [hj]

theorem tget_putSorted_self {α : Type} (k : Nat) (x : α) (t : Tab α) (h : tget t k = none) :
    tget (putSorted k x t) k = some x := by
  induction t with
  | nil => simp [putSorted, tget]
  | cons e r ih =>
    unfold putSorted
    split
    · simp [tget]
    · have he : e.1 ≠ k := by intro he; simp [tget, he] at h
      simp only [tget, he, if_false] at h ⊢
      exact ih h

theorem tget_putSorted_ne {α : Type} (k j : Nat) (x : α) (t : Tab α) (h : j ≠ k) :
    tget (putSorted k x t) j = tget t j := by
  induction t with
  | nil => simp [putSorted, tget, Ne.symm h]
  | cons e r ih =>
    unfold putSorted
    split
    · simp [tget, Ne.symm h]
    · simp only [tget, ih]

/-- A table after a key has been set. -/
theorem tget_tset {α : Type} (t : Tab α) (k j : Nat) (x : α) : tget (tset t k x) j = if j = k then some x else tget t j := by
  unfold tset
  by_cases h : j = k
  · subst h; simp only [if_true]; exact tget_putSorted_self _ _ _ (by simp [tget_dropKey])
  · rw [tget_putSorted_ne _ _ _ _ h, tget_dropKey]; simp [h]

@[simp] theorem tget_tset_self {α : Type} (t : Tab α) (k : Nat) (x : α) : tget (tset t k x) k = some x := by simp [tget_tset]

theorem tget_tset_ne {α : Type} (t : Tab α) (k j : Nat) (x : α) (h : j ≠ k) : tget (tset t k x) j = tget t j := by
  simp [tget_tset, h]

/-- A table after a key has been dropped. -/
theorem tget_tdrop {α : Type} (t : Tab α) (k j : Nat) : tget (tdrop t k) j = if j = k then none else tget t j :=
  tget_dropKey k j t

/-- A table after the value at a key has been changed. -/
theorem tget_tmod {α : Type} (t : Tab α) (k j : Nat) (f : α → α) :
    tget (tmod t k f) j = if j = k then (tget t j).map f else tget t j := by
  induction t with
  | nil => simp [tmod, tget]
  | cons e r ih =>
    simp only [tmod, List.map_cons] at ih ⊢
    by_cases h : e.1 = k
    · simp only [h, if_true, tget]
      by_cases hj : k = j
      · subst hj; simp
      · simp only [hj, if_false, ih, Ne.symm hj]
    · simp only [h, if_false, tget]
      by_cases hj : e.1 = j
      · subst hj; simp [h]
      · simp only [hj, if_false, ih]

@[simp] theorem tget_tmod_self {α : Type} (t : Tab α) (k : Nat) (f : α → α) : tget (tmod t k f) k = (tget t k).map f := by
  simp [tget_tmod]

theorem tget_tmod_ne {α : Type} (t : Tab α) (k j : Nat) (f : α → α) (h : j ≠ k) : tget (tmod t k f) j = tget t j := by
  simp [tget_tmod, h]

/-- A table after every value has been changed. -/
theorem tget_map {α : Type} (t : Tab α) (f : Nat → α → α) (j : Nat) :
    tget (t.map fun e => (e.1, f e.1 e.2)) j = (tget t j).map (f j) := by
  induction t with
  | nil => simp [tget]
  | cons e r ih =>
    simp only [List.map_cons, tget, ih]
    by_cases h : e.1 = j
    · subst h; simp
    · simp [h]

theorem tget_filter {α : Type} (t : Tab α) (p : Nat × α → Bool) (j : Nat) (h : ∀ e ∈ t, e.1 = j → p e = true) :
    tget (t.filter p) j = tget t j := by
  induction t with
  | nil => rfl
  | cons e r ih =>
    have hr := ih fun x hx => h x (List.mem_cons_of_mem _ hx)
    by_cases hj : e.1 = j
    · simp [h e (by simp) hj, tget, hj]
    · by_cases hp : p e = true
      · simp [hp, tget, hj, hr]
      · simp [hp, tget, hj, hr]

theorem mem_putSorted {α : Type} (k : Nat) (x : α) (t : Tab α) (e : Nat × α) : e ∈ putSorted k x t → e = (k, x) ∨ e ∈ t := by
  induction t with
  | nil => simp [putSorted]
  | cons a r ih =>
    unfold putSorted
    split
    · simp
    · intro h
      rcases List.mem_cons.mp h with h | h
      · right; simp [h]
      · rcases ih h with h | h
        · exact .inl h
        · right; simp [h]

/-- What a set table holds. -/
theorem mem_tset {α : Type} (t : Tab α) (k : Nat) (x : α) (e : Nat × α) : e ∈ tset t k x → e = (k, x) ∨ e ∈ t := by
  intro h
  rcases mem_putSorted _ _ _ _ h with h | h
  · exact .inl h
  · exact .inr ((List.mem_filter.mp h).1)

/-- What a listed value is listed under. -/
theorem mem_of_tget {α : Type} {t : Tab α} {k : Nat} {x : α} (h : tget t k = some x) : (k, x) ∈ t := by
  induction t with
  | nil => simp [tget] at h
  | cons e r ih =>
    unfold tget at h
    split at h
    · rename_i he
      cases h; subst he; simp
    · exact List.mem_cons_of_mem _ (ih h)

/-! ### Register files -/

/-- A register file after one register has been written. -/
theorem cget_cset {w : Nat} (c : Cells w) (k j : Nat) (x : BitVec w) : cget (cset c k x) j = if j = k then x else cget c j := by
  unfold cget cset
  by_cases hx : x = 0
  · subst hx
    simp only [if_true, tget_dropKey]
    by_cases h : j = k <;> simp [h]
  · simp only [hx, if_false]
    have := tget_tset c k j x
    unfold tset at this
    rw [this]
    by_cases h : j = k <;> simp [h]

@[simp] theorem cget_cset_self {w : Nat} (c : Cells w) (k : Nat) (x : BitVec w) : cget (cset c k x) k = x := by simp [cget_cset]

theorem cget_cset_ne {w : Nat} (c : Cells w) (k j : Nat) (x : BitVec w) (h : j ≠ k) : cget (cset c k x) j = cget c j := by
  simp [cget_cset, h]

/-- A register that no write names keeps its value. -/
theorem cget_csets_ne {w : Nat} (ws : List (Nat × BitVec w)) (c : Cells w) (j : Nat) (h : ∀ e ∈ ws, e.1 ≠ j) :
    cget (csets c ws) j = cget c j := by
  induction ws generalizing c with
  | nil => rfl
  | cons e r ih =>
    simp only [csets, List.foldl_cons] at ih ⊢
    rw [ih _ (fun e he => h e (List.mem_cons_of_mem _ he)), cget_cset_ne _ _ _ _ (Ne.symm (h e (by simp)))]

/-- A register that several writes name, all with one value, has that value. -/
theorem cget_csets_mem {w : Nat} (ws : List (Nat × BitVec w)) (c : Cells w) (j : Nat) (x : BitVec w) (h : (j, x) ∈ ws)
    (all : ∀ e ∈ ws, e.1 = j → e.2 = x) : cget (csets c ws) j = x := by
  induction ws generalizing c with
  | nil => simp at h
  | cons e r ih =>
    simp only [csets, List.foldl_cons] at ih ⊢
    by_cases hr : (j, x) ∈ r
    · exact ih _ hr fun a ha => all a (List.mem_cons_of_mem _ ha)
    · have he : (j, x) = e := by simpa [hr] using h
      subst he
      have hn : ∀ a ∈ r, a.1 ≠ j := by
        intro a ha hj
        have hx := all a (List.mem_cons_of_mem _ ha) hj
        exact hr (by obtain ⟨a1, a2⟩ := a; simp only at hj hx; subst hj; subst hx; exact ha)
      have := cget_csets_ne r (cset c j x) j hn
      simp only [csets] at this
      rw [this, cget_cset_self]

/-! ### The canonical form -/

theorem risingFrom_le {α : Type} {lo lo' : Nat} (t : Tab α) (h : risingFrom lo t = true) (hl : lo' ≤ lo) :
    risingFrom lo' t = true := by
  cases t with
  | nil => rfl
  | cons e r =>
    simp only [risingFrom, Bool.and_eq_true, decide_eq_true_eq] at h ⊢
    exact ⟨by omega, h.2⟩

/-- The keys of a rising table are no lower than its bound. -/
theorem risingFrom_key {α : Type} {lo k : Nat} {x : α} (t : Tab α) (h : risingFrom lo t = true) (hx : tget t k = some x) : lo ≤ k := by
  induction t generalizing lo with
  | nil => simp [tget] at hx
  | cons e r ih =>
    simp only [risingFrom, Bool.and_eq_true, decide_eq_true_eq] at h
    by_cases he : e.1 = k
    · exact he ▸ h.1
    · have := ih h.2 (by simpa [tget, he] using hx)
      omega

/-- A key below a rising table's bound is put at its head. -/
theorem putSorted_dropKey_low {α : Type} (k : Nat) (x : α) (t : Tab α) (h : risingFrom (k + 1) t = true) :
    putSorted k x (dropKey k t) = (k, x) :: t := by
  have hd : dropKey k t = t := by
    refine List.filter_eq_self.mpr fun e he => ?_
    have : ∀ (lo : Nat) (u : Tab α), risingFrom lo u = true → e ∈ u → lo ≤ e.1 := fun lo u => by
      induction u generalizing lo with
      | nil => simp
      | cons y r ih =>
        intro hr hm
        simp only [risingFrom, Bool.and_eq_true, decide_eq_true_eq] at hr
        rcases List.mem_cons.mp hm with rfl | hm
        · exact hr.1
        · have := ih _ hr.2 hm; omega
    have := this _ _ h he
    simp only [bne_iff_ne, ne_eq]
    omega
  rw [hd]
  cases t with
  | nil => rfl
  | cons e r =>
    simp only [risingFrom, Bool.and_eq_true, decide_eq_true_eq] at h
    simp only [putSorted, show k < e.1 by omega, if_true]

/-- A key set to what it holds leaves a rising table as it is. -/
theorem tset_self {α : Type} (t : Tab α) (k : Nat) (x : α) (h : risingFrom 0 t = true) (hx : tget t k = some x) : tset t k x = t := by
  unfold tset
  generalize hlo : 0 = lo at h
  clear hlo
  induction t generalizing lo with
  | nil => simp [tget] at hx
  | cons e r ih =>
    simp only [risingFrom, Bool.and_eq_true, decide_eq_true_eq] at h
    by_cases he : e.1 = k
    · subst he
      have hx' : e.2 = x := by simpa [tget] using hx
      subst hx'
      have hd : dropKey e.1 (e :: r) = dropKey e.1 r := by simp [dropKey]
      rw [hd, putSorted_dropKey_low _ _ _ h.2]
    · have hr : tget r k = some x := by simpa [tget, he] using hx
      have hk := risingFrom_key r h.2 hr
      have hd : dropKey k (e :: r) = e :: dropKey k r := by simp [dropKey, he]
      rw [hd]
      simp only [putSorted, show ¬k < e.1 by omega, if_false]
      rw [ih hr _ h.2]

theorem risingFrom_filter {α : Type} (p : Nat × α → Bool) (t : Tab α) (lo : Nat) (h : risingFrom lo t = true) :
    risingFrom lo (t.filter p) = true := by
  induction t generalizing lo with
  | nil => rfl
  | cons e r ih =>
    simp only [risingFrom, Bool.and_eq_true, decide_eq_true_eq] at h
    by_cases he : p e = true
    · simp only [List.filter_cons, he, if_true, risingFrom, Bool.and_eq_true, decide_eq_true_eq]
      exact ⟨h.1, ih _ h.2⟩
    · simp only [List.filter_cons, he]
      exact ih _ (risingFrom_le r h.2 (by omega))

theorem risingFrom_putSorted {α : Type} (k : Nat) (x : α) (t : Tab α) (lo : Nat) (h : risingFrom lo t = true)
    (hn : tget t k = none) (hl : lo ≤ k) : risingFrom lo (putSorted k x t) = true := by
  induction t generalizing lo with
  | nil => simp [putSorted, risingFrom, hl]
  | cons e r ih =>
    simp only [risingFrom, Bool.and_eq_true, decide_eq_true_eq] at h
    have he : e.1 ≠ k := by intro he; simp [tget, he] at hn
    have hn' : tget r k = none := by simpa [tget, he] using hn
    unfold putSorted
    split
    · rename_i hk
      simp only [risingFrom, Bool.and_eq_true, decide_eq_true_eq]
      exact ⟨hl, by omega, h.2⟩
    · rename_i hk
      simp only [risingFrom, Bool.and_eq_true, decide_eq_true_eq]
      exact ⟨h.1, ih _ h.2 hn' (by omega)⟩

theorem risingFrom_tmod {α : Type} (t : Tab α) (k lo : Nat) (f : α → α) : risingFrom lo (tmod t k f) = risingFrom lo t := by
  induction t generalizing lo with
  | nil => rfl
  | cons e r ih =>
    simp only [tmod] at ih
    simp only [tmod, List.map_cons, risingFrom, ih]
    split <;> rfl

/-- What a change at a key leaves of a table without the key. -/
theorem dropKey_tmod {α : Type} (t : Tab α) (k : Nat) (f : α → α) : dropKey k (tmod t k f) = dropKey k t := by
  induction t with
  | nil => rfl
  | cons e r ih =>
    simp only [dropKey, tmod] at ih
    simp only [dropKey, tmod, List.map_cons, List.filter_cons, ih]
    by_cases hk : e.1 = k <;> simp [hk]

theorem dropKey_tset {α : Type} (t : Tab α) (k : Nat) (x : α) : dropKey k (tset t k x) = dropKey k t := by
  have h : ∀ u : Tab α, dropKey k (putSorted k x u) = dropKey k u := fun u => by
    induction u with
    | nil => simp [putSorted, dropKey]
    | cons e r ih =>
      unfold putSorted
      split
      · simp [dropKey]
      · simp only [dropKey, List.filter_cons] at ih ⊢; rw [ih]
  rw [tset, h]
  simp [dropKey, List.filter_filter]

/-- A rising table stays rising when a key is set. -/
theorem risingFrom_tset {α : Type} (t : Tab α) (k : Nat) (x : α) (h : risingFrom 0 t = true) : risingFrom 0 (tset t k x) = true :=
  risingFrom_putSorted _ _ _ _ (risingFrom_filter _ _ _ h) (by simp [tget_dropKey]) (Nat.zero_le _)

theorem all_filter {α : Type} (p q : α → Bool) (t : List α) (h : t.all p = true) : (t.filter q).all p = true := by
  rw [List.all_eq_true] at h ⊢
  exact fun e he => h e ((List.mem_filter.mp he).1)

theorem all_putSorted {α : Type} (p : Nat × α → Bool) (k : Nat) (x : α) (t : Tab α) (h : t.all p = true) (hx : p (k, x) = true) :
    (putSorted k x t).all p = true := by
  rw [List.all_eq_true] at h ⊢
  intro e he
  rcases mem_putSorted _ _ _ _ he with rfl | he
  · exact hx
  · exact h e he

/-- The canonical form of a register file survives a write. -/
theorem Cells.wf_cset {w : Nat} (c : Cells w) (k : Nat) (x : BitVec w) (h : Cells.wf c = true) : Cells.wf (cset c k x) = true := by
  unfold Cells.wf at h ⊢
  simp only [Bool.and_eq_true] at h ⊢
  unfold cset
  split
  · exact ⟨risingFrom_filter _ _ _ h.1, all_filter _ _ _ h.2⟩
  · rename_i hx
    exact ⟨risingFrom_tset c k x h.1, all_putSorted _ _ _ _ (all_filter _ _ _ h.2) (by simpa using hx)⟩

theorem Cells.wf_csets {w : Nat} (ws : List (Nat × BitVec w)) (c : Cells w) (h : Cells.wf c = true) :
    Cells.wf (csets c ws) = true := by
  induction ws generalizing c with
  | nil => exact h
  | cons e r ih => exact ih _ (Cells.wf_cset c e.1 e.2 h)

/-! ### Byte memory -/

/-- A byte of memory after a write. -/
theorem Memory.read_write (m : Memory) (a b : Nat) (x : Byte) : (m.write a x).read b = if b = a then x else m.read b :=
  cget_cset (w := 8) m a b x

@[simp] theorem Memory.read_write_self (m : Memory) (a : Nat) (x : Byte) : (m.write a x).read a = x := by
  simp [Memory.read_write]

theorem Memory.read_write_ne (m : Memory) (a b : Nat) (x : Byte) (h : b ≠ a) : (m.write a x).read b = m.read b := by
  simp [Memory.read_write, h]

/-- A byte that no write names keeps its value. -/
theorem Memory.read_writes_ne (ws : List (Nat × Byte)) (m : Memory) (a : Nat) (h : ∀ e ∈ ws, e.1 ≠ a) :
    (m.writes ws).read a = m.read a :=
  cget_csets_ne (w := 8) ws m a h

/-- Outside a written list every byte keeps its value. -/
theorem Memory.read_writeList_ne (bs : List Byte) (m : Memory) (a b : Nat) (h : b < a ∨ a + bs.length ≤ b) :
    (m.writeList a bs).read b = m.read b := by
  induction bs generalizing m a with
  | nil => rfl
  | cons x r ih =>
    simp only [Memory.writeList, List.length_cons] at h ⊢
    rw [ih _ _ (by omega), Memory.read_write_ne _ _ _ _ (by omega)]

theorem Memory.wf_write (m : Memory) (a : Nat) (x : Byte) (h : m.wf = true) : (m.write a x).wf = true :=
  Cells.wf_cset (w := 8) m a x h

theorem Memory.wf_writes (ws : List (Nat × Byte)) (m : Memory) (h : m.wf = true) : (m.writes ws).wf = true :=
  Cells.wf_csets (w := 8) ws m h

theorem Memory.wf_writeList (bs : List Byte) (m : Memory) (a : Nat) (h : m.wf = true) : (m.writeList a bs).wf = true := by
  induction bs generalizing m a with
  | nil => exact h
  | cons x r ih => exact ih _ _ (Memory.wf_write m a x h)

theorem Memory.wf_filter (p : Host.Cell → Bool) (m : Memory) (h : m.wf = true) : Memory.wf (m.filter p) = true := by
  unfold Memory.wf at h ⊢
  simp only [Bool.and_eq_true] at h ⊢
  exact ⟨risingFrom_filter _ _ _ h.1, all_filter _ _ _ h.2⟩

theorem Memory.wf_clear (m : Memory) (lo hi : Nat) (h : m.wf = true) : (m.clear lo hi).wf = true := Memory.wf_filter _ m h

@[simp] theorem Memory.wf_nil : Memory.wf ([] : Memory) = true := rfl

end Sys2Proof.Machine
end

