-- ==== Sys2Proof/Laws/State.lean ====
section
/-! SUPPORT. What each update of the state does to each of its fields, by reading the record. -/

namespace Sys2Proof.Machine

/-! ### setCore -/

@[simp] theorem setCore_ctl (s : State) (c : Nat) (x : CoreSt) : (setCore s c x).ctl = s.ctl := rfl
@[simp] theorem setCore_mem (s : State) (c : Nat) (x : CoreSt) : (setCore s c x).mem = s.mem := rfl
@[simp] theorem setCore_gangs (s : State) (c : Nat) (x : CoreSt) : (setCore s c x).gangs = s.gangs := rfl
@[simp] theorem setCore_crews (s : State) (c : Nat) (x : CoreSt) : (setCore s c x).crews = s.crews := rfl
@[simp] theorem setCore_cohorts (s : State) (c : Nat) (x : CoreSt) : (setCore s c x).cohorts = s.cohorts := rfl
@[simp] theorem setCore_mccs (s : State) (c : Nat) (x : CoreSt) : (setCore s c x).mccs = s.mccs := rfl
@[simp] theorem setCore_ranges (s : State) (c : Nat) (x : CoreSt) : (setCore s c x).ranges = s.ranges := rfl
@[simp] theorem setCore_groups (s : State) (c : Nat) (x : CoreSt) : (setCore s c x).groups = s.groups := rfl
@[simp] theorem setCore_copies (s : State) (c : Nat) (x : CoreSt) : (setCore s c x).copies = s.copies := rfl
@[simp] theorem setCore_pubs (s : State) (c : Nat) (x : CoreSt) : (setCore s c x).pubs = s.pubs := rfl
@[simp] theorem setCore_requests (s : State) (c : Nat) (x : CoreSt) : (setCore s c x).requests = s.requests := rfl
@[simp] theorem setCore_messages (s : State) (c : Nat) (x : CoreSt) : (setCore s c x).messages = s.messages := rfl
@[simp] theorem setCore_cores (s : State) (c : Nat) (x : CoreSt) : (setCore s c x).cores = tset s.cores c x := rfl
@[simp] theorem setCore_clusters (s : State) (c : Nat) (x : CoreSt) : (setCore s c x).clusters = s.clusters := rfl
@[simp] theorem setCore_parts (s : State) (c : Nat) (x : CoreSt) : (setCore s c x).parts = s.parts := rfl
@[simp] theorem setCore_dev (s : State) (c : Nat) (x : CoreSt) : (setCore s c x).dev = s.dev := rfl

/-! ### modCore -/

@[simp] theorem modCore_ctl (s : State) (c : Nat) (f : CoreSt → CoreSt) : (modCore s c f).ctl = s.ctl := rfl
@[simp] theorem modCore_mem (s : State) (c : Nat) (f : CoreSt → CoreSt) : (modCore s c f).mem = s.mem := rfl
@[simp] theorem modCore_gangs (s : State) (c : Nat) (f : CoreSt → CoreSt) : (modCore s c f).gangs = s.gangs := rfl
@[simp] theorem modCore_crews (s : State) (c : Nat) (f : CoreSt → CoreSt) : (modCore s c f).crews = s.crews := rfl
@[simp] theorem modCore_cohorts (s : State) (c : Nat) (f : CoreSt → CoreSt) : (modCore s c f).cohorts = s.cohorts := rfl
@[simp] theorem modCore_mccs (s : State) (c : Nat) (f : CoreSt → CoreSt) : (modCore s c f).mccs = s.mccs := rfl
@[simp] theorem modCore_ranges (s : State) (c : Nat) (f : CoreSt → CoreSt) : (modCore s c f).ranges = s.ranges := rfl
@[simp] theorem modCore_groups (s : State) (c : Nat) (f : CoreSt → CoreSt) : (modCore s c f).groups = s.groups := rfl
@[simp] theorem modCore_copies (s : State) (c : Nat) (f : CoreSt → CoreSt) : (modCore s c f).copies = s.copies := rfl
@[simp] theorem modCore_pubs (s : State) (c : Nat) (f : CoreSt → CoreSt) : (modCore s c f).pubs = s.pubs := rfl
@[simp] theorem modCore_requests (s : State) (c : Nat) (f : CoreSt → CoreSt) : (modCore s c f).requests = s.requests := rfl
@[simp] theorem modCore_messages (s : State) (c : Nat) (f : CoreSt → CoreSt) : (modCore s c f).messages = s.messages := rfl
@[simp] theorem modCore_cores (s : State) (c : Nat) (f : CoreSt → CoreSt) : (modCore s c f).cores = tset s.cores c (f (getCore s c)) := rfl
@[simp] theorem modCore_clusters (s : State) (c : Nat) (f : CoreSt → CoreSt) : (modCore s c f).clusters = s.clusters := rfl
@[simp] theorem modCore_parts (s : State) (c : Nat) (f : CoreSt → CoreSt) : (modCore s c f).parts = s.parts := rfl
@[simp] theorem modCore_dev (s : State) (c : Nat) (f : CoreSt → CoreSt) : (modCore s c f).dev = s.dev := rfl

/-! ### setCluster -/

@[simp] theorem setCluster_ctl (s : State) (c : Nat) (x : ClusterSt) : (setCluster s c x).ctl = s.ctl := rfl
@[simp] theorem setCluster_mem (s : State) (c : Nat) (x : ClusterSt) : (setCluster s c x).mem = s.mem := rfl
@[simp] theorem setCluster_gangs (s : State) (c : Nat) (x : ClusterSt) : (setCluster s c x).gangs = s.gangs := rfl
@[simp] theorem setCluster_crews (s : State) (c : Nat) (x : ClusterSt) : (setCluster s c x).crews = s.crews := rfl
@[simp] theorem setCluster_cohorts (s : State) (c : Nat) (x : ClusterSt) : (setCluster s c x).cohorts = s.cohorts := rfl
@[simp] theorem setCluster_mccs (s : State) (c : Nat) (x : ClusterSt) : (setCluster s c x).mccs = s.mccs := rfl
@[simp] theorem setCluster_ranges (s : State) (c : Nat) (x : ClusterSt) : (setCluster s c x).ranges = s.ranges := rfl
@[simp] theorem setCluster_groups (s : State) (c : Nat) (x : ClusterSt) : (setCluster s c x).groups = s.groups := rfl
@[simp] theorem setCluster_copies (s : State) (c : Nat) (x : ClusterSt) : (setCluster s c x).copies = s.copies := rfl
@[simp] theorem setCluster_pubs (s : State) (c : Nat) (x : ClusterSt) : (setCluster s c x).pubs = s.pubs := rfl
@[simp] theorem setCluster_requests (s : State) (c : Nat) (x : ClusterSt) : (setCluster s c x).requests = s.requests := rfl
@[simp] theorem setCluster_messages (s : State) (c : Nat) (x : ClusterSt) : (setCluster s c x).messages = s.messages := rfl
@[simp] theorem setCluster_cores (s : State) (c : Nat) (x : ClusterSt) : (setCluster s c x).cores = s.cores := rfl
@[simp] theorem setCluster_clusters (s : State) (c : Nat) (x : ClusterSt) : (setCluster s c x).clusters = tset s.clusters c x := rfl
@[simp] theorem setCluster_parts (s : State) (c : Nat) (x : ClusterSt) : (setCluster s c x).parts = s.parts := rfl
@[simp] theorem setCluster_dev (s : State) (c : Nat) (x : ClusterSt) : (setCluster s c x).dev = s.dev := rfl

/-! ### modCluster -/

@[simp] theorem modCluster_ctl (s : State) (c : Nat) (f : ClusterSt → ClusterSt) : (modCluster s c f).ctl = s.ctl := rfl
@[simp] theorem modCluster_mem (s : State) (c : Nat) (f : ClusterSt → ClusterSt) : (modCluster s c f).mem = s.mem := rfl
@[simp] theorem modCluster_gangs (s : State) (c : Nat) (f : ClusterSt → ClusterSt) : (modCluster s c f).gangs = s.gangs := rfl
@[simp] theorem modCluster_crews (s : State) (c : Nat) (f : ClusterSt → ClusterSt) : (modCluster s c f).crews = s.crews := rfl
@[simp] theorem modCluster_cohorts (s : State) (c : Nat) (f : ClusterSt → ClusterSt) : (modCluster s c f).cohorts = s.cohorts := rfl
@[simp] theorem modCluster_mccs (s : State) (c : Nat) (f : ClusterSt → ClusterSt) : (modCluster s c f).mccs = s.mccs := rfl
@[simp] theorem modCluster_ranges (s : State) (c : Nat) (f : ClusterSt → ClusterSt) : (modCluster s c f).ranges = s.ranges := rfl
@[simp] theorem modCluster_groups (s : State) (c : Nat) (f : ClusterSt → ClusterSt) : (modCluster s c f).groups = s.groups := rfl
@[simp] theorem modCluster_copies (s : State) (c : Nat) (f : ClusterSt → ClusterSt) : (modCluster s c f).copies = s.copies := rfl
@[simp] theorem modCluster_pubs (s : State) (c : Nat) (f : ClusterSt → ClusterSt) : (modCluster s c f).pubs = s.pubs := rfl
@[simp] theorem modCluster_requests (s : State) (c : Nat) (f : ClusterSt → ClusterSt) : (modCluster s c f).requests = s.requests := rfl
@[simp] theorem modCluster_messages (s : State) (c : Nat) (f : ClusterSt → ClusterSt) : (modCluster s c f).messages = s.messages := rfl
@[simp] theorem modCluster_cores (s : State) (c : Nat) (f : ClusterSt → ClusterSt) : (modCluster s c f).cores = s.cores := rfl
@[simp] theorem modCluster_clusters (s : State) (c : Nat) (f : ClusterSt → ClusterSt) : (modCluster s c f).clusters = tset s.clusters c (f (getCluster s c)) := rfl
@[simp] theorem modCluster_parts (s : State) (c : Nat) (f : ClusterSt → ClusterSt) : (modCluster s c f).parts = s.parts := rfl
@[simp] theorem modCluster_dev (s : State) (c : Nat) (f : ClusterSt → ClusterSt) : (modCluster s c f).dev = s.dev := rfl

/-! ### setGang -/

@[simp] theorem setGang_ctl (s : State) (g : Nat) (x : Gang) : (setGang s g x).ctl = s.ctl := rfl
@[simp] theorem setGang_mem (s : State) (g : Nat) (x : Gang) : (setGang s g x).mem = s.mem := rfl
@[simp] theorem setGang_gangs (s : State) (g : Nat) (x : Gang) : (setGang s g x).gangs = tset s.gangs g x := rfl
@[simp] theorem setGang_crews (s : State) (g : Nat) (x : Gang) : (setGang s g x).crews = s.crews := rfl
@[simp] theorem setGang_cohorts (s : State) (g : Nat) (x : Gang) : (setGang s g x).cohorts = s.cohorts := rfl
@[simp] theorem setGang_mccs (s : State) (g : Nat) (x : Gang) : (setGang s g x).mccs = s.mccs := rfl
@[simp] theorem setGang_ranges (s : State) (g : Nat) (x : Gang) : (setGang s g x).ranges = s.ranges := rfl
@[simp] theorem setGang_groups (s : State) (g : Nat) (x : Gang) : (setGang s g x).groups = s.groups := rfl
@[simp] theorem setGang_copies (s : State) (g : Nat) (x : Gang) : (setGang s g x).copies = s.copies := rfl
@[simp] theorem setGang_pubs (s : State) (g : Nat) (x : Gang) : (setGang s g x).pubs = s.pubs := rfl
@[simp] theorem setGang_requests (s : State) (g : Nat) (x : Gang) : (setGang s g x).requests = s.requests := rfl
@[simp] theorem setGang_messages (s : State) (g : Nat) (x : Gang) : (setGang s g x).messages = s.messages := rfl
@[simp] theorem setGang_cores (s : State) (g : Nat) (x : Gang) : (setGang s g x).cores = s.cores := rfl
@[simp] theorem setGang_clusters (s : State) (g : Nat) (x : Gang) : (setGang s g x).clusters = s.clusters := rfl
@[simp] theorem setGang_parts (s : State) (g : Nat) (x : Gang) : (setGang s g x).parts = s.parts := rfl
@[simp] theorem setGang_dev (s : State) (g : Nat) (x : Gang) : (setGang s g x).dev = s.dev := rfl

/-! ### modGang -/

@[simp] theorem modGang_ctl (s : State) (g : Nat) (f : Gang → Gang) : (modGang s g f).ctl = s.ctl := rfl
@[simp] theorem modGang_mem (s : State) (g : Nat) (f : Gang → Gang) : (modGang s g f).mem = s.mem := rfl
@[simp] theorem modGang_gangs (s : State) (g : Nat) (f : Gang → Gang) : (modGang s g f).gangs = tmod s.gangs g f := rfl
@[simp] theorem modGang_crews (s : State) (g : Nat) (f : Gang → Gang) : (modGang s g f).crews = s.crews := rfl
@[simp] theorem modGang_cohorts (s : State) (g : Nat) (f : Gang → Gang) : (modGang s g f).cohorts = s.cohorts := rfl
@[simp] theorem modGang_mccs (s : State) (g : Nat) (f : Gang → Gang) : (modGang s g f).mccs = s.mccs := rfl
@[simp] theorem modGang_ranges (s : State) (g : Nat) (f : Gang → Gang) : (modGang s g f).ranges = s.ranges := rfl
@[simp] theorem modGang_groups (s : State) (g : Nat) (f : Gang → Gang) : (modGang s g f).groups = s.groups := rfl
@[simp] theorem modGang_copies (s : State) (g : Nat) (f : Gang → Gang) : (modGang s g f).copies = s.copies := rfl
@[simp] theorem modGang_pubs (s : State) (g : Nat) (f : Gang → Gang) : (modGang s g f).pubs = s.pubs := rfl
@[simp] theorem modGang_requests (s : State) (g : Nat) (f : Gang → Gang) : (modGang s g f).requests = s.requests := rfl
@[simp] theorem modGang_messages (s : State) (g : Nat) (f : Gang → Gang) : (modGang s g f).messages = s.messages := rfl
@[simp] theorem modGang_cores (s : State) (g : Nat) (f : Gang → Gang) : (modGang s g f).cores = s.cores := rfl
@[simp] theorem modGang_clusters (s : State) (g : Nat) (f : Gang → Gang) : (modGang s g f).clusters = s.clusters := rfl
@[simp] theorem modGang_parts (s : State) (g : Nat) (f : Gang → Gang) : (modGang s g f).parts = s.parts := rfl
@[simp] theorem modGang_dev (s : State) (g : Nat) (f : Gang → Gang) : (modGang s g f).dev = s.dev := rfl

/-! ### modCrew -/

@[simp] theorem modCrew_ctl (s : State) (c : Nat) (f : Crew → Crew) : (modCrew s c f).ctl = s.ctl := rfl
@[simp] theorem modCrew_mem (s : State) (c : Nat) (f : Crew → Crew) : (modCrew s c f).mem = s.mem := rfl
@[simp] theorem modCrew_gangs (s : State) (c : Nat) (f : Crew → Crew) : (modCrew s c f).gangs = s.gangs := rfl
@[simp] theorem modCrew_crews (s : State) (c : Nat) (f : Crew → Crew) : (modCrew s c f).crews = tmod s.crews c f := rfl
@[simp] theorem modCrew_cohorts (s : State) (c : Nat) (f : Crew → Crew) : (modCrew s c f).cohorts = s.cohorts := rfl
@[simp] theorem modCrew_mccs (s : State) (c : Nat) (f : Crew → Crew) : (modCrew s c f).mccs = s.mccs := rfl
@[simp] theorem modCrew_ranges (s : State) (c : Nat) (f : Crew → Crew) : (modCrew s c f).ranges = s.ranges := rfl
@[simp] theorem modCrew_groups (s : State) (c : Nat) (f : Crew → Crew) : (modCrew s c f).groups = s.groups := rfl
@[simp] theorem modCrew_copies (s : State) (c : Nat) (f : Crew → Crew) : (modCrew s c f).copies = s.copies := rfl
@[simp] theorem modCrew_pubs (s : State) (c : Nat) (f : Crew → Crew) : (modCrew s c f).pubs = s.pubs := rfl
@[simp] theorem modCrew_requests (s : State) (c : Nat) (f : Crew → Crew) : (modCrew s c f).requests = s.requests := rfl
@[simp] theorem modCrew_messages (s : State) (c : Nat) (f : Crew → Crew) : (modCrew s c f).messages = s.messages := rfl
@[simp] theorem modCrew_cores (s : State) (c : Nat) (f : Crew → Crew) : (modCrew s c f).cores = s.cores := rfl
@[simp] theorem modCrew_clusters (s : State) (c : Nat) (f : Crew → Crew) : (modCrew s c f).clusters = s.clusters := rfl
@[simp] theorem modCrew_parts (s : State) (c : Nat) (f : Crew → Crew) : (modCrew s c f).parts = s.parts := rfl
@[simp] theorem modCrew_dev (s : State) (c : Nat) (f : Crew → Crew) : (modCrew s c f).dev = s.dev := rfl

/-! ### modCohort -/

@[simp] theorem modCohort_ctl (s : State) (c : Nat) (f : Cohort → Cohort) : (modCohort s c f).ctl = s.ctl := rfl
@[simp] theorem modCohort_mem (s : State) (c : Nat) (f : Cohort → Cohort) : (modCohort s c f).mem = s.mem := rfl
@[simp] theorem modCohort_gangs (s : State) (c : Nat) (f : Cohort → Cohort) : (modCohort s c f).gangs = s.gangs := rfl
@[simp] theorem modCohort_crews (s : State) (c : Nat) (f : Cohort → Cohort) : (modCohort s c f).crews = s.crews := rfl
@[simp] theorem modCohort_cohorts (s : State) (c : Nat) (f : Cohort → Cohort) : (modCohort s c f).cohorts = tmod s.cohorts c f := rfl
@[simp] theorem modCohort_mccs (s : State) (c : Nat) (f : Cohort → Cohort) : (modCohort s c f).mccs = s.mccs := rfl
@[simp] theorem modCohort_ranges (s : State) (c : Nat) (f : Cohort → Cohort) : (modCohort s c f).ranges = s.ranges := rfl
@[simp] theorem modCohort_groups (s : State) (c : Nat) (f : Cohort → Cohort) : (modCohort s c f).groups = s.groups := rfl
@[simp] theorem modCohort_copies (s : State) (c : Nat) (f : Cohort → Cohort) : (modCohort s c f).copies = s.copies := rfl
@[simp] theorem modCohort_pubs (s : State) (c : Nat) (f : Cohort → Cohort) : (modCohort s c f).pubs = s.pubs := rfl
@[simp] theorem modCohort_requests (s : State) (c : Nat) (f : Cohort → Cohort) : (modCohort s c f).requests = s.requests := rfl
@[simp] theorem modCohort_messages (s : State) (c : Nat) (f : Cohort → Cohort) : (modCohort s c f).messages = s.messages := rfl
@[simp] theorem modCohort_cores (s : State) (c : Nat) (f : Cohort → Cohort) : (modCohort s c f).cores = s.cores := rfl
@[simp] theorem modCohort_clusters (s : State) (c : Nat) (f : Cohort → Cohort) : (modCohort s c f).clusters = s.clusters := rfl
@[simp] theorem modCohort_parts (s : State) (c : Nat) (f : Cohort → Cohort) : (modCohort s c f).parts = s.parts := rfl
@[simp] theorem modCohort_dev (s : State) (c : Nat) (f : Cohort → Cohort) : (modCohort s c f).dev = s.dev := rfl

/-! ### modMcc -/

@[simp] theorem modMcc_ctl (s : State) (c : Nat) (f : Mcc → Mcc) : (modMcc s c f).ctl = s.ctl := rfl
@[simp] theorem modMcc_mem (s : State) (c : Nat) (f : Mcc → Mcc) : (modMcc s c f).mem = s.mem := rfl
@[simp] theorem modMcc_gangs (s : State) (c : Nat) (f : Mcc → Mcc) : (modMcc s c f).gangs = s.gangs := rfl
@[simp] theorem modMcc_crews (s : State) (c : Nat) (f : Mcc → Mcc) : (modMcc s c f).crews = s.crews := rfl
@[simp] theorem modMcc_cohorts (s : State) (c : Nat) (f : Mcc → Mcc) : (modMcc s c f).cohorts = s.cohorts := rfl
@[simp] theorem modMcc_mccs (s : State) (c : Nat) (f : Mcc → Mcc) : (modMcc s c f).mccs = tmod s.mccs c f := rfl
@[simp] theorem modMcc_ranges (s : State) (c : Nat) (f : Mcc → Mcc) : (modMcc s c f).ranges = s.ranges := rfl
@[simp] theorem modMcc_groups (s : State) (c : Nat) (f : Mcc → Mcc) : (modMcc s c f).groups = s.groups := rfl
@[simp] theorem modMcc_copies (s : State) (c : Nat) (f : Mcc → Mcc) : (modMcc s c f).copies = s.copies := rfl
@[simp] theorem modMcc_pubs (s : State) (c : Nat) (f : Mcc → Mcc) : (modMcc s c f).pubs = s.pubs := rfl
@[simp] theorem modMcc_requests (s : State) (c : Nat) (f : Mcc → Mcc) : (modMcc s c f).requests = s.requests := rfl
@[simp] theorem modMcc_messages (s : State) (c : Nat) (f : Mcc → Mcc) : (modMcc s c f).messages = s.messages := rfl
@[simp] theorem modMcc_cores (s : State) (c : Nat) (f : Mcc → Mcc) : (modMcc s c f).cores = s.cores := rfl
@[simp] theorem modMcc_clusters (s : State) (c : Nat) (f : Mcc → Mcc) : (modMcc s c f).clusters = s.clusters := rfl
@[simp] theorem modMcc_parts (s : State) (c : Nat) (f : Mcc → Mcc) : (modMcc s c f).parts = s.parts := rfl
@[simp] theorem modMcc_dev (s : State) (c : Nat) (f : Mcc → Mcc) : (modMcc s c f).dev = s.dev := rfl

/-! ### modRange -/

@[simp] theorem modRange_ctl (s : State) (r : Nat) (f : Range → Range) : (modRange s r f).ctl = s.ctl := rfl
@[simp] theorem modRange_mem (s : State) (r : Nat) (f : Range → Range) : (modRange s r f).mem = s.mem := rfl
@[simp] theorem modRange_gangs (s : State) (r : Nat) (f : Range → Range) : (modRange s r f).gangs = s.gangs := rfl
@[simp] theorem modRange_crews (s : State) (r : Nat) (f : Range → Range) : (modRange s r f).crews = s.crews := rfl
@[simp] theorem modRange_cohorts (s : State) (r : Nat) (f : Range → Range) : (modRange s r f).cohorts = s.cohorts := rfl
@[simp] theorem modRange_mccs (s : State) (r : Nat) (f : Range → Range) : (modRange s r f).mccs = s.mccs := rfl
@[simp] theorem modRange_ranges (s : State) (r : Nat) (f : Range → Range) : (modRange s r f).ranges = tmod s.ranges r f := rfl
@[simp] theorem modRange_groups (s : State) (r : Nat) (f : Range → Range) : (modRange s r f).groups = s.groups := rfl
@[simp] theorem modRange_copies (s : State) (r : Nat) (f : Range → Range) : (modRange s r f).copies = s.copies := rfl
@[simp] theorem modRange_pubs (s : State) (r : Nat) (f : Range → Range) : (modRange s r f).pubs = s.pubs := rfl
@[simp] theorem modRange_requests (s : State) (r : Nat) (f : Range → Range) : (modRange s r f).requests = s.requests := rfl
@[simp] theorem modRange_messages (s : State) (r : Nat) (f : Range → Range) : (modRange s r f).messages = s.messages := rfl
@[simp] theorem modRange_cores (s : State) (r : Nat) (f : Range → Range) : (modRange s r f).cores = s.cores := rfl
@[simp] theorem modRange_clusters (s : State) (r : Nat) (f : Range → Range) : (modRange s r f).clusters = s.clusters := rfl
@[simp] theorem modRange_parts (s : State) (r : Nat) (f : Range → Range) : (modRange s r f).parts = s.parts := rfl
@[simp] theorem modRange_dev (s : State) (r : Nat) (f : Range → Range) : (modRange s r f).dev = s.dev := rfl

/-! ### modPart -/

@[simp] theorem modPart_ctl (s : State) (p : Nat) (f : Part → Part) : (modPart s p f).ctl = s.ctl := rfl
@[simp] theorem modPart_mem (s : State) (p : Nat) (f : Part → Part) : (modPart s p f).mem = s.mem := rfl
@[simp] theorem modPart_gangs (s : State) (p : Nat) (f : Part → Part) : (modPart s p f).gangs = s.gangs := rfl
@[simp] theorem modPart_crews (s : State) (p : Nat) (f : Part → Part) : (modPart s p f).crews = s.crews := rfl
@[simp] theorem modPart_cohorts (s : State) (p : Nat) (f : Part → Part) : (modPart s p f).cohorts = s.cohorts := rfl
@[simp] theorem modPart_mccs (s : State) (p : Nat) (f : Part → Part) : (modPart s p f).mccs = s.mccs := rfl
@[simp] theorem modPart_ranges (s : State) (p : Nat) (f : Part → Part) : (modPart s p f).ranges = s.ranges := rfl
@[simp] theorem modPart_groups (s : State) (p : Nat) (f : Part → Part) : (modPart s p f).groups = s.groups := rfl
@[simp] theorem modPart_copies (s : State) (p : Nat) (f : Part → Part) : (modPart s p f).copies = s.copies := rfl
@[simp] theorem modPart_pubs (s : State) (p : Nat) (f : Part → Part) : (modPart s p f).pubs = s.pubs := rfl
@[simp] theorem modPart_requests (s : State) (p : Nat) (f : Part → Part) : (modPart s p f).requests = s.requests := rfl
@[simp] theorem modPart_messages (s : State) (p : Nat) (f : Part → Part) : (modPart s p f).messages = s.messages := rfl
@[simp] theorem modPart_cores (s : State) (p : Nat) (f : Part → Part) : (modPart s p f).cores = s.cores := rfl
@[simp] theorem modPart_clusters (s : State) (p : Nat) (f : Part → Part) : (modPart s p f).clusters = s.clusters := rfl
@[simp] theorem modPart_parts (s : State) (p : Nat) (f : Part → Part) : (modPart s p f).parts = tmod s.parts p f := rfl
@[simp] theorem modPart_dev (s : State) (p : Nat) (f : Part → Part) : (modPart s p f).dev = s.dev := rfl

/-! ### modCopy -/

@[simp] theorem modCopy_ctl (s : State) (c : Nat) (f : Copy → Copy) : (modCopy s c f).ctl = s.ctl := rfl
@[simp] theorem modCopy_mem (s : State) (c : Nat) (f : Copy → Copy) : (modCopy s c f).mem = s.mem := rfl
@[simp] theorem modCopy_gangs (s : State) (c : Nat) (f : Copy → Copy) : (modCopy s c f).gangs = s.gangs := rfl
@[simp] theorem modCopy_crews (s : State) (c : Nat) (f : Copy → Copy) : (modCopy s c f).crews = s.crews := rfl
@[simp] theorem modCopy_cohorts (s : State) (c : Nat) (f : Copy → Copy) : (modCopy s c f).cohorts = s.cohorts := rfl
@[simp] theorem modCopy_mccs (s : State) (c : Nat) (f : Copy → Copy) : (modCopy s c f).mccs = s.mccs := rfl
@[simp] theorem modCopy_ranges (s : State) (c : Nat) (f : Copy → Copy) : (modCopy s c f).ranges = s.ranges := rfl
@[simp] theorem modCopy_groups (s : State) (c : Nat) (f : Copy → Copy) : (modCopy s c f).groups = s.groups := rfl
@[simp] theorem modCopy_copies (s : State) (c : Nat) (f : Copy → Copy) : (modCopy s c f).copies = tmod s.copies c f := rfl
@[simp] theorem modCopy_pubs (s : State) (c : Nat) (f : Copy → Copy) : (modCopy s c f).pubs = s.pubs := rfl
@[simp] theorem modCopy_requests (s : State) (c : Nat) (f : Copy → Copy) : (modCopy s c f).requests = s.requests := rfl
@[simp] theorem modCopy_messages (s : State) (c : Nat) (f : Copy → Copy) : (modCopy s c f).messages = s.messages := rfl
@[simp] theorem modCopy_cores (s : State) (c : Nat) (f : Copy → Copy) : (modCopy s c f).cores = s.cores := rfl
@[simp] theorem modCopy_clusters (s : State) (c : Nat) (f : Copy → Copy) : (modCopy s c f).clusters = s.clusters := rfl
@[simp] theorem modCopy_parts (s : State) (c : Nat) (f : Copy → Copy) : (modCopy s c f).parts = s.parts := rfl
@[simp] theorem modCopy_dev (s : State) (c : Nat) (f : Copy → Copy) : (modCopy s c f).dev = s.dev := rfl

/-! ### modReq -/

@[simp] theorem modReq_ctl (s : State) (r : Nat) (f : Request → Request) : (modReq s r f).ctl = s.ctl := rfl
@[simp] theorem modReq_mem (s : State) (r : Nat) (f : Request → Request) : (modReq s r f).mem = s.mem := rfl
@[simp] theorem modReq_gangs (s : State) (r : Nat) (f : Request → Request) : (modReq s r f).gangs = s.gangs := rfl
@[simp] theorem modReq_crews (s : State) (r : Nat) (f : Request → Request) : (modReq s r f).crews = s.crews := rfl
@[simp] theorem modReq_cohorts (s : State) (r : Nat) (f : Request → Request) : (modReq s r f).cohorts = s.cohorts := rfl
@[simp] theorem modReq_mccs (s : State) (r : Nat) (f : Request → Request) : (modReq s r f).mccs = s.mccs := rfl
@[simp] theorem modReq_ranges (s : State) (r : Nat) (f : Request → Request) : (modReq s r f).ranges = s.ranges := rfl
@[simp] theorem modReq_groups (s : State) (r : Nat) (f : Request → Request) : (modReq s r f).groups = s.groups := rfl
@[simp] theorem modReq_copies (s : State) (r : Nat) (f : Request → Request) : (modReq s r f).copies = s.copies := rfl
@[simp] theorem modReq_pubs (s : State) (r : Nat) (f : Request → Request) : (modReq s r f).pubs = s.pubs := rfl
@[simp] theorem modReq_requests (s : State) (r : Nat) (f : Request → Request) : (modReq s r f).requests = tmod s.requests r f := rfl
@[simp] theorem modReq_messages (s : State) (r : Nat) (f : Request → Request) : (modReq s r f).messages = s.messages := rfl
@[simp] theorem modReq_cores (s : State) (r : Nat) (f : Request → Request) : (modReq s r f).cores = s.cores := rfl
@[simp] theorem modReq_clusters (s : State) (r : Nat) (f : Request → Request) : (modReq s r f).clusters = s.clusters := rfl
@[simp] theorem modReq_parts (s : State) (r : Nat) (f : Request → Request) : (modReq s r f).parts = s.parts := rfl
@[simp] theorem modReq_dev (s : State) (r : Nat) (f : Request → Request) : (modReq s r f).dev = s.dev := rfl

/-! ### modGroup -/

@[simp] theorem modGroup_ctl (s : State) (g : Nat) (f : Group → Group) : (modGroup s g f).ctl = s.ctl := rfl
@[simp] theorem modGroup_mem (s : State) (g : Nat) (f : Group → Group) : (modGroup s g f).mem = s.mem := rfl
@[simp] theorem modGroup_gangs (s : State) (g : Nat) (f : Group → Group) : (modGroup s g f).gangs = s.gangs := rfl
@[simp] theorem modGroup_crews (s : State) (g : Nat) (f : Group → Group) : (modGroup s g f).crews = s.crews := rfl
@[simp] theorem modGroup_cohorts (s : State) (g : Nat) (f : Group → Group) : (modGroup s g f).cohorts = s.cohorts := rfl
@[simp] theorem modGroup_mccs (s : State) (g : Nat) (f : Group → Group) : (modGroup s g f).mccs = s.mccs := rfl
@[simp] theorem modGroup_ranges (s : State) (g : Nat) (f : Group → Group) : (modGroup s g f).ranges = s.ranges := rfl
@[simp] theorem modGroup_groups (s : State) (g : Nat) (f : Group → Group) : (modGroup s g f).groups = tmod s.groups g f := rfl
@[simp] theorem modGroup_copies (s : State) (g : Nat) (f : Group → Group) : (modGroup s g f).copies = s.copies := rfl
@[simp] theorem modGroup_pubs (s : State) (g : Nat) (f : Group → Group) : (modGroup s g f).pubs = s.pubs := rfl
@[simp] theorem modGroup_requests (s : State) (g : Nat) (f : Group → Group) : (modGroup s g f).requests = s.requests := rfl
@[simp] theorem modGroup_messages (s : State) (g : Nat) (f : Group → Group) : (modGroup s g f).messages = s.messages := rfl
@[simp] theorem modGroup_cores (s : State) (g : Nat) (f : Group → Group) : (modGroup s g f).cores = s.cores := rfl
@[simp] theorem modGroup_clusters (s : State) (g : Nat) (f : Group → Group) : (modGroup s g f).clusters = s.clusters := rfl
@[simp] theorem modGroup_parts (s : State) (g : Nat) (f : Group → Group) : (modGroup s g f).parts = s.parts := rfl
@[simp] theorem modGroup_dev (s : State) (g : Nat) (f : Group → Group) : (modGroup s g f).dev = s.dev := rfl

/-! ### bumpFree and freshId -/

@[simp] theorem bumpFree_ctl (s : State) : (bumpFree s).ctl = { s.ctl with free := s.ctl.free + 1 } := rfl
@[simp] theorem bumpFree_mem (s : State) : (bumpFree s).mem = s.mem := rfl
@[simp] theorem bumpFree_gangs (s : State) : (bumpFree s).gangs = s.gangs := rfl
@[simp] theorem bumpFree_crews (s : State) : (bumpFree s).crews = s.crews := rfl
@[simp] theorem bumpFree_cohorts (s : State) : (bumpFree s).cohorts = s.cohorts := rfl
@[simp] theorem bumpFree_mccs (s : State) : (bumpFree s).mccs = s.mccs := rfl
@[simp] theorem bumpFree_ranges (s : State) : (bumpFree s).ranges = s.ranges := rfl
@[simp] theorem bumpFree_groups (s : State) : (bumpFree s).groups = s.groups := rfl
@[simp] theorem bumpFree_copies (s : State) : (bumpFree s).copies = s.copies := rfl
@[simp] theorem bumpFree_pubs (s : State) : (bumpFree s).pubs = s.pubs := rfl
@[simp] theorem bumpFree_requests (s : State) : (bumpFree s).requests = s.requests := rfl
@[simp] theorem bumpFree_messages (s : State) : (bumpFree s).messages = s.messages := rfl
@[simp] theorem bumpFree_cores (s : State) : (bumpFree s).cores = s.cores := rfl
@[simp] theorem bumpFree_clusters (s : State) : (bumpFree s).clusters = s.clusters := rfl
@[simp] theorem bumpFree_parts (s : State) : (bumpFree s).parts = s.parts := rfl
@[simp] theorem bumpFree_dev (s : State) : (bumpFree s).dev = s.dev := rfl
@[simp] theorem freshId_ctl (s : State) : (freshId s).2.ctl = { s.ctl with nextId := s.ctl.nextId + 1 } := rfl
@[simp] theorem freshId_mem (s : State) : (freshId s).2.mem = s.mem := rfl
@[simp] theorem freshId_gangs (s : State) : (freshId s).2.gangs = s.gangs := rfl
@[simp] theorem freshId_crews (s : State) : (freshId s).2.crews = s.crews := rfl
@[simp] theorem freshId_cohorts (s : State) : (freshId s).2.cohorts = s.cohorts := rfl
@[simp] theorem freshId_mccs (s : State) : (freshId s).2.mccs = s.mccs := rfl
@[simp] theorem freshId_ranges (s : State) : (freshId s).2.ranges = s.ranges := rfl
@[simp] theorem freshId_groups (s : State) : (freshId s).2.groups = s.groups := rfl
@[simp] theorem freshId_copies (s : State) : (freshId s).2.copies = s.copies := rfl
@[simp] theorem freshId_pubs (s : State) : (freshId s).2.pubs = s.pubs := rfl
@[simp] theorem freshId_requests (s : State) : (freshId s).2.requests = s.requests := rfl
@[simp] theorem freshId_messages (s : State) : (freshId s).2.messages = s.messages := rfl
@[simp] theorem freshId_cores (s : State) : (freshId s).2.cores = s.cores := rfl
@[simp] theorem freshId_clusters (s : State) : (freshId s).2.clusters = s.clusters := rfl
@[simp] theorem freshId_parts (s : State) : (freshId s).2.parts = s.parts := rfl
@[simp] theorem freshId_dev (s : State) : (freshId s).2.dev = s.dev := rfl
@[simp] theorem freshId_name (s : State) : (freshId s).1 = s.ctl.nextId := rfl

/-! ### modSplits -/

@[simp] theorem modSplits_ctl (s : State) (g : Nat) (f : Split → Split) : (modSplits s g f).ctl = s.ctl := rfl
@[simp] theorem modSplits_mem (s : State) (g : Nat) (f : Split → Split) : (modSplits s g f).mem = s.mem := rfl
@[simp] theorem modSplits_crews (s : State) (g : Nat) (f : Split → Split) : (modSplits s g f).crews = s.crews := rfl
@[simp] theorem modSplits_cohorts (s : State) (g : Nat) (f : Split → Split) : (modSplits s g f).cohorts = s.cohorts := rfl
@[simp] theorem modSplits_mccs (s : State) (g : Nat) (f : Split → Split) : (modSplits s g f).mccs = s.mccs := rfl
@[simp] theorem modSplits_ranges (s : State) (g : Nat) (f : Split → Split) : (modSplits s g f).ranges = s.ranges := rfl
@[simp] theorem modSplits_groups (s : State) (g : Nat) (f : Split → Split) : (modSplits s g f).groups = s.groups := rfl
@[simp] theorem modSplits_copies (s : State) (g : Nat) (f : Split → Split) : (modSplits s g f).copies = s.copies := rfl
@[simp] theorem modSplits_pubs (s : State) (g : Nat) (f : Split → Split) : (modSplits s g f).pubs = s.pubs := rfl
@[simp] theorem modSplits_requests (s : State) (g : Nat) (f : Split → Split) : (modSplits s g f).requests = s.requests := rfl
@[simp] theorem modSplits_messages (s : State) (g : Nat) (f : Split → Split) : (modSplits s g f).messages = s.messages := rfl
@[simp] theorem modSplits_cores (s : State) (g : Nat) (f : Split → Split) : (modSplits s g f).cores = s.cores := rfl
@[simp] theorem modSplits_clusters (s : State) (g : Nat) (f : Split → Split) : (modSplits s g f).clusters = s.clusters := rfl
@[simp] theorem modSplits_parts (s : State) (g : Nat) (f : Split → Split) : (modSplits s g f).parts = s.parts := rfl
@[simp] theorem modSplits_dev (s : State) (g : Nat) (f : Split → Split) : (modSplits s g f).dev = s.dev := rfl

/-! ### modSplit -/

@[simp] theorem modSplit_ctl (s : State) (g si : Nat) (f : Split → Split) : (modSplit s g si f).ctl = s.ctl := rfl
@[simp] theorem modSplit_mem (s : State) (g si : Nat) (f : Split → Split) : (modSplit s g si f).mem = s.mem := rfl
@[simp] theorem modSplit_crews (s : State) (g si : Nat) (f : Split → Split) : (modSplit s g si f).crews = s.crews := rfl
@[simp] theorem modSplit_cohorts (s : State) (g si : Nat) (f : Split → Split) : (modSplit s g si f).cohorts = s.cohorts := rfl
@[simp] theorem modSplit_mccs (s : State) (g si : Nat) (f : Split → Split) : (modSplit s g si f).mccs = s.mccs := rfl
@[simp] theorem modSplit_ranges (s : State) (g si : Nat) (f : Split → Split) : (modSplit s g si f).ranges = s.ranges := rfl
@[simp] theorem modSplit_groups (s : State) (g si : Nat) (f : Split → Split) : (modSplit s g si f).groups = s.groups := rfl
@[simp] theorem modSplit_copies (s : State) (g si : Nat) (f : Split → Split) : (modSplit s g si f).copies = s.copies := rfl
@[simp] theorem modSplit_pubs (s : State) (g si : Nat) (f : Split → Split) : (modSplit s g si f).pubs = s.pubs := rfl
@[simp] theorem modSplit_requests (s : State) (g si : Nat) (f : Split → Split) : (modSplit s g si f).requests = s.requests := rfl
@[simp] theorem modSplit_messages (s : State) (g si : Nat) (f : Split → Split) : (modSplit s g si f).messages = s.messages := rfl
@[simp] theorem modSplit_cores (s : State) (g si : Nat) (f : Split → Split) : (modSplit s g si f).cores = s.cores := rfl
@[simp] theorem modSplit_clusters (s : State) (g si : Nat) (f : Split → Split) : (modSplit s g si f).clusters = s.clusters := rfl
@[simp] theorem modSplit_parts (s : State) (g si : Nat) (f : Split → Split) : (modSplit s g si f).parts = s.parts := rfl
@[simp] theorem modSplit_dev (s : State) (g si : Nat) (f : Split → Split) : (modSplit s g si f).dev = s.dev := rfl

/-! ### firmwarePost -/

@[simp] theorem firmwarePost_ctl (s : State) (r : FaultRecord) : (firmwarePost s r).ctl = s.ctl := rfl
@[simp] theorem firmwarePost_mem (s : State) (r : FaultRecord) : (firmwarePost s r).mem = s.mem := rfl
@[simp] theorem firmwarePost_gangs (s : State) (r : FaultRecord) : (firmwarePost s r).gangs = s.gangs := rfl
@[simp] theorem firmwarePost_crews (s : State) (r : FaultRecord) : (firmwarePost s r).crews = s.crews := rfl
@[simp] theorem firmwarePost_cohorts (s : State) (r : FaultRecord) : (firmwarePost s r).cohorts = s.cohorts := rfl
@[simp] theorem firmwarePost_mccs (s : State) (r : FaultRecord) : (firmwarePost s r).mccs = s.mccs := rfl
@[simp] theorem firmwarePost_ranges (s : State) (r : FaultRecord) : (firmwarePost s r).ranges = s.ranges := rfl
@[simp] theorem firmwarePost_groups (s : State) (r : FaultRecord) : (firmwarePost s r).groups = s.groups := rfl
@[simp] theorem firmwarePost_copies (s : State) (r : FaultRecord) : (firmwarePost s r).copies = s.copies := rfl
@[simp] theorem firmwarePost_pubs (s : State) (r : FaultRecord) : (firmwarePost s r).pubs = s.pubs := rfl
@[simp] theorem firmwarePost_requests (s : State) (r : FaultRecord) : (firmwarePost s r).requests = s.requests := rfl
@[simp] theorem firmwarePost_messages (s : State) (r : FaultRecord) : (firmwarePost s r).messages = s.messages := rfl
@[simp] theorem firmwarePost_cores (s : State) (r : FaultRecord) : (firmwarePost s r).cores = s.cores := rfl
@[simp] theorem firmwarePost_clusters (s : State) (r : FaultRecord) : (firmwarePost s r).clusters = s.clusters := rfl
@[simp] theorem firmwarePost_parts (s : State) (r : FaultRecord) : (firmwarePost s r).parts = s.parts := rfl

end Sys2Proof.Machine
end

