-- ==== Sys2Proof/Laws/Issue.lean ====
section
/-! SUPPORT. What the issue prologue answers: the checks passed, the traps of the checks that fail, a stall, no unit there. -/

namespace Sys2Proof.Machine

/-! ### The unit that issues -/

theorem Issues.issuer {s : State} {gid si : Nat} {g : Gang} {sp : Split} (h : Issues s gid g si sp) :
    issuer s = some (.gang gid g si sp) := by
  simp [Sys2Proof.Machine.issuer, h.cur, h.gang, h.split]

theorem MccIssues.issuer {s : State} {cid : Nat} {c : Cohort} {m : Mcc} (h : MccIssues s cid c m) :
    issuer s = some (.mcc cid c m) := by
  simp [Sys2Proof.Machine.issuer, h.cur, h.cohort, h.mcc]

/-! ### Instructions of gangs -/

/-- A gang instruction whose checks pass has its own effect. -/
theorem gangOp_opens {s : State} {gid si : Nat} {g : Gang} {sp : Split} {vs : List Nat} {b : InBody} {super : Bool}
    (f : State → Nat → Gang → Nat → Split → Outcome) (h : Issues s gid g si sp) (hc : Clear s g sp vs b)
    (hl : super = true → g.level = .supervisor) :
    gangOp .opens vs b super s f = f (setGang s gid g) gid g si sp := by
  have hs : (super && g.level == .user) = false := by
    cases super
    · rfl
    · simp [hl rfl]
  simp [gangOp, h.issuer, hc.window, hc.limit, hc.region, hs]

/-- A gang instruction that closes its windows, its checks passed. -/
theorem gangOp_closes {s : State} {gid si : Nat} {g : Gang} {sp : Split} {vs : List Nat} {b : InBody} {super : Bool}
    (f : State → Nat → Gang → Nat → Split → Outcome) (h : Issues s gid g si sp) (hc : ClearClosing s g si sp vs b)
    (hl : super = true → (closedGang g si).level = .supervisor) :
    gangOp .closes vs b super s f = f (setGang s gid (closedGang g si)) gid (closedGang g si) si (closedSplit sp) := by
  have hs : (super && (closedGang g si).level == .user) = false := by
    cases super
    · rfl
    · simp [hl rfl]
  have hw := hc.window
  have hm := hc.limit
  have hr := hc.region
  simp only [closedGang] at hw hm hr hs
  simp [gangOp, h.issuer, hc.back, hw, hm, hr, hs, closedGang, closedSplit]

/-- A gang instruction that the MCC fetches traps ILLEGAL. -/
theorem gangOp_mcc {s : State} {cid : Nat} {c : Cohort} {m : Mcc} (cl : Closing) (vs : List Nat) (b : InBody) (super : Bool)
    (f : State → Nat → Gang → Nat → Split → Outcome) (h : MccIssues s cid c m) :
    gangOp cl vs b super s f = .next (takeTrapMcc s cid c m (plainTrap .illegal)) := by
  simp [gangOp, h.issuer]

/-- A gang instruction that names a register beyond the allocation traps ILLEGAL. -/
theorem gangOp_window {s : State} {gid si : Nat} {g : Gang} {sp : Split} {vs : List Nat} {b : InBody} {super : Bool}
    (f : State → Nat → Gang → Nat → Split → Outcome) (h : Issues s gid g si sp)
    (hw : outOfWindow g vs = true) :
    gangOp .opens vs b super s f = .next (takeTrap s gid g si (plainTrap .illegal) 0) := by
  simp [gangOp, h.issuer, hw]

/-- An instruction above the level of its gang traps PERM. -/
theorem gangOp_privilege {s : State} {gid si : Nat} {g : Gang} {sp : Split} {vs : List Nat} {b : InBody}
    (f : State → Nat → Gang → Nat → Split → Outcome) (h : Issues s gid g si sp)
    (ho : splitOpen sp = false) (hw : outOfWindow (closedGang g si) vs = false) (hu : (closedGang g si).level = .user) :
    gangOp .closes vs b true s f = .next (takeTrap s gid (closedGang g si) si privilegeTrap 0) := by
  have hw' := hw
  have hu' := hu
  simp only [closedGang] at hw' hu'
  simp [gangOp, h.issuer, ho, hw', hu', closedGang]

/-- With nobody there to issue a gang instruction faults. -/
theorem gangOp_nobody {s : State} (cl : Closing) (vs : List Nat) (b : InBody) (super : Bool)
    (f : State → Nat → Gang → Nat → Split → Outcome) (h : issuer s = none) : gangOp cl vs b super s f = .fault .noIssuer := by
  simp [gangOp, h]

/-! ### Instructions of the MCC, and of both sides -/

theorem mccOp_clear {s : State} {cid : Nat} {c : Cohort} {m : Mcc} (f : State → Nat → Cohort → Mcc → Outcome)
    (h : MccIssues s cid c m) (hl : limitReached s c.range m.rtc = false) : mccOp s f = f s cid c m := by
  simp [mccOp, h.issuer, hl]

theorem mccOp_gang {s : State} {gid si : Nat} {g : Gang} {sp : Split} (f : State → Nat → Cohort → Mcc → Outcome)
    (h : Issues s gid g si sp) :
    mccOp s f = .next (takeTrap s gid g si (plainTrap .matrixRights) 0) := by
  simp [mccOp, h.issuer]

theorem eitherOp_gang {s : State} {gid si : Nat} {g : Gang} {sp : Split} (cl : Closing) (vs : List Nat) (b : InBody) (super : Bool)
    (f : State → Nat → Gang → Nat → Split → Outcome) (k : State → Nat → Cohort → Mcc → Outcome) (h : Issues s gid g si sp) :
    eitherOp cl vs b super s f k = gangOp cl vs b super s f := by
  simp [eitherOp, h.issuer]

theorem eitherOp_mcc {s : State} {cid : Nat} {c : Cohort} {m : Mcc} (cl : Closing) (vs : List Nat) (b : InBody) (super : Bool)
    (f : State → Nat → Gang → Nat → Split → Outcome) (k : State → Nat → Cohort → Mcc → Outcome) (h : MccIssues s cid c m)
    (hl : limitReached s c.range m.rtc = false) : eitherOp cl vs b super s f k = k s cid c m := by
  simp [eitherOp, h.issuer, hl]

end Sys2Proof.Machine
end

