-- ==== Sys2Proof/Laws/Retire.lean ====
section
/-! SUPPORT. What the retirement of an instruction does: it lands windows, settles splits, counts, and nothing else. -/

namespace Sys2Proof.Machine

/-! ### Landing -/

/-- A pending write lands no more than it has to write. -/
theorem mem_liveWrites {p : Pending} {w : Nat × Word} (h : w ∈ liveWrites p) : w ∈ p.writes := by
  unfold liveWrites at h
  split at h
  · exact h
  · exact (List.mem_filter.mp h).1

theorem landOne_v (g : Gang) (p : Pending) (c : Nat) (h : ∀ w ∈ p.writes, w.1 ≠ c) : cget (landOne g p).v c = cget g.v c :=
  cget_csets_ne _ _ _ fun w hw => h w (mem_liveWrites hw)

theorem foldl_landOne (ps : List Pending) (g : Gang) :
    (∀ c, (∀ p ∈ ps, ∀ w ∈ p.writes, w.1 ≠ c) → cget (ps.foldl landOne g).v c = cget g.v c)
      ∧ ((∀ p ∈ ps, p.flags = 0) → (ps.foldl landOne g).fpf = g.fpf)
      ∧ ps.foldl landOne g = { g with v := (ps.foldl landOne g).v, fpf := (ps.foldl landOne g).fpf } := by
  induction ps generalizing g with
  | nil => exact ⟨fun _ _ => rfl, fun _ => rfl, rfl⟩
  | cons p r ih =>
    obtain ⟨h1, h2, h3⟩ := ih (landOne g p)
    simp only [List.foldl_cons]
    refine ⟨fun c hc => ?_, fun hf => ?_, ?_⟩
    · rw [h1 c (fun q hq => hc q (List.mem_cons_of_mem _ hq)), landOne_v _ _ _ (hc p (by simp))]
    · rw [h2 (fun q hq => hf q (List.mem_cons_of_mem _ hq))]
      simp [landOne, hf p (by simp)]
    · generalize List.foldl landOne (landOne g p) r = x at h3 ⊢
      rw [h3]; rfl

/-- Landing a list of pending writes changes the registers that they name, and the flags. -/
theorem landList_spec (g : Gang) (ps : List Pending) :
    (∀ c, (∀ p ∈ ps, ∀ w ∈ p.writes, w.1 ≠ c) → cget (landList g ps).v c = cget g.v c)
      ∧ ((∀ p ∈ ps, p.flags = 0) → (landList g ps).fpf = g.fpf)
      ∧ landList g ps = { g with v := (landList g ps).v, fpf := (landList g ps).fpf } := by
  obtain ⟨h1, h2, h3⟩ := foldl_landOne ps.reverse g
  exact ⟨fun c hc => h1 c (fun p hp => hc p (by simpa using hp)), fun hf => h2 (fun p hp => hf p (by simpa using hp)), h3⟩

/-- A change of a gang that only lands windows it had: what is still pending was pending before. -/
structure LandStep (g g' : Gang) : Prop where
  pend : ∀ e' ∈ g'.splits, ∀ p' ∈ e'.2.pend, ∃ e ∈ g.splits, ∃ p ∈ e.2.pend, p'.writes = p.writes ∧ p'.flags = p.flags
  regs : ∀ c, NoWindowOn g c → cget g'.v c = cget g.v c
  flags : NoFlagsPending g → g'.fpf = g.fpf
  rest : g' = { g with v := g'.v, fpf := g'.fpf, splits := g'.splits, nextSeg := g'.nextSeg }

theorem LandStep.refl (g : Gang) : LandStep g g :=
  ⟨fun e he p hp => ⟨e, he, p, hp, rfl, rfl⟩, fun _ _ => rfl, fun _ => rfl, rfl⟩

theorem LandStep.noWindow {g g' : Gang} (h : LandStep g g') {c : Nat} (hc : NoWindowOn g c) : NoWindowOn g' c := by
  intro e he p hp w hw
  obtain ⟨e1, he1, p1, hp1, hw1, _⟩ := h.pend e he p hp
  exact hc e1 he1 p1 hp1 w (hw1 ▸ hw)

theorem LandStep.noFlags {g g' : Gang} (h : LandStep g g') (hc : NoFlagsPending g) : NoFlagsPending g' := by
  intro e he p hp
  obtain ⟨e1, he1, p1, hp1, _, hf⟩ := h.pend e he p hp
  rw [hf]; exact hc e1 he1 p1 hp1

theorem LandStep.trans {a b c : Gang} (h : LandStep a b) (k : LandStep b c) : LandStep a c where
  pend := by
    intro e he p hp
    obtain ⟨e1, he1, p1, hp1, hw, hf⟩ := k.pend e he p hp
    obtain ⟨e2, he2, p2, hp2, hw2, hf2⟩ := h.pend e1 he1 p1 hp1
    exact ⟨e2, he2, p2, hp2, hw.trans hw2, hf.trans hf2⟩
  regs := fun x hx => (k.regs x (h.noWindow hx)).trans (h.regs x hx)
  flags := fun hx => (k.flags (h.noFlags hx)).trans (h.flags hx)
  rest := by
    have h1 := h.rest
    have h2 := k.rest
    generalize hv : c.v = v' at *
    generalize hf : c.fpf = f' at *
    generalize hs : c.splits = s' at *
    generalize hn : c.nextSeg = n' at *
    rw [h2, h1]

/-- A change of splits alone, and of the next segment of po, that opens nothing. -/
theorem LandStep.ofSplits (g : Gang) (t : Tab Split) (n : Nat)
    (h : ∀ e' ∈ t, ∀ p' ∈ e'.2.pend, ∃ e ∈ g.splits, ∃ p ∈ e.2.pend, p'.writes = p.writes ∧ p'.flags = p.flags) :
    LandStep g { g with splits := t, nextSeg := n } :=
  ⟨h, fun _ _ => rfl, fun _ => rfl, rfl⟩

/-- Some of a split's pending writes land, and the split keeps a part of the others. -/
theorem LandStep.land (g : Gang) (si : Nat) (sp sp' : Split) (ps : List Pending) (hsp : tget g.splits si = some sp)
    (h1 : ∀ p ∈ ps, p ∈ sp.pend) (h2 : ∀ p ∈ sp'.pend, p ∈ sp.pend) :
    LandStep g { landList g ps with splits := tset g.splits si sp' } := by
  obtain ⟨l1, l2, l3⟩ := landList_spec g ps
  have hm := mem_of_tget hsp
  refine ⟨?_, ?_, ?_, ?_⟩
  · intro e he p hp
    rcases mem_tset _ _ _ _ he with rfl | he
    · exact ⟨_, hm, p, h2 p hp, rfl, rfl⟩
    · exact ⟨e, he, p, hp, rfl, rfl⟩
  · exact fun c hc => l1 c fun p hp => hc _ hm p (h1 p hp)
  · exact fun hf => l2 fun p hp => hf _ hm p (h1 p hp)
  · generalize landList g ps = x at l3 ⊢
    rw [l3]

theorem landSplit_step (g : Gang) (si : Nat) : LandStep g (landSplit g si) := by
  unfold landSplit
  split
  · exact .refl g
  · rename_i sp h
    exact .land g si sp _ _ h (fun _ hp => hp) (by simp)

theorem landDue_step (g : Gang) (si : Nat) : LandStep g (landDue g si) := by
  unfold landDue
  split
  · exact .refl g
  · rename_i sp h
    exact .land g si sp _ _ h (fun _ hp => (List.mem_filter.mp hp).1) (fun _ hp => (List.mem_filter.mp hp).1)

/-- The pending writes of a split that a tick leaves are those that were there, but for cells given up. -/
theorem mem_yieldTo (ps : List Pending) (cells : List Nat) (p : Pending) (h : p ∈ yieldTo cells ps) :
    ∃ q ∈ ps, p.writes = q.writes ∧ p.flags = q.flags := by
  induction ps generalizing cells with
  | nil => simp [yieldTo] at h
  | cons q r ih =>
    have hr : ∀ c, p ∈ yieldTo c r → ∃ x ∈ q :: r, p.writes = x.writes ∧ p.flags = x.flags := fun c hc =>
      let ⟨x, hx, h'⟩ := ih c hc
      ⟨x, List.mem_cons_of_mem _ hx, h'⟩
    unfold yieldTo at h
    split at h
    · rcases List.mem_cons.mp h with rfl | h
      · exact ⟨q, by simp, by split <;> exact ⟨rfl, rfl⟩⟩
      · exact hr _ h
    · rcases List.mem_cons.mp h with rfl | h
      · exact ⟨p, by simp, rfl, rfl⟩
      · exact hr _ h

theorem mem_outlive (sp : Split) (cells : List Nat) (p : Pending) (h : p ∈ (outlive cells sp).pend) :
    ∃ q ∈ sp.pend, p.writes = q.writes ∧ p.flags = q.flags := by
  simp only [outlive, List.mem_map] at h
  obtain ⟨q, hq, rfl⟩ := h
  exact ⟨q, hq, by split <;> exact ⟨rfl, rfl⟩⟩

theorem tickSplit_step (g : Gang) (si : Nat) : LandStep g (tickSplit g si) := by
  apply LandStep.ofSplits (n := g.nextSeg)
  intro e he p hp
  simp only [tmod, List.mem_map] at he
  obtain ⟨x, hx, rfl⟩ := he
  split at hp
  · simp only [List.mem_map] at hp
    obtain ⟨q, hq, rfl⟩ := hp
    obtain ⟨a, ha, hw, hf⟩ := mem_yieldTo _ _ _ hq
    obtain ⟨b, hb, hw', hf'⟩ := mem_outlive _ _ _ ha
    exact ⟨x, hx, b, hb, hw.trans hw', hf.trans hf'⟩
  · exact ⟨x, hx, p, hp, rfl, rfl⟩

theorem foldl_landSplit_step (is : List Nat) (g : Gang) : LandStep g (is.foldl landSplit g) := by
  induction is generalizing g with
  | nil => exact .refl g
  | cons i r ih => exact (landSplit_step g i).trans (ih _)

theorem landGang_step (g : Gang) : LandStep g (landGang g) := foldl_landSplit_step _ g

/-! ### Settling -/

theorem stackArrive_pend (ex : Mask) (sp : Split) : (stackArrive ex sp).pend = sp.pend := by
  unfold stackArrive
  split
  · rfl
  · split
    · rfl
    · split <;> rfl

theorem mergeAt_step (g : Gang) (si : Nat) (sp : Split) (e : DivEntry) (rest : List DivEntry) :
    LandStep g (mergeAt g si sp e rest) := by
  unfold mergeAt
  dsimp only
  split
  · apply LandStep.ofSplits
    intro x hx p hp
    rcases mem_tset _ _ _ _ hx with rfl | hx
    · simp at hp
    · exact ⟨x, (List.mem_filter.mp hx).1, p, hp, rfl, rfl⟩
  · exact .refl g

theorem settleSplit_step (g : Gang) (si : Nat) : LandStep g (settleSplit g si) := by
  unfold settleSplit
  split
  · exact .refl g
  · rename_i sp h
    split
    · dsimp only
      split
      · exact landSplit_step g si
      · split
        · refine (landSplit_step g si).trans (.ofSplits _ _ (landSplit g si).nextSeg ?_)
          intro x hx p hp
          rcases mem_tset _ _ _ _ hx with rfl | hx
          · rw [stackArrive_pend] at hp; simp at hp
          · exact ⟨x, hx, p, hp, rfl, rfl⟩
        · exact (landSplit_step g si).trans (mergeAt_step _ _ _ _ _)
    · exact .refl g

/-! ### Splits that do not settle -/

/-- A change of a gang leaves its split `j`, where that stands at no merge point. -/
def LeavesSplit (j : Nat) (g g' : Gang) : Prop := Underway g j → Underway g' j ∧ tget g'.splits j = tget g.splits j

theorem LeavesSplit.refl (j : Nat) (g : Gang) : LeavesSplit j g g := fun h => ⟨h, rfl⟩

theorem LeavesSplit.trans {j : Nat} {a b c : Gang} (h : LeavesSplit j a b) (k : LeavesSplit j b c) : LeavesSplit j a c :=
  fun ha => ⟨(k (h ha).1).1, (k (h ha).1).2.trans (h ha).2⟩

/-- A write of another split of the table leaves it. -/
theorem LeavesSplit.tset {g g' : Gang} {j i : Nat} {sp : Split} (hi : i ≠ j) (hg : g'.splits = tset g.splits i sp) : LeavesSplit j g g' := by
  intro hu
  refine ⟨fun e he hj => ?_, by rw [hg, tget_tset_ne _ _ _ _ (Ne.symm hi)]⟩
  rw [hg] at he
  rcases mem_tset _ _ _ _ he with rfl | he
  · exact absurd hj hi
  · exact hu e he hj

/-- Splits that stand at a record's merge point. -/
theorem atMerge_of_standing {g : Gang} {e : DivEntry} {x : Nat × Split} (h : x ∈ standing g e) : x ∈ g.splits ∧ atMerge x.2 = true := by
  obtain ⟨hx, hp⟩ := List.mem_filter.mp h
  refine ⟨hx, ?_⟩
  unfold atMerge
  split at hp
  · simp at hp
  · rename_i f r hr
    simp only [Bool.and_eq_true, beq_iff_eq] at hp
    simp [hp.1.2, hp.1.1.1.2]

theorem foldl_min_mem (here : List (Nat × Split)) (i : Nat) :
    here.foldl (fun n x => min n x.1) i = i ∨ ∃ x ∈ here, x.1 = here.foldl (fun n x => min n x.1) i := by
  induction here generalizing i with
  | nil => exact .inl rfl
  | cons h r ih =>
    rcases ih (min i h.1) with h1 | ⟨x, hx, h1⟩
    · simp only [List.foldl_cons, h1]
      rcases Nat.le_total i h.1 with hl | hl
      · exact .inl (Nat.min_eq_left hl)
      · exact .inr ⟨h, by simp, (Nat.min_eq_right hl).symm⟩
    · exact .inr ⟨x, List.mem_cons_of_mem _ hx, h1⟩

theorem mergeAt_leaves (g : Gang) (si j : Nat) (sp : Split) (e : DivEntry) (rest : List DivEntry) (hj : si ≠ j) :
    LeavesSplit j g (mergeAt g si sp e rest) := by
  unfold mergeAt
  dsimp only
  split
  · intro hu
    have hout : ∀ x ∈ standing g e, x.1 ≠ j := fun x hx hxj => by
      obtain ⟨h1, h2⟩ := atMerge_of_standing hx
      simp [hu x h1 hxj] at h2
    have hlow : (standing g e).foldl (fun n x => min n x.1) si ≠ j := by
      rcases foldl_min_mem (standing g e) si with h | ⟨x, hx, h⟩
      · rw [h]; exact hj
      · rw [← h]; exact hout x hx
    refine (LeavesSplit.tset hlow rfl : LeavesSplit j { g with splits := g.splits.filter fun x => !((standing g e).any fun h => h.1 == x.1) } _)
      (fun x hx => hu x (List.mem_filter.mp hx).1) |>.imp id fun h => h.trans (tget_filter _ _ _ fun x hx hxj => ?_)
    simp only [Bool.not_eq_true', List.any_eq_false, beq_iff_eq]
    exact fun y hy hyx => hout y hy (hyx.trans hxj)
  · exact .refl _ _

theorem landSplit_leaves (g : Gang) (si j : Nat) (hj : si ≠ j) : LeavesSplit j g (landSplit g si) := by
  unfold landSplit
  split
  · exact .refl _ _
  · exact .tset hj rfl

theorem settleSplit_leaves (g : Gang) (si j : Nat) : LeavesSplit j g (settleSplit g si) := by
  by_cases hj : si = j
  · intro hu
    subst hj
    unfold settleSplit
    split
    · exact ⟨hu, rfl⟩
    · rename_i sp h
      simp only [hu _ (mem_of_tget h) rfl, Bool.false_and, Bool.false_eq_true, if_false]
      exact ⟨hu, trivial⟩
  · unfold settleSplit
    split
    · exact .refl _ _
    · split
      · dsimp only
        split
        · exact landSplit_leaves g si j hj
        · split
          · exact (landSplit_leaves g si j hj).trans (.tset hj rfl)
          · exact (landSplit_leaves g si j hj).trans (mergeAt_leaves _ _ _ _ _ _ hj)
      · exact .refl _ _

theorem foldl_settleSplit_leaves (is : List Nat) (g : Gang) (j : Nat) : LeavesSplit j g (is.foldl settleSplit g) := by
  induction is generalizing g with
  | nil => exact .refl _ _
  | cons i r ih => exact (settleSplit_leaves g i j).trans (ih _)

theorem settleGang_leaves (n : Nat) (g : Gang) (j : Nat) : LeavesSplit j g (settleGang g n) := by
  induction n generalizing g with
  | zero => exact .refl _ _
  | succ n ih =>
    unfold settleGang
    dsimp only
    split
    · exact .refl _ _
    · exact (foldl_settleSplit_leaves _ g j).trans (ih _)

/-- Settling leaves every split that stands at no merge point. -/
theorem settled_leaves (g : Gang) (j : Nat) : LeavesSplit j g (settled g) := by
  unfold settled
  split
  · exact settleGang_leaves _ g j
  · exact .refl _ _

/-- A split that waits for others to merge changes nothing. -/
theorem settleSplit_waiting (g : Gang) (i : Nat) (sp : Split) (h : tget g.splits i = some sp) (hr : risingFrom 0 g.splits = true)
    (hw : WaitsToMerge g sp) : settleSplit g i = g := by
  obtain ⟨hp, e, rest, he, hs, hm⟩ := hw
  have hsp : ({ sp with pend := [] } : Split) = sp := by rw [← hp]
  have hl : landSplit g i = g := by simp only [landSplit, h, hp, landList, List.reverse_nil, List.foldl_nil, hsp, tset_self _ _ _ hr h]
  unfold settleSplit
  rw [h]
  dsimp only
  split
  · rw [hl]
    simp only [he, hs, Option.isSome_none, Bool.false_eq_true, if_false, mergeAt, hm]
  · rfl

/-- Where no split can settle, nothing does. -/
theorem settled_noMerge (g : Gang) (si : Nat) (h : NoMerge g si) : settled g = g := by
  have hsplit : ∀ i, settleSplit g i = g := fun i => by
    cases hi : tget g.splits i with
    | none => simp [settleSplit, hi]
    | some sp =>
      by_cases hm : atMerge sp = true
      · exact settleSplit_waiting g i sp hi h.1 (h.2 _ (mem_of_tget hi) hm).2
      · simp [settleSplit, hi, hm]
  have hfold : ∀ is : List Nat, is.foldl settleSplit g = g := fun is => by
    induction is with
    | nil => rfl
    | cons i r ih => rw [List.foldl_cons, hsplit i, ih]
  unfold settled
  split
  · simp [settleRounds, settleGang, hfold]
  · rfl

theorem foldl_settleSplit_step (is : List Nat) (g : Gang) : LandStep g (is.foldl settleSplit g) := by
  induction is generalizing g with
  | nil => exact .refl g
  | cons i r ih => exact (settleSplit_step g i).trans (ih _)

theorem settleGang_step (n : Nat) (g : Gang) : LandStep g (settleGang g n) := by
  induction n generalizing g with
  | zero => exact .refl g
  | succ n ih =>
    unfold settleGang
    dsimp only
    split
    · exact .refl g
    · exact (foldl_settleSplit_step _ g).trans (ih _)

theorem settled_step (g : Gang) : LandStep g (settled g) := by
  unfold settled
  split
  · exact settleGang_step _ g
  · exact .refl g

/-! ### Retirement -/

/-- What one split looks like after a landing and a tick, apart from its pending writes. -/
theorem landDue_split (g : Gang) (si j : Nat) :
    (tget (landDue g si).splits j).map (fun q => { q with pend := [] }) = (tget g.splits j).map fun q => { q with pend := [] } := by
  unfold landDue
  split
  · rfl
  · rename_i sp h
    dsimp only
    rw [tget_tset]
    by_cases hj : j = si
    · subst hj; simp [h]
    · simp [hj]

theorem tickSplit_split (g : Gang) (si j : Nat) :
    (tget (tickSplit g si).splits j).map (fun q => { q with pend := [] }) = (tget g.splits j).map fun q => { q with pend := [] } := by
  unfold tickSplit
  dsimp only
  rw [tget_tmod]
  by_cases hj : j = si
  · subst hj; cases tget g.splits j <;> simp [outlive]
  · simp [hj]

/-- A tick and the landings behind it change the split `si` alone, and its pending writes alone. -/
theorem ticked_other (g : Gang) (si j : Nat) (hj : j ≠ si) :
    tget (landDue (tickSplit g si) si).splits j = tget g.splits j := by
  have h1 : tget (landDue (tickSplit g si) si).splits j = tget (tickSplit g si).splits j := by
    unfold landDue
    split
    · rfl
    · exact tget_tset_ne _ _ _ _ hj
  rw [h1]
  simp only [tickSplit]
  exact tget_tmod_ne _ _ _ _ hj

/-- The splits after a tick and its landings: as before, or split `si` with other pending writes. -/
theorem mem_ticked (g : Gang) (si : Nat) (e : Nat × Split) (h : e ∈ (landDue (tickSplit g si) si).splits) :
    (e ∈ g.splits ∧ e.1 ≠ si) ∨ ∃ x ∈ g.splits, x.1 = si ∧ e = (si, { x.2 with pend := e.2.pend }) := by
  have ht : ∀ y ∈ (tickSplit g si).splits, (y ∈ g.splits ∧ y.1 ≠ si) ∨ ∃ x ∈ g.splits, x.1 = si ∧ y = (si, { x.2 with pend := y.2.pend }) := by
    intro y hy
    simp only [tickSplit, tmod, List.mem_map] at hy
    obtain ⟨x, hx, rfl⟩ := hy
    by_cases hs : x.1 = si
    · exact .inr ⟨x, hx, hs, by simp [hs, outlive]⟩
    · simp only [hs, if_false]; exact .inl ⟨hx, hs⟩
  unfold landDue at h
  split at h
  · exact ht e h
  · rename_i sp hsp
    dsimp only at h
    rcases mem_tset _ _ _ _ h with rfl | h
    · rcases ht _ (mem_of_tget hsp) with ⟨_, h2⟩ | ⟨x, hx, hxs, heq⟩
      · exact absurd rfl h2
      · refine .inr ⟨x, hx, hxs, ?_⟩
        have := congrArg Prod.snd heq
        dsimp only at this
        rw [this]
    · exact ht e h

/-- Whether splits stand at their merge points does not hang on pending writes. -/
theorem ticked_underway (g : Gang) (si j : Nat) (h : Underway g j) : Underway (landDue (tickSplit g si) si) j := by
  intro e he hj
  rcases mem_ticked g si e he with ⟨h1, _⟩ | ⟨x, hx, hxs, heq⟩
  · exact h e h1 hj
  · have := h x hx (by rw [hxs, ← hj, heq])
    rw [heq]; exact this

/-- Gangs that differ in their split `si` alone, which stands at no merge point, merge alike. -/
theorem NoMerge.of {g g' : Gang} {si : Nat} (h : NoMerge g si) (hr : risingFrom 0 g'.splits = true) (hx : g'.exited = g.exited)
    (hd : dropKey si g'.splits = dropKey si g.splits) (hu : Underway g' si) : NoMerge g' si := by
  have hst : ∀ (u : Gang) (d : DivEntry), Underway u si → standing u d = standing { u with splits := dropKey si u.splits } d := by
    intro u d hu
    simp only [standing, dropKey, List.filter_filter]
    refine List.filter_congr fun y hy => ?_
    by_cases hs : y.1 = si
    · have hm := hu y hy hs
      unfold atMerge at hm
      cases hrec : y.2.recs with
      | nil => simp
      | cons f r =>
        simp only [hrec, beq_eq_false_iff_ne] at hm
        by_cases hf : f.mp = d.mp
        · simp [show y.2.pc ≠ d.mp from hf ▸ hm]
        · simp [hf]
    · simp [hs]
  have hug : Underway g si := fun e he hs => by
    cases hm : atMerge e.2 with
    | false => rfl
    | true => exact absurd hs (h.2 e he hm).1
  refine ⟨hr, fun e he hm => ?_⟩
  have hes : e.1 ≠ si := fun hs => by simp [hu e he hs] at hm
  have he' : e ∈ g.splits := by
    have : e ∈ dropKey si g'.splits := List.mem_filter.mpr ⟨he, by simp [hes]⟩
    rw [hd] at this
    exact (List.mem_filter.mp this).1
  obtain ⟨hp, d, rest, hrec, hs, hl⟩ := (h.2 e he' hm).2
  refine ⟨hes, hp, d, rest, hrec, hs, ?_⟩
  rw [hst g' d hu, hd, hx]
  rw [hst g d hug] at hl
  exact hl

/-- Where no merge takes place a tick and its landings bring none. -/
theorem ticked_noMerge (g : Gang) (si : Nat) (h : NoMerge g si) : NoMerge (landDue (tickSplit g si) si) si := by
  have ht : risingFrom 0 (tickSplit g si).splits = true := by simp only [tickSplit, risingFrom_tmod, h.1]
  have hd : dropKey si (tickSplit g si).splits = dropKey si g.splits := by simp only [tickSplit, dropKey_tmod]
  refine h.of ?_ (by rw [((tickSplit_step g si).trans (landDue_step _ si)).rest]) ?_ (ticked_underway g si si fun e he hs => ?_)
  · unfold landDue
    split
    · exact ht
    · exact risingFrom_tset _ _ _ ht
  · unfold landDue
    split
    · exact hd
    · exact (dropKey_tset _ _ _).trans hd
  · cases hm : atMerge e.2 with
    | false => rfl
    | true => exact absurd hs (h.2 e he hm).1

/-- The gang's own part of a retirement. -/
theorem retiredGang_after (s : State) (g : Gang) (si : Nat) (npc : DWord) : GangAfter g (retiredGang s g si npc) si npc := by
  -- the gang with its counts and its program counter, before its windows land
  let g2 : Gang := { g with
    rtc := g.rtc + 1, qCount := if gangDet s g then g.qCount + 1 else g.qCount,
    splits := tmod g.splits si (fun sp => { sp with pc := npc, wait := .none, last := s.ctl.clock, line := if npc = nextPc sp.pc then sp.line else none }),
    qEnded := g.qEnded || (gangDet s g && decide ((if gangDet s g then g.qCount + 1 else g.qCount) ≥ quantumOf s g)) }
  have hg : retiredGang s g si npc = settled (landDue (tickSplit g2 si) si) := rfl
  have hstep : LandStep g2 (retiredGang s g si npc) := by
    rw [hg]; exact (tickSplit_step g2 si).trans ((landDue_step _ si).trans (settled_step _))
  have hpend : ∀ e ∈ g2.splits, ∃ e' ∈ g.splits, e.2.pend = e'.2.pend := by
    intro e he
    simp only [g2, tmod, List.mem_map] at he
    obtain ⟨x, hx, rfl⟩ := he
    exact ⟨x, hx, by split <;> rfl⟩
  have hother : ∀ j, j ≠ si → tget g2.splits j = tget g.splits j := fun j hj => by
    simp only [g2]; exact tget_tmod_ne _ _ _ _ hj
  -- the same splits as of the gang moved to `npc`, as far as merge points go
  have hmoved : Underway (movedTo g si npc) si → Underway g2 si := fun h e he hs => by
    simp only [g2, tmod, List.mem_map] at he
    obtain ⟨x, hx, rfl⟩ := he
    have hxs : x.1 = si := by split at hs <;> exact hs
    have := h (if x.1 = si then (x.1, { x.2 with pc := npc }) else x) (by
      simp only [movedTo, tmod, List.mem_map]; exact ⟨x, hx, rfl⟩) (by simp [hxs])
    simp only [hxs, if_true] at this ⊢
    exact this
  refine ⟨fun c hc => ?_, fun hf => ?_, fun hp => ?_, fun j hj hu => ?_, fun hn j hj => ?_, ?_⟩
  · refine hstep.regs c ?_
    intro e he p hp
    obtain ⟨x, hx, hxe⟩ := hpend e he
    exact hc x hx p (hxe ▸ hp)
  · refine hstep.flags ?_
    intro e he p hp
    obtain ⟨x, hx, hxe⟩ := hpend e he
    exact hf x hx p (hxe ▸ hp)
  · rw [hg, (settled_leaves _ si (ticked_underway g2 si si (hmoved hp))).2]
    have h3 := (landDue_split (tickSplit g2 si) si si).trans (tickSplit_split g2 si si)
    have h4 := congrArg (Option.map fun (q : Split) => (q.pc, q.mask, q.fmt, q.recs)) h3
    simp only [Option.map_map, Function.comp_def] at h4
    rw [h4]
    simp only [g2, tget_tmod_self, Option.map_map, Function.comp_def]
  · have hu2 : Underway g2 j := fun e he hej => by
      simp only [g2, tmod, List.mem_map] at he
      obtain ⟨x, hx, rfl⟩ := he
      by_cases hs : x.1 = si
      · simp only [hs, if_true] at hej; exact absurd hej (Ne.symm hj)
      · simp only [hs, if_false] at hej ⊢; exact hu x hx hej
    rw [hg, (settled_leaves _ j (ticked_underway g2 si j hu2)).2, ticked_other _ _ _ hj, hother j hj]
  · have hn2 : NoMerge g2 si := by
      refine hn.of ?_ rfl (by simp only [g2, movedTo, dropKey_tmod]) (hmoved fun e he hs => ?_)
      · have := hn.1
        simp only [movedTo, risingFrom_tmod] at this
        simp only [g2, risingFrom_tmod, this]
      · cases hm : atMerge e.2 with
        | false => rfl
        | true => exact absurd hs (hn.2 e he hm).1
    rw [hg, settled_noMerge _ si (ticked_noMerge g2 si hn2), ticked_other _ _ _ hj, hother j hj]
  · have := hstep.rest
    rw [this]

theorem tget_noteIssued (s : State) (gid core h : Nat) :
    tget (noteIssued s gid core).gangs h = (tget s.gangs h).map fun x =>
      if h != gid && x.core == core then { x with yielded := x.yielded.map fun y => (y.1.filter (· != gid), y.2) } else x := by
  unfold noteIssued
  dsimp only
  have := tget_map s.gangs (fun i x => if i != gid && x.core == core then
    { x with yielded := x.yielded.map fun y => (y.1.filter (· != gid), y.2) } else x) h
  rw [← this]
  congr 1
  apply List.map_congr_left
  intro e _
  split <;> rfl

theorem countRetired_counted (s : State) (part cluster : Nat) : Counted s (countRetired s part cluster) part cluster where
  clusters := by
    intro c
    simp only [countRetired, getCluster, bumpFree_clusters, modPart_clusters, modCluster_clusters]
    rw [tget_tset]
    by_cases h : c = cluster
    · subst h; simp
    · simp [h]
  parts := by
    intro p
    simp only [countRetired, bumpFree_parts, modPart_parts, modCluster_parts]
    rw [tget_tmod]
    by_cases h : p = part
    · subst h; simp
    · simp [h]

/-- The retirement of an instruction that made the gang `g`. -/
theorem retireAt_retired (s : State) (gid si : Nat) (g : Gang) (npc : DWord) :
    Retired s (retireAt (setGang s gid g) gid si npc) gid g si npc := by
  have hg : tget (setGang s gid g).gangs gid = some g := by simp
  have hr : retireAt (setGang s gid g) gid si npc =
      noteIssued (countRetired (setGang (setGang s gid g) gid (retiredGang (setGang s gid g) g si npc)) g.part (gangCluster g))
        gid g.core := by
    simp only [retireAt, hg]
  rw [hr]
  have hc := countRetired_counted (setGang (setGang s gid g) gid (retiredGang (setGang s gid g) g si npc)) g.part (gangCluster g)
  refine ⟨⟨retiredGang (setGang s gid g) g si npc, ?_, retiredGang_after _ _ _ _⟩, fun h hne => ?_, ⟨fun c => ?_, fun p => ?_⟩, ?_⟩
  · rw [tget_noteIssued]
    simp [countRetired]
  · rw [tget_noteIssued]
    simp only [countRetired, bumpFree_gangs, modPart_gangs, modCluster_gangs, setGang_gangs]
    rw [tget_tset_ne _ _ _ _ hne, tget_tset_ne _ _ _ _ hne]
    simp only [Option.map_map, Function.comp_def]
    congr 1
    funext x
    split <;> rfl
  · exact hc.clusters c
  · exact hc.parts p
  · rfl

/-- The retirement of an instruction of an MCC that made the MCC `m`. -/
theorem retireMcc_retired (s : State) (cid : Nat) (c : Cohort) (m m' : Mcc) (npc : DWord) (hc : tget s.cohorts cid = some c)
    (hm : tget s.mccs cid = some m) :
    MccRetired s (retireMcc (modMcc s cid fun _ => m') cid npc) cid c m' npc := by
  have hr : retireMcc (modMcc s cid fun _ => m') cid npc =
      countRetired (modMcc (modMcc s cid fun _ => m') cid fun m => { m with rtc := m.rtc + 1, pc := npc, wait := .none }) c.part c.cluster := by
    simp only [retireMcc, modMcc_cohorts, hc]
  rw [hr]
  have hk := countRetired_counted
    (modMcc (modMcc s cid fun _ => m') cid fun m => { m with rtc := m.rtc + 1, pc := npc, wait := .none }) c.part c.cluster
  refine ⟨?_, fun h hne => ?_, ⟨fun x => hk.clusters x, fun p => hk.parts p⟩, rfl⟩
  · simp [countRetired, hm]
  · simp [countRetired, tget_tmod_ne _ _ _ _ hne]

end Sys2Proof.Machine
end

