-- ==== Sys2Proof/Tests/Slice0.lean ====
section
/-! SUPPORT. Tests: words of the spec's encodings, terms that are ill-formed, worked examples of the spec, single steps, and for
every statement with hypotheses a state and operands that meet them. -/

/- The theorems here are many and short: elaborating them one after another keeps the number of threads small. -/
set_option Elab.async false

namespace Sys2Proof.Tests

open Machine

/-! ### Decoding -/

/-- Words written out from the encodings of R62 to R70 and of R107 to R110, R97, R103 to R106. -/
theorem test_decode_system :
    decodeWord (0) = some (.nop)
    ∧ decodeWord (1) = some (.exit)
    ∧ decodeWord (2) = some (.yield)
    ∧ decodeWord (3) = some (.brk)
    ∧ decodeWord (20 * 2 ^ 11 + 4) = some (.eret 20)
    ∧ decodeWord (2 * 2 ^ 11 + 5) = some (.icinv .pk)
    ∧ decodeWord (1 * 2 ^ 11 + 6) = some (.pfence true)
    ∧ decodeWord (7) = some (.phase)
    ∧ decodeWord (8) = some (.halt)
    ∧ decodeWord (20 * 2 ^ 11 + 9) = some (.ret 20)
    ∧ decodeWord (0x01 * 2 ^ 25 + 21 * 2 ^ 3) = some (.trap 21)
    ∧ decodeWord (0x02 * 2 ^ 25 + 36 * 2 ^ 18 + 17 * 2 ^ 3) = some (.srd 36 .wbase)
    ∧ decodeWord (0x03 * 2 ^ 25 + 20 * 2 ^ 11 + 29 * 2 ^ 3) = some (.swr 20 .srseedHi)
    ∧ decodeWord (0x04 * 2 ^ 25 + 20 * 2 ^ 11) = some (.setfmt 20)
    ∧ decodeWord (0x05 * 2 ^ 25 + 21 * 2 ^ 3) = some (.winb 21) := by decide +kernel

/-- Words written out from the encodings of R62 to R70 and of R97, R101. -/
theorem test_decode_branches :
    decodeWord (0x06 * 2 ^ 25 + 173477) = some (.bra 173477)
    ∧ decodeWord (0x07 * 2 ^ 25 + 20 * 2 ^ 18 + 173477) = some (.brz 20 173477)
    ∧ decodeWord (0x08 * 2 ^ 25 + 20 * 2 ^ 18 + 173477) = some (.brnz 20 173477)
    ∧ decodeWord (0x09 * 2 ^ 25 + 20 * 2 ^ 18 + 173477) = some (.brany 20 173477)
    ∧ decodeWord (0x0A * 2 ^ 25 + 20 * 2 ^ 18 + 173477) = some (.brall 20 173477)
    ∧ decodeWord (0x0B * 2 ^ 25 + 20 * 2 ^ 18 + 173477) = some (.bkz 20 173477)
    ∧ decodeWord (0x0C * 2 ^ 25 + 20 * 2 ^ 18 + 173477) = some (.bknz 20 173477)
    ∧ decodeWord (0x0D * 2 ^ 25 + 20 * 2 ^ 18 + 173477) = some (.call 20 173477)
    ∧ decodeWord (0x0E * 2 ^ 25 + 20 * 2 ^ 11) = some (.jmpk 20)
    ∧ decodeWord (0x0F * 2 ^ 25 + 36 * 2 ^ 18 + 20 * 2 ^ 11) = some (.callk 36 20) := by decide +kernel

/-- Words written out from the encodings of R62 to R70 and of R84. -/
theorem test_decode_ialu :
    decodeWord (0x10 * 2 ^ 25 + 36 * 2 ^ 18 + 20 * 2 ^ 11 + 72 * 2 ^ 4) = some (.iadd 36 20 72)
    ∧ decodeWord (0x10 * 2 ^ 25 + 36 * 2 ^ 18 + 20 * 2 ^ 11 + 72 * 2 ^ 4 + 1) = some (.isub 36 20 72)
    ∧ decodeWord (0x10 * 2 ^ 25 + 36 * 2 ^ 18 + 20 * 2 ^ 11 + 72 * 2 ^ 4 + 2) = some (.imul 36 20 72)
    ∧ decodeWord (0x10 * 2 ^ 25 + 36 * 2 ^ 18 + 20 * 2 ^ 11 + 72 * 2 ^ 4 + 3) = some (.imulh 36 20 72)
    ∧ decodeWord (0x10 * 2 ^ 25 + 36 * 2 ^ 18 + 20 * 2 ^ 11 + 72 * 2 ^ 4 + 4) = some (.imulhu 36 20 72)
    ∧ decodeWord (0x10 * 2 ^ 25 + 36 * 2 ^ 18 + 20 * 2 ^ 11 + 72 * 2 ^ 4 + 5) = some (.imin 36 20 72)
    ∧ decodeWord (0x10 * 2 ^ 25 + 36 * 2 ^ 18 + 20 * 2 ^ 11 + 72 * 2 ^ 4 + 6) = some (.imax 36 20 72)
    ∧ decodeWord (0x10 * 2 ^ 25 + 36 * 2 ^ 18 + 20 * 2 ^ 11 + 72 * 2 ^ 4 + 7) = some (.iminu 36 20 72)
    ∧ decodeWord (0x10 * 2 ^ 25 + 36 * 2 ^ 18 + 20 * 2 ^ 11 + 72 * 2 ^ 4 + 8) = some (.and 36 20 72)
    ∧ decodeWord (0x10 * 2 ^ 25 + 36 * 2 ^ 18 + 20 * 2 ^ 11 + 72 * 2 ^ 4 + 9) = some (.or 36 20 72)
    ∧ decodeWord (0x10 * 2 ^ 25 + 36 * 2 ^ 18 + 20 * 2 ^ 11 + 72 * 2 ^ 4 + 10) = some (.xor 36 20 72)
    ∧ decodeWord (0x10 * 2 ^ 25 + 36 * 2 ^ 18 + 20 * 2 ^ 11 + 72 * 2 ^ 4 + 11) = some (.shl 36 20 72)
    ∧ decodeWord (0x10 * 2 ^ 25 + 36 * 2 ^ 18 + 20 * 2 ^ 11 + 72 * 2 ^ 4 + 12) = some (.shr 36 20 72)
    ∧ decodeWord (0x10 * 2 ^ 25 + 36 * 2 ^ 18 + 20 * 2 ^ 11 + 72 * 2 ^ 4 + 13) = some (.sra 36 20 72)
    ∧ decodeWord (0x10 * 2 ^ 25 + 36 * 2 ^ 18 + 20 * 2 ^ 11 + 72 * 2 ^ 4 + 14) = some (.rot 36 20 72)
    ∧ decodeWord (0x10 * 2 ^ 25 + 36 * 2 ^ 18 + 20 * 2 ^ 11 + 72 * 2 ^ 4 + 15) = some (.andn 36 20 72) := by decide +kernel

/-- Words written out from the encodings of R62 to R70 and of R85. -/
theorem test_decode_ialx :
    decodeWord (0x11 * 2 ^ 25 + 36 * 2 ^ 18 + 20 * 2 ^ 11 + 72 * 2 ^ 4) = some (.imad 36 20 72)
    ∧ decodeWord (0x11 * 2 ^ 25 + 36 * 2 ^ 18 + 20 * 2 ^ 11 + 72 * 2 ^ 4 + 1) = some (.iabsd 36 20 72)
    ∧ decodeWord (0x11 * 2 ^ 25 + 36 * 2 ^ 18 + 20 * 2 ^ 11 + 72 * 2 ^ 4 + 2) = some (.sel 36 20 72)
    ∧ decodeWord (0x11 * 2 ^ 25 + 36 * 2 ^ 18 + 20 * 2 ^ 11 + 72 * 2 ^ 4 + 3) = some (.bfe 36 20 72)
    ∧ decodeWord (0x11 * 2 ^ 25 + 36 * 2 ^ 18 + 20 * 2 ^ 11 + 72 * 2 ^ 4 + 4) = some (.bfi 36 20 72)
    ∧ decodeWord (0x11 * 2 ^ 25 + 36 * 2 ^ 18 + 20 * 2 ^ 11 + 5) = some (.popc 36 20)
    ∧ decodeWord (0x11 * 2 ^ 25 + 36 * 2 ^ 18 + 20 * 2 ^ 11 + 6) = some (.clz 36 20)
    ∧ decodeWord (0x11 * 2 ^ 25 + 36 * 2 ^ 18 + 20 * 2 ^ 11 + 7) = some (.ctz 36 20)
    ∧ decodeWord (0x11 * 2 ^ 25 + 36 * 2 ^ 18 + 20 * 2 ^ 11 + 8) = some (.brev 36 20)
    ∧ decodeWord (0x11 * 2 ^ 25 + 36 * 2 ^ 18 + 20 * 2 ^ 11 + 9) = some (.iabs 36 20)
    ∧ decodeWord (0x11 * 2 ^ 25 + 36 * 2 ^ 18 + 20 * 2 ^ 11 + 10) = some (.ineg 36 20)
    ∧ decodeWord (0x11 * 2 ^ 25 + 36 * 2 ^ 18 + 20 * 2 ^ 11 + 11) = some (.not 36 20)
    ∧ decodeWord (0x11 * 2 ^ 25 + 36 * 2 ^ 18 + 20 * 2 ^ 11 + 72 * 2 ^ 4 + 12) = some (.iadd64 36 20 72)
    ∧ decodeWord (0x11 * 2 ^ 25 + 36 * 2 ^ 18 + 20 * 2 ^ 11 + 72 * 2 ^ 4 + 13) = some (.isub64 36 20 72)
    ∧ decodeWord (0x11 * 2 ^ 25 + 36 * 2 ^ 18 + 20 * 2 ^ 11 + 72 * 2 ^ 4 + 14) = some (.imul64 36 20 72)
    ∧ decodeWord (0x11 * 2 ^ 25 + 36 * 2 ^ 18 + 20 * 2 ^ 11 + 72 * 2 ^ 4 + 15) = some (.shf 36 20 72) := by decide +kernel

/-- Words written out from the encodings of R62 to R70 and of R87 to R89. -/
theorem test_decode_immediates :
    decodeWord (0x12 * 2 ^ 25 + 36 * 2 ^ 18 + 20 * 2 ^ 11 + 72 * 2 ^ 4 + 7) = some (.iset .leu 36 20 72)
    ∧ decodeWord (0x13 * 2 ^ 25 + 36 * 2 ^ 18 + 20 * 2 ^ 11 + 21 * 2 ^ 3) = some (.iaddi 36 20 21)
    ∧ decodeWord (0x14 * 2 ^ 25 + 36 * 2 ^ 18 + 20 * 2 ^ 11 + 21 * 2 ^ 3) = some (.andi 36 20 21)
    ∧ decodeWord (0x15 * 2 ^ 25 + 36 * 2 ^ 18 + 20 * 2 ^ 11 + 21 * 2 ^ 3) = some (.ori 36 20 21)
    ∧ decodeWord (0x16 * 2 ^ 25 + 36 * 2 ^ 18 + 20 * 2 ^ 11 + 21 * 2 ^ 3) = some (.xori 36 20 21)
    ∧ decodeWord (0x17 * 2 ^ 25 + 36 * 2 ^ 18 + 20 * 2 ^ 11 + 21 * 2 ^ 3) = some (.shli 36 20 21)
    ∧ decodeWord (0x18 * 2 ^ 25 + 36 * 2 ^ 18 + 20 * 2 ^ 11 + 21 * 2 ^ 3) = some (.shri 36 20 21)
    ∧ decodeWord (0x18 * 2 ^ 25 + 36 * 2 ^ 18 + 20 * 2 ^ 11 + 21 * 2 ^ 3 + 1) = some (.shriA 36 20 21)
    ∧ decodeWord (0x19 * 2 ^ 25 + 36 * 2 ^ 18 + 20 * 2 ^ 11 + 21 * 2 ^ 3 + 7) = some (.iseti .geu 36 20 21)
    ∧ decodeWord (0x1A * 2 ^ 25 + 36 * 2 ^ 18 + 21 * 2 ^ 3) = some (.movi 36 21)
    ∧ decodeWord (0x1B * 2 ^ 25 + 36 * 2 ^ 18 + 20 * 2 ^ 11) = some (.movk 36 20) := by decide +kernel

/-- Words written out from the encodings of R62 to R70 and of R89 to R91. -/
theorem test_decode_moves_and_products :
    decodeWord (0x1C * 2 ^ 25 + 36 * 2 ^ 18 + 20 * 2 ^ 11) = some (.mov 36 20)
    ∧ decodeWord (0x1D * 2 ^ 25 + 36 * 2 ^ 18 + 20 * 2 ^ 11 + 72 * 2 ^ 4 + 3) = some (.idot .s4 36 20 72)
    ∧ decodeWord (0x1E * 2 ^ 25 + 36 * 2 ^ 18 + 20 * 2 ^ 11 + 72 * 2 ^ 4 + 1) = some (.imulw .unsigned 36 20 72) := by decide +kernel

/-- Words written out from the encodings of R62 to R70 and of R92. -/
theorem test_decode_kalu :
    decodeWord (0x20 * 2 ^ 25 + 36 * 2 ^ 18 + 20 * 2 ^ 11 + 72 * 2 ^ 4) = some (.kadd 36 20 72)
    ∧ decodeWord (0x20 * 2 ^ 25 + 36 * 2 ^ 18 + 20 * 2 ^ 11 + 72 * 2 ^ 4 + 1) = some (.ksub 36 20 72)
    ∧ decodeWord (0x20 * 2 ^ 25 + 36 * 2 ^ 18 + 20 * 2 ^ 11 + 72 * 2 ^ 4 + 2) = some (.kmul 36 20 72)
    ∧ decodeWord (0x20 * 2 ^ 25 + 36 * 2 ^ 18 + 20 * 2 ^ 11 + 72 * 2 ^ 4 + 3) = some (.kmulh 36 20 72)
    ∧ decodeWord (0x20 * 2 ^ 25 + 36 * 2 ^ 18 + 20 * 2 ^ 11 + 72 * 2 ^ 4 + 4) = some (.kmulhu 36 20 72)
    ∧ decodeWord (0x20 * 2 ^ 25 + 36 * 2 ^ 18 + 20 * 2 ^ 11 + 72 * 2 ^ 4 + 5) = some (.kmin 36 20 72)
    ∧ decodeWord (0x20 * 2 ^ 25 + 36 * 2 ^ 18 + 20 * 2 ^ 11 + 72 * 2 ^ 4 + 6) = some (.kmax 36 20 72)
    ∧ decodeWord (0x20 * 2 ^ 25 + 36 * 2 ^ 18 + 20 * 2 ^ 11 + 72 * 2 ^ 4 + 7) = some (.kminu 36 20 72)
    ∧ decodeWord (0x20 * 2 ^ 25 + 36 * 2 ^ 18 + 20 * 2 ^ 11 + 72 * 2 ^ 4 + 8) = some (.kand 36 20 72)
    ∧ decodeWord (0x20 * 2 ^ 25 + 36 * 2 ^ 18 + 20 * 2 ^ 11 + 72 * 2 ^ 4 + 9) = some (.kor 36 20 72)
    ∧ decodeWord (0x20 * 2 ^ 25 + 36 * 2 ^ 18 + 20 * 2 ^ 11 + 72 * 2 ^ 4 + 10) = some (.kxor 36 20 72)
    ∧ decodeWord (0x20 * 2 ^ 25 + 36 * 2 ^ 18 + 20 * 2 ^ 11 + 72 * 2 ^ 4 + 11) = some (.kshl 36 20 72)
    ∧ decodeWord (0x20 * 2 ^ 25 + 36 * 2 ^ 18 + 20 * 2 ^ 11 + 72 * 2 ^ 4 + 12) = some (.kshr 36 20 72)
    ∧ decodeWord (0x20 * 2 ^ 25 + 36 * 2 ^ 18 + 20 * 2 ^ 11 + 72 * 2 ^ 4 + 13) = some (.ksra 36 20 72)
    ∧ decodeWord (0x20 * 2 ^ 25 + 36 * 2 ^ 18 + 20 * 2 ^ 11 + 72 * 2 ^ 4 + 14) = some (.krot 36 20 72)
    ∧ decodeWord (0x20 * 2 ^ 25 + 36 * 2 ^ 18 + 20 * 2 ^ 11 + 72 * 2 ^ 4 + 15) = some (.kandn 36 20 72) := by decide +kernel

/-- Words written out from the encodings of R62 to R70 and of R93. -/
theorem test_decode_kalx :
    decodeWord (0x21 * 2 ^ 25 + 36 * 2 ^ 18 + 20 * 2 ^ 11 + 72 * 2 ^ 4) = some (.kmad 36 20 72)
    ∧ decodeWord (0x21 * 2 ^ 25 + 36 * 2 ^ 18 + 20 * 2 ^ 11 + 72 * 2 ^ 4 + 1) = some (.ksel 36 20 72)
    ∧ decodeWord (0x21 * 2 ^ 25 + 36 * 2 ^ 18 + 20 * 2 ^ 11 + 72 * 2 ^ 4 + 2) = some (.kbfe 36 20 72)
    ∧ decodeWord (0x21 * 2 ^ 25 + 36 * 2 ^ 18 + 20 * 2 ^ 11 + 72 * 2 ^ 4 + 3) = some (.kbfi 36 20 72)
    ∧ decodeWord (0x21 * 2 ^ 25 + 36 * 2 ^ 18 + 20 * 2 ^ 11 + 4) = some (.kpopc 36 20)
    ∧ decodeWord (0x21 * 2 ^ 25 + 36 * 2 ^ 18 + 20 * 2 ^ 11 + 5) = some (.kclz 36 20)
    ∧ decodeWord (0x21 * 2 ^ 25 + 36 * 2 ^ 18 + 20 * 2 ^ 11 + 72 * 2 ^ 4 + 6) = some (.kadd64 36 20 72)
    ∧ decodeWord (0x21 * 2 ^ 25 + 36 * 2 ^ 18 + 20 * 2 ^ 11 + 72 * 2 ^ 4 + 7) = some (.ksub64 36 20 72)
    ∧ decodeWord (0x21 * 2 ^ 25 + 36 * 2 ^ 18 + 20 * 2 ^ 11 + 72 * 2 ^ 4 + 8) = some (.kmul64 36 20 72)
    ∧ decodeWord (0x21 * 2 ^ 25 + 36 * 2 ^ 18 + 20 * 2 ^ 11 + 72 * 2 ^ 4 + 9) = some (.kmulw 36 20 72)
    ∧ decodeWord (0x21 * 2 ^ 25 + 36 * 2 ^ 18 + 20 * 2 ^ 11 + 72 * 2 ^ 4 + 10) = some (.kdivu 36 20 72)
    ∧ decodeWord (0x21 * 2 ^ 25 + 36 * 2 ^ 18 + 20 * 2 ^ 11 + 72 * 2 ^ 4 + 11) = some (.kremu 36 20 72) := by decide +kernel

/-- Words written out from the encodings of R62 to R70 and of R87, R92 to R96. -/
theorem test_decode_uniform :
    decodeWord (0x22 * 2 ^ 25 + 36 * 2 ^ 18 + 20 * 2 ^ 11 + 72 * 2 ^ 4 + 7) = some (.kset .leu 36 20 72)
    ∧ decodeWord (0x23 * 2 ^ 25 + 36 * 2 ^ 18 + 20 * 2 ^ 11 + 21 * 2 ^ 3) = some (.kaddi 36 20 21)
    ∧ decodeWord (0x24 * 2 ^ 25 + 36 * 2 ^ 18 + 21 * 2 ^ 3) = some (.kmovi 36 21)
    ∧ decodeWord (0x25 * 2 ^ 25 + 36 * 2 ^ 18 + 20 * 2 ^ 11 + 21 * 2 ^ 3) = some (.kshlImm 36 20 21)
    ∧ decodeWord (0x25 * 2 ^ 25 + 36 * 2 ^ 18 + 20 * 2 ^ 11 + 21 * 2 ^ 3 + 1) = some (.kshrImm 36 20 21)
    ∧ decodeWord (0x25 * 2 ^ 25 + 36 * 2 ^ 18 + 20 * 2 ^ 11 + 21 * 2 ^ 3 + 2) = some (.ksraImm 36 20 21)
    ∧ decodeWord (0x26 * 2 ^ 25 + 36 * 2 ^ 18 + 21 * 2 ^ 3) = some (.kldt 36 21)
    ∧ decodeWord (0x27 * 2 ^ 25 + 36 * 2 ^ 18 + 20 * 2 ^ 11 + 72 * 2 ^ 4) = some (.kread 36 20 72)
    ∧ decodeWord (0x28 * 2 ^ 25 + 36 * 2 ^ 18 + 20 * 2 ^ 11) = some (.kvoteAny 36 20)
    ∧ decodeWord (0x28 * 2 ^ 25 + 36 * 2 ^ 18 + 20 * 2 ^ 11 + 1) = some (.kvoteAll 36 20)
    ∧ decodeWord (0x28 * 2 ^ 25 + 36 * 2 ^ 18 + 20 * 2 ^ 11 + 2) = some (.kvoteBallot 36 20)
    ∧ decodeWord (0x29 * 2 ^ 25 + 36 * 2 ^ 18 + 20 * 2 ^ 11) = some (.kfirst 36 20) := by decide +kernel

/-- Words written out from the encodings of R62 to R70 and of R188 to R191. -/
theorem test_decode_tasks :
    decodeWord (0x2A * 2 ^ 25 + 36 * 2 ^ 18 + 20 * 2 ^ 11 + 21 * 2 ^ 3) = some (.spawn 36 20 21)
    ∧ decodeWord (0x2B * 2 ^ 25 + 36 * 2 ^ 18 + 20 * 2 ^ 11) = some (.chunk 36 20)
    ∧ decodeWord (0x2C * 2 ^ 25 + 36 * 2 ^ 18 + 20 * 2 ^ 11 + 72 * 2 ^ 4) = some (.msgsend 36 20 72)
    ∧ decodeWord (0x2D * 2 ^ 25 + 20 * 2 ^ 11) = some (.join 20) := by decide +kernel

/-- Words written out from the encodings of R62 to R70 and of R118 to R128. -/
theorem test_decode_floating_point :
    decodeWord (0x30 * 2 ^ 25 + 36 * 2 ^ 18 + 20 * 2 ^ 11 + 72 * 2 ^ 4) = some (.fadd 36 20 72)
    ∧ decodeWord (0x31 * 2 ^ 25 + 36 * 2 ^ 18 + 20 * 2 ^ 11 + 72 * 2 ^ 4) = some (.fsub 36 20 72)
    ∧ decodeWord (0x32 * 2 ^ 25 + 36 * 2 ^ 18 + 20 * 2 ^ 11 + 72 * 2 ^ 4) = some (.fmul 36 20 72)
    ∧ decodeWord (0x33 * 2 ^ 25 + 36 * 2 ^ 18 + 20 * 2 ^ 11 + 72 * 2 ^ 4) = some (.ffma 36 20 72)
    ∧ decodeWord (0x34 * 2 ^ 25 + 36 * 2 ^ 18 + 20 * 2 ^ 11 + 72 * 2 ^ 4) = some (.fmin 36 20 72)
    ∧ decodeWord (0x35 * 2 ^ 25 + 36 * 2 ^ 18 + 20 * 2 ^ 11 + 72 * 2 ^ 4) = some (.fmax 36 20 72)
    ∧ decodeWord (0x36 * 2 ^ 25 + 36 * 2 ^ 18 + 20 * 2 ^ 11 + 72 * 2 ^ 4 + 2) = some (.fset .le 36 20 72)
    ∧ decodeWord (0x37 * 2 ^ 25 + 36 * 2 ^ 18 + 20 * 2 ^ 11) = some (.fclass 36 20)
    ∧ decodeWord (0x38 * 2 ^ 25 + 36 * 2 ^ 18 + 20 * 2 ^ 11 + 2) = some (.frnd .dn 36 20)
    ∧ decodeWord (0x39 * 2 ^ 25 + 36 * 2 ^ 18 + 20 * 2 ^ 11 + 22 * 2 ^ 3) = some (.cvt (.u32F32 .dn) 36 20)
    ∧ decodeWord (0x3A * 2 ^ 25 + 36 * 2 ^ 18 + 20 * 2 ^ 11 + 72 * 2 ^ 4 + 4) = some (.fpack .e5m2 36 20 72)
    ∧ decodeWord (0x3B * 2 ^ 25 + 36 * 2 ^ 18 + 20 * 2 ^ 11 + 72 * 2 ^ 4) = some (.fscale 36 20 72)
    ∧ decodeWord (0x3C * 2 ^ 25 + 36 * 2 ^ 18 + 20 * 2 ^ 11 + 72 * 2 ^ 4 + 2) = some (.fdot2 .bf16 36 20 72)
    ∧ decodeWord (0x3D * 2 ^ 25 + 36 * 2 ^ 18 + 20 * 2 ^ 11) = some (.fq4 36 20) := by decide +kernel

/-- Words written out from the encodings of R62 to R70 and of R193, R204. -/
theorem test_decode_regions_and_groups :
    decodeWord (0x3E * 2 ^ 25 + 20 * 2 ^ 11) = some (.rxcfg 20)
    ∧ decodeWord (0x3E * 2 ^ 25 + 1) = some (.rxbody)
    ∧ decodeWord (0x3E * 2 ^ 25 + 2) = some (.rxend)
    ∧ decodeWord (0x3E * 2 ^ 25 + 3) = some (.rxabort)
    ∧ decodeWord (0x3F * 2 ^ 25 + 36 * 2 ^ 18 + 20 * 2 ^ 11 + 72 * 2 ^ 4) = some (.sgfork 36 20 72)
    ∧ decodeWord (0x3F * 2 ^ 25 + 36 * 2 ^ 18 + 72 * 2 ^ 4 + 1) = some (.sgreward 36 72)
    ∧ decodeWord (0x3F * 2 ^ 25 + 36 * 2 ^ 18 + 20 * 2 ^ 11 + 72 * 2 ^ 4 + 2) = some (.sgcancel 36 20 72)
    ∧ decodeWord (0x3F * 2 ^ 25 + 36 * 2 ^ 18 + 20 * 2 ^ 11 + 3) = some (.sgstat 36 20) := by decide +kernel

/-- Words written out from the encodings of R62 to R70 and of R129 to R132. -/
theorem test_decode_special_functions :
    decodeWord (0x40 * 2 ^ 25 + 36 * 2 ^ 18 + 20 * 2 ^ 11 + 9) = some (.rcp 36 20 9)
    ∧ decodeWord (0x40 * 2 ^ 25 + 36 * 2 ^ 18 + 20 * 2 ^ 11 + 1 * 2 ^ 4 + 9) = some (.rsqrt 36 20 9)
    ∧ decodeWord (0x40 * 2 ^ 25 + 36 * 2 ^ 18 + 20 * 2 ^ 11 + 2 * 2 ^ 4 + 9) = some (.sqrt 36 20 9)
    ∧ decodeWord (0x40 * 2 ^ 25 + 36 * 2 ^ 18 + 20 * 2 ^ 11 + 3 * 2 ^ 4 + 9) = some (.exp2 36 20 9)
    ∧ decodeWord (0x40 * 2 ^ 25 + 36 * 2 ^ 18 + 20 * 2 ^ 11 + 4 * 2 ^ 4 + 9) = some (.log2 36 20 9)
    ∧ decodeWord (0x40 * 2 ^ 25 + 36 * 2 ^ 18 + 20 * 2 ^ 11 + 5 * 2 ^ 4 + 9) = some (.sinpi 36 20 9)
    ∧ decodeWord (0x40 * 2 ^ 25 + 36 * 2 ^ 18 + 20 * 2 ^ 11 + 6 * 2 ^ 4 + 9) = some (.cospi 36 20 9)
    ∧ decodeWord (0x40 * 2 ^ 25 + 36 * 2 ^ 18 + 20 * 2 ^ 11 + 7 * 2 ^ 4 + 9) = some (.tanh 36 20 9)
    ∧ decodeWord (0x40 * 2 ^ 25 + 36 * 2 ^ 18 + 20 * 2 ^ 11 + 8 * 2 ^ 4 + 9) = some (.sigmoid 36 20 9)
    ∧ decodeWord (0x40 * 2 ^ 25 + 36 * 2 ^ 18 + 20 * 2 ^ 11 + 9 * 2 ^ 4 + 9) = some (.erf 36 20 9)
    ∧ decodeWord (0x40 * 2 ^ 25 + 36 * 2 ^ 18 + 20 * 2 ^ 11 + 10 * 2 ^ 4 + 9) = some (.texp 36 20 9)
    ∧ decodeWord (0x41 * 2 ^ 25 + 36 * 2 ^ 18 + 20 * 2 ^ 11 + 72 * 2 ^ 4 + 9) = some (.idiv 36 20 72 9)
    ∧ decodeWord (0x42 * 2 ^ 25 + 36 * 2 ^ 18 + 20 * 2 ^ 11 + 72 * 2 ^ 4 + 9) = some (.idivu 36 20 72 9)
    ∧ decodeWord (0x43 * 2 ^ 25 + 36 * 2 ^ 18 + 20 * 2 ^ 11 + 72 * 2 ^ 4 + 9) = some (.irem 36 20 72 9)
    ∧ decodeWord (0x44 * 2 ^ 25 + 36 * 2 ^ 18 + 20 * 2 ^ 11 + 72 * 2 ^ 4 + 9) = some (.iremu 36 20 72 9)
    ∧ decodeWord (0x45 * 2 ^ 25 + 36 * 2 ^ 18 + 20 * 2 ^ 11 + 72 * 2 ^ 4 + 9) = some (.fdiv 36 20 72 9) := by decide +kernel

/-- Words written out from the encodings of R62 to R70 and of R211. -/
theorem test_decode_determinism :
    decodeWord (0x46 * 2 ^ 25 + 20 * 2 ^ 11 + 72 * 2 ^ 4) = some (.digest 20 72)
    ∧ decodeWord (0x46 * 2 ^ 25 + 36 * 2 ^ 18 + 20 * 2 ^ 11 + 1) = some (.stepmark 36 20)
    ∧ decodeWord (0x46 * 2 ^ 25 + 2) = some (.qend) := by decide +kernel

/-- Words written out from the encodings of R62 to R70 and of R134 to R139. -/
theorem test_decode_lanes :
    decodeWord (0x48 * 2 ^ 25 + 36 * 2 ^ 18 + 20 * 2 ^ 11 + 72 * 2 ^ 4 + 2) = some (.lshfl .down 36 20 72)
    ∧ decodeWord (0x49 * 2 ^ 25 + 36 * 2 ^ 18 + 20 * 2 ^ 11 + 21 * 2 ^ 3) = some (.lbcast 36 20 21)
    ∧ decodeWord (0x4A * 2 ^ 25 + 36 * 2 ^ 18 + 20 * 2 ^ 11) = some (.leqm 36 20)
    ∧ decodeWord (0x4B * 2 ^ 25 + 36 * 2 ^ 18 + 20 * 2 ^ 11 + 1 * 2 ^ 3 + 3) = some (.lscan .imax true 36 20)
    ∧ decodeWord (0x4C * 2 ^ 25 + 36 * 2 ^ 18 + 20 * 2 ^ 11 + 7) = some (.lred .fmax 36 20)
    ∧ decodeWord (0x4D * 2 ^ 25 + 36 * 2 ^ 18 + 20 * 2 ^ 11) = some (.lrank 36 20)
    ∧ decodeWord (0x4E * 2 ^ 25 + 36 * 2 ^ 18 + 20 * 2 ^ 11) = some (.lpopm 36 20)
    ∧ decodeWord (0x4F * 2 ^ 25 + 36 * 2 ^ 18) = some (.rngnext 36)
    ∧ decodeWord (0x4F * 2 ^ 25 + 20 * 2 ^ 11 + 1) = some (.rngsplit 20)
    ∧ decodeWord (0x4F * 2 ^ 25 + 36 * 2 ^ 18 + 2) = some (.rngu 36) := by decide +kernel

/-- Words written out from the encodings of R62 to R70 and of R66, R143. -/
theorem test_decode_global_memory :
    decodeWord (0x50 * 2 ^ 25 + 36 * 2 ^ 18 + 20 * 2 ^ 11 + 11 * 2 ^ 7 + 7 * 2 ^ 4 + 9) = some (.ldgB 36 20 11 .fresh 9)
    ∧ decodeWord (0x51 * 2 ^ 25 + 36 * 2 ^ 18 + 20 * 2 ^ 11 + 11 * 2 ^ 7 + 3 * 2 ^ 4 + 9) = some (.ldgH 36 20 11 (.acq .sy) 9)
    ∧ decodeWord (0x52 * 2 ^ 25 + 36 * 2 ^ 18 + 20 * 2 ^ 11 + 11 * 2 ^ 7 + 3 * 2 ^ 4 + 9) = some (.ldgW 36 20 11 (.acq .sy) 9)
    ∧ decodeWord (0x53 * 2 ^ 25 + 36 * 2 ^ 18 + 20 * 2 ^ 11 + 11 * 2 ^ 7 + 3 * 2 ^ 4 + 9) = some (.ldgD 36 20 11 (.acq .sy) 9)
    ∧ decodeWord (0x54 * 2 ^ 25 + 36 * 2 ^ 18 + 20 * 2 ^ 11 + 11 * 2 ^ 7 + 3 * 2 ^ 4 + 9) = some (.ldgQ 36 20 11 (.acq .sy) 9)
    ∧ decodeWord (0x55 * 2 ^ 25 + 36 * 2 ^ 18 + 20 * 2 ^ 11 + 11 * 2 ^ 7 + 7 * 2 ^ 4) = some (.stgB 36 20 11 .stream)
    ∧ decodeWord (0x56 * 2 ^ 25 + 36 * 2 ^ 18 + 20 * 2 ^ 11 + 11 * 2 ^ 7 + 4 * 2 ^ 4) = some (.stgH 36 20 11 (.rel .cl))
    ∧ decodeWord (0x57 * 2 ^ 25 + 36 * 2 ^ 18 + 20 * 2 ^ 11 + 11 * 2 ^ 7 + 4 * 2 ^ 4) = some (.stgW 36 20 11 (.rel .cl))
    ∧ decodeWord (0x58 * 2 ^ 25 + 36 * 2 ^ 18 + 20 * 2 ^ 11 + 11 * 2 ^ 7 + 4 * 2 ^ 4) = some (.stgD 36 20 11 (.rel .cl))
    ∧ decodeWord (0x59 * 2 ^ 25 + 36 * 2 ^ 18 + 20 * 2 ^ 11 + 11 * 2 ^ 7 + 4 * 2 ^ 4) = some (.stgQ 36 20 11 (.rel .cl)) := by decide +kernel

/-- Words written out from the encodings of R62 to R70 and of R146. -/
theorem test_decode_scratchpad :
    decodeWord (0x5A * 2 ^ 25 + 36 * 2 ^ 18 + 20 * 2 ^ 11 + 11 * 2 ^ 7 + 9) = some (.ldsB 36 20 11 9)
    ∧ decodeWord (0x5B * 2 ^ 25 + 36 * 2 ^ 18 + 20 * 2 ^ 11 + 11 * 2 ^ 7 + 9) = some (.ldsH 36 20 11 9)
    ∧ decodeWord (0x5C * 2 ^ 25 + 36 * 2 ^ 18 + 20 * 2 ^ 11 + 11 * 2 ^ 7 + 9) = some (.ldsW 36 20 11 9)
    ∧ decodeWord (0x5D * 2 ^ 25 + 36 * 2 ^ 18 + 20 * 2 ^ 11 + 11 * 2 ^ 7 + 9) = some (.ldsD 36 20 11 9)
    ∧ decodeWord (0x5E * 2 ^ 25 + 36 * 2 ^ 18 + 20 * 2 ^ 11 + 11 * 2 ^ 7 + 9) = some (.ldsQ 36 20 11 9)
    ∧ decodeWord (0x5F * 2 ^ 25 + 36 * 2 ^ 18 + 20 * 2 ^ 11 + 11 * 2 ^ 7) = some (.stsB 36 20 11)
    ∧ decodeWord (0x60 * 2 ^ 25 + 36 * 2 ^ 18 + 20 * 2 ^ 11 + 11 * 2 ^ 7) = some (.stsH 36 20 11)
    ∧ decodeWord (0x61 * 2 ^ 25 + 36 * 2 ^ 18 + 20 * 2 ^ 11 + 11 * 2 ^ 7) = some (.stsW 36 20 11)
    ∧ decodeWord (0x62 * 2 ^ 25 + 36 * 2 ^ 18 + 20 * 2 ^ 11 + 11 * 2 ^ 7) = some (.stsD 36 20 11)
    ∧ decodeWord (0x63 * 2 ^ 25 + 36 * 2 ^ 18 + 20 * 2 ^ 11 + 11 * 2 ^ 7) = some (.stsQ 36 20 11) := by decide +kernel

/-- Words written out from the encodings of R62 to R70 and of R66, R67, R72, R147 to R151. -/
theorem test_decode_atomics :
    decodeWord (0x64 * 2 ^ 25 + 36 * 2 ^ 18 + 20 * 2 ^ 11 + 11 * 2 ^ 7 + 7 * 2 ^ 4 + 9) = some (.atomAdd 36 20 11 .arPk 9)
    ∧ decodeWord (0x65 * 2 ^ 25 + 36 * 2 ^ 18 + 20 * 2 ^ 11 + 11 * 2 ^ 7 + 9) = some (.atomMin 36 20 11 .plain 9)
    ∧ decodeWord (0x66 * 2 ^ 25 + 36 * 2 ^ 18 + 20 * 2 ^ 11 + 11 * 2 ^ 7 + 1 * 2 ^ 4 + 9) = some (.atomMax 36 20 11 (.acq .cl) 9)
    ∧ decodeWord (0x67 * 2 ^ 25 + 36 * 2 ^ 18 + 20 * 2 ^ 11 + 11 * 2 ^ 7 + 5 * 2 ^ 4 + 9) = some (.atomAnd 36 20 11 (.rel .pk) 9)
    ∧ decodeWord (0x68 * 2 ^ 25 + 36 * 2 ^ 18 + 20 * 2 ^ 11 + 11 * 2 ^ 7 + 5 * 2 ^ 4 + 9) = some (.atomOr 36 20 11 (.rel .pk) 9)
    ∧ decodeWord (0x69 * 2 ^ 25 + 36 * 2 ^ 18 + 20 * 2 ^ 11 + 11 * 2 ^ 7 + 5 * 2 ^ 4 + 9) = some (.atomXor 36 20 11 (.rel .pk) 9)
    ∧ decodeWord (0x6A * 2 ^ 25 + 36 * 2 ^ 18 + 20 * 2 ^ 11 + 11 * 2 ^ 7 + 5 * 2 ^ 4 + 9) = some (.atomXchg 36 20 11 (.rel .pk) 9)
    ∧ decodeWord (0x6B * 2 ^ 25 + 36 * 2 ^ 18 + 20 * 2 ^ 11 + 11 * 2 ^ 7 + 5 * 2 ^ 4 + 9) = some (.atomCas 36 20 11 (.rel .pk) 9)
    ∧ decodeWord (0x6C * 2 ^ 25 + 36 * 2 ^ 18 + 20 * 2 ^ 11 + 11 * 2 ^ 7 + 5 * 2 ^ 4 + 9) = some (.atomFadd 36 20 11 (.rel .pk) 9)
    ∧ decodeWord (0x6D * 2 ^ 25 + 36 * 2 ^ 18 + 20 * 2 ^ 11 + 11 * 2 ^ 7 + 6 * 2 ^ 4 + 7) = some (.red .add64 36 20 11 (.rel .sy))
    ∧ decodeWord (0x6E * 2 ^ 25 + 36 * 2 ^ 18 + 20 * 2 ^ 11 + 72 * 2 ^ 4 + 7) = some (.satom .cas 36 20 72)
    ∧ decodeWord (0x6F * 2 ^ 25 + 129 * 2 ^ 3) = some (.fence .copy .strand .pk) := by decide +kernel

/-- Words written out from the encodings of R62 to R70 and of R68, R152. -/
theorem test_decode_copies :
    decodeWord (0x70 * 2 ^ 25 + 5 * 2 ^ 18 + 16 * 2 ^ 11 + 2 * 2 ^ 7 + 1 * 2 ^ 4) = some (.cpyin (some 5) 16 2 1 .none)
    ∧ decodeWord (0x71 * 2 ^ 25 + 64 * 2 ^ 18 + 16 * 2 ^ 11 + 2 * 2 ^ 7 + 3 * 2 ^ 2) = some (.cpyout none 16 2 0 .release)
    ∧ decodeWord (0x72 * 2 ^ 25 + 5 * 2 ^ 18 + 16 * 2 ^ 11 + 2 * 2 ^ 7 + 1 * 2 ^ 4) = some (.cpyatt (some 5) 16 2 1 .none)
    ∧ decodeWord (0x73 * 2 ^ 25 + 64 * 2 ^ 18 + 16 * 2 ^ 11 + 2 * 2 ^ 7 + 3 * 2 ^ 2) = some (.cpyg none 16 2 0 .release) := by decide +kernel

/-- Words written out from the encodings of R62 to R70 and of R72, R158, R161 to R164. -/
theorem test_decode_tags_and_barriers :
    decodeWord (0x74 * 2 ^ 25 + 20 * 2 ^ 11) = some (.tagwany 20)
    ∧ decodeWord (0x74 * 2 ^ 25 + 20 * 2 ^ 11 + 1) = some (.tagwall 20)
    ∧ decodeWord (0x74 * 2 ^ 25 + 36 * 2 ^ 18 + 20 * 2 ^ 11 + 2) = some (.tagff 36 20)
    ∧ decodeWord (0x74 * 2 ^ 25 + 20 * 2 ^ 11 + 3) = some (.tagclr 20)
    ∧ decodeWord (0x75 * 2 ^ 25 + 36 * 2 ^ 18 + 20 * 2 ^ 11 + 140 * 2 ^ 3) = some (.barr 36 20 (.launch 3))
    ∧ decodeWord (0x75 * 2 ^ 25 + 36 * 2 ^ 18 + 20 * 2 ^ 11 + 140 * 2 ^ 3 + 1) = some (.barw 36 20 (.launch 3))
    ∧ decodeWord (0x75 * 2 ^ 25 + 36 * 2 ^ 18 + 20 * 2 ^ 11 + 140 * 2 ^ 3 + 2) = some (.barwait 36 20 (.launch 3))
    ∧ decodeWord (0x75 * 2 ^ 25 + 36 * 2 ^ 18 + 20 * 2 ^ 11 + 140 * 2 ^ 3 + 3) = some (.barx 36 20 (.launch 3))
    ∧ decodeWord (0x75 * 2 ^ 25 + 36 * 2 ^ 18 + 20 * 2 ^ 11 + 140 * 2 ^ 3 + 4) = some (.bart 36 20 (.launch 3))
    ∧ decodeWord (0x75 * 2 ^ 25 + 20 * 2 ^ 11 + 92 * 2 ^ 3 + 5) = some (.barp 20 (.cohort 7))
    ∧ decodeWord (0x75 * 2 ^ 25 + 36 * 2 ^ 18 + 60 * 2 ^ 3 + 6) = some (.barq 36 (.crew 15))
    ∧ decodeWord (0x76 * 2 ^ 25 + 20 * 2 ^ 11 + 92 * 2 ^ 3) = some (.barcfg 20 (.cohort 7))
    ∧ decodeWord (0x77 * 2 ^ 25 + 20 * 2 ^ 11 + 72 * 2 ^ 4) = some (.waitc 20 72)
    ∧ decodeWord (0x77 * 2 ^ 25 + 20 * 2 ^ 11 + 72 * 2 ^ 4 + 1) = some (.sigc 20 72)
    ∧ decodeWord (0x77 * 2 ^ 25 + 36 * 2 ^ 18 + 20 * 2 ^ 11 + 2) = some (.readc 36 20) := by decide +kernel

/-- Words written out from the encodings of R62 to R70 and of R69, R166 to R184. -/
theorem test_decode_matrix :
    decodeWord (0x78 * 2 ^ 25 + 3 * 2 ^ 22 + 9 * 2 ^ 18 + 20 * 2 ^ 11 + 72 * 2 ^ 4 + 1 * 2 ^ 1 + 1) = some (.mma .m64n64 9 20 72 false true true)
    ∧ decodeWord (0x78 * 2 ^ 25 + 6 * 2 ^ 22 + 15 * 2 ^ 18 + 20 * 2 ^ 11 + 5 * 2 ^ 4 + 1 * 2 ^ 3 + 4 + 1) = some (.mmag .m128n128k2 15 20 5 true false true)
    ∧ decodeWord (0x7A * 2 ^ 25 + 13 * 2 ^ 3) = some (.mzero 13)
    ∧ decodeWord (0x7A * 2 ^ 25 + 36 * 2 ^ 18 + 20 * 2 ^ 11 + 1 * 2 ^ 7 + 11 * 2 ^ 3 + 1) = some (.mdrain 36 20 11 true)
    ∧ decodeWord (0x7A * 2 ^ 25 + 2) = some (.mwait)
    ∧ decodeWord (0x7A * 2 ^ 25 + 6 * 2 ^ 18 + 20 * 2 ^ 11 + 3) = some (.gset 6 20)
    ∧ decodeWord (0x7A * 2 ^ 25 + 4) = some (.mccRdv)
    ∧ decodeWord (0x7B * 2 ^ 25 + 20 * 2 ^ 11) = some (.fork 20)
    ∧ decodeWord (0x7B * 2 ^ 25 + 1) = some (.rdv)
    ∧ decodeWord (0x7C * 2 ^ 25 + 36 * 2 ^ 18 + 20 * 2 ^ 11 + 72 * 2 ^ 4 + 3) = some (.geval 36 20 72 3) := by decide +kernel

/-! ### Ill-formed terms -/

/-- Register fields, pairs and blocks that no word holds (R62, R63). -/
theorem test_ill_formed_registers :
    Instr.wf (.iadd 128 0 0) = false ∧ Instr.wf (.iadd64 2 3 4) = false ∧ Instr.wf (.iadd64 128 2 4) = false
    ∧ Instr.wf (.rxcfg 115) = false ∧ Instr.wf (.rxcfg 114) = true ∧ Instr.wf (.msgsend 0 0 113) = false ∧ Instr.wf (.gset 0 121) = false
    ∧ Instr.wf (.mmag .m64n64 0 126 0 false false false) = false := by decide

/-- Immediates, displacements, lookaheads, counts and lanes out of their fields (R62, R69). -/
theorem test_ill_formed_immediates :
    Instr.wf (.trap 256) = false ∧ Instr.wf (.bra 262144) = false ∧ Instr.wf (.rcp 0 0 16) = false ∧ Instr.wf (.ldgW 0 0 16 .plain 0) = false
    ∧ Instr.wf (.shli 0 0 32) = false ∧ Instr.wf (.kshlImm 0 0 32) = false ∧ Instr.wf (.lbcast 0 0 64) = false := by decide

/-- Barrier numbers (R72), quads, wide operands and generators. -/
theorem test_ill_formed_objects :
    Instr.wf (.barq 0 (.crew 16)) = false ∧ Instr.wf (.barq 0 (.cohort 8)) = false ∧ Instr.wf (.barq 0 (.launch 4)) = false
    ∧ Instr.wf (.ldgQ 2 0 0 .plain 0) = false ∧ Instr.wf (.red .add64 1 0 0 .plain) = false ∧ Instr.wf (.satom .cas 0 0 1) = false
    ∧ Instr.wf (.atomCas 1 0 0 .plain 0) = false ∧ Instr.wf (.geval 0 0 0 8) = false ∧ Instr.wf (.mzero 16) = false := by decide

/-- Copies: a tag, an odd block, a block that ends beyond register 127, a layout pair, a barrier (R68). -/
theorem test_ill_formed_copies :
    Instr.wf (.cpyin (some 64) 0 0 0 .plain) = false ∧ Instr.wf (.cpyin none 1 0 0 .plain) = false
    ∧ Instr.wf (.cpyin none 120 0 0 .plain) = false ∧ Instr.wf (.cpyg none 118 0 0 .plain) = false
    ∧ Instr.wf (.cpyin none 118 0 0 .plain) = true ∧ Instr.wf (.cpyin none 0 16 0 .plain) = false
    ∧ Instr.wf (.cpyin none 0 0 8 .plain) = false := by decide

/-! ### Worked examples of the spec -/

/-- R84: counts beyond the width. -/
theorem test_shifts_by_40 :
    shlW 0x80000000 40 = 0 ∧ shrW 0x80000000 40 = 0 ∧ sraW 0x80000000 40 = 0xFFFFFFFF ∧ rotW 0x80000000 36 = 8 := by decide

/-- R86: bfe with and without the sign bit. -/
theorem test_bfe : bfeW 0xCAFE1234 0x8814 = 0xFFFFFFAF ∧ bfeW 0xCAFE1234 0x0814 = 0xAF := by decide

/-- R90: saturation once, on the exact total. -/
theorem test_idot_s8 : idotW .s8 0x00807F7F 0x00020102 0x7FFFFF38 = 0x7FFFFFB5 := by decide

/-- R131: −7 by 2. -/
theorem test_signed_divide : idivW 0xFFFFFFF9 2 = 0xFFFFFFFD ∧ iremW 0xFFFFFFF9 2 = 0xFFFFFFFF := by decide

/-- R45: the sign of an exact zero. -/
theorem test_sum_of_zeros : fadd32 ctlRne 0x80000000 0x80000000 = (0x80000000, 0) ∧ fadd32 ctlRne 0x3F800000 0xBF800000 = (0, 0) := by
  decide

/-- R118: one rounding, (1 + 2^−23)(1 − 2^−23) − 1 = −2^−46. -/
theorem test_ffma : ffma32 ctlRne 0x3F800001 0x3F7FFFFE 0xBF800000 = (0xA8800000, 0) := by decide

/-- R122: 2.5 under .ne, −0.5 under .up, −2.5 under .dn. -/
theorem test_frnd :
    (frnd32 .ne ctlRne 0x40200000).1 = 0x40000000 ∧ (frnd32 .up ctlRne 0xBF000000).1 = 0x80000000
    ∧ (frnd32 .dn ctlRne 0xC0200000).1 = 0xC0400000 := by decide

/-- R123: 3.0 · 2^−150 rounds to 2^−148, the tie to even. -/
theorem test_fscale : (fscale32 ctlRne 0x40400000 0xFFFFFF6A).1 = 2 := by decide

/-- The worked conversions of π. -/
theorem test_conversions_of_pi :
    ((cvt32 .bf16F32 ctlRne 0x40490FDB).1, (cvt32 .f16F32 ctlRne 0x40490FDB).1) = (0x4049, 0x4248)
    ∧ ((cvt32 .e4m3F32 ctlRne 0x40490FDB).1, (cvt32 .e4m3F32 { ctlRne with mode := .rz } 0x40490FDB).1) = (0x45, 0x44)
    ∧ (cvt32 .e5m2F32 ctlRne 0x40490FDB).1 = 0x42 := by decide

/-- R51: 460.0, 464.0 and 470.0 to E4M3. -/
theorem test_overflow_to_e4m3 :
    cvt32 .e4m3F32 ctlRne 0x43E60000 = (0x7E, flInexact) ∧ (cvt32 .e4m3F32 ctlRne 0x43E80000).1 = 0x7E
    ∧ (cvt32 .e4m3F32 ctlRne 0x43EB0000).1 = 0x7F ∧ (cvt32 .e4m3F32 { ctlRne with sat := true } 0x43EB0000).1 = 0x7E := by decide

/-- R54: 2^−24 and 1.5 · 2^−25 to FP16, and under flush. -/
theorem test_subnormal_conversion :
    cvt32 .f16F32 ctlRne 0x33800000 = (1, 0) ∧ cvt32 .f16F32 ctlRne 0x33400000 = (1, flUnderflow ||| flInexact)
    ∧ cvt32 .f16F32 { ctlRne with mode := .rz } 0x33400000 = (0, flUnderflow ||| flInexact)
    ∧ cvt32 .f16F32 { ctlRne with flush := true } 0x33800000 = (0, flUnderflow ||| flInexact) := by decide

/-- R60: the worked block: its codes, its scale, inexact. -/
theorem test_fq4_block :
    fq4Block [0x3E99999A, 0xBF99999A, 0x40200000, 0, 0x3D4CCCCD, 0x40E00000, 0xC0666666, 0x3FE66666] =
      ([0x1, 0xA, 0x4, 0x0, 0x0, 0x7, 0xD, 0x3], 0x66, flInexact) := by decide +kernel

/-- R139: STEP from state 1. -/
theorem test_rng_step : rngStep 1 = 0x40822041 := by decide

/-- R57: two groups that each sum to 1.0 leave 2^24 as it is. -/
theorem test_group_sums :
    mmaCell false 0x4B800000 (List.replicate 2 ((List.range 32).map fun i => if i = 0 then .num false 1 0 else .num false 0 0)).flatten
      (List.replicate 64 (.num false 1 0)) = (0x4B800000, flInexact) := by decide +kernel

/-- R190: the pieces of 0 to 1,000 with min_chunk 8 and four consumers, then with 20, 5 and no indices left. -/
theorem test_chunk_pieces :
    chunkPiece 0 1000 8 4 = some (0, 125, 125) ∧ chunkPiece 125 1000 8 4 = some (125, 110, 235)
    ∧ chunkPiece 235 1000 8 4 = some (235, 96, 331) ∧ chunkPiece 331 1000 8 4 = some (331, 84, 415)
    ∧ chunkPiece 980 1000 8 4 = some (980, 8, 988) ∧ chunkPiece 995 1000 8 4 = some (995, 5, 1000)
    ∧ chunkPiece 1000 1000 8 4 = some (1000, 0, 1000) := by decide

/-- R207: two rewards by a mean of 2 with spread 1, and ε of 2^−20: ∓(1 − 2^−20). -/
theorem test_advantages :
    advantages 0x35800000 [0x3F800000, 0x40400000] = (0x40000000, 0x3F800000, [0xBF7FFFF0, 0x3F7FFFF0]) := by decide +kernel

/-- R147: four lanes add 1, 2, 3 and 4 to a word that holds 10. -/
theorem test_atom_add_lanes :
    ((rmwLanes { State.reset with mem := { State.reset.mem with bytes := [(64, 10)] } } .pantry none .add
        [⟨0, 64, 1, 0, 0⟩, ⟨1, 64, 2, 0, 0⟩, ⟨2, 64, 3, 0, 0⟩, ⟨3, 64, 4, 0, 0⟩]).2.map (·.2)) = [10, 11, 13, 16]
    ∧ memLE (rmwLanes { State.reset with mem := { State.reset.mem with bytes := [(64, 10)] } } .pantry none .add
        [⟨0, 64, 1, 0, 0⟩, ⟨1, 64, 2, 0, 0⟩, ⟨2, 64, 3, 0, 0⟩, ⟨3, 64, 4, 0, 0⟩]).1 64 4 = 20 := by decide +kernel


/-! ### States and witnesses -/

/-- Split 0 of gang 0 issues, with 64 lanes, 256 registers and supervisor rights; and the MCC of cohort 0 (log entry 1). -/
def base : State := State.reset.withFetchWord 32 0
def mccBase : State := State.reset.withFetchWord 32 0xF4000002

def gangState (f : Gang → Gang) : State := modGang base 0 f
def mccState (f : Mcc → Mcc) : State := modMcc mccBase 0 f
def lane0 (g : Gang) : Gang := { g with splits := tmod g.splits 0 fun q => { q with mask := 1 } }
def userGang (g : Gang) : Gang := { g with level := .user }
def launchWith (s : State) (f : Launch → Launch) : State := modRange s 0 fun r => { r with launch := f r.launch }
def detState (f : Gang → Gang) : State := launchWith (gangState f) fun l => { l with det := true }
def withK (ks : List (Nat × Word)) (g : Gang) : Gang := { g with k := csets g.k ks }
def withV (vs : List (Nat × Word)) (g : Gang) : Gang := { g with v := csets g.v vs }

def gang0 (s : State) : Gang := (tget s.gangs 0).getD (placedGang 0)
def split0 (g : Gang) : Split :=
  (tget g.splits 0).getD { pc := 0, mask := 0, fmt := 0, recs := [], pend := [], wait := .none, last := 0, seg := 0, before := [],
                              known := Known.none, acqs := [], line := none, seen := [], saw := [], after := [], near := [] }
def cohort0 (s : State) : Cohort := (tget s.cohorts 0).getD placedCohort
def mcc0 (s : State) : Mcc := (tget s.mccs 0).getD placedMcc

/-- Some state meets the premises of `OnGang`, of `OnGangClosing` and of `OnMcc`. -/
def GangWitness (vs : List Nat) (b : InBody) (pre : State → Nat → Gang → Nat → Split → Prop) : Prop :=
  ∃ s gid g si sp, Issues s gid g si sp ∧ Clear s g sp vs b ∧ pre (atIssue s gid g) gid g si sp

def ClosingWitness (vs : List Nat) (b : InBody) (pre : State → Nat → Gang → Nat → Split → Prop) : Prop :=
  ∃ s gid g si sp, Issues s gid g si sp ∧ ClearClosing s g si sp vs b
    ∧ pre (atIssue s gid (closedGang g si)) gid (closedGang g si) si (closedSplit sp)

def MccWitness (pre : State → Nat → Cohort → Mcc → Prop) : Prop :=
  ∃ s cid c m, MccIssues s cid c m ∧ limitReached s c.range m.rtc = false ∧ pre s cid c m

def issues0 (s : State) : Bool := decide (s.ctl.cur = .gang 0 0) && (tget s.gangs 0).isSome && (tget (gang0 s).splits 0).isSome

theorem issues_of {s : State} (h : issues0 s = true) : Issues s 0 (gang0 s) 0 (split0 (gang0 s)) := by
  simp only [issues0, Bool.and_eq_true, decide_eq_true_eq] at h
  obtain ⟨⟨h1, h2⟩, h3⟩ := h
  obtain ⟨g, hg⟩ := Option.isSome_iff_exists.1 h2
  obtain ⟨q, hq⟩ := Option.isSome_iff_exists.1 h3
  exact ⟨h1, by simp [gang0, hg], by simp [split0, hq]⟩

def clear0 (s : State) (vs : List Nat) (b : InBody) : Bool :=
  issues0 s && !outOfWindow (gang0 s) vs && !limitReached s (gang0 s).range (gang0 s).rtc && !breaksRegion (gang0 s) b

def clearClosing0 (s : State) (vs : List Nat) (b : InBody) : Bool :=
  issues0 s && !splitOpen (split0 (gang0 s)) && !outOfWindow (closedGang (gang0 s) 0) vs
    && !limitReached s (closedGang (gang0 s) 0).range (closedGang (gang0 s) 0).rtc && !breaksRegion (closedGang (gang0 s) 0) b

theorem clearClosing_of {s : State} {vs : List Nat} {b : InBody} (h : clearClosing0 s vs b = true) :
    Issues s 0 (gang0 s) 0 (split0 (gang0 s)) ∧ ClearClosing s (gang0 s) 0 (split0 (gang0 s)) vs b := by
  simp only [clearClosing0, Bool.and_eq_true, Bool.not_eq_true'] at h
  obtain ⟨⟨⟨⟨h1, h2⟩, h3⟩, h4⟩, h5⟩ := h
  exact ⟨issues_of h1, h2, h3, h4, h5⟩

theorem on_gang {vs : List Nat} {b : InBody} {pre : State → Nat → Gang → Nat → Split → Prop} (s : State) (h : clear0 s vs b = true)
    (hp : pre (atIssue s 0 (gang0 s)) 0 (gang0 s) 0 (split0 (gang0 s))) : GangWitness vs b pre := by
  simp only [clear0, Bool.and_eq_true, Bool.not_eq_true'] at h
  obtain ⟨⟨⟨h1, h2⟩, h3⟩, h4⟩ := h
  exact ⟨s, 0, _, 0, _, issues_of h1, ⟨h2, h3, h4⟩, hp⟩

theorem on_closing {vs : List Nat} {b : InBody} {pre : State → Nat → Gang → Nat → Split → Prop} (s : State)
    (h : clearClosing0 s vs b = true)
    (hp : pre (atIssue s 0 (closedGang (gang0 s) 0)) 0 (closedGang (gang0 s) 0) 0 (closedSplit (split0 (gang0 s)))) :
    ClosingWitness vs b pre :=
  ⟨s, 0, _, 0, _, (clearClosing_of h).1, (clearClosing_of h).2, hp⟩

def mccIssues0 (s : State) : Bool := decide (s.ctl.cur = .mcc 0) && (tget s.cohorts 0).isSome && (tget s.mccs 0).isSome

theorem mccIssues_of {s : State} (h : mccIssues0 s = true) : MccIssues s 0 (cohort0 s) (mcc0 s) := by
  simp only [mccIssues0, Bool.and_eq_true, decide_eq_true_eq] at h
  obtain ⟨⟨h1, h2⟩, h3⟩ := h
  obtain ⟨c, hc⟩ := Option.isSome_iff_exists.1 h2
  obtain ⟨m, hm⟩ := Option.isSome_iff_exists.1 h3
  exact ⟨h1, by simp [cohort0, hc], by simp [mcc0, hm]⟩

theorem on_mcc {pre : State → Nat → Cohort → Mcc → Prop} (s : State)
    (h : (mccIssues0 s && !limitReached s (cohort0 s).range (mcc0 s).rtc) = true) (hp : pre s 0 (cohort0 s) (mcc0 s)) :
    MccWitness pre := by
  simp only [Bool.and_eq_true, Bool.not_eq_true'] at h
  exact ⟨s, 0, _, _, mccIssues_of h.1, h.2, hp⟩

/-- Outside a durable launch a publication instruction goes on in the state as it is. -/
theorem sealed_of {s : State} {gid si : Nat} {g : Gang} {sp : Split} (hd : gangDurable s g = false) (hg : tget s.gangs gid = some g)
    (hs : tget g.splits si = some sp) : Sealed s gid g si s g sp :=
  ⟨by simp [hd], by simp [hd], hg, hs⟩

/-! ### Witnesses: the machine, decoding, steps -/

/-- StepKeepsCanonicalMemory, StepAlwaysAnswers, StepRunsTheFetchedWord: a state in canonical form whose step answers. -/
theorem witness_step :
    (base.mem.bytes.wf = true ∧ base.mem.host.wf = true) ∧ (∃ t, step base = .next t) ∧ issuer base ≠ none ∧ base.ctl.inputs = []
    ∧ base.ctl.granted = true ∧ fetched (ungrant base) = some (.ok 0) ∧ decodeWord 0 = some .nop := by
  refine ⟨by decide, ⟨_, rfl⟩, by decide, rfl, rfl, rfl, by decide⟩

/-- A landing of register 5 on lane 0 that has come due before its result. -/
def lateWrite : Pending :=
  { left := 0, writes := [], flags := 0, replies := [9], dst := [5 * 64], dead := [], slots := 1, acquire := none }
def lateState : State := gangState fun g => { g with splits := tmod g.splits 0 fun q => { q with pend := [lateWrite] } }

/-- StepRunsTheFetchedWord: no landing late; one that the instruction does not read, and one that it reads. -/
theorem witness_step_late : NothingLate (ungrant base) ∧ awaitsSource (ungrant lateState) (.iadd 5 6 7) = false
    ∧ heldByLanding (split0 (gang0 lateState)) = true ∧ awaitsSource (ungrant lateState) (.iadd 6 5 7) = true := by
  refine ⟨?_, by decide, by decide, by decide⟩
  intro gid g si sp h
  rw [show issuer (ungrant base) = some (.gang 0 (gang0 base) 0 (split0 (gang0 base))) from rfl] at h
  cases h
  decide

/-- DecodeEncode, EncodeDecode: an instruction and a word at the ends of their fields. -/
theorem witness_encoding :
    Instr.wf (.ldgQ 124 127 15 (.acq .sy) 15) = true ∧ Instr.isEvent (.ldgQ 124 127 15 (.acq .sy) 15) = false
    ∧ decodeWord 0xFDFFFFFF = none ∧ decodeWord 0x13FFFFFF = some (.brany 127 0x3FFFF) := by decide

/-- StepOrder: a word that is no instruction, a fetch that faults, an input that is due, no unit granted. -/
theorem witness_step_order :
    ((State.reset.withFetchWord 32 0x3E000000).ctl.inputs = [] ∧ fetched (ungrant (State.reset.withFetchWord 32 0x3E000000)) = some (.ok 0x3E000000)
      ∧ decodeWord 0x3E000000 = none)
    ∧ (∃ e, fetched (ungrant (gangState fun g => { g with splits := tmod g.splits 0 fun q => { q with pc := 0x40000000 } })) = some (.error e))
    ∧ (ungrant base).ctl.granted = false := by
  refine ⟨⟨rfl, rfl, by decide⟩, ⟨_, rfl⟩, rfl⟩

/-- A durable launch on cluster 0 whose budget of 255 bytes the next granule exceeds. -/
def dirtyState : State :=
  modCluster (modPart (launchWith base fun l => { l with durable := true }) 0 fun p => { p with dirtyBudget := 255 }) 0 fun c =>
    { c with dirtyA := 1, dirtyB := 1 }
/-- The same with a write pending and the host's halt of the partition due: the halt lands it. -/
def commanded (s : State) : State := { s with dev := { s.dev with bootState := 1, ringEntries := 8, ringProduced := 1 } }
def haltDirty : State :=
  commanded (modGang dirtyState 0 fun g => { g with splits := tmod g.splits 0 fun q => { q with pend :=
    [{ left := 1, writes := [(64, 7)], flags := 0, replies := [], dst := [], dead := [], slots := 0, acquire := none }] } })
theorem dirty_due : dirtyDue dirtyState 0 = true := by
  have h1 : durableCluster dirtyState 0 = true := by decide
  have h2 : budgetOf dirtyState 0 = 255 := by decide
  have h3 : inactiveDirty (getCluster dirtyState 0) = 1 := by decide
  simp only [dirtyDue, h1, h2, h3, Bool.true_and, decide_eq_true_eq]
  omega
/-- StepOrder: an input that touches no cluster, one that would exceed a budget, and one that is no event. -/
theorem witness_step_inputs :
    (∃ t, exec .leaseExpiry (withInputs base []) = .next t ∧ (inputTouches (withInputs base []) t).all (fun cl => !budgetSeals (withInputs base []) cl) = true)
    ∧ (∃ t, exec (.hostHalt 0) (withInputs haltDirty []) = .next t ∧ (inputTouches (withInputs haltDirty []) t).contains 0 = true
      ∧ budgetSeals (withInputs haltDirty []) 0 = true)
    ∧ ∀ t, exec (.iadd 0 0 0) (withInputs State.reset []) ≠ .next t := by
  refine ⟨⟨_, rfl, by decide +kernel⟩, ⟨_, rfl, by decide +kernel, ?_⟩, ?_⟩
  · simp only [budgetSeals, dirtyDue, Bool.and_eq_true, decide_eq_true_eq]
    refine ⟨⟨by decide, ?_⟩, by decide⟩
    have h2 : budgetOf (withInputs haltDirty []) 0 = 255 := by decide
    have h3 : inactiveDirty (getCluster (withInputs haltDirty []) 0) = 1 := by decide
    omega
  · intro t h
    rw [show exec (.iadd 0 0 0) (withInputs State.reset []) = .fault .noIssuer from rfl] at h
    cases h

/-- IssueTraps: register 16 of 16, a user gang, a gang and an MCC. -/
theorem witness_issue_traps :
    (issues0 (gangState fun g => { g with nregs := 16 }) = true
      ∧ gangOpen (gang0 (gangState fun g => { g with nregs := 16 })) = false
      ∧ outOfWindow (gang0 (gangState fun g => { g with nregs := 16 })) [16, 0, 0] = true)
    ∧ (issues0 (gangState userGang) = true ∧ splitOpen (split0 (gang0 (gangState userGang))) = false
      ∧ gangOpen (closedGang (gang0 (gangState userGang)) 0) = false ∧ (closedGang (gang0 (gangState userGang)) 0).level = .user)
    ∧ mccIssues0 mccBase = true ∧ onMcc (.iadd 0 0 0) = false ∧ Instr.isEvent (.iadd 0 0 0) = false := by decide

/-- TrapEntries: a launch of a limit of 5 at rtc 5, on a gang and on the MCC. -/
theorem witness_crew_limit :
    (let s := launchWith (gangState fun g => { g with rtc := 5 }) fun l => { l with limit := 5 }
     issues0 s = true ∧ limitReached s (gang0 s).range (gang0 s).rtc = true ∧ gangOpen (gang0 s) = false
       ∧ outOfWindow (gang0 s) [127, 127, 127] = false)
    ∧ (let s := launchWith (mccState fun m => { m with rtc := 5 }) fun l => { l with limit := 5 }
       mccIssues0 s = true ∧ limitReached s (cohort0 s).range (mcc0 s).rtc = true) := by decide

theorem witness_brk : GangWitness [] none fun _ _ g _ _ => gangOpen g = false := on_gang base (by decide) (by decide)
theorem witness_trap : ClosingWitness [] none fun _ _ g _ _ => gangOpen g = false := on_closing base (by decide) (by decide)

/-- The placed partition with these records on their way, and the clock at 1. -/
def trapped (rs : List (Nat × FaultRecord)) : State :=
  modPart { base with ctl := { base.ctl with clock := 1 } } 0 fun p => { p with heldRecords := rs }
def brkRecord : FaultRecord := gangRecord base 0 (gang0 base) 0 (split0 (gang0 base)) (plainTrap .brk) 0
def mccBrkRecord : FaultRecord := mccRecord mccBase 0 (cohort0 mccBase) (mcc0 mccBase) (plainTrap .brk)
/-- Records: a queue with a free slot and a record whose cycle is over, one whose cycle is not over, one whose two slots are taken; the
records of a gang and of the MCC of one cycle, in order. -/
theorem witness_records :
    (∃ p, tget (trapped [(0, brkRecord)]).parts 0 = some p ∧ firstHeld (trapped [(0, brkRecord)]) p.heldRecords = some (brkRecord, [])
      ∧ queueHasRoom (trapped [(0, brkRecord)]) 0 p = true ∧ (trapped [(0, brkRecord)]).requests = [])
    ∧ (∃ p, tget (trapped [(1, brkRecord)]).parts 0 = some p ∧ firstHeld (trapped [(1, brkRecord)]) p.heldRecords = none)
    ∧ (isNotice brkRecord = false ∧ isNotice mccBrkRecord = false ∧ brkRecord.flags.testBit 0 = false ∧ brkRecord.slot < 32 ∧ mccBrkRecord.slot < 32
      ∧ brkRecord.cluster < 20 ∧ mccBrkRecord.cluster < 20 ∧ brkRecord.die = mccBrkRecord.die ∧ brkRecord.cluster = mccBrkRecord.cluster
      ∧ mccBrkRecord.flags.testBit 0 = true ∧ heldPlace brkRecord < heldPlace mccBrkRecord)
    ∧ ∃ p, tget (modPart base 0 fun p => { p with faultEntries := 2, posted := 2 }).parts 0 = some p
      ∧ queueHasRoom (modPart base 0 fun p => { p with faultEntries := 2, posted := 2 }) 0 p = false :=
  ⟨⟨_, rfl, rfl, by decide +kernel, rfl⟩, ⟨_, rfl, by decide +kernel⟩, by decide +kernel, ⟨_, rfl, by decide⟩⟩

/-- The state after a brk, one cycle on: its record is on its way to the firmware. -/
def firmwareTrapped : State :=
  let s := postRecord base 0 true (gangRecord base 0 (gang0 base) 0 (split0 (gang0 base)) (plainTrap .brk) 0)
  { s with ctl := { s.ctl with clock := s.ctl.clock + 1 } }
/-- TrapEntries: a firmware queue with room and a record on its way, and a full one. -/
theorem witness_firmware_queue :
    (∃ r, firstHeld firmwareTrapped firmwareTrapped.dev.firmwareHeld = some (r, []) ∧ isNotice r = false ∧ firmwareHasRoom firmwareTrapped = true)
    ∧ firmwareHasRoom { base with dev := { base.dev with firmwarePosted := firmwareSlots } } = false :=
  ⟨⟨_, rfl, by decide, by decide +kernel⟩, by decide +kernel⟩

/-- WindowsLand: a write that lands with the next retirement. -/
theorem witness_window_lands :
    ∃ (g : Gang) (si : Nat) (sp : Split) (p : Pending), tget g.splits si = some sp ∧ sp.pend = [p] ∧ p.left = 1 ∧ p.replies = [] ∧ sp.recs = []
      ∧ (∀ e ∈ g.splits, e.1 ≠ si → atMerge e.2 = false) ∧ (g.splits.map (·.1)).Nodup :=
  ⟨{ placedGang 0 with splits := tmod (placedGang 0).splits 0 fun q =>
      { q with pend := [{ left := 1, writes := [(64, 7), (65, 8)], flags := 0, replies := [], dst := [], dead := [65], slots := 0, acquire := none }] } },
    0, _, _, rfl, rfl, rfl, rfl, rfl, by decide, by decide⟩

/-! ### Witnesses: registers, integers, uniform instructions -/

/-- The premises of every form on v registers, with register 127 and with register 255 below the window's end. -/
theorem witness_registers : GangWitness [127, 126, 127] (some [127]) fun _ _ _ _ _ => True := on_gang base (by decide) trivial
theorem witness_window_base : GangWitness [127, 127] none fun _ _ _ _ _ => True :=
  on_gang (gangState fun g => { g with wbase := 128 }) (by decide) trivial
theorem witness_in_body : GangWitness [3, 4, 5] (some [3]) fun _ _ g _ _ => regionState g = 2 :=
  on_gang (gangState fun g => { g with rxs := 0x2000000, region := some (readRegion (withK [(8, 2), (9, 3), (13, 100)] g) 0) }) (by decide) (by decide)
theorem witness_mcc : MccWitness fun _ _ _ _ => True := on_mcc mccBase (by decide) trivial
theorem witness_closing : ClosingWitness [127] (some []) fun _ _ _ _ _ => True := on_closing base (by decide) trivial

/-- IntegerResults, IntegerExtensions, LongLatency: counts of 31 and 32, a length of 0, divisors that are not 0. -/
theorem witness_integer_meaning :
    (32 : Nat) ≤ (32 : Word).toNat ∧ (31 : Word).toNat < 32 ∧ bfLen 0x0011 = 0 ∧ (1 : Word) ≠ 0 ∧ (0xFFFFFFFF : Word) ≠ 0 := by decide

/-- IntegerExtensions, IntegerForms, TrapEntries: words that are no instruction, at the first refused values; the ends of the immediates. -/
theorem witness_refused_words :
    (0x22001015 / 2 ^ 25 = 0x11 ∧ 0x22001015 % 16 = 5 ∧ 0x22001015 / 2 ^ 4 % 128 ≠ 0)
    ∧ (0x2204000C / 2 ^ 25 = 0x11 ∧ 0x2204000C % 16 = 12 ∧ 0x2204000C / 2 ^ 18 % 2 = 1)
    ∧ (0x2200080F / 2 ^ 25 = 0x11 ∧ 0x2200080F % 16 = 15 ∧ 0x2200080F / 2 ^ 11 % 2 = 1)
    ∧ (0x2404103A / 2 ^ 25 = 0x12 ∧ 10 ≤ 0x2404103A % 16) ∧ (0x26080701 / 2 ^ 25 = 0x13 ∧ 0x26080701 % 8 ≠ 0)
    ∧ (0x2E040100 / 2 ^ 25 = 0x17 ∧ 32 ≤ 0x2E040100 / 8 % 256) ∧ (0x300C1822 / 2 ^ 25 = 0x18 ∧ 2 ≤ 0x300C1822 % 8)
    ∧ (0x34180FF8 / 2 ^ 25 = 0x1A ∧ 0x34180FF8 / 2 ^ 11 % 128 ≠ 0) ∧ (0x380C0801 / 2 ^ 25 = 0x1C ∧ 0x380C0801 % 2 ^ 11 ≠ 0)
    ∧ (0x3A281035 / 2 ^ 25 = 0x1D ∧ 5 ≤ 0x3A281035 % 16) ∧ (0x3C101032 / 2 ^ 25 = 0x1E ∧ 2 ≤ 0x3C101032 % 16)
    ∧ (0x02000161 / 2 ^ 25 = 1 ∧ 0x02000161 % 8 ≠ 0) ∧ (255 : Nat) < 256 ∧ (31 : Nat) < 32 ∧ (1 : Word) ≠ 0 := by decide

/-- The spec's own words of the examples of R84 to R91, R101, R110, R131. -/
theorem test_decode_examples :
    decodeWord 0x20143074 = some (.imulhu 5 6 7) ∧ decodeWord 0x22101033 = some (.bfe 4 2 3) ∧ decodeWord 0x26080700 = some (.iaddi 2 0 0xE0)
    ∧ decodeWord 0x300C1821 = some (.shriA 3 3 4) ∧ decodeWord 0x320C1002 = some (.iseti .lt 3 2 0) ∧ decodeWord 0x3620A000 = some (.movk 8 20)
    ∧ decodeWord 0x3C101031 = some (.imulw .unsigned 4 2 3) ∧ decodeWord 0x1E782000 = some (.callk 30 4) ∧ decodeWord 0x0000F009 = some (.ret 30)
    ∧ decodeWord 0x02000160 = some (.trap 0x2C) ∧ decodeWord 0x82101034 = some (.idiv 4 2 3 4) ∧ decodeWord 0x1C002000 = some (.jmpk 4)
    ∧ decodeWord 0x28102878 = some (.andi 4 5 0x0F) ∧ decodeWord 0x2A102008 = some (.ori 4 4 1) ∧ decodeWord 0x2C1027F8 = some (.xori 4 4 0xFF)
    ∧ decodeWord 0x2E040010 = some (.shli 1 0 2) ∧ decodeWord 0x341807F8 = some (.movi 6 0xFF) ∧ decodeWord 0x380C0800 = some (.mov 3 1)
    ∧ decodeWord 0x3A281030 = some (.idot .s8 10 2 3) ∧ decodeWord 0x44041032 = some (.kset .lt 1 2 3)
    ∧ decodeWord 0x24041036 = some (.iset .ltu 1 2 3) := by decide

/-- UniformReads: word 255 of the constant table; lane 63 and lane 64 of kread. -/
theorem witness_kldt :
    GangWitness [] none fun s _ g _ _ => fetchAt s (gangView g) .table (coreBound s g.core) (tableAddr s g.range 255) = .ok 0 :=
  on_gang base (by decide) rfl
theorem witness_kldt_mcc :
    MccWitness fun s _ c _ => fetchAt s (mccView s c) .table (mccBoundOf s c.cluster) (tableAddr s c.range 255) = .ok 0 :=
  on_mcc mccBase (by decide) rfl
theorem witness_kldt_traps : GangWitness [] none fun s _ g _ _ =>
    ∃ e, fetchAt s (gangView g) .table (coreBound s g.core) (tableAddr s g.range 1) = .error e
      ∧ takesPlace (accessTrap .table e) = false ∧ gangOpen g = false :=
  on_gang (launchWith base fun l => { l with table := 0x0200000000000000 }) (by decide) ⟨_, rfl, by decide, by decide⟩
theorem witness_kread : GangWitness [127] none fun _ _ g _ _ => (cget g.k 3).toNat ≤ 63 :=
  on_gang (gangState (withK [(3, 63)])) (by decide) (by decide)
theorem witness_kread_traps : GangWitness [127] none fun _ _ g _ _ => 63 < (cget g.k 3).toNat ∧ gangOpen g = false :=
  on_gang (gangState (withK [(3, 64)])) (by decide) (by decide)
theorem witness_uniform_words :
    (0x4E181071 / 2 ^ 25 = 0x27 ∧ 0x4E181071 % 16 ≠ 0) ∧ (0x50241802 / 2 ^ 25 = 0x28 ∧ 0x50241802 % 16 = 2 ∧ 0x50241802 / 2 ^ 18 % 2 = 1)
    ∧ (0x50281803 / 2 ^ 25 = 0x28 ∧ 3 ≤ 0x50281803 % 16) ∧ 0x52242001 / 2 ^ 25 = 0x29 ∧ 0x52242001 % 16 ≠ 0 := by decide

/-- SpecialRegisterReads: a register that the MCC has, and one that it has not. -/
theorem witness_srd_mcc : MccWitness fun s _ c m => mccSpecial s c m .rtcLo ≠ none := on_mcc mccBase (by decide) (by decide)
theorem witness_srd_gangs_only : mccIssues0 mccBase = true ∧ mccSpecial mccBase (cohort0 mccBase) (mcc0 mccBase) .lane = none := by decide

/-- SpecialRegisterWrites: values at the ends of what each register takes, and beyond. -/
theorem witness_swr_fmt : GangWitness [2] none fun _ _ g _ sp => ∃ l, lowestLane sp.mask = some l ∧ fmtOk (vget g 2 l) = true :=
  on_gang base (by decide) ⟨0, by decide, by decide⟩
theorem witness_swr_fpf : GangWitness [2] none fun _ _ g _ sp => ∃ l, lowestLane sp.mask = some l ∧ (vget g 2 l).toNat < 32 :=
  on_gang (gangState (withV [(128, 31)])) (by decide) ⟨0, by decide, by decide⟩
theorem witness_swr_temp : GangWitness [2] none fun _ _ g _ sp => ∃ l, lowestLane sp.mask = some l ∧ tempOk (vget g 2 l) = true :=
  on_gang (gangState (withV [(128, 0x3F800000)])) (by decide) ⟨0, by decide, by decide⟩
theorem witness_swr_wbase : GangWitness [2] none fun _ _ g _ sp => ∃ l, lowestLane sp.mask = some l ∧ divergent g sp = false
    ∧ (vget g 2 l).toNat % 256 % 16 = 0 ∧ (vget g 2 l).toNat % 256 < g.nregs :=
  on_gang (gangState (withV [(128, 240)])) (by decide) ⟨0, by decide, by decide, by decide, by decide⟩
theorem witness_swr_wbase_traps : GangWitness [2] none fun _ _ g _ sp => gangOpen g = false ∧ ∃ l, lowestLane sp.mask = some l
    ∧ (divergent g sp = true ∨ (vget g 2 l).toNat % 256 % 16 ≠ 0 ∨ g.nregs ≤ (vget g 2 l).toNat % 256) :=
  on_gang (gangState fun g => { withV [(128, 32)] g with nregs := 32 }) (by decide) ⟨by decide, 0, by decide, by decide⟩
theorem witness_swr_lane : GangWitness [2] none fun _ _ _ _ sp => lowestLane sp.mask ≠ none := on_gang base (by decide) (by decide)
theorem witness_swr_prio_user : GangWitness [2] none fun s _ g _ _ => g.level = .user ∧ launchOf s g.range ≠ none :=
  on_gang (gangState userGang) (by decide) (by decide)
theorem witness_swr_traps : GangWitness [2] none fun s _ g si sp => gangOpen g = false ∧ ∃ l, lowestLane sp.mask = some l
    ∧ writeSpecial s g si sp .fpf (vget g 2 l) = .error .invalidParam :=
  on_gang (gangState (withV [(128, 32)])) (by decide) ⟨by decide, 0, by decide, rfl⟩
theorem witness_swr_illegal : SpecialReg.lane ∉ [SpecialReg.fmt, .fpf, .temp, .wbase, .prio, .srseedLo, .srseedHi, .rngLo, .rngHi]
    ∧ SpecialReg.temp ∉ [SpecialReg.fmt, .fpf, .srseedLo, .srseedHi] ∧ issues0 base = true ∧ heldByLanding (split0 (gang0 base)) = false
    ∧ gangOpen (gang0 base) = false ∧ mccIssues0 mccBase = true := by decide
theorem witness_setfmt : GangWitness [] none fun _ _ g _ _ => fmtOk (cget g.k 2) = true := on_gang base (by decide) (by decide)
theorem witness_setfmt_traps : GangWitness [] none fun _ _ g _ _ => fmtOk (cget g.k 2) = false ∧ gangOpen g = false :=
  on_gang (gangState (withK [(2, 0xFFFFFFFF)])) (by decide) (by decide)
theorem witness_winb : GangWitness [] none fun _ _ g _ sp => divergent g sp = false ∧ 15 * 16 < g.nregs := on_gang base (by decide) (by decide)
theorem witness_winb_traps : GangWitness [] none fun _ _ g _ sp => (divergent g sp = true ∨ g.nregs ≤ 16 * 16) ∧ gangOpen g = false :=
  on_gang base (by decide) (by decide)
theorem witness_swr_mcc : MccWitness fun _ _ _ m => fmtOk (cget m.k 2) = true ∧ (cget m.k 3).toNat < 32 :=
  on_mcc (mccState fun m => { m with k := cset m.k 3 31 }) (by decide) (by decide)
theorem witness_mcc_traps : MccWitness fun _ _ _ m => fmtOk (cget m.k 2) = false ∧ 32 ≤ (cget m.k 3).toNat :=
  on_mcc (mccState fun m => { m with k := csets m.k [(2, 0xFFFFFFFF), (3, 32)] }) (by decide) (by decide)

/-! ### Witnesses: floating point, lanes, random numbers -/

/-- NansAreCanonical, MinimaAndOrder: a quiet and a signalling NaN, numbers, a control with flush and one without. -/
theorem witness_floats :
    nanWord 0x7FC00000 = true ∧ nanWord 0xFFFFFFFF = true ∧ nanWord 0x3F800000 = false ∧ nanWord 0xFF800000 = false
    ∧ fIsSnan (fmtDecode fmtF32 0x7F800001) = true ∧ nanWord (fadd32 ctlRne 0x7F800000 0xFF800000).1 = true
    ∧ nanWord (fminmax32 true ctlRne 0x7FC00001 0x7FC00001).1 = true ∧ ctlRne.flush = false ∧ flushedWord 0x80000001 = 0x80000000 := by
  decide

/-- RoundingKeepsValues: the largest finite bits of a format. -/
theorem witness_round : fmtE4m3 ∈ [fmtF32, fmtF16, fmtBf16, fmtE4m3, fmtE5m2, fmtE2m1] ∧ 0xFE < 2 ^ (fmtSign fmtE4m3 + 1)
    ∧ fIsFinite (fmtDecode fmtE4m3 0xFE) = true := by decide

/-- CrossLane: words that are no instruction, at the first refused value; scans; RandomNumbers: lane 63. -/
theorem witness_cross_lane :
    (0x90101034 / 2 ^ 25 = 0x48 ∧ 4 ≤ 0x90101034 % 16) ∧ (0x92101200 / 2 ^ 25 = 0x49 ∧ 63 < 0x92101200 / 8 % 256)
    ∧ (0x92101029 / 2 ^ 25 = 0x49 ∧ 0x92101029 % 8 ≠ 0) ∧ (0x94141000 / 2 ^ 25 = 0x4A ∧ 0x94141000 / 2 ^ 18 % 2 = 1)
    ∧ (0x9A101001 / 2 ^ 25 = 0x4D ∧ 0x9A101001 % 2 ^ 11 ≠ 0) ∧ (1 < [3, 5].length) ∧ LaneOp.iadd ≠ .fmax ∧ LaneOp.iadd ≠ .fadd
    ∧ (63 < 64 ∧ (BitVec.allOnes 64).getLsbD 63 = true) := by decide

/-! ### Witnesses: control -/

def laneSplit (m : Mask) (g : Gang) : Gang := { g with splits := tmod g.splits 0 fun q => { q with mask := m } }
def fourSplits (g : Gang) : Gang :=
  { g with splits := [(0, { split0 g with mask := 3 })] ++ [4, 8, 16].zipIdx.map fun x => (x.2 + 1, { split0 g with mask := x.1 }) }

/-- StrandBranches: every lane takes, no lane takes, the lanes part with one split and with four; forward, so that a word is read. -/
theorem witness_branch_taken : ClosingWitness [2] (some []) fun s _ g _ sp =>
    (∃ w, joinWord s g sp.pc (branchTarget sp.pc 4) = .ok w
      ∧ bodyBranchOk s g [branchTarget sp.pc 4, mergePoint sp.pc (branchTarget sp.pc 4) w] = true)
    ∧ takers (fun w => w == 0) g sp 2 = sp.mask :=
  on_closing base (by decide) ⟨⟨_, rfl, by decide⟩, by decide⟩
theorem witness_branch_not_taken : ClosingWitness [2] (some []) fun s _ g _ sp =>
    (∃ w, joinWord s g sp.pc (branchTarget sp.pc 4) = .ok w
      ∧ bodyBranchOk s g [branchTarget sp.pc 4, mergePoint sp.pc (branchTarget sp.pc 4) w] = true)
    ∧ takers (fun w => w != 0) g sp 2 ≠ sp.mask ∧ (takers (fun w => w != 0) g sp 2 = 0 ∨ branchTarget sp.pc 4 = nextPc sp.pc) :=
  on_closing base (by decide) ⟨⟨_, rfl, by decide⟩, by decide, by decide⟩
theorem witness_branch_divides : ClosingWitness [2] (some []) fun s _ g _ sp =>
    (∃ w, joinWord s g sp.pc (branchTarget sp.pc 4) = .ok w
      ∧ bodyBranchOk s g [branchTarget sp.pc 4, mergePoint sp.pc (branchTarget sp.pc 4) w] = true)
    ∧ takers (fun w => w != 0) g sp 2 ≠ sp.mask ∧ takers (fun w => w != 0) g sp 2 ≠ 0 ∧ branchTarget sp.pc 4 ≠ nextPc sp.pc
    ∧ g.splits.length < 4 :=
  on_closing (gangState (withV [(128, 1)])) (by decide) ⟨⟨_, rfl, by decide⟩, by decide, by decide, by decide, by decide⟩
theorem witness_branch_stacks : ClosingWitness [2] (some []) fun s _ g _ sp =>
    (∃ w, joinWord s g sp.pc (branchTarget sp.pc 4) = .ok w
      ∧ bodyBranchOk s g [branchTarget sp.pc 4, mergePoint sp.pc (branchTarget sp.pc 4) w] = true)
    ∧ takers (fun w => w != 0) g sp 2 ≠ sp.mask ∧ takers (fun w => w != 0) g sp 2 ≠ 0 ∧ branchTarget sp.pc 4 ≠ nextPc sp.pc
    ∧ 4 ≤ g.splits.length ∧ stackDepth sp < 80 ∧ ∃ s1, spillEntry s g (stackDepth sp) = .ok s1 :=
  on_closing (gangState fun g => withV [(128, 1)] (fourSplits g)) (by decide)
    ⟨⟨_, rfl, by decide⟩, by decide, by decide, by decide, by decide, by decide, _, rfl⟩
def stacked (n : Nat) (g : Gang) : Gang :=
  let e : DivEntry := { mp := 64, join := 3, fmt := 0, stack := some { npc := 4, fall := 1, second := false } }
  { g with splits := tmod g.splits 0 fun q => { q with recs := List.replicate n e } }
theorem witness_branch_spills : ∃ s1, spillEntry base (gang0 base) 16 = .ok s1 := ⟨_, rfl⟩
theorem witness_branch_spill_traps : ClosingWitness [2] (some []) fun s _ g _ sp =>
    ∃ e, (∃ w, joinWord s g sp.pc (branchTarget sp.pc 4) = .ok w
      ∧ bodyBranchOk s g [branchTarget sp.pc 4, mergePoint sp.pc (branchTarget sp.pc 4) w] = true)
    ∧ takers (fun w => w != 0) g sp 2 ≠ sp.mask ∧ takers (fun w => w != 0) g sp 2 ≠ 0 ∧ branchTarget sp.pc 4 ≠ nextPc sp.pc
    ∧ 4 ≤ g.splits.length ∧ stackDepth sp < 80 ∧ spillEntry s g (stackDepth sp) = .error e ∧ takesPlace (accessTrap .store e) = false
    ∧ gangOpen g = false :=
  on_closing (modRange (gangState fun g => withV [(128, 1)] (stacked 16 (fourSplits g))) 0 fun r => { r with frame := 0x0200000000000000 })
    (by decide) ⟨_, ⟨_, rfl, by decide⟩, by decide, by decide, by decide, by decide, by decide, rfl, by decide, by decide⟩
theorem witness_branch_overflows : ClosingWitness [2] (some []) fun s _ g _ sp =>
    (∃ w, joinWord s g sp.pc (branchTarget sp.pc 4) = .ok w
      ∧ bodyBranchOk s g [branchTarget sp.pc 4, mergePoint sp.pc (branchTarget sp.pc 4) w] = true)
    ∧ takers (fun w => w != 0) g sp 2 ≠ sp.mask ∧ takers (fun w => w != 0) g sp 2 ≠ 0 ∧ branchTarget sp.pc 4 ≠ nextPc sp.pc
    ∧ 4 ≤ g.splits.length ∧ 80 ≤ stackDepth sp ∧ gangOpen g = false :=
  on_closing (gangState fun g => withV [(128, 1)] (stacked 80 (fourSplits g))) (by decide)
    ⟨⟨_, rfl, by decide⟩, by decide, by decide, by decide, by decide, by decide, by decide⟩
/-- A region of state 2 whose body starts beyond the target; a branch whose word cannot be fetched. -/
def beyond (g : Gang) : Gang :=
  { g with rxs := 0x2000000, region := some { readRegion (withK [(8, 2), (9, 3), (13, 100)] g) 0 with start := 0x4000000000000000 } }
theorem witness_branch_leaves_body : ClosingWitness [2] (some []) fun s _ g _ sp =>
    (∃ w, joinWord s g sp.pc (branchTarget sp.pc 4) = .ok w
      ∧ bodyBranchOk s g [branchTarget sp.pc 4, mergePoint sp.pc (branchTarget sp.pc 4) w] = false) ∧ gangOpen g = false :=
  on_closing (gangState beyond) (by decide) ⟨⟨_, rfl, by decide⟩, by decide⟩
def farAway (g : Gang) : Gang := { g with splits := tmod g.splits 0 fun q => { q with pc := 0x0200000000000000 } }
theorem witness_unread_goes_on : ClosingWitness [2] (some []) fun s _ g _ sp =>
    ∃ e, joinWord s g sp.pc (branchTarget sp.pc 4) = .error e ∧ regionState g ≠ 2
      ∧ (takers (fun w => w == 0) g sp 2 = sp.mask ∨ takers (fun w => w == 0) g sp 2 = 0) :=
  on_closing (gangState farAway) (by decide) ⟨_, rfl, by decide, by decide⟩
theorem witness_unread_traps : ClosingWitness [2] (some []) fun s _ g _ sp =>
    ∃ e, joinWord s g sp.pc (branchTarget sp.pc 4) = .error e ∧ regionState g ≠ 2
      ∧ takers (fun w => w != 0) g sp 2 ≠ sp.mask ∧ takers (fun w => w != 0) g sp 2 ≠ 0 ∧ takesPlace (accessTrap .fetch e) = false
      ∧ gangOpen g = false :=
  on_closing (gangState fun g => withV [(128, 1)] (farAway g)) (by decide) ⟨_, rfl, by decide, by decide, by decide, by decide, by decide⟩
theorem witness_unread_in_body : ClosingWitness [2] (some []) fun s _ g _ sp =>
    ∃ e, joinWord s g sp.pc (branchTarget sp.pc 4) = .error e ∧ regionState g = 2 ∧ gangOpen g = false :=
  on_closing (gangState fun g => beyond (farAway g)) (by decide) ⟨_, rfl, by decide, by decide⟩

/-- R75: a backward and a forward branch, with and without a bra before the target. -/
theorem witness_merge_points :
    (0x100 : DWord).toNat ≤ (0x100 : DWord).toNat ∧ (0x100 : DWord).toNat < (0x110 : DWord).toNat
    ∧ (0x100 : DWord).toNat < ((0x110 : DWord) - 4).toNat ∧ (0x110 : DWord).toNat + 4 * 0x1FFFF < 2 ^ 64
    ∧ (nextPc 0x100).toNat < (0x110 : DWord).toNat := by decide

/-- Splits of gang 0 at address 64 with these lanes and records, above a record that merges elsewhere. -/
def outer : DivEntry := { mp := 128, join := 15, fmt := 0, stack := none }
def record (j : Mask) : DivEntry := { mp := 64, join := j, fmt := 0x11, stack := none }
def stackRecord (j : Mask) (second : Bool) : DivEntry := { record j with stack := some { npc := 32, fall := 2, second := second } }
def at64 (m : Mask) (rs : List DivEntry) : Split := { split0 (placedGang 0) with pc := 64, mask := m, recs := rs ++ [outer] }
def gangOf (qs : List Split) : Gang := { placedGang 0 with splits := qs.zipIdx.map fun x => (x.2, x.1) }
/-- Merging: two splits of one record; three, from the inside outward; four in a row, and two and two. -/
theorem witness_merge_two :
    ∃ (g : Gang) (a b : Split) (e : DivEntry) (rest : List DivEntry), g.splits = [(0, a), (1, b)] ∧ a.recs = e :: rest ∧ b.recs = e :: rest
      ∧ e.stack = none ∧ a.pc = e.mp ∧ b.pc = e.mp ∧ a.pend = [] ∧ b.pend = [] ∧ e.join &&& ~~~((a.mask ||| b.mask) ||| g.exited) = 0
      ∧ rest = [outer] ∧ outer.mp ≠ e.mp :=
  ⟨gangOf [at64 1 [record 3], at64 2 [record 3]], at64 1 [record 3], at64 2 [record 3], record 3, [outer], rfl, rfl, rfl, rfl, rfl, rfl, rfl, rfl,
    by decide, rfl, by decide⟩
theorem witness_merge_three :
    let e := record 7; let f := record 6
    let a := at64 1 [e]; let b := at64 2 [f, e]; let c := at64 4 [f, e]; let g := gangOf [a, b, c]
    g.splits.length = 3 ∧ tget g.splits 0 = some a ∧ tget g.splits 1 = some b ∧ tget g.splits 2 = some c ∧ PlainEntry e 64 ∧ PlainEntry f 64
    ∧ f.join ≠ e.join ∧ Stands a 64 (e :: [outer]) ∧ Stands b 64 (f :: e :: [outer]) ∧ Stands c 64 (f :: e :: [outer]) ∧ ¬ Holds g e a.mask
    ∧ Holds g f (b.mask ||| c.mask) ∧ Holds g e (a.mask ||| b.mask ||| c.mask) ∧ outer.mp ≠ 64 := by
  simp only [PlainEntry, Stands, Holds]
  decide
theorem witness_merge_four_in_a_row :
    let e := record 15; let f := record 14; let h := record 12
    let a := at64 1 [e]; let b := at64 2 [f, e]; let c := at64 4 [h, f, e]; let d := at64 8 [h, f, e]; let g := gangOf [a, b, c, d]
    g.splits.length = 4 ∧ tget g.splits 0 = some a ∧ tget g.splits 1 = some b ∧ tget g.splits 2 = some c ∧ tget g.splits 3 = some d
    ∧ PlainEntry e 64 ∧ PlainEntry f 64 ∧ PlainEntry h 64 ∧ [e.join, f.join, h.join].Nodup ∧ outer.mp ≠ 64
    ∧ Holds g e (a.mask ||| b.mask ||| c.mask ||| d.mask) ∧ Stands a 64 (e :: [outer]) ∧ Stands b 64 (f :: e :: [outer])
    ∧ Stands c 64 (h :: f :: e :: [outer]) ∧ Stands d 64 (h :: f :: e :: [outer]) ∧ ¬ Holds g e a.mask ∧ ¬ Holds g f b.mask
    ∧ Holds g h (c.mask ||| d.mask) ∧ Holds g f (b.mask ||| c.mask ||| d.mask) := by
  simp only [PlainEntry, Stands, Holds]
  decide
theorem witness_merge_two_and_two :
    let e := record 15; let f := record 3; let h := record 12
    let a := at64 1 [f, e]; let b := at64 2 [f, e]; let c := at64 4 [h, e]; let d := at64 8 [h, e]; let g := gangOf [a, b, c, d]
    g.splits.length = 4 ∧ [0, 1, 2, 3].Nodup ∧ tget g.splits 3 = some d ∧ [e.join, f.join, h.join].Nodup
    ∧ Holds g e (a.mask ||| b.mask ||| c.mask ||| d.mask) ∧ Stands a 64 (f :: e :: [outer]) ∧ Stands b 64 (f :: e :: [outer])
    ∧ Stands c 64 (h :: e :: [outer]) ∧ Stands d 64 (h :: e :: [outer]) ∧ ¬ Holds g e (a.mask ||| b.mask) ∧ ¬ Holds g e (c.mask ||| d.mask)
    ∧ Holds g f (a.mask ||| b.mask) ∧ Holds g h (c.mask ||| d.mask) := by
  simp only [Stands, Holds]
  decide
/-- Merging: a stack entry at each of its two arrivals, one beneath a split's record, and splits that wait. -/
theorem witness_merge_stack :
    (let e := stackRecord 3 false
     ∃ p, e.stack = some p ∧ (gangOf [at64 1 [e]]).splits = [(0, at64 1 [e])] ∧ Stands (at64 1 [e]) e.mp (e :: [outer])
       ∧ stackDepth (at64 1 [e]) ≤ 16 ∧ p.second = false ∧ p.npc ≠ e.mp)
    ∧ (let e := stackRecord 3 true; ∃ p, e.stack = some p ∧ p.second = true ∧ outer.mp ≠ e.mp ∧ stackDepth (at64 1 [e]) ≤ 16)
    ∧ (let e := record 7; let f := stackRecord 6 true; let a := at64 1 [e]; let b := at64 4 [f, e]; let g := gangOf [a, b]
       ∃ p, f.stack = some p ∧ p.second = true ∧ g.splits.length = 2 ∧ tget g.splits 0 = some a ∧ tget g.splits 1 = some b ∧ PlainEntry e 64
         ∧ f.mp = 64 ∧ stackDepth b ≤ 16 ∧ Stands a 64 (e :: [outer]) ∧ Stands b 64 (f :: e :: [outer]) ∧ ¬ Holds g e a.mask
         ∧ Holds g e (a.mask ||| (f.join &&& ~~~g.exited))) := by
  simp only [PlainEntry, Stands, Holds]
  exact ⟨⟨_, rfl, by decide⟩, ⟨_, rfl, by decide⟩, ⟨_, rfl, by decide⟩⟩
/-- The placed word is iadd v6, v5, v7, and a landing of register 5 is late. -/
def lateReader : State :=
  modGang (State.reset.withFetchWord 32 (0x10 * 2 ^ 25 + 6 * 2 ^ 18 + 5 * 2 ^ 11 + 7 * 2 ^ 4)) 0 fun g =>
    { g with splits := tmod g.splits 0 fun q => { q with pend := [lateWrite] } }
theorem witness_merge_waits :
    (let g := gangOf [at64 1 [record 3], { at64 2 [record 3] with pc := 32 }]
     (g.splits.map (·.1)).Pairwise (· < ·) ∧ (g.splits.filter fun x => atMerge x.2).map (·.1) = [0] ∧ splitOpen (at64 1 [record 3]) = false
       ∧ ¬ Holds g (record 3) ((standing g (record 3)).foldl (fun m y => m ||| y.2.mask) 0))
    ∧ splitOpen { at64 1 [record 3] with pend := [lateWrite] } = true
    ∧ atMerge (at64 1 [record 3]) = true ∧ sourcesHeld lateReader (gang0 lateReader) (split0 (gang0 lateReader)) = true := by
  simp only [Holds]
  decide

/-- What a retirement leaves of the other splits: one of them waits at its merge point, and the issuing one stands at none. -/
def oneWaits : Gang := gangOf [at64 1 [record 3], { at64 2 [record 3] with pc := 32 }]
theorem witness_no_merge : NoMerge (movedTo oneWaits 1 36) 1 ∧ Underway (movedTo oneWaits 1 36) 1 ∧ Underway oneWaits 1 := by
  refine ⟨⟨by decide, ?_⟩, by simp only [Underway]; decide, by simp only [Underway]; decide⟩
  intro e he hm
  change e ∈ [(0, at64 1 [record 3]), (1, { at64 2 [record 3] with pc := 36 })] at he
  rcases List.mem_cons.1 he with rfl | he
  · exact ⟨by decide, rfl, record 3, [outer], rfl, rfl, by decide⟩
  · rcases List.mem_singleton.1 he with rfl
    exact absurd hm (by decide)

/-- UniformTransfers: targets that are aligned and canonical, misaligned, and not canonical. -/
theorem witness_bra : ClosingWitness [] (some []) fun s _ g _ sp => bodyBranchOk s g [branchTarget sp.pc 0x3FFFF] = true :=
  on_closing base (by decide) (by decide)
theorem witness_call : ClosingWitness [] none fun _ _ _ _ sp => targetTrap (branchTarget sp.pc 0x3FFFF) = none :=
  on_closing base (by decide) (by decide)
theorem witness_call_traps : ClosingWitness [] none fun _ _ g _ sp => targetTrap (branchTarget sp.pc 0x1FFFF) ≠ none ∧ gangOpen g = false :=
  on_closing (gangState fun g => { g with splits := tmod g.splits 0 fun q => { q with pc := 0xFFFFFFFFFFFFFC } }) (by decide) (by decide)
theorem witness_jmpk : ClosingWitness [] none fun _ _ g _ _ => targetTrap (kPair g.k 2) = none := on_closing base (by decide) (by decide)
theorem witness_jmpk_traps : ClosingWitness [] none fun _ _ g _ _ => targetTrap (kPair g.k 2) ≠ none ∧ gangOpen g = false :=
  on_closing (gangState (withK [(2, 2)])) (by decide) (by decide)
theorem witness_jmpk_mcc : MccWitness fun _ _ _ m => targetTrap (kPair m.k 2) = none ∧ targetTrap (branchTarget m.pc 1) = none :=
  on_mcc mccBase (by decide) (by decide)
theorem witness_jmpk_mcc_traps : MccWitness fun _ _ _ m => targetTrap (kPair m.k 2) ≠ none :=
  on_mcc (mccState fun m => { m with k := cset m.k 3 0x80000000 }) (by decide) (by decide)
theorem witness_call_mcc_traps : MccWitness fun _ _ _ m => targetTrap (branchTarget m.pc 0x1FFFF) ≠ none :=
  on_mcc (mccState fun m => { m with pc := 0xFFFFFFFFFFFFFC }) (by decide) (by decide)
theorem witness_targets :
    (2 : DWord).toNat % 4 ≠ 0 ∧ (4 : DWord).toNat % 4 = 0 ∧ (0x0200000000000000 : DWord).toNat % 4 = 0
    ∧ (0x0200000000000000 : DWord).getLsbD 57 ≠ (0x0200000000000000 : DWord).getLsbD 56 := by decide

/-- SystemFunctions: icinv with no release before it, behind a store's, behind a reduction's, and of a deterministic gang. -/
theorem witness_icinv : GangWitness [] none fun s gid g _ sp => gangDet s g = false ∧ releasesBefore s gid sp = [] := on_gang base (by decide) (by decide)
theorem witness_icinv_waits : GangWitness [] none fun s gid g _ sp => gangDet s g = false ∧ releasesBefore s gid sp ≠ [] :=
  on_gang (startRelease base 0 (gang0 base) (split0 (gang0 base)) .pk []).2 (by decide) (by decide)
theorem witness_icinv_waits_for_a_reduction : GangWitness [] none fun s gid g _ sp =>
    gangDet s g = false ∧ pubsBefore s gid sp = [] ∧ releasesBefore s gid sp ≠ [] :=
  on_gang { base with requests := [(9, { gangRequest (gang0 base) 0 0 0 (.rmw .add [⟨0, 64, 1, 0, 0⟩] false) [] with rel := some .pk })] }
    (by decide) (by decide)
theorem witness_icinv_det : GangWitness [] none fun s _ g _ _ => gangDet s g = true := on_gang (detState id) (by decide) (by decide)
/-- SystemFunctions: an exit of some lanes, the last exit of a crew, an exit of the MCC. -/
theorem witness_exit_some : ClosingWitness [] none fun s gid g si sp => exitEndsCrew s gid g si sp = false :=
  on_closing (gangState fun g => { g with splits := [(0, { split0 g with mask := 1 }), (1, { split0 g with mask := 2 })] }) (by decide)
    (by decide)
theorem witness_exit_last : ClosingWitness [] none fun s gid g si sp => exitEndsCrew s gid g si sp = true ∧ gangDet s g = false
    ∧ gangDurable s g = false := on_closing base (by decide) (by decide)
theorem witness_exit_mcc : MccWitness fun _ _ _ m => m.queue = [] := on_mcc mccBase (by decide) (by decide)

/-! ### Witnesses: memory -/

/-- Loads: one lane at the first and at the last byte of the mapped space; a lane that is misaligned. -/
theorem witness_load : GangWitness [2, 6] (some []) fun s _ g _ sp => ∃ lanes, globalLanes s g sp .load 4 2 0 = .ok lanes
    ∧ inCommitted g (regBlock 6 4) = false ∧ acquireOpen sp = false ∧ openWords s g.core (lanes.flatMap fun x => keyRun x.2.2 4) = [] :=
  on_gang (gangState (laneSplit 1)) (by decide) ⟨_, rfl, by decide, by decide, by decide⟩
theorem witness_load_last : GangWitness [2, 6, 7] none fun s _ g _ sp => ∃ lanes, globalLanes s g sp .load 8 2 0 = .ok lanes
    ∧ inCommitted g (regBlock 6 8) = false ∧ acquireOpen sp = false ∧ openWords s g.core (lanes.flatMap fun x => keyRun x.2.2 8) = [] :=
  on_gang (gangState fun g => withV [(128 + 63, 0x3FFFFFF8)] (laneSplit (1#64 <<< 63) g)) (by decide) ⟨_, rfl, by decide, by decide, by decide⟩
/-- A region of state 2 whose block bc is register 6. -/
def committing (g : Gang) : Gang :=
  { g with rxs := 0x2000000, region := some { readRegion (withK [(8, 2), (9, 3), (13, 100)] g) 0 with bc := 6, dim := 1 } }
theorem witness_load_of_bc : GangWitness [2, 6] (some []) fun s _ g _ sp => gangOpen g = false
    ∧ (∃ lanes, globalLanes s g sp .load 4 2 0 = .ok lanes) ∧ inCommitted g (regBlock 6 4) = true :=
  on_gang (gangState fun g => committing (laneSplit 1 g)) (by decide) ⟨by decide, ⟨_, rfl⟩, by decide⟩
theorem witness_load_traps : GangWitness [2, 6] (some []) fun s _ g _ sp => gangOpen g = false
    ∧ ∃ i, globalLanes s g sp .load 4 2 0 = .error i ∧ takesPlace i = false :=
  on_gang (gangState fun g => withV [(128, 2)] (laneSplit 1 g)) (by decide) ⟨by decide, _, rfl, by decide⟩
theorem witness_loaded_values : ∃ s c key b, porchByte (getCore s c) key = some b ∧ porchByte (getCore s c) (key + 1) = none :=
  ⟨putStores base 0 (gang0 base) 0 (split0 (gang0 base)) [(0, [(64, 7)])], 0, 64, 7, by decide, by decide⟩
/-- Loads: a byte that the epoch has observed, one that no other agent has written, one outside the Porch. -/
theorem witness_observed_byte : let s := observeByte base 0 none 64 7
    porchByte (getCore s 0) 64 = none ∧ tget (getCore s 0).obs 64 = some 7 ∧ tget (getCore s 0).obs 65 = none ∧ pastOf s 65 = []
    ∧ overlayOf s (coreCluster 0) 65 = [] ∧ loadCandidates s 0 65 ≠ [] := by decide +kernel

/-- Stores: a lane that is misaligned; a plain store, one with a release, the same of a deterministic gang. -/
theorem witness_store_traps : GangWitness [2, 6] none fun s _ g _ sp => gangOpen g = false
    ∧ ∃ i, globalLanes s g sp .store 4 2 0 = .error i ∧ takesPlace i = false :=
  on_gang (gangState fun g => withV [(128, 2)] (laneSplit 1 g)) (by decide) ⟨by decide, _, rfl, by decide⟩
theorem witness_store : GangWitness [2, 6] none fun s gid g si sp => ∃ lanes, globalLanes s g sp .store 4 2 0 = .ok lanes
    ∧ acquireOpen sp = false ∧ gangDet s g = false ∧ porchFull s g gid si ((storeLanes g 6 4 lanes).flatMap (·.2)) = false :=
  on_gang (gangState (laneSplit 1)) (by decide) ⟨_, rfl, by decide, by decide, by decide⟩
theorem witness_store_release : GangWitness [2, 6] none fun s gid g si sp => ∃ lanes s1 g1 sp1, Sealed s gid g si s1 g1 sp1
    ∧ (∃ x, globalLanes s g sp .store 4 2 0 = .ok x) ∧ globalLanes s1 g1 sp1 .store 4 2 0 = .ok lanes
    ∧ gangDet s1 g1 = false ∧ porchFull s1 g1 gid si ((storeLanes g1 6 4 lanes).flatMap (·.2)) = false :=
  on_gang (gangState (laneSplit 1)) (by decide)
    ⟨_, _, _, _, sealed_of (by decide) rfl rfl, ⟨_, rfl⟩, rfl, by decide, by decide⟩
theorem witness_store_release_det : GangWitness [2, 6] none fun s gid g si sp => ∃ lanes s1 g1 sp1, Sealed s gid g si s1 g1 sp1
    ∧ (∃ x, globalLanes s g sp .store 4 2 0 = .ok x) ∧ globalLanes s1 g1 sp1 .store 4 2 0 = .ok lanes
    ∧ gangDet s1 g1 = true ∧ porchFull s1 g1 gid si ((storeLanes g1 6 4 lanes).flatMap (·.2)) = false :=
  on_gang (detState (laneSplit 1)) (by decide)
    ⟨_, _, _, _, sealed_of (by decide) rfl rfl, ⟨_, rfl⟩, rfl, by decide, by decide⟩
theorem witness_store_det : GangWitness [2, 6] none fun s gid g si sp => ∃ lanes, globalLanes s g sp .store 4 2 0 = .ok lanes
    ∧ acquireOpen sp = false ∧ gangDet s g = true ∧ porchFull s g gid si ((storeLanes g 6 4 lanes).flatMap (·.2)) = false :=
  on_gang (detState (laneSplit 1)) (by decide) ⟨_, rfl, by decide, by decide, by decide⟩
theorem witness_porch_order : PorchOrder (getCore base 0) ∧ (1 : Nat) ≠ (gang0 base).core := by
  refine ⟨?_, by decide⟩
  intro e he
  exact absurd he (by simp [show (getCore base 0).porch = [] from rfl])

/-- Publications: a release of one byte, whose turn has come. -/
def publishing : Nat × State :=
  startRelease (putStores base 0 (gang0 base) 0 (split0 (gang0 base)) [(0, [(64, 7)])]) 0 (gang0 base) (split0 (gang0 base)) .pk [64]
/-- The same of a gang whose cluster has resumed, and that has performed the release before. -/
def replaying (stores : State) : Nat × State :=
  startRelease (modGang stores 0 fun g => { g with replay := some { marks := [(g.rtc, eventRelease)], top := 1, owed := [], since := 0 } }) 0
    (gang0 base) (split0 (gang0 base)) .pk [64]
def stored : State := putStores base 0 (gang0 base) 0 (split0 (gang0 base)) [(0, [(64, 7)])]
/-- The same where the bytes of the entry are of a segment that is not po-before the release. -/
def sharing : Nat × State :=
  ((replaying stored).1, { (replaying stored).2 with pubs := tmod (replaying stored).2.pubs (replaying stored).1 fun p => { p with hist := [] } })
theorem witness_publication :
    (∃ p, tget publishing.2.pubs publishing.1 = some p ∧ pubReady publishing.2 p = true ∧ pubDone publishing.2 publishing.1 p = false
      ∧ p.scope ≠ .cl)
    ∧ (∃ s : State, ∃ p, tget s.pubs publishing.1 = some p ∧ pubReady s p = true ∧ pubDone s publishing.1 p = false ∧ p.scope = .cl)
    ∧ (∃ p, tget (replaying stored).2.pubs (replaying stored).1 = some p ∧ pubReady (replaying stored).2 p = true
      ∧ pubDone (replaying stored).2 (replaying stored).1 p = true
      ∧ ∀ e ∈ stillNew (replaying stored).2 (replaying stored).1 p, e.bytes = [])
    ∧ ∃ s : State, ∃ id p, tget s.pubs id = some p ∧ pubReady s p = true ∧ pubDone s id p = true ∧ ∃ e ∈ stillNew s id p, e.bytes ≠ [] :=
  ⟨⟨_, rfl, by decide, by decide, by decide⟩,
    ⟨{ publishing.2 with pubs := tmod publishing.2.pubs publishing.1 fun p => { p with scope := .cl } }, _, rfl, by decide, by decide, by decide⟩,
    ⟨_, rfl, by decide, by decide, by decide +kernel⟩,
    ⟨sharing.2, sharing.1, _, rfl, by decide, by decide, by decide +kernel⟩⟩

/-- Scratchpads: the last word of the pool share. -/
theorem witness_scratch : GangWitness [2, 6] (some []) fun s _ g _ sp => ∃ lanes, scratchLanes s g sp 4 (scratchAddr g 2 0) = .ok lanes
    ∧ inCommitted g (regBlock 6 4) = false ∧ acquireOpen sp = false ∧ tget s.crews g.crew ≠ none ∧ sp.after = [] :=
  on_gang (gangState fun g => withV [(128, 65532)] (laneSplit 1 g)) (by decide) ⟨_, rfl, by decide, by decide, by decide, by decide⟩
theorem witness_satom : GangWitness [6, 2, 8, 9] none fun s _ g _ sp => ∃ lanes, scratchLanes s g sp 4 (fun l => vget g 2 l) = .ok lanes
    ∧ acquireOpen sp = false := on_gang (gangState (laneSplit 3)) (by decide) ⟨_, rfl, by decide⟩

/-- Atomics: two lanes on one word, with a release. -/
theorem witness_atom : GangWitness [2, 6] none fun s gid g si sp =>
    (∃ x, globalLanes s g sp .rmw 4 2 0 = .ok x ∧ rmwStalls s g x = false) ∧ slotsFull g sp.mask = false
    ∧ ∃ lanes s1 g1 sp1, Sealed s gid g si s1 g1 sp1 ∧ globalLanes s1 g1 sp1 .rmw 4 2 0 = .ok lanes :=
  on_gang (gangState (laneSplit 3)) (by decide) ⟨⟨_, rfl, by decide⟩, by decide, _, _, _, _, sealed_of (by decide) rfl rfl, rfl⟩
theorem witness_red : GangWitness [2, 6, 7] none fun s gid g si sp =>
    (∃ x, globalLanes s g sp .rmw (rmwBytes (redKind .add64)) 2 0 = .ok x ∧ rmwStalls s g x = false)
    ∧ ∃ lanes s1 g1 sp1, Sealed s gid g si s1 g1 sp1 ∧ globalLanes s1 g1 sp1 .rmw (rmwBytes (redKind .add64)) 2 0 = .ok lanes :=
  on_gang (gangState (laneSplit 3)) (by decide) ⟨⟨_, rfl, by decide⟩, _, _, _, _, sealed_of (by decide) rfl rfl, rfl⟩
theorem witness_sent_words :
    (byWord [⟨0, 64, 1, 0, 0⟩, ⟨1, 68, 2, 0, 0⟩, ⟨2, 64, 3, 0, 0⟩])[1]? = some [⟨1, 68, 2, 0, 0⟩]
    ∧ (sendRmw base 0 (gang0 base) 0 (split0 (gang0 base)) .add true .plain (fun _ => []) [⟨0, 64, 1, 0, 0⟩, ⟨1, 68, 2, 0, 0⟩]).1.length = 2
    ∧ RmwOp.cas ≠ .add64 := by decide +kernel
theorem witness_rmw_keys : ∀ l ∈ [(⟨0, 64, 1, 0, 0⟩ : RmwLane)], 68 < l.addr ∨ l.addr + rmwBytes .add ≤ 68 := by decide

/-! ### Witnesses: boundaries, returns, halts -/

theorem witness_phase : GangWitness [] none fun s gid g si _ => ∃ s1 g1 sp1, Sealed s gid g si s1 g1 sp1 ∧ gangDet s1 g1 = false
    ∧ nothingLeft s1 gid g1 sp1 .pk = true ∧ splitQuiet s1 gid g1.core sp1 = true :=
  on_gang base (by decide) ⟨_, _, _, sealed_of (by decide) rfl rfl, by decide, by decide, by decide⟩
theorem witness_phase_publishes : GangWitness [] none fun s gid g si _ => ∃ s1 g1 sp1, Sealed s gid g si s1 g1 sp1 ∧ gangDet s1 g1 = false
    ∧ (nothingLeft s1 gid g1 sp1 .pk && splitQuiet s1 gid g1.core sp1) = false :=
  on_gang (putStores base 0 (gang0 base) 0 (split0 (gang0 base)) [(0, [(64, 7)])]) (by decide)
    ⟨_, _, _, sealed_of (by decide) rfl rfl, by decide, by decide⟩
theorem witness_phase_det : GangWitness [] none fun s gid g si _ => ∃ s1 g1 sp1, Sealed s gid g si s1 g1 sp1 ∧ gangDet s1 g1 = true :=
  on_gang (detState id) (by decide) ⟨_, _, _, sealed_of (by decide) rfl rfl, by decide⟩
theorem witness_fence : FenceClass.copy ≠ .host ∧ fencePub .copy .cl = some .pk ∧ fencePub .strand .cl = some .cl
    ∧ GangWitness [] none fun s gid g si _ => ∃ s1 g1 sp1, Sealed s gid g si s1 g1 sp1 ∧ gangDet s1 g1 = false
      ∧ nothingLeft s1 gid g1 sp1 .cl = true ∧ splitQuiet s1 gid g1.core sp1 = true :=
  ⟨by decide, by decide, by decide, on_gang base (by decide) ⟨_, _, _, sealed_of (by decide) rfl rfl, by decide, by decide, by decide⟩⟩
theorem witness_fence_strand_waits : GangWitness [] none fun s gid g si _ => ∃ s1 g1 sp1, Sealed s gid g si s1 g1 sp1 ∧ gangDet s1 g1 = false
    ∧ (nothingLeft s1 gid g1 sp1 .cl && splitQuiet s1 gid g1.core sp1) = false :=
  on_gang (putStores base 0 (gang0 base) 0 (split0 (gang0 base)) [(0, [(64, 7)])]) (by decide)
    ⟨_, _, _, sealed_of (by decide) rfl rfl, by decide, by decide⟩
theorem witness_fence_strand_det : GangWitness [] none fun s gid g si _ => ∃ s1 g1 sp1, Sealed s gid g si s1 g1 sp1 ∧ gangDet s1 g1 = true :=
  on_gang (detState id) (by decide) ⟨_, _, _, sealed_of (by decide) rfl rfl, by decide⟩
theorem witness_fence_pantry_waits : GangWitness [] none fun s gid g _ sp => gangDet s g = false ∧ splitQuiet s gid g.core sp = false :=
  on_gang { base with requests := [(9, gangRequest (gang0 base) 0 0 0 (.rmw .add [⟨0, 64, 1, 0, 0⟩] false) [])] } (by decide) (by decide)
theorem witness_fence_pantry : GangWitness [] none fun s gid g _ sp => gangDet s g = false ∧ splitQuiet s gid g.core sp = true :=
  on_gang base (by decide) (by decide)
theorem witness_fence_copies : GangWitness [] none fun s _ g _ _ => (FenceClass.copy = .copy → copiesOwe s g = false)
    ∧ FenceClass.copy ≠ .strand ∧ FenceClass.copy ≠ .pantry ∧ FenceClass.matrix ≠ .host ∧ gangDet s g = false := on_gang base (by decide) (by decide)
theorem witness_fence_det : GangWitness [] none fun s _ g _ _ => gangDet s g = true := on_gang (detState id) (by decide) (by decide)
theorem witness_fence_host : GangWitness [] none fun _ _ g _ _ => gangOpen g = false ∧ FenceClass.host ≠ .strand := on_gang base (by decide) (by decide)
theorem witness_pfence : GangWitness [] none fun s _ g _ _ => sealReady s (gangCluster g) = true
    ∧ clusterDrained s (gangCluster g) s.ctl.nextId = true := on_gang base (by decide) (by decide)
theorem witness_pfence_mcc : MccWitness fun s _ c _ => sealReady s c.cluster = true ∧ clusterDrained s c.cluster s.ctl.nextId = true :=
  on_mcc mccBase (by decide) (by decide)
theorem witness_pfence_waits_for_results : GangWitness [] none fun s _ g _ _ => sealReady s (gangCluster g) = false
    ∧ clusterDrained s (gangCluster g) s.ctl.nextId = true :=
  on_gang { base with gangs := base.gangs ++ [(7, openPending (gang0 base) 0
    { lateWrite with left := 1 })] } (by decide) (by decide)
theorem witness_pfence_mcc_waits : MccWitness fun s _ c _ => clusterDrained s c.cluster s.ctl.nextId = false :=
  on_mcc (mccState fun m => { m with queue := [.mzero 0] }) (by decide) (by decide)

/-- Boundaries: an awake cluster, and one with a durable launch whose budget of 255 bytes is exceeded by a granule. -/
theorem witness_seal : clusterAwake base 0 = true ∧ sealReady base 0 = true ∧ (7 : Nat) < 8 ∧ ∀ cl ∈ [0], dirtyDue base cl = false := by decide +kernel
theorem witness_dirty : dirtyDue dirtyState 0 = true ∧ sealReady dirtyState 0 = true := ⟨dirty_due, by decide⟩

/-- A handler with the address of record 0 in K(2):K(3), and gang 7 parked on that record. -/
def record7 : FaultRecord := { gangRecord base 7 (gang0 base) 0 (split0 (gang0 base)) (plainTrap .brk) 0 with owner := .gang 7 }
def withMem (ws : List (Nat × Byte)) (s : State) : State := { s with mem := { s.mem with bytes := s.mem.bytes.writes ws } }
def part0 (s : State) : Part := (tget s.parts 0).getD (placedPart s)
def gang7 : Gang := { gang0 base with status := .parked }
def handler (k2 : Word) : State :=
  withMem [(0x8050, 4), (0x8052, 0x10)] (modPart { gangState (withK [(2, k2)]) with
    gangs := (gangState (withK [(2, k2)])).gangs ++ [(7, gang7)] } 0 fun p => { p with open' := [(0, record7)] })

/-- What a state, a handler and its answer must be for the clauses of ReturnFromTrap. -/
def handlerReads (s : State) : Bool :=
  clearClosing0 s [] none && !alreadyPublished (atIssue s 0 (closedGang (gang0 s) 0)) 0 (gang0 s).rtc eventAnswer
def handlerReady (s read : State) (g1 : Gang) (sp1 : Split) : Bool :=
  !gangDurable (atIssue s 0 (closedGang (gang0 s) 0)) (closedGang (gang0 s) 0) && !gangDurable read (closedGang (gang0 s) 0) && !gangDet read g1
    && splitQuiet read 0 g1.core sp1 && nothingLeft read 0 g1 sp1 .pk && decide (tget read.gangs 0 = some g1 ∧ tget g1.splits 0 = some sp1)
/-- The state in which the handler reads the record at `key`, and the one in which it has read it. -/
def beforeReading (s : State) (key : Nat) : State :=
  loadRefresh (atIssue s 0 (closedGang (gang0 s) 0)) 0 (closedGang (gang0 s) 0) 0 .plain (recordKeys key)
def afterReading (s : State) (key : Nat) : State :=
  loadObserve (beforeReading s key) 0 (closedGang (gang0 s) 0) 0 (closedSplit (split0 (gang0 s))) .plain (recordKeys key)
def mayResume (s : State) (r : FaultRecord) (point : DWord) (abort : Bool) (x : Gang) (y : Split) : Bool :=
  decide (r.owner = .gang 7) && r.resume != 2 && decide (tget s.gangs 7 = some x) && x.status != .ended
    && decide (tget x.splits r.split = some y) && !x.needTable && x.region.isNone && decide ((tget s.cohorts x.cohort).map (·.saved) = some false)
    && decide (point ≠ 0 ∧ point.toNat % 4 = 0) && canonicalVa point && !abort
    && (tmod x.splits r.split fun q => { q with pc := point, wait := .none }).all fun e => !atMerge e.2

theorem handlerReads_of {s : State} (h : handlerReads s = true) :
    HandlerReads s 0 (gang0 s) 0 (split0 (gang0 s)) (atIssue s 0 (closedGang (gang0 s) 0)) := by
  simp only [handlerReads, Bool.and_eq_true, Bool.not_eq_true'] at h
  exact ⟨(clearClosing_of h.1).1, (clearClosing_of h.1).2, rfl, h.2⟩

theorem handlerReady_of {s read : State} {g1 : Gang} {sp1 : Split} (h : handlerReady s read g1 sp1 = true) :
    HandlerReady (atIssue s 0 (closedGang (gang0 s) 0)) 0 (closedGang (gang0 s) 0) 0 read read g1 sp1 := by
  simp only [handlerReady, Bool.and_eq_true, Bool.not_eq_true', decide_eq_true_eq] at h
  obtain ⟨⟨⟨⟨⟨h1, h2⟩, h3⟩, h4⟩, h5⟩, h6, h7⟩ := h
  exact ⟨by simp [h1], ⟨by simp [h2], by simp [h2], h6, h7⟩, h3, h4, h5⟩

theorem mayResume_of {s : State} {r : FaultRecord} {point : DWord} {abort : Bool} {x : Gang} {y : Split}
    (h : mayResume s r point abort x y = true) : MayResume s 0 r point abort 7 x y := by
  simp only [mayResume, Bool.and_eq_true, decide_eq_true_eq, bne_iff_ne, ne_eq, Bool.not_eq_true', Option.isNone_iff_eq_none,
    List.all_eq_true] at h
  obtain ⟨⟨⟨⟨⟨⟨⟨⟨⟨⟨⟨a, b⟩, c⟩, d⟩, e⟩, f⟩, g⟩, i⟩, j⟩, k⟩, l⟩, m⟩ := h
  exact ⟨a, by decide, b, c, d, e, f, g, fun w hw => by simpa [hw] using i, ⟨j.1, j.2, k⟩, l, m⟩

theorem witness_eret : ∃ s g sp s0 key p n r u read s1 g1 sp1 f x y, HandlerReads s 0 g 0 sp s0 ∧ (closedGang g 0).level = .supervisor
    ∧ translate s0 (gangView g) .load (kPair g.k 2) = .ok key ∧ tget s0.parts g.part = some p ∧ openRecord p g.part key = some (n, r)
    ∧ answering s0 r = false ∧ ReadsRecord s0 0 (closedGang g 0) 0 (closedSplit sp) key u read
    ∧ HandlerReady s0 0 (closedGang g 0) 0 read s1 g1 sp1 ∧ f = answerFields u 0 (closedGang g 0) (closedSplit sp) key
    ∧ MayResume s1 0 r f.1 f.2 7 x y :=
  ⟨handler 0x8040, _, _, _, 0x8040, part0 (handler 0x8040), 0, record7, beforeReading (handler 0x8040) 0x8040,
    afterReading (handler 0x8040) 0x8040, _, gang0 (afterReading (handler 0x8040) 0x8040), split0 (gang0 (afterReading (handler 0x8040) 0x8040)),
    _, gang7, split0 gang7, handlerReads_of (by decide), by decide, by decide +kernel, by decide +kernel, by decide +kernel, by decide +kernel,
    ⟨rfl, rfl⟩, handlerReady_of (by decide +kernel), rfl, mayResume_of (by decide +kernel)⟩
/-- The address of no open record; and of one whose answer is under way. -/
theorem witness_eret_no_record : ∃ s g sp s0, HandlerReads s 0 g 0 sp s0 ∧ (closedGang g 0).level = .supervisor
    ∧ gangOpen (closedGang g 0) = false ∧ ∃ key p, translate s0 (gangView g) .load (kPair g.k 2) = .ok key
      ∧ tget s.parts g.part = some p ∧ openRecord p g.part key = none :=
  ⟨handler 0x8080, _, _, _, handlerReads_of (by decide), by decide, by decide, 0x8080, part0 (handler 0x8080), by decide +kernel,
    by decide +kernel, by decide +kernel⟩
def answered : State := { handler 0x8040 with requests := [(9, gangRequest (gang0 base) 0 0 0 (.eret record7 0x100008 false) [])] }
theorem witness_eret_again : ∃ s g sp s0, HandlerReads s 0 g 0 sp s0 ∧ (closedGang g 0).level = .supervisor
    ∧ gangOpen (closedGang g 0) = false ∧ ∃ key p e, translate s0 (gangView g) .load (kPair g.k 2) = .ok key
      ∧ tget s.parts g.part = some p ∧ openRecord p g.part key = some e ∧ answering s0 e.2 = true :=
  ⟨answered, _, _, _, handlerReads_of (by decide), by decide, by decide, 0x8040, part0 answered, (0, record7), by decide +kernel,
    by decide +kernel, by decide +kernel, by decide +kernel⟩

/-- ReturnFromTrap: a gang of the firmware with the address of record 0 of its queue, or of the partition's, in K(2):K(3), and gang 7 parked
on that record, whose handler has written the resume point. -/
def firmwareHandler (k2 : Word) : State :=
  let s := modGang (handler k2) 0 fun g => { g with level := .firmware }
  { s with dev := { s.dev with firmwareQueue := [(0, record7)], firmwareMem := s.dev.firmwareMem.writes [(0x50, 8), (0x52, 0x10)] } }

theorem witness_eret_firmware : ∃ s g sp s0 s1 g1 sp1 n r f x y, HandlerReads s 0 g 0 sp s0 ∧ (closedGang g 0).level = .firmware
    ∧ HandlerReady s0 0 (closedGang g 0) 0 s0 s1 g1 sp1 ∧ firmwareRecord s0 (kPair g.k 2) = some (n, r) ∧ f = firmwareFields s0 n
    ∧ f.1 = 0x100008 ∧ MayResume s1 0 r f.1 f.2 7 x y :=
  ⟨firmwareHandler 0x40, _, _, _, _, closedGang (gang0 (firmwareHandler 0x40)) 0, closedSplit (split0 (gang0 (firmwareHandler 0x40))), 0, record7, _,
    gang7, split0 gang7, handlerReads_of (by decide), by decide, handlerReady_of (by decide +kernel), by decide +kernel, rfl, by decide +kernel,
    mayResume_of (by decide +kernel)⟩
theorem witness_eret_firmware_for_a_partition : ∃ s g sp s0 part key n r u read s1 g1 sp1 f x y, HandlerReads s 0 g 0 sp s0
    ∧ (closedGang g 0).level = .firmware ∧ firmwareRecord s0 (kPair g.k 2) = none
    ∧ supervisorRecord s0 (closedGang g 0) (kPair g.k 2) = some (part, key, n, r)
    ∧ ReadsRecord s0 0 (closedGang g 0) 0 (closedSplit sp) key u read ∧ HandlerReady s0 0 (closedGang g 0) 0 read s1 g1 sp1
    ∧ f = answerFields u 0 (closedGang g 0) (closedSplit sp) key ∧ MayResume s1 0 r f.1 f.2 7 x y :=
  ⟨firmwareHandler 0x8040, _, _, _, 0, 0x8040, 0, record7, beforeReading (firmwareHandler 0x8040) 0x8040,
    afterReading (firmwareHandler 0x8040) 0x8040, _, gang0 (afterReading (firmwareHandler 0x8040) 0x8040),
    split0 (gang0 (afterReading (firmwareHandler 0x8040) 0x8040)), _, gang7, split0 gang7, handlerReads_of (by decide), by decide,
    by decide +kernel, by decide +kernel, ⟨rfl, rfl⟩, handlerReady_of (by decide +kernel), rfl, mayResume_of (by decide +kernel)⟩
theorem witness_eret_no_firmware_record : ∃ s g sp s0, HandlerReads s 0 g 0 sp s0 ∧ (closedGang g 0).level = .firmware
    ∧ gangOpen (closedGang g 0) = false ∧ firmwareRecord s0 (kPair g.k 2) = none
    ∧ supervisorRecord s0 (closedGang g 0) (kPair g.k 2) = none :=
  ⟨firmwareHandler 0x80, _, _, _, handlerReads_of (by decide), by decide, by decide, by decide +kernel, by decide +kernel⟩

/-- Halts: by a supervisor gang, by a gang of the firmware, of a partition that is ready, by the host. -/
def firmwareState : State := modPart (gangState fun g => { g with level := .firmware }) 0 fun p => { p with state := .ready }
theorem witness_halt : (∃ s g sp p, Issues s 0 g 0 sp ∧ ClearClosing s g 0 sp [] none ∧ g.level = .supervisor
      ∧ tget s.parts g.part = some p ∧ p.state = .running)
    ∧ (∃ s g sp p, Issues s 0 g 0 sp ∧ ClearClosing s g 0 sp [] none ∧ g.level = .firmware ∧ tget s.parts (cget g.k 0).toNat = some p
      ∧ p.state = .ready ∧ ∀ e ∈ s.gangs, e.2.part = (cget g.k 0).toNat → gangOpen e.2 = false)
    ∧ ∃ s p, commandDue s .host 6 0 = true ∧ tget s.parts 0 = some p ∧ p.state = .running :=
  ⟨⟨base, gang0 base, split0 (gang0 base), _, (clearClosing_of (vs := []) (b := none) (by decide)).1, (clearClosing_of (vs := []) (b := none) (by decide)).2, by decide, rfl, rfl⟩,
    ⟨firmwareState, gang0 firmwareState, split0 (gang0 firmwareState), _, (clearClosing_of (vs := []) (b := none) (by decide)).1,
      (clearClosing_of (vs := []) (b := none) (by decide)).2, by decide, rfl, rfl, by decide⟩,
    ⟨commanded base, _, by decide, rfl, rfl⟩⟩

/-! ### Witnesses: copies, tags, counters, barriers -/

/-- A layout record at 0x300400: base 0x300500, rank 1, one element of one byte; k4:5 names it, k22 is its capacity. -/
def layoutBytes : List (Nat × Byte) :=
  [(0x300401, 5), (0x300402, 0x30), (0x300410, 1), (0x300414, 1), (0x300418, 1), (0x30041C, 1), (0x300420, 1), (0x30043E, 1)]
def copyState (f : Gang → Gang) : State := withMem layoutBytes (gangState fun g => f (withK [(4, 0x300400), (22, 64)] g))

theorem witness_copy : GangWitness [] none fun s gid g si sp => copyStalls s g (some 63) = false
    ∧ ∃ cp s1 g1 sp1, checkCopy .cin s gid g (some 63) 16 2 0 .none = .ok cp ∧ CopyFrom s gid g si sp .cin cp s1 g1 sp1 :=
  on_gang (copyState id) (by decide) ⟨by decide, _, _, _, _, rfl, _, rfl, rfl, rfl, rfl⟩
theorem witness_copy_out : GangWitness [] none fun s gid g si sp => copyStalls s g none = false
    ∧ ∃ cp s1 g1 sp1, checkCopy .cout s gid g none 16 2 7 .none = .ok cp ∧ CopyFrom s gid g si sp .cout cp s1 g1 sp1 :=
  on_gang (copyState id) (by decide) ⟨by decide, _, _, _, _, rfl, _, rfl, sealed_of (by decide) rfl rfl⟩
theorem witness_copy_attic : GangWitness [] none fun s gid g si sp => copyStalls s g (some 0) = false
    ∧ ∃ cp s1 g1 sp1, checkCopy .catt s gid g (some 0) 16 2 0 .none = .ok cp ∧ CopyFrom s gid g si sp .catt cp s1 g1 sp1 :=
  on_gang (copyState id) (by decide) ⟨by decide, _, _, _, _, rfl, _, rfl, rfl, rfl, rfl⟩
theorem witness_copy_global : GangWitness [] none fun s gid g si sp => copyStalls s g (some 0) = false
    ∧ ∃ cp s1 g1 sp1, checkCopy .cg s gid g (some 0) 16 2 0 .none = .ok cp ∧ CopyFrom s gid g si sp .cg cp s1 g1 sp1 :=
  on_gang (copyState id) (by decide) ⟨by decide, _, _, _, _, rfl, _, rfl, sealed_of (by decide) rfl rfl⟩
theorem witness_copy_rights : GangWitness [] none fun s _ g _ _ =>
    g.index ≠ ((launchOf s g.range).map (·.producer)).getD 0 ∧ gangOpen g = false :=
  on_gang (copyState fun g => { g with index := 1 }) (by decide) (by decide)

/-- Copies: a copy into the scratchpad under way. -/
def copy5 : Copy := layoutCopy .cin (gang0 (copyState id)) 0 16 (some 5) 0 .none (memBytes (copyState id) 0x300400 64)
def copying : State := { copyState id with copies := [(5, copy5)] }
/-- Boundaries: copies whose bytes are owed, and copies that were issued before a pfence.cl. -/
theorem witness_fence_copies_owe : GangWitness [] none fun s _ g _ _ => copiesOwe s g = true :=
  on_gang { copying with copies := [(5, { copy5 with out := [(64, 7)] })] } (by decide) (by decide)
theorem witness_pfence_waits : GangWitness [] none fun s _ g _ _ => clusterDrained s (gangCluster g) s.ctl.nextId = false :=
  on_gang { copying with ctl := { copying.ctl with nextId := 6 } } (by decide) (by decide)
theorem witness_copy_completes : ∃ s1 cp1, tget copying.copies 5 = some copy5 ∧ copyDet copying copy5 = false ∧ copyFree copying copy5 = true
    ∧ copy5.ctr = none ∧ copy5.bar = 0 ∧ runCopy copying 5 copy5 = (s1, cp1, none) ∧ copy5.tag = some 5 ∧ copy5.tagDone = false
    ∧ tget s1.crews copy5.crew ≠ none :=
  ⟨(runCopy copying 5 copy5).1, (runCopy copying 5 copy5).2.1, rfl, by decide, by decide, by decide, by decide,
    Prod.ext rfl (Prod.ext rfl (by decide)), by decide, by decide, by decide⟩
/-- Copies: an element in bounds whose bytes are mapped, and one out of bounds. -/
theorem witness_copies_in : copy5.kind = .cin ∧ copy5.remote = none ∧ copy5.moved = [] ∧ copy5.out = [] ∧ tget copying.crews copy5.crew ≠ none
    ∧ (∀ n, n < boxCount copy5.box → inBounds copy5 n = true → ∀ j, j < elemNibbles copy5.fmt →
      copyKey copying copy5 .copyRead ((globalNibble copy5 n + j) / 2) = .ok ((globalNibble copy5 n + j) / 2))
    ∧ 0 < boxCount copy5.box ∧ inBounds copy5 0 = true ∧ inBounds { copy5 with origin := [7] } 0 = false := by
  refine ⟨rfl, rfl, rfl, rfl, by decide, ?_, by decide, by decide, by decide⟩
  intro n hn _ j hj
  have h1 : boxCount copy5.box = 1 := by decide +kernel
  have h2 : elemNibbles copy5.fmt = 8 := by decide +kernel
  obtain rfl : n = 0 := by omega
  rcases (by omega : j = 0 ∨ j = 1 ∨ j = 2 ∨ j = 3 ∨ j = 4 ∨ j = 5 ∨ j = 6 ∨ j = 7) with rfl | rfl | rfl | rfl | rfl | rfl | rfl | rfl <;> rfl
theorem witness_copies_out : let c : Copy := { copy5 with kind := .cout }
    c.remote = none ∧ tget copying.crews c.crew ≠ none ∧ inBounds c 0 = true ∧ inBounds { c with origin := [7] } 0 = false
    ∧ elemNibbles c.fmt ≠ 1 ∧ elemNibbles ({ c with fmt := 5 } : Copy).fmt = 1 ∧ copyMade copying c.gang c.rtc (eventOut 0x300500) = false
    ∧ c.out = [] ∧ 0 ∈ unmoved c := by decide +kernel
theorem witness_copies_move : ∃ key s1, copyKey copying { copy5 with kind := .cout } .copyWrite 0x300500 = .ok key
    ∧ moveElem copying { copy5 with kind := .cout } 0 = .ok s1 := ⟨_, _, rfl, rfl⟩
theorem witness_local_places : (127 : Nat) < 128 ∧ localPlace true 127 = localPlace true 127
    ∧ elemNibbles ({ copy5 with fmt := 5, shuffle := true, loc := 0 } : Copy).fmt = 1 := by decide

def readyState (b : DWord) (f : Gang → Gang) : State := modCrew (gangState f) 0 fun w => { w with rdy := b }

theorem witness_tagw : ClosingWitness [] none fun s _ g _ _ => kPair g.k 2 ≠ 0 ∧ gangDet s g = false
    ∧ readyBits s g &&& kPair g.k 2 = kPair g.k 2 ∧ readyBits s g &&& kPair g.k 2 ≠ 0 :=
  on_closing (readyState 0x8000000000000001 (withK [(2, 1), (3, 0x80000000)])) (by decide) (by decide)
theorem witness_tagw_waits : ClosingWitness [] none fun s _ g _ _ => kPair g.k 2 ≠ 0
    ∧ ¬ readyBits s g &&& kPair g.k 2 = kPair g.k 2 ∧ ¬ readyBits s g &&& kPair g.k 2 ≠ 0 :=
  on_closing (gangState (withK [(3, 0x80000000)])) (by decide) (by decide)
theorem witness_tagw_traps : ClosingWitness [] none fun _ _ g _ _ => kPair g.k 2 = 0 ∧ gangOpen g = false := on_closing base (by decide) (by decide)
theorem witness_tagclr : GangWitness [] none fun s _ g _ _ => g.index = ((launchOf s g.range).map (·.producer)).getD 0 :=
  on_gang base (by decide) (by decide)
theorem witness_trailing : (∀ i, i < 5 → (32 : Nat).testBit i = false) ∧ (32 : Nat).testBit 5 = true := by decide

theorem witness_waitc : ClosingWitness [] none fun s _ g _ sp => ∃ key, counterKey s g .load 2 = .ok key
    ∧ (gangDet s g = false → acquireOpen sp = false ∧ queueFull s (homeOfKey s key) = false) := on_closing base (by decide) ⟨_, rfl, by decide⟩
/-- A reduction with an acquire is under way. -/
def acquiring : State := gangState fun g => { g with splits := tmod g.splits 0 fun q => { q with acqs := [9] } }
theorem witness_waitc_behind_an_acquire : ClosingWitness [] none fun s _ g _ sp => gangDet s g = false ∧ acquireOpen sp = true
    ∧ ∃ key, counterKey s g .load 2 = .ok key := on_closing acquiring (by decide) ⟨by decide, by decide, _, rfl⟩
theorem witness_readc : GangWitness [] none fun s _ g _ sp => ∃ key, counterKey s g .load 2 = .ok key
    ∧ (gangDet s g = false → acquireOpen sp = false ∧ slotsFull g sp.mask = false ∧ queueFull s (homeOfKey s key) = false) :=
  on_gang base (by decide) ⟨_, rfl, by decide⟩
theorem witness_sigc : GangWitness [] none fun s gid g si _ => (∃ key, counterKey s g .rmw 2 = .ok key
      ∧ (gangDet s g = false → queueFull s (homeOfKey s key) = false))
    ∧ ∃ s1 g1 sp1, Sealed s gid g si s1 g1 sp1 :=
  on_gang base (by decide) ⟨⟨_, rfl, by decide⟩, _, _, _, sealed_of (by decide) rfl rfl⟩
theorem witness_waitc_traps : ClosingWitness [] none fun _ _ g _ _ => (kPair g.k 2).toNat % 8 ≠ 0 ∧ gangOpen g = false :=
  on_closing (gangState (withK [(2, 4)])) (by decide) (by decide)

/-- Barriers: the arrival that completes a phase, one that does not, a sum. -/
def barrierOf (arrivals expected reducer : Nat) : Barrier :=
  { phase := false, arrivals := arrivals, expected := expected, pending := 0, reducer := reducer, result := 0, payloads := [],
    copied := none, lastCopied := none, known := Known.none, lastKnown := Known.none }
theorem witness_phases : ((barrierOf 3 4 1).arrivals + 1 = (barrierOf 3 4 1).expected ∧ (barrierOf 3 4 1).pending + 0 = 0
      ∧ (barrierOf 3 4 1).reducer = 1)
    ∧ ((barrierOf 2 4 0).arrivals + 1 ≠ (barrierOf 2 4 0).expected ∧ (barrierOf 2 4 0).arrivals ≠ (barrierOf 2 4 0).expected) := by decide

/-- BarriersHere: barrier 0 of a crew whose two gangs are expected; payload in K(2). -/
def barState (n : Nat) (f : Gang → Gang) : State := modCrew (gangState f) 0 fun w => { w with bars := freshBarriers 16 n }
theorem witness_barriers : ∃ s g sp s0 g0, Issues s 0 g 0 sp ∧ ClearClosing s g 0 sp [] none ∧ s0 = atIssue s 0 g0 ∧ g0 = closedGang g 0
    ∧ atPantry (.crew 0) = false ∧ gangDet s0 g0 = false ∧ g0.splits.length ≤ 1 ∧ arrivesNow s0 0 g0 (closedSplit sp) (.crew 0) = true
    ∧ (barPubScope (.crew 0) ≠ none → gangDurable s0 g0 = false) ∧ tget s0.crews g0.crew ≠ none
    ∧ tget s0.cohorts g0.cohort ≠ none ∧ barTaken s0 g0 (.crew 0) = false ∧ sp.recs = [] ∧ ownArriving s0 0 g0 (.crew 0) = []
    ∧ (arrive (getBar s0 g0 (.crew 0)) (rankOf s0 0) (cget g0.k 2) 0 (sp.known.carried (published s0 0 g0 (closedSplit sp) (.crew 0)).mem.seq 0
        (poOf (closedSplit sp)))).phase = (getBar s0 g0 (.crew 0)).phase :=
  ⟨barState 2 id, gang0 (barState 2 id), split0 (gang0 (barState 2 id)), _, _, (clearClosing_of (vs := []) (b := none) (by decide)).1,
    (clearClosing_of (vs := []) (b := none) (by decide)).2, rfl, rfl, by decide, by decide, by decide, by decide, by decide, by decide, by decide, by decide, by decide,
    by decide, by decide⟩
/-- The same at a barrier of the cohort, whose arrivals publish. -/
theorem witness_barriers_of_the_cohort : ClosingWitness [] none fun s gid g _ sp => g.splits.length ≤ 1 ∧ gangDet s g = false
    ∧ arrivesNow s gid g sp (.cohort 7) = true ∧ barPubScope (.cohort 7) ≠ none ∧ gangDurable s g = false
    ∧ barTaken s g (.cohort 7) = false := on_closing base (by decide) (by decide)
/-- A reduction of the gang is under way: its arrival waits for it, at a barrier of its crew and, behind a publication, at one of its cohort. -/
def reducing (n : Nat) : State :=
  { barState n id with requests := [(9, gangRequest (gang0 base) 0 0 0 (.rmw .add [⟨0, 64, 1, 0, 0⟩] false) [])] }
theorem witness_arrival_under_way : ClosingWitness [] none fun s gid g si sp => g.splits.length ≤ 1 ∧ gangDet s g = false
    ∧ barTaken s g (.crew 0) = false ∧ ∃ s1 g1 sp1,
      (if barPubScope (.crew 0) = none then s1 = s ∧ g1 = g ∧ sp1 = sp else Sealed s gid g si s1 g1 sp1) ∧ arrivesNow s1 gid g1 sp1 (.crew 0) = false :=
  on_closing (reducing 2) (by decide) ⟨by decide, by decide, by decide, _, _, _, by rw [if_pos (by decide)]; exact ⟨rfl, rfl, rfl⟩, by decide⟩
theorem witness_arrival_behind_a_publication : ClosingWitness [] none fun s gid g si sp => g.splits.length ≤ 1 ∧ gangDet s g = false
    ∧ barTaken s g (.cohort 0) = false ∧ ∃ s1 g1 sp1,
      (if barPubScope (.cohort 0) = none then s1 = s ∧ g1 = g ∧ sp1 = sp else Sealed s gid g si s1 g1 sp1)
        ∧ arrivesNow s1 gid g1 sp1 (.cohort 0) = false :=
  on_closing (reducing 2) (by decide)
    ⟨by decide, by decide, by decide, _, _, _, by rw [if_neg (by decide)]; exact sealed_of (by decide) rfl rfl, by decide⟩
/-- A phase that has its expected arrival, which was counted; and one that has it under way. -/
theorem witness_phase_taken : ClosingWitness [] none fun s _ g _ _ => g.splits.length ≤ 1 ∧ gangDet s g = false ∧ barTaken s g (.crew 0) = true :=
  on_closing (modCrew base 0 fun w => { w with bars := [(0, barrierOf 1 1 0)] }) (by decide) (by decide)
theorem witness_phase_taken_on_its_way : ClosingWitness [] none fun s gid g _ _ => g.splits.length ≤ 1 ∧ gangDet s g = false
    ∧ barTaken s g (.crew 0) = true ∧ (arriving s g (.crew 0)).length = 1 ∧ ownArriving s gid g (.crew 0) = [9] :=
  on_closing { barState 1 id with requests := [(9, gangRequest (gang0 base) 0 0 0 (.bar (.crew 0) true false 0 0 0 false false) [8])] }
    (by decide) (by decide)
theorem witness_barwait_waits : ClosingWitness [] none fun s _ g _ _ => gangDet s g = false
    ∧ (getBar s g (.cohort 7)).phase = (cget g.k 2).getLsbD 0 := on_closing base (by decide) (by decide)
theorem witness_barwait_passes : ClosingWitness [] none fun s _ g _ _ => gangDet s g = false
    ∧ (getBar s g (.cohort 7)).phase ≠ (cget g.k 2).getLsbD 0 := on_closing (gangState (withK [(2, 1)])) (by decide) (by decide)
theorem witness_bart : ClosingWitness [] none fun s gid g _ _ =>
    atPantry (.launch 3) = false ∧ ownArriving s gid g (.launch 3) = [] ∨ gangDet s g = true := on_closing (detState id) (by decide) (by decide)
theorem witness_bart_of_a_crew : ClosingWitness [] none fun s gid g _ _ => atPantry (.crew 15) = false ∧ ownArriving s gid g (.crew 15) = [] :=
  on_closing base (by decide) (by decide)
theorem witness_barcfg : GangWitness [] none fun s _ g _ _ => gangDet s g = false ∧ barcfgOk (cget g.k 2) = true
    ∧ arriving s g (.crew 15) = [] ∧ barrierIdle (getBar s g (.crew 15)) = true := on_gang (gangState (withK [(2, 0x08FFFFFF)])) (by decide) (by decide)
theorem witness_barcfg_traps : GangWitness [] none fun _ _ g _ _ => barcfgOk (cget g.k 2) = false ∧ gangOpen g = false :=
  on_gang (gangState (withK [(2, 0x09000001)])) (by decide) (by decide)

/-- BarriersOfTheLaunch. -/
theorem witness_reads_of_the_launch : ClosingWitness [] none fun s _ g _ sp => gangDet s g = false ∧ acquireOpen sp = false
    ∧ queueFull s (barHomeOf s g) = false := on_closing base (by decide) (by decide)
theorem witness_reads_behind_an_acquire : ClosingWitness [] none fun s _ g _ sp => gangDet s g = false ∧ acquireOpen sp = true :=
  on_closing acquiring (by decide) (by decide)
theorem witness_barriers_of_the_launch : ClosingWitness [] none fun s gid g si _ => g.splits.length ≤ 1 ∧ gangDet s g = false
    ∧ g.replay = none ∧ barTaken s g (.launch 3) = false ∧ queueFull s (barHomeOf s g) = false ∧ ∃ s1 g1 sp1, Sealed s gid g si s1 g1 sp1 :=
  on_closing base (by decide) ⟨by decide, by decide, by decide, by decide, by decide, _, _, _, sealed_of (by decide) rfl rfl⟩
theorem witness_phase_of_the_launch_taken : ClosingWitness [] none fun s _ g _ _ => g.splits.length ≤ 1 ∧ gangDet s g = false ∧ g.replay = none
    ∧ barTaken s g (.launch 3) = true :=
  on_closing (modRange base 0 fun r => { r with bars := [(3, barrierOf 1 1 0)] }) (by decide) (by decide)
theorem witness_barcfg_of_the_launch : GangWitness [] none fun s _ g _ sp => gangDet s g = false ∧ barcfgOk (cget g.k 2) = true
    ∧ acquireOpen sp = false ∧ queueFull s (barHomeOf s g) = false := on_gang (gangState (withK [(2, 1)])) (by decide) (by decide)
theorem witness_barriers_det : ClosingWitness [] none fun s _ g _ _ => g.splits.length ≤ 1 ∧ gangDet s g = true ∧ gangDurable s g = false :=
  on_closing (detState id) (by decide) (by decide)

/-! ### Witnesses: the array, generators -/

/-- Array: the last tile, operands at their alignment, a queue of seven; INT8 operands under fmt 0x600. -/
def mccReady (f : Mcc → Mcc) : State := mccState fun m => f { m with fmt := 0x11, k := csets m.k [(2, 64), (4, 8192)] }
theorem witness_mma : MccWitness fun s _ c m => m.queue.length < 8
    ∧ mmaCheck s c .m64n64 3 (some (cget m.k 2).toNat) (some (cget m.k 4).toNat) none false false m.fmt = none :=
  on_mcc (mccReady fun m => { m with queue := List.replicate 7 (.mzero 0) }) (by decide) (by decide)
theorem witness_mma_traps : MccWitness fun s _ c _ => (mccLaunch s c).1 ≤ 4 := on_mcc mccBase (by decide) (by decide)
theorem witness_mmag : MccWitness fun s _ c m => m.queue.length < 8 ∧ mmaCheck s c .m64n64 3 none (some (cget m.k 4).toNat)
    (some (tget m.gens 7)) false false m.fmt = none :=
  on_mcc (mccReady fun m => { m with gens := [(7, { kind := 0, fmt := 1, seed := 0, p1 := 0, p2 := 0, table := [] })] }) (by decide) (by decide)
theorem witness_mmag_traps : MccWitness fun s _ c m => 3 < (mccLaunch s c).1 ∧ tget m.gens 7 = none := on_mcc mccBase (by decide) (by decide)
theorem witness_mdrain : MccWitness fun s _ c m => m.queue.length < 8 ∧ 3 < (mccLaunch s c).1 ∧ fieldW m.fmt 8 4 ≤ 4
    ∧ (cget m.k 2).toNat % 16 = 0 ∧ (cget m.k 2).toNat + 4096 * drainBytes (fieldW m.fmt 8 4) ≤ (mccLaunch s c).2 :=
  on_mcc (mccState fun m => { m with k := cset m.k 2 49152 }) (by decide) (by decide)
theorem witness_array_executes : ∃ s c m rest, tget s.cohorts 0 = some c ∧ tget s.mccs 0 = some m ∧ m.queue = .mzero 3 :: rest
    ∧ c.saved = false ∧ partRuns s c.part = true ∧ (0 ∈ c.crews ∧ tget s.crews 0 ≠ none) :=
  ⟨mccState fun m => { m with queue := [.mzero 3] }, _, _, _, rfl, rfl, rfl, by decide, by decide, by decide⟩
theorem witness_mma_cell : (List.replicate 32 (FVal.num false 1 0)).length = 32 := by decide
theorem witness_drain : fieldW 0 8 4 = 0 ∧ fieldW 0 16 4 = 0 ∧ (0 : Word).getLsbD 15 = false ∧ nanWord 0x00000001 = false := by decide

/-- ForkAndRendezvous: gang 0 of a cohort of four crews. -/
def fourCrews (s : State) : State :=
  { modCohort s 0 (fun c => { c with crews := [0, 1, 2, 3] }) with crews := (List.range 4).map fun i => (i, { placedCrew with index := i, core := i }) }
/-- Array: the last of the four crews, whose scratchpad no unordered write has touched. -/
theorem witness_array_results : let s := fourCrews mccBase
    (cohort0 s).crews.length = 4 ∧ (cohort0 s).crews.Nodup ∧ (cohort0 s).crews[3]? = some 3
    ∧ (tget s.crews 3).map (·.olds) = some [] ∧ (getCluster s 0).atticOlds = [] ∧ 32 * 3 < (shapeDims .m128n64).1 ∧ drainBytes 4 = 1
    ∧ 4 ∉ (cohort0 s).crews ∧ (List.replicate 32 (FVal.num false 1 0)).length = 32 := by decide
theorem witness_fork : ClosingWitness [] none fun s gid g _ _ => mayFork s g = true ∧ targetTrap (kPair g.k 2) = none
    ∧ mccRunning s g.cohort = false ∧ takeAttic s (gangCluster g) g.cohort ≠ none ∧ ∀ e ∈ s.requests, e.2.gang ≠ gid :=
  on_closing (fourCrews base) (by decide) (by decide)
theorem witness_fork_traps : ClosingWitness [] none fun s _ g _ _ => mayFork s g = false ∧ gangOpen g = false :=
  on_closing base (by decide) (by decide)
theorem witness_rdv_waits : ClosingWitness [] none fun s gid g si _ => g.splits.length ≤ 1
    ∧ rdvComplete (blockOn s gid si (gangDet s g) .rdv) g.cohort = false :=
  on_closing { base with mccs := [(0, placedMcc)] } (by decide) (by decide)
theorem witness_rdv_completes : ClosingWitness [] none fun s gid g si sp => g.splits.length ≤ 1
    ∧ rdvComplete (blockOn s gid si false .rdv) g.cohort = true ∧ cohortDet s g.cohort = false ∧ (s.gangs.map (·.1)).Nodup
    ∧ gangDet s g = false ∧ cohortOut s g.cohort = false ∧ g.status ≠ .ended ∧ sp.recs = [] := on_closing base (by decide) (by decide)
theorem witness_rdv_mcc : MccWitness fun s cid _ m => m.queue = []
    ∧ rdvComplete (modMcc s cid fun x => { x with wait := .rdv }) cid = false := on_mcc mccBase (by decide) (by decide)
theorem witness_rdv_mcc_completes : MccWitness fun s cid _ m => m.queue = [] ∧ m.running = true ∧ (s.mccs.map (·.1)).Nodup
    ∧ rdvComplete (modMcc s cid fun x => { x with wait := .rdv }) cid = true ∧ cohortDet s cid = false ∧ cohortOut s cid = false :=
  on_mcc { mccBase with gangs := [] } (by decide) (by decide)

/-- Generators: kind 0 with its fields all 0, evaluated to FP32; a generator never loaded. -/
theorem witness_gset : GangWitness [] none fun s _ g _ _ => ∃ x, makeGen s (gangView g) false (fun i => cget g.k (120 + i))
    (cohortOrigin s g.cohort).1 (cohortOrigin s g.cohort).2 (((tget s.crews g.crew).map (·.index)).getD 0) g.index = .ok x :=
  on_gang (gangState (withK [(120, 0x740)])) (by decide) ⟨_, rfl⟩
theorem witness_gset_mcc : MccWitness fun s cid c m => ∃ x, makeGen s (mccView s c) true (fun i => cget m.k (120 + i))
    (cohortOrigin s cid).1 (cohortOrigin s cid).2 0 0 = .ok x :=
  on_mcc (mccState fun m => { m with k := cset m.k 120 0x10 }) (by decide) ⟨_, rfl⟩
theorem witness_geval : GangWitness [127, 126, 125] (some [127]) fun _ _ g _ _ => tget g.gens 7 ≠ none :=
  on_gang (gangState fun g => { g with gens := [(7, { kind := 0, fmt := 6, seed := 0, p1 := 0, p2 := 0, table := [] })] }) (by decide) (by decide)
theorem witness_geval_traps : GangWitness [127, 126, 125] (some [127]) fun _ _ g _ _ => tget g.gens 7 = none ∧ gangOpen g = false :=
  on_gang base (by decide) (by decide)

/-! ### Witnesses: tasks, regions, groups, determinism -/

/-- A launch record at 0x300000 that holds two siblings, a continuation record at 0x300100 that names it, a chunk record at
0x300300; K(2):K(3) names the continuation record. -/
def taskBytes : List (Nat × Byte) :=
  [(0x300002, 0x10), (0x300010, 1), (0x300022, 1), (0x300025, 1), (0x300026, 1), (0x300102, 0x30), (0x300116, 1),
   (0x300304, 0xE8), (0x300305, 3), (0x300308, 8), (0x30030C, 4)]
def taskState (ks : List (Nat × Word)) (f : Gang → Gang) : State := withMem taskBytes (gangState fun g => f (withK ks g))

theorem witness_join : GangWitness [] none fun s gid g si sp =>
    (∃ key, recordKey s g 32 2 = .ok key ∧ askHeld s g sp (homeOfKey s key) = false) ∧ ∃ s1 g1 sp1, Sealed s gid g si s1 g1 sp1 :=
  on_gang (taskState [(2, 0x300100)] id) (by decide) ⟨⟨_, rfl, by decide⟩, _, _, _, sealed_of (by decide) rfl rfl⟩
theorem witness_chunk : GangWitness [] none fun s gid g si sp =>
    (∃ key, recordKey s g 16 2 = .ok key ∧ slotHeld s g sp (homeOfKey s key) = false) ∧ ∃ s1 g1 sp1, Sealed s gid g si s1 g1 sp1 :=
  on_gang (taskState [(2, 0x300300)] id) (by decide) ⟨⟨_, rfl, by decide⟩, _, _, _, sealed_of (by decide) rfl rfl⟩
theorem witness_spawn : GangWitness [] none fun s gid g si sp => (kPair g.k 2).toNat % 32 = 0
    ∧ failed ((recordVas (kPair g.k 2) 1).map (readPlacement (recordView s g (recordVas (kPair g.k 2) 1)) g)) = []
    ∧ askHeld s g sp (homeAt s g (kPair g.k 2)) = false
    ∧ openWords s g.core ((recordVas (kPair g.k 2) 1).flatMap (placementKeys (recordView s g (recordVas (kPair g.k 2) 1)) g)) = []
    ∧ ∃ s1 g1 sp1, Sealed (recordView s g (recordVas (kPair g.k 2) 1)) gid g si s1 g1 sp1 :=
  on_gang (taskState [(2, 0x300100)] id) (by decide)
    ⟨by decide, by decide +kernel, by decide, by decide +kernel, _, _, _, sealed_of (by decide) rfl rfl⟩
theorem witness_msgsend : GangWitness [] none fun s gid g _ sp => (kPair g.k 2).toNat % 32 = 0 ∧ gangDet s g = false
    ∧ gangDurable s g = false ∧ acquireOpen sp = false ∧ alreadyPublished s gid g.rtc eventMessage = false
    ∧ openWords s g.core (readKeys s g (kPair g.k 2) 32) = []
    ∧ ∃ bs, plainRead (overflowRefresh s g.core (readKeys s g (kPair g.k 2) 32)) g (kPair g.k 2) 32 = .ok bs
      ∧ messageTraps s g (cget g.k 6) (parseCont bs) = [] :=
  on_gang (taskState [(2, 0x300100)] id) (by decide)
    ⟨by decide, by decide, by decide, by decide, by decide, by decide +kernel, _, rfl, by decide +kernel⟩
theorem witness_chunk_ranges : (8 : Nat) ≠ 0 ∧ (4 : Nat) ≠ 0 ∧ (999 : Nat) < 1000 ∧ 1000 ≤ 1000 ∧ (1000 : Nat) < 2 ^ 32 ∧ (0 : Nat) = 0 := by decide

/-- Regions: 2 steps of one word on 2 lanes, no Jacobian, a limit of `limit` passes, policy 2. -/
def regionRegs (limit : Word) : List (Nat × Word) :=
  [(0, 0x100002), (1, limit), (4, 0x3F800000), (5, 0x04030200)]
def regionGang (st limit : Word) (g : Gang) : Gang :=
  let h := withK (regionRegs limit) g
  { h with rxs := st <<< 24, region := some (readRegion h 0) }

theorem witness_rxcfg : GangWitness [] none fun _ _ g _ sp => g.splits.length ≤ 1 ∧ regionOk g sp 0 (readRegion g 0) = true :=
  on_gang (gangState (withK (regionRegs 1))) (by decide) (by decide)
theorem witness_rxcfg_traps : GangWitness [] none fun _ _ g _ sp => regionOk g sp 0 (readRegion g 0) = false ∧ gangOpen g = false :=
  on_gang (gangState (withK (regionRegs 0))) (by decide) (by decide)
theorem witness_rxbody : GangWitness [] none fun s gid g _ _ => regionState g = 1 ∧ g.splits.length ≤ 1 ∧ ∃ r, g.region = some r
    ∧ g.wbase = r.wbase ∧ ((getCore s g.core).stair = none ∨ (getCore s g.core).stair = some gid) :=
  on_gang (gangState (regionGang 1 1)) (by decide) ⟨by decide, by decide, _, rfl, by decide, .inl rfl⟩
theorem witness_rxbody_traps : GangWitness [] none fun _ _ g _ _ => (regionState g ≠ 1 ∨ g.region = none) ∧ gangOpen g = false :=
  on_gang base (by decide) (by decide)
theorem witness_rxabort : GangWitness [] (some []) fun _ _ g _ _ => regionState g = 2 := on_gang (gangState (regionGang 2 1)) (by decide) (by decide)
theorem witness_rxabort_states : regionState (regionGang 1 1 (placedGang 0)) = 1 ∧ regionState (placedGang 0) = 0
    ∧ (regionGang 2 1 (placedGang 0)).region ≠ none ∧ (3 : Nat) < 4 := by decide
theorem witness_rxend_next_slot : GangWitness [] (some []) fun _ _ g _ sp => regionState g = 2 ∧ g.splits.length ≤ 1 ∧ sp.pend = []
    ∧ ∃ r, g.region = some r ∧ r.fallback = none ∧ r.slot + 1 < r.steps ∧ r.slot + 1 < r.len :=
  on_gang (gangState fun g => { regionGang 2 1 g with region := some { readRegion g 0 with steps := 2, len := 2 } }) (by decide)
    ⟨by decide, by decide, by decide, _, rfl, by decide, by decide, by decide⟩
theorem witness_rxend_pass : GangWitness [] (some []) fun _ _ g _ sp => regionState g = 2 ∧ g.splits.length ≤ 1 ∧ sp.pend = []
    ∧ ∃ r, g.region = some r ∧ r.fallback = none ∧ (r.steps ≤ r.slot + 1 ∨ r.len ≤ r.slot + 1) :=
  on_gang (gangState (regionGang 2 1)) (by decide) ⟨by decide, by decide, by decide, _, rfl, by decide, by decide⟩
theorem witness_rxend_traps : GangWitness [] (some []) fun _ _ g _ _ => (regionState g ≠ 2 ∨ g.region = none) ∧ gangOpen g = false :=
  on_gang (gangState (regionGang 1 1)) (by decide) (by decide)

theorem witness_rxend_fallback : GangWitness [] (some []) fun _ _ g _ sp => regionState g = 2 ∧ g.splits.length ≤ 1 ∧ sp.pend = []
    ∧ ∃ r, g.region = some r ∧ r.fallback = some 0 ∧ 0 + 1 < r.len :=
  on_gang (gangState fun g => { regionGang 2 1 g with region := some { readRegion g 0 with len := 2, fallback := some 0 } }) (by decide)
    ⟨by decide, by decide, by decide, _, rfl, rfl, by decide⟩
theorem witness_rxend_last_fallback : GangWitness [] (some []) fun _ _ g _ sp => regionState g = 2 ∧ g.splits.length ≤ 1 ∧ sp.pend = []
    ∧ ∃ r, g.region = some r ∧ r.fallback = some 1 ∧ r.len ≤ 1 + 1 :=
  on_gang (gangState fun g => { regionGang 2 1 g with region := some { readRegion g 0 with len := 2, fallback := some 1 } }) (by decide)
    ⟨by decide, by decide, by decide, _, rfl, rfl, by decide⟩

/-- What the pass of a region of two steps ends in, its two results, the passes before it and the stalls given: an exact guess converges, a
wrong one goes on, stalls or is stopped by the limit, and one that is not finite ends. -/
def passOutcome (limit y : Word) (used stalls : Nat) : PassOutcome :=
  let g := { regionGang 2 limit (placedGang 0) with rxs := 2#32 <<< 24 ||| BitVec.ofNat 32 used }
  let r : Region :=
    { readRegion (withK (regionRegs limit) (placedGang 0)) 0 with caps := [(0, [y], []), (1, [y], [])], stalls := stalls, early := true }
  (passEnd g r (passResult r ((List.range r.len).map (guessOf g r)) 0)).2.2
theorem witness_pass_outcomes : passOutcome 5 0 0 0 = .converged ∧ passOutcome 5 0x3F800000 0 0 = .again ∧ passOutcome 1 0x3F800000 0 0 = .limit
    ∧ passOutcome 5 0x3F800000 1 1 = .stall ∧ passOutcome 5 0x7F800000 0 0 = .nonfinite := by decide +kernel
theorem witness_policies : (readRegion (withK [(0, 0x100002)] (placedGang 0)) 0).policy = 2
    ∧ (readRegion (withK [(0, 0x080002)] (placedGang 0)) 0).policy = 1 ∧ (readRegion (withK [(0, 2)] (placedGang 0)) 0).policy = 0 := by decide
theorem witness_passes_test : isFiniteF32 0x7F7FFFFF = true ∧ isZeroF32 0x80000000 = true := by decide

/-- SampleGroups: a group record at 0x300200. -/
theorem witness_sgstat : GangWitness [] none fun s _ g _ sp => ∃ bl, groupRecord s g .load (kPair g.k 4) 64 = .ok bl
    ∧ slotHeld s g sp (homeOfKey s (bl.headD 0)) = false :=
  on_gang (taskState [(4, 0x300200)] id) (by decide) ⟨_, rfl, by decide⟩
theorem witness_sgcancel : GangWitness [] none fun s gid g si sp =>
    (∃ bl, groupRecord s g .rmw (kPair g.k 4) 64 = .ok bl ∧ slotHeld s g sp (homeOfKey s (bl.headD 0)) = false)
    ∧ (∃ x, translateRange s (gangView g) .rmw (kPair g.k 4 + BitVec.ofNat 64 (slotOff (cget g.k 6).toNat)) 16 = .ok x)
    ∧ ∃ s1 g1 sp1, Sealed s gid g si s1 g1 sp1 :=
  on_gang (taskState [(4, 0x300200), (6, 63)] id) (by decide) ⟨⟨_, rfl, by decide⟩, ⟨_, rfl⟩, _, _, _, sealed_of (by decide) rfl rfl⟩
theorem witness_sgreward : ClosingWitness [] none fun s gid g si sp => g.sgidx ≠ 0xFFFFFFFF ∧ rewardBad (cget g.k 6) = false
    ∧ (gangDet s g = false → slotsFull g sp.mask = false ∧ queueFull s (groupHome s gid) = false) ∧ ∃ s1 g1 sp1, Sealed s gid g si s1 g1 sp1 :=
  on_closing (gangState fun g => { g with sgidx := 63, k := [(6, 0xFF7FFFFF)] }) (by decide)
    ⟨by decide, by decide, by decide, _, _, _, sealed_of (by decide) rfl rfl⟩
theorem witness_sgreward_traps : ClosingWitness [] none fun _ _ g _ _ =>
    (g.sgidx = 0xFFFFFFFF ∨ rewardBad (cget g.k 6) = true) ∧ gangOpen g = false := on_closing base (by decide) (by decide)
theorem witness_sgfork_traps : ClosingWitness [] none fun _ _ g _ _ =>
    ((cget g.k 16).toNat < 2 ∨ 64 < (cget g.k 16).toNat) ∧ gangOpen g = false := on_closing (gangState (withK [(16, 65)])) (by decide) (by decide)
theorem witness_sgfork : ClosingWitness [] none fun s gid g si sp => 2 ≤ (cget g.k 16).toNat ∧ (cget g.k 16).toNat ≤ 64
    ∧ epsBad (cget g.k (16 + 5)) = false
    ∧ (∃ bl pl, groupRecord s g .rmw (kPair g.k 4) (64 + 16 * (cget g.k 16).toNat) = .ok bl
      ∧ promptTraps (recordView s g [kPair g.k (16 + 1)]) g (kPair g.k (16 + 1)) (cget g.k 16).toNat = ([], some pl)
      ∧ slotHeld s g sp (homeOfKey s (bl.headD 0)) = false)
    ∧ openWords s g.core (placementKeys (recordView s g [kPair g.k (16 + 1)]) g (kPair g.k (16 + 1))) = []
    ∧ ∃ s1 g1 sp1, Sealed (recordView s g [kPair g.k (16 + 1)]) gid g si s1 g1 sp1 :=
  on_closing (taskState [(4, 0x300200), (16, 2), (17, 0x300100)] id) (by decide)
    ⟨by decide, by decide, by decide, ⟨_, _, rfl, rfl, by decide⟩, by decide +kernel, _, _, _, sealed_of (by decide) rfl rfl⟩
def groupOf : Group :=
  { part := 0, die := 0, va := 0x300200, blocks := [0x300200], range := 0, det := false, elapsed := 1650, closed := false, known := Known.none }
theorem witness_sgdeadline : let s := withMem [(0x300208, 1)] { base with groups := [(2, groupOf)] }
    tget s.groups 2 = some groupOf ∧ groupOf.det = false ∧ deadlineReached s groupOf = true := by decide +kernel
theorem witness_no_spread : (advantages 0 [0x3F800000]).2.1 &&& 0x7FFFFFFF = 0 ∧ (advantages 0 [0x3F800000]).2.2 ≠ [] := by decide +kernel

/-- Determinism. -/
theorem witness_digest : GangWitness [] none fun s _ g _ _ => (kPair g.k 2).toNat % 64 = 0 ∧ (kPair g.k 4).toNat % 64 = 0 ∧ kPair g.k 4 ≠ 0
    ∧ (kPair g.k 4).toNat ≤ 2 ^ 40 ∧ ∃ p, tget s.parts g.part = some p ∧ p.digestRanges.length < 64 :=
  on_gang (gangState (withK [(5, 0x100)])) (by decide) ⟨by decide, by decide, by decide, by decide, _, rfl, by decide⟩
theorem witness_digest_traps : GangWitness [] none fun _ _ g _ _ =>
    ((kPair g.k 2).toNat % 64 ≠ 0 ∨ (kPair g.k 4).toNat % 64 ≠ 0) ∧ gangOpen g = false :=
  on_gang (gangState (withK [(4, 32)])) (by decide) (by decide)
theorem witness_stepmark : GangWitness [] none fun s gid g si _ => stepStale s g (kPair g.k 2) = false
    ∧ ∃ s1 g1 sp1, Sealed s gid g si s1 g1 sp1 := on_gang base (by decide) ⟨by decide, _, _, _, sealed_of (by decide) rfl rfl⟩
theorem witness_stepmark_traps : GangWitness [] none fun s _ g _ _ => stepStale s g (kPair g.k 2) = true ∧ g.replay = none ∧ gangOpen g = false :=
  on_gang (modPart base 0 fun p => { p with lastStep := some 0 }) (by decide) (by decide)
theorem witness_gang_quantum : ∃ s g, tget s.gangs 0 = some g ∧ gangDet s g = true ∧ quantumOf s g ≤ g.qCount ∧ g.qEnded = false :=
  ⟨detState fun g => { g with qCount := 65536 }, gang0 (detState fun g => { g with qCount := 65536 }), rfl, by decide, by decide, by decide⟩

/-! ### Witnesses: the Pantry, faults, the scheduler -/

def asking (kind : ReqKind) : Request := gangRequest (gang0 base) 0 0 0 kind []
/-- A request sent in cycle 0, and the clock at 1. -/
def asked (kind : ReqKind) : State :=
  { taskState [] (fun g => { g with splits := tmod g.splits 0 fun q => { q with wait := .reply 9 } }) with
    requests := [(9, asking kind)], ctl := { base.ctl with clock := 1 } }
theorem witness_pantry_rmw :
    nextRequest (asked (.rmw .add [⟨0, 64, 1, 0, 0⟩] false)) 0 = some (9, asking (.rmw .add [⟨0, 64, 1, 0, 0⟩] false))
    ∧ (asked (.rmw .add [⟨0, 64, 1, 0, 0⟩] false)).mem.overlay = []
    ∧ recordedLanes (asked (.rmw .add [⟨0, 64, 1, 0, 0⟩] false)) 9 (asking (.rmw .add [⟨0, 64, 1, 0, 0⟩] false)) [⟨0, 64, 1, 0, 0⟩] = none := by
  refine ⟨by decide +kernel, by decide +kernel, rfl⟩
/-- Requests of two gangs of one cycle, and one of a copy. -/
theorem witness_senders : ∃ (s : State) (r q : Request) (x y : Gang), r.copy = none ∧ q.copy = none ∧ tget s.gangs r.gang = some x
    ∧ tget s.gangs q.gang = some y ∧ x.slot < 32 ∧ y.slot < 32 ∧ x.core = y.core ∧ x.slot < y.slot
    ∧ coreCluster x.core ≤ 0 ∧ ({ r with copy := some (0, .copy 0 0 none 0 false) } : Request).copy = some (0, .copy 0 0 none 0 false) :=
  ⟨{ base with gangs := base.gangs ++ [(7, { gang0 base with slot := 31 })] }, asking (.order .pk), { asking (.order .pk) with gang := 7 },
    gang0 base, { gang0 base with slot := 31 }, rfl, rfl, rfl, rfl, by decide, by decide, rfl, by decide, by decide, rfl⟩
theorem witness_pantry_chunk : let s := asked (.chunk 0x300300 10)
    nextRequest s 0 = some (9, asking (.chunk 0x300300 10)) ∧ recorded s 9 (asking (.chunk 0x300300 10)) = none
    ∧ awaits s (asking (.chunk 0x300300 10)) 9 = true ∧ splitReached s 0 = true
    ∧ splitReached (modCohort s 0 fun c => { c with saved := true }) 0 = false
    ∧ chunkPiece (memLE s 0x300300 4) (memLE s 0x300304 4) (memLE s 0x300308 4) (memLE s 0x30030C 4) = some (0, 125, 125) := by decide +kernel

/-- FaultEvents: a held record that can be posted, a bad word, a fetch that faults, an XLATE, a gang held without a place. -/
theorem witness_held_record : ∃ s p, tget s.parts 0 = some p ∧ firstHeld s p.heldRecords = some (record7, []) ∧ queueHasRoom s 0 p = true
    ∧ s.requests = [] := ⟨trapped [(0, record7)], _, rfl, rfl, by decide +kernel, rfl⟩
theorem witness_bad_word : issues0 base = true ∧ gangOpen (gang0 base) = false
    ∧ decodeWord 0x3E000000 = none := by decide
def lostGang : State := gangState fun g => { g with splits := tmod g.splits 0 fun q => { q with pc := 0x0200000000000000 } }
theorem witness_bad_fetch : issues0 lostGang = true ∧ gangOpen (gang0 lostGang) = false
    ∧ ∃ e, fetchAt lostGang (gangView (gang0 lostGang)) .fetch (splitBound lostGang (gang0 lostGang) (split0 (gang0 lostGang))) (split0 (gang0 lostGang)).pc = .error e
      ∧ takesPlace (accessTrap .fetch e) = false := ⟨by decide, by decide, _, rfl, by decide⟩
theorem witness_xlate : tget (gang0 base).splits 0 ≠ none ∧ takesPlace (accessTrap .load (.xlate, 2, 0)) = true := by decide
theorem witness_held_gang : let s := modCluster base 0 fun c => { c with heldFaults := [.gang 0], heldAt := [(.gang 0, 0, 16)] }
    tget s.gangs 0 ≠ none ∧ (getCluster s (gangCluster (gang0 s))).heldFaults.contains (.gang 0) = true
    ∧ bufferHasRoom (getCluster s (gangCluster (gang0 s))) (.gang 0) = true := by decide
def lostCopy (base : DWord) : Copy := { copy5 with base := base }
theorem witness_copy_faults : ∃ s1 cp1 s2 cp2, tget copying.copies 5 ≠ none ∧ copyFree copying (lostCopy 0x40000000) = true
    ∧ copyAtEnd copying (lostCopy 0x40000000) = true
    ∧ copyMeets copying 5 (lostCopy 0x40000000) false = (s1, cp1, some (.xlate, 0, 0x40000000, .copyRead))
    ∧ copyMeets copying 5 (lostCopy 0x0200000000000000) false = (s2, cp2, some (.perm, 3, 0x0200000000000000, .copyRead)) :=
  ⟨(copyMeets copying 5 (lostCopy 0x40000000) false).1, (copyMeets copying 5 (lostCopy 0x40000000) false).2.1,
    (copyMeets copying 5 (lostCopy 0x0200000000000000) false).1, (copyMeets copying 5 (lostCopy 0x0200000000000000) false).2.1,
    by decide, by decide, by decide, Prod.ext rfl (Prod.ext rfl (by decide +kernel)), Prod.ext rfl (Prod.ext rfl (by decide +kernel))⟩

/-- Scheduling: a record of one cohort in the queue of die 0, after 1 ms; and one that no core can hold. -/
def waiting (l : Launch) : Range := { placedRange with queued := true, cursor := 0, count := 1, launch := l, level := 1 }
def bigLaunch : Launch := { placedLaunch with gangs := 16 }
def queuedState (l : Launch) : State :=
  { base with ctl := { base.ctl with clock := 1650000 }, ranges := base.ranges ++ [(3, waiting l)] }
theorem witness_placement : ∃ rid r cl, nextPlacement (queuedState placedLaunch) 0 0 = some (rid, r, cl)
    ∧ partRuns (queuedState placedLaunch) 0 = true ∧ (∀ x ∈ restorable (queuedState placedLaunch) 0 0, x.2 < effLevel r)
    ∧ clusterAwake (queuedState placedLaunch) cl = true := ⟨_, _, _, rfl, by decide, by decide, by decide⟩
theorem witness_aging : tget (queuedState placedLaunch).ranges 3 = some (waiting placedLaunch) ∧ (waiting placedLaunch).aged < 16
    ∧ microCycles (1000 * ((waiting placedLaunch).aged + 1)) ≤ waited (queuedState placedLaunch) (waiting placedLaunch) := by decide
theorem witness_spill : tget (queuedState bigLaunch).ranges 3 = some (waiting bigLaunch) ∧ placeable (queuedState bigLaunch) (waiting bigLaunch) = true
    ∧ (waiting bigLaunch).pinned = false ∧ (waiting bigLaunch).spill = false
    ∧ microCycles 20 ≤ waited (queuedState bigLaunch) (waiting bigLaunch) ∧ pickCluster (queuedState bigLaunch) 3 (waiting bigLaunch) = none := by
  decide +kernel
theorem witness_reservation : ((waiterOf (queuedState bigLaunch) 3).any fun w => w.part == 0 && w.die == 0 && !w.pinned && !w.fits
      && decide (microCycles 20 ≤ w.waited)) = true
    ∧ headId (queuedState bigLaunch) 0 0 = some 3 ∧ (∀ e ∈ (queuedState bigLaunch).clusters, e.2.reserved ≠ some 3)
    ∧ ((((tget (queuedState bigLaunch).parts 0).map partClusters).getD []).find?
        (fun x => (getCluster (queuedState bigLaunch) x).reserved.isNone)) = some 0 := by decide +kernel
def crowded : State := modCluster (modPart (queuedState bigLaunch) 0 fun p => { p with saveGiB := 1 }) 0 fun c => { c with reserved := some 3 }
theorem witness_preempt : (crowded.clusters.find? fun e => e.2.reserved == some 3).map (·.1) = some 0
    ∧ ((waiterOf crowded 3).any fun w => decide (microCycles 50 ≤ w.waited) && !w.fits && w.level == (waiting bigLaunch).level) = true
    ∧ (firstVictim crowded ((crowded.cohorts.filter fun e => e.2.cluster == 0 && !e.2.saved && !e.2.ended && !e.2.preempt
        && decide (cohortPrio crowded e.1 < (waiting bigLaunch).level)).filter fun e => !cohortDet crowded e.1)).map (·.1) = some 0
    ∧ (∀ e ∈ crowded.cohorts, e.2.cluster = 0 → e.2.preempt = false) := by decide +kernel
/-- A saved cohort of level 0 at the head of the queue of die 0, beside a range of level 1. -/
def savedState : State :=
  { queuedState placedLaunch with cohorts := base.cohorts ++ [(5, { placedCohort with saved := true, crews := [] })] }
theorem witness_saved_head : tget savedState.ranges 5 = none ∧ tget savedState.cohorts 5 ≠ none
    ∧ ((tget savedState.cohorts 5).bind (cohortRange savedState)) = some placedRange ∧ savedHead savedState 0 0 = some (5, 0)
    ∧ (queueHead savedState 0 0).map (fun h => (h.1, decide (effLevel h.2 ≤ 0))) = some (3, false) := by decide +kernel
theorem witness_save_room : saveRoom crowded 0 (cohort0 crowded) = true := by
  have hp : tget crowded.parts (cohort0 crowded).part = some (part0 crowded) := by decide +kernel
  have hg : (part0 crowded).saveGiB = 1 := by decide +kernel
  have ht : (crowded.cohorts.filter fun e => (e.2.part == (cohort0 crowded).part && (e.2.saved || e.2.preempt) && !e.2.ended)
      || (saveSet crowded 0 (cohort0 crowded)).contains e.1) = [(0, cohort0 crowded)] := by decide +kernel
  have hn : ((cohort0 crowded).crews.map fun w => ((tget crowded.crews w).map (crewNeed crowded)).getD 0).foldl (· + ·) 0 ≤ 2 ^ 20 := by
    decide +kernel
  have ha : (cohort0 crowded).attic = false := by decide +kernel
  have hc := (Config.contextBytes 0).isLt
  simp only [saveRoom, hp, hg, ht, saveSum, saveBytes, ha, List.map_cons, List.map_nil, List.foldl_cons, List.foldl_nil, decide_eq_true_eq, Bool.false_eq_true, if_false]
  revert hn
  generalize ((cohort0 crowded).crews.map fun w => ((tget crowded.crews w).map (crewNeed crowded)).getD 0).foldl (· + ·) 0 = n
  intro hn
  omega

/-- SavesAndMessages. -/
theorem witness_save : let s := modCohort base 0 fun c => { c with preempt := true }
    (cohort0 s).preempt = true ∧ (cohort0 s).saved = false ∧ (cohort0 s).ended = false ∧ ((tget s.mccs 0).map (·.queue.isEmpty)).getD true = true
    ∧ clusterAwake s (cohort0 s).cluster = true ∧ sealReady s (cohort0 s).cluster = true
    ∧ ∀ e ∈ cohortLive s 0, gangStops e.2 = true ∧ gangQuiet s e.1 e.2 = true := by decide
theorem witness_restore : let s := modCohort base 0 fun c => { c with saved := true }
    cohortRange s (cohort0 s) = some placedRange ∧ (cohort0 s).saved = true ∧ (cohort0 s).ended = false
    ∧ partRuns s (cohort0 s).part = true
    ∧ (∀ e ∈ queued s (cohort0 s).part placedRange.die, placedRange.level < effLevel e.2 → couldPlace s e.1 e.2 = false) ∧ firstRestorable s 0 = true
    ∧ pickRestore s 0 (cohort0 s) placedRange = some 0 ∧ clusterAwake s 0 = true := by decide +kernel
/-- A saved cohort of a lower level than a record that can be placed. -/
theorem witness_restore_behind : let s := modCohort (queuedState placedLaunch) 0 fun c => { c with saved := true }
    cohortRange s (cohort0 s) = some placedRange ∧ (3, waiting placedLaunch) ∈ queued s (cohort0 s).part placedRange.die
    ∧ placedRange.level < effLevel (waiting placedLaunch) ∧ couldPlace s 3 (waiting placedLaunch) = true := by decide +kernel
def placementOf : Placement := { cont := parseCont [], launch := placedLaunch, super := false }
theorem witness_held_placement : let s := modPart base 0 fun p => { p with heldPlacements := [(0, placementOf, none)] }
    ((tget s.parts 0).map fun p => p.heldPlacements.find? fun h => h.1 == 0) = some (some (0, placementOf, none))
    ∧ queueTakes s 0 0 1 = true := by decide
def messageTo (c : ContRecord) : Message :=
  { part := 0, gang := 0, die := 0, peer := 0, cont := c, payload := List.replicate 64 7, super := false, seq := 0 }
theorem witness_port_message : let s := { modPart base 0 (fun p => { p with portMessages := [messageTo (parseCont [])] }) with
      messages := [(4, messageTo (parseCont []))] }
    ((tget s.parts 0).map fun p => p.portMessages.find? fun x => x.die == 0) = some (some (messageTo (parseCont [])))
    ∧ queueTakes s 0 0 1 = true ∧ tget s.messages 4 = some (messageTo (parseCont [])) ∧ behindEarlier s (messageTo (parseCont [])) = false
    ∧ ((tget s.parts 0).map fun p => p.portMessages.any fun x => x.die == (messageTo (parseCont [])).die) = some true := by decide
theorem witness_delivery : ∃ keys pl, translateRange (taskState [] id) { part := 0, cluster := 0, super := false } .store 0 64 = .ok keys
    ∧ checkCont { parseCont [] with launch := 0x300000, crews := 1 } false
        (fun a => deviceRead (taskState [] id) { part := 0, cluster := 0, super := false } a launchBytes) = .ok pl
    ∧ (List.range 64).Nodup := ⟨_, _, rfl, rfl, by decide⟩

/-- QuantumEnds: every gang of a launch has ended its quantum; and a launch none of whose cohorts is placed. -/
def quantumOverState : State := detState fun g => { g with qEnded := true }
def range0 (s : State) : Range := (tget s.ranges 0).getD placedRange
theorem witness_quantum_end : quantumReady quantumOverState 0 (range0 quantumOverState) = true ∧ rangeCopies quantumOverState 0 = []
    ∧ runCopies [] quantumOverState = some quantumOverState
    ∧ lastSteps (quantumCommit quantumOverState 0 (range0 quantumOverState)) 0 ≠ none := by
  refine ⟨by decide, rfl, rfl, by decide +kernel⟩
def idleState : State :=
  { base with gangs := [], cohorts := [], crews := [], ranges := [(0, { waiting { placedLaunch with det := true } with count := 1 })] }
/-- A cohort of a deterministic launch whose cluster sleeps, and one whose cluster is in hold-up. -/
theorem witness_quantum_waits : (0, cohort0 quantumOverState) ∈ quantumOverState.cohorts ∧ (cohort0 quantumOverState).range = 0
    ∧ (cohort0 quantumOverState).saved = false ∧ (cohort0 quantumOverState).ended = false
    ∧ clusterAwake (modCluster quantumOverState 0 fun c => { c with power := .retention }) 0 = false
    ∧ (getCluster (modCluster quantumOverState 0 fun c => { c with holdUp := true }) 0).holdUp = true := by decide +kernel
theorem witness_wanted_cluster : let s := modCluster idleState 0 fun c => { c with power := .retention }
    0 ∈ detWants s 0 ∧ clusterRuns s 0 = false := by decide +kernel
theorem witness_idle_end_due : (queueOrder idleState 0 0).map (fun e => (e.1, idleEndDue idleState e.1 e.2)) = [(0, true)] := by decide +kernel
theorem witness_idle_quantum_end : (range0 idleState).launch.det = true ∧ (range0 idleState).queued = true ∧ rangeLive idleState 0 = false
    ∧ unplaced (range0 idleState) ≠ [] ∧ (range0 idleState).holds = [] ∧ partRuns idleState 0 = true ∧ detFirst idleState 0 (range0 idleState) ≠ none
    ∧ detBefore idleState 0 (range0 idleState) = false ∧ lastSteps (enterHeld idleState 0 0) 0 ≠ none := by decide +kernel

/-! ### Witnesses: power, the Cellar, links, the host -/

/-- PowerAndCellar: an idle cluster in each power state that nothing wants, long enough. -/
def idle (p : PowerState) : State :=
  { modCluster State.reset 0 (fun c => { c with power := p }) with ctl := { State.reset.ctl with clock := 1650000 } }
theorem witness_power_states :
    ((getCluster (idle .active) 0).power = .active ∧ clusterIdle (idle .active) 0 = true)
    ∧ ((getCluster (idle .clockGated) 0).power = .clockGated ∧ clusterIdle (idle .clockGated) 0 = true
      ∧ clusterWanted (idle .clockGated) 0 = false ∧ sealReady (idle .clockGated) 0 = true
      ∧ microCycles (retentionDelay (idle .clockGated) 0) ≤ (idle .clockGated).ctl.clock - (getCluster (idle .clockGated) 0).since)
    ∧ ((getCluster (idle .retention) 0).power = .retention ∧ clusterWanted (idle .retention) 0 = false ∧ sealReady (idle .retention) 0 = true
      ∧ microCycles 1000 ≤ (idle .retention).ctl.clock - (getCluster (idle .retention) 0).since)
    ∧ (clusterEmpty (idle .clockGated) 0 = true ∧ microCycles 1000 ≤ (idle .clockGated).ctl.clock - (getCluster (idle .clockGated) 0).emptyAt)
    ∧ (clusterEmpty (idle .retention) 0 = true ∧ clusterIdle (idle .retention) 0 = true
      ∧ microCycles 1000 ≤ (idle .retention).ctl.clock - (getCluster (idle .retention) 0).emptyAt) := by decide
/-- A cluster that has been without a crew for a cycle less than a millisecond. -/
theorem witness_not_empty_long : let s := modCluster (idle .clockGated) 0 fun c => { c with emptyAt := 1 }
    (getCluster s 0).power = .clockGated ∧ s.ctl.clock - (getCluster s 0).emptyAt < microCycles 1000 := by decide
/-- A supply failure of a cluster whose results have come, and of one that waits for them; the end of a hold-up. -/
def waitsForResults : State := modGang base 0 fun g => openPending g 0 { lateWrite with left := 1 }
theorem witness_supply_failures : sealReady base 0 = true ∧ sealReady waitsForResults 0 = false
    ∧ (getCluster waitsForResults 0).power ≠ .gated ∧ (getCluster (idle .gated) 0).power = .gated
    ∧ (getCluster (modCluster base 0 fun c => { c with holdUp := true }) 0).holdUp = true
    ∧ sealReady (modCluster base 0 fun c => { c with holdUp := true }) 0 = true := by decide +kernel
/-- A resume of a cluster that is awake, of one whose turn has come, and of one whose turn has not. -/
theorem witness_resume_turns : clusterAwake base 0 = true
    ∧ clusterAwake (modCluster base 0 fun c => { c with power := .retention }) 0 = false
    ∧ wakeTurn (modCluster base 0 fun c => { c with power := .retention }) 0 = true
    ∧ clusterAwake (idle .retention) 0 = false ∧ wakeTurn (idle .retention) 0 = false := by decide +kernel
theorem witness_wakes : wakeTurn (modCluster base 0 fun c => { c with power := .retention }) 0 = true ∧ wakeTurn base 0 = false
    ∧ (getCluster base 0).power ≠ .gated := by decide +kernel
def sealedState : State := sealCluster (modCluster base 0 fun c => { c with activeB := true }) 0 0
theorem witness_resume : slotValid (getCluster sealedState 0).slotA false = true ∧ slotValid (getCluster sealedState 0).slotB false = false
    ∧ ((getCluster sealedState 0).slotA.image.map fun im => (im.gangs.map (·.1), im.gangs.all fun e => e.2.region.isNone && (imageCohorts sealedState 0 im).contains e.2.cohort)) =
        some ([0], true) := by
  decide +kernel
theorem witness_droop : (getCluster State.reset 0).pass < 4
    ∧ stepUnderWay (getCluster (modCluster State.reset 0 fun c => { c with targetMv := 900 }) 0) = true
    ∧ stepUnderWay { ClusterSt.reset with targetMv := 900 } = true := by decide
theorem witness_rails : let c : ClusterSt := { ClusterSt.reset with targetMv := 900 }
    c.next = none ∧ wantedMhz c = c.targetMhz ∧ neededMv c.targetMhz c.ratio ≤ c.targetMv := by decide
theorem witness_clocks : let c : ClusterSt := { ClusterSt.reset with ratio := 1, mv := 680, targetMv := 680 }
    stepUnderWay c = false ∧ c.mhz < 1800 ∧ c.mv < pointMv c 1800 ∧ 1650 ≤ c.mhz := by decide
theorem witness_samples : (∀ w ∈ State.reset.dev.windows, 16 ≤ w ∧ w ≤ 64) ∧ State.reset.dev.bubbles ≤ 48
    ∧ State.reset.dev.moved = none ∧ (∃ d ∈ ({ Dev.reset with hot := [3] } : Dev).hot, d ≠ 0) ∧ ((dieClusters 0).zip [(⟨7⟩ : ClusterSample)]).length = 1 := by decide
theorem witness_lease : let s : State := { State.reset with dev := { State.reset.dev with leaseEnd := some 0 } }
    s.dev.leaseEnd = some 0 ∧ 0 ≤ s.ctl.clock := by decide
theorem witness_budget : commandDue (commanded State.reset) .host 11 0 = true ∧ 0 < 60000 ∧ (commanded State.reset).dev.leaseSeq < 1 := by decide

/-- FabricAndReplicas: links, a peer on port 0 that may read and write, replicas. -/
def remoteRoute : Route :=
  { peer := List.replicate 16 0, remotePart := 5, flags := 0xD, ports := 1, apertureGiB := 0, exportGiB := 1, apertureBase := 0,
    remoteBase := 0, exportBase := 0 }
def linked : State :=
  { modPart base 0 (fun p => { p with routes := [(1, remoteRoute)] }) with
    dev := { base.dev with links := tmod base.dev.links 8 fun _ => { up := true, failed := 7, retraining := true, peer := List.replicate 16 0 } } }
theorem witness_links : ((linkOf State.reset (.ring 7)).map fun k => (k.up, k.retraining)) = some (true, false)
    ∧ ((linkOf linked (.fabric 0)).map fun k => (k.up, k.retraining)) = some (true, true) ∧ linkOf State.reset (.fabric 15) ≠ none := by decide
theorem witness_remote : ∃ ks rs, acceptRemote linked 0 5 0 0x3FFFFFFE [1, 2].length true = some ks ∧ ks.Nodup ∧ ks.length = [(1 : Byte), 2].length
    ∧ acceptRemote linked 0 5 0 0 2 false = some rs := ⟨_, _, rfl, by decide, by decide, rfl⟩
theorem witness_remote_refused : acceptRemote linked 0 4 0 0 2 true = none := by decide
def replicated (w : Option StepWait) : State :=
  { modPart base 0 (fun p => { p with replica := some { peer := 3, part := 0, timeoutUs := 1000 }, stepWait := w, lastStep := some 4 }) with
    ctl := { base.ctl with clock := 1650000 } }
theorem witness_replica_digest : ∃ p r, tget (replicated none).parts 0 = some p ∧ p.replica = some r ∧ r.peer ≠ 0 ∧ p.stepWait = none
    ∧ ∀ l, p.lastStep = some l → l.toNat < (5 : DWord).toNat := by
  refine ⟨part0 (replicated none), { peer := 3, part := 0, timeoutUs := 1000 }, by decide +kernel, by decide, by decide, by decide, ?_⟩
  intro l hl
  have h : l = 4 := by simpa [show (part0 (replicated none)).lastStep = some 4 from by decide] using hl.symm
  subst h
  decide
theorem witness_replica_timeout : let s := replicated (some { step := 5, digest := [], gang := 0, split := 0, since := 0 })
    ((tget s.parts 0).map fun p => (p.stepWait.map (·.since), p.replica.map (·.timeoutUs))) = some (some 0, some 1000) ∧ partRuns s 0 = true
    ∧ microCycles 1000 ≤ s.ctl.clock - 0 := by decide

/-- BootAndHostAccess. -/
theorem witness_boot : State.reset.dev.bootState = 0 ∧ (commanded base).dev.bootState = 1 ∧ (0xFFFFF000 : Word).toNat % 4096 = 0
    ∧ ({ base.dev with bootState := 1 } : Dev).ringProduced = ({ base.dev with bootState := 1 } : Dev).ringDone
    ∧ ({ base.dev with bootState := 2 } : Dev).bootState = 2 := by decide
theorem witness_host_memory : hostStatus base 0 0 [(1 : Byte), 2].length = 0 ∧ hostStatus base 9 0 2 = 2 := by decide

/-- Commands: each command due for its partition. -/
theorem witness_create : commandDue (commanded base) .host 1 5 = true ∧ dieGroup 0xF0 = some [4, 5, 6, 7] ∧ (149 : Nat) ≤ 149 ∧ (100 : Nat) ≤ 100
    ∧ tget (commanded base).parts 5 = none ∧ ∀ e ∈ (commanded base).parts, ∀ d ∈ e.2.dies, d ∉ [4, 5, 6, 7] := by decide
def staged (st : PartState) : State := commanded (modPart base 0 fun p => { p with state := st })
def ops0 : ConfigureOps :=
  { root := 0x1000, queueArea := 0x10000, queueRecords := 1024, faultBase := 0x8000, faultEntries := 64, saveBase := 0, saveGiB := 0,
    ringBase := 0, ringEntries := 16, dirtyBudget := 0, retentionUs := 0 }
theorem witness_configure : commandDue (staged .unconfigured) .host 2 0 = true
    ∧ ((tget (staged .unconfigured).parts 0).map fun p => (p.state, configureOk p ops0)) = some (.unconfigured, true)
    ∧ ((tget (staged .halted).parts 0).map fun p => decide (p.state ≠ .unconfigured)) = some true := by decide
theorem witness_resume_command : commandDue (staged .halted) .host 7 0 = true
    ∧ ((tget (staged .halted).parts 0).map fun p => (p.state, p.haltDue, p.stepWait)) = some (.halted, false, none) := by decide +kernel
theorem witness_set_route : commandDue (staged .running) .host 8 0 = true
    ∧ ((tget (staged .running).parts 0).map fun p => (stConfigured p.state, routeOk p 255 (List.replicate 64 0) (parseRoute (List.replicate 64 0))))
        = some (true, true)
    ∧ ∀ e ∈ (staged .running).messages, e.2.part ≠ 0 ∨ e.2.peer ≠ 255 := by decide
theorem witness_set_replica : commandDue (staged .ready) .host 9 0 = true
    ∧ ((tget (staged .ready).parts 0).map fun p => stConfigured p.state) = some true ∧ (254 : Nat) < 255 ∧ (10000000 : Nat) ≤ 10000000 := by decide
theorem witness_map : commandDue (staged .running) .host 4 0 = true ∧ (0x10000 : DWord).toNat % 65536 = 0
    ∧ invalidateWaits (staged .running) 0 (0x10000 % 2 ^ 57) 0x10000 = false := by decide
theorem witness_set_root : commandDue (staged .running) .host 5 0 = true
    ∧ ((tget (staged .running).parts 0).map fun p => inWindow p 0x1000 4096) = some true
    ∧ invalidateWaits (staged .running) 0 0 (2 ^ 57) = false := by decide
theorem witness_place : ∃ pl, commandDue (commanded (taskState [] id)) .host 3 0 = true
    ∧ ((tget (commanded (taskState [] id)).parts 0).map fun p => (stLive p.state, p.dies[0]?, inWindow p 0x300100 32)) = some (true, some 0, true)
    ∧ checkCont (parseCont (memBytes (commanded (taskState [] id)) (physKey 0 0x300100) 32)) false
        (fun a => deviceRead (commanded (taskState [] id)) { part := 0, cluster := 0, super := false } a launchBytes) = .ok pl
    ∧ pl.cont.join = 0 ∧ queueTakes (commanded (taskState [] id)) 0 0 1 = true := ⟨_, by decide, by decide, rfl, by decide, by decide⟩
theorem witness_operating_point : commandDue (commanded base) .host 10 0 = true
    ∧ operatingStatus (commanded base) (fun _ => true) (maskClusters 1) 1850 0 0 ≠ 0
    ∧ operatingStatus (commanded base) (fun _ => true) (maskClusters 1) 1000 3 900 = 0 ∧ 0 ∈ maskClusters 1 := by decide +kernel
theorem witness_destroy :
    ((tget (commanded (modPart base 0 fun p => { p with usageWaiting := List.replicate 8 [], usageEntries := 4 })).parts 0).map fun p =>
        decide (8 ≤ p.usageWaiting.length ∧ p.usageEntries ≠ 0 ∧ p.state ≠ .free)) = some true
    ∧ ((tget (commanded base).parts 0).map fun p => decide (p.usageWaiting.length < 8)) = some true := by decide
/-- A telemetry buffer just before and just after the entry of its command. -/
theorem witness_telemetry : commandDue (commanded base) .host 12 0 = true
    ∧ (∃ addr, addr + 4096 ≤ hostEntry { commanded base with dev := { (commanded base).dev with ringBase := 0x1000 } })
    ∧ hostEntry (commanded base) + 5 ≤ 5 := by
  refine ⟨by decide, ⟨0, by decide⟩, by decide⟩
theorem witness_attest : commandDue (commanded base) .host 12 0 = true ∧ commandDue (commanded base) .host 13 0 = true ∧ commandDue (commanded base) .host 14 0 = true
    ∧ ((tget (commanded base).parts 0).map fun p => decide (p.state ≠ .free)) = some true
    ∧ hostEntry (commanded base) + 5 ≤ (0x100000 : DWord).toNat := by decide

/-- UsageAndEvents. -/
def longAgo (f : Part → Part) : State := { modPart base 0 f with ctl := { base.ctl with clock := 2 ^ 40 } }
theorem witness_usage : ((tget (longAgo id).parts 0).map fun p =>
      decide (p.usageStart + p.usagePeriod * 100000000 ≤ deviceNs (longAgo id)) && decide (p.usageWaiting.length < 8)) = some true
    ∧ ((tget (longAgo fun p => { p with usageWaiting := [[]], usageEntries := 1 }).parts 0).map fun p => (p.usageWaiting, p.usageEntries))
        = some ([[]], 1) := by decide
theorem witness_usage_backlog : (tget (longAgo fun p => { p with usageWaiting := List.replicate 8 [] }).parts 0).any (fun p =>
    decide (8 ≤ p.usageWaiting.length) && !p.backlog && decide (p.usageStart + p.usagePeriod * 100000000 ≤ deviceNs (longAgo id))) = true := by decide
theorem witness_held_events : let s : State := { base with dev := { base.dev with eventWaiting := [[]], eventEntries := 1 } }
    s.dev.eventWaiting = [] :: [] ∧ s.dev.eventEntries ≠ 0 := by decide

/-! ### Single steps -/

/-- The state after one step with this word in place of the placed one, the gang changed by `f`. -/
def run (w : Nat) (f : Gang → Gang) : State :=
  match step (modGang (State.reset.withFetchWord 32 w) 0 f) with
  | .next t => t
  | _ => State.reset
def runMcc (w : Nat) (f : Mcc → Mcc) : State :=
  match step (modMcc (State.reset.withFetchWord 32 w) 0 f) with
  | .next t => t
  | _ => State.reset

/-- R84, R25: iadd wraps on lane 63; the pc and rtc advance. -/
theorem test_step_iadd :
    let t := run (0x10 * 2 ^ 25 + 3 * 2 ^ 18 + 1 * 2 ^ 11 + 2 * 2 ^ 4) (withV [(64 + 63, 0xFFFFFFFF), (128 + 63, 2)])
    vget (gang0 t) 3 63 = 1 ∧ vget (gang0 t) 3 62 = 0 ∧ (split0 (gang0 t)).pc = 0x100004 ∧ (gang0 t).rtc = 1 := by decide +kernel

/-- R88: an immediate of 0xFF is −1; the destination is the source. -/
theorem test_step_iaddi :
    vget (gang0 (run (0x13 * 2 ^ 25 + 5 * 2 ^ 18 + 5 * 2 ^ 11 + 0xFF * 2 ^ 3) id)) 5 0 = 0xFFFFFFFF := by decide +kernel

/-- R18: register 16 of 16 traps ILLEGAL, and nothing retires. -/
theorem test_step_window :
    let t := run (0x10 * 2 ^ 25 + 16 * 2 ^ 18) (fun g => { g with nregs := 16 })
    (gang0 t).status = .parked ∧ (gang0 t).rtc = 0 ∧ t.dev.firmwareHeld.map (fun e => (e.2.code, e.2.pc)) = [(.illegal, 0x100000)] := by
  decide +kernel

/-- R110: trap keeps its immediate and its resume point; a user gang's record goes to its partition's queue. -/
theorem test_step_trap :
    let t := run (1 * 2 ^ 25 + 0xA5 * 2 ^ 3) userGang
    ((part0 t).heldRecords.map fun e => (e.2.code, e.2.imm, e.2.point)) = [(.trapInsn, 0xA5, 0x100004)] ∧ (gang0 t).status = .parked := by decide +kernel

/-- R32: eret of a user gang traps PERM with cause 4. -/
theorem test_step_privilege :
    let t := run (2 * 2 ^ 11 + 4) userGang
    ((part0 t).heldRecords.map fun e => (e.2.code, e.2.cause)) = [(.perm, 4)] := by decide +kernel

/-- R97, R98: brnz forward by 8 words from NPC parts lane 5 from the others. -/
theorem test_step_brnz :
    let t := run (0x08 * 2 ^ 25 + 2 * 2 ^ 18 + 8) (withV [(128 + 5, 7)])
    ((gang0 t).splits.map fun e => (e.1, e.2.pc, e.2.mask)) =
      ([(0, 0x100004, ~~~(1#64 <<< 5)), (1, 0x100024, 1#64 <<< 5)] : List (Nat × DWord × Mask)) := by decide +kernel

/-- R101: callk writes NPC to its pair and goes to the target. -/
theorem test_step_callk :
    let t := run (0x0F * 2 ^ 25 + 4 * 2 ^ 18 + 2 * 2 ^ 11) (withK [(2, 0x200000)])
    (split0 (gang0 t)).pc = 0x200000 ∧ kPair (gang0 t).k 4 = 0x100004 := by decide +kernel

/-- R29, R144: ldg.w with la = 3 lands after three more instructions, with la = 0 with its own retirement; R140: the address is
K(2):K(3) plus the lane's offset, here of the word itself. -/
theorem test_step_ldg :
    let f (g : Gang) : Gang := withK [(2, 0x0FFFFC)] (withV [(128, 4)] (lane0 g))
    let t3 := run (0x52 * 2 ^ 25 + 6 * 2 ^ 18 + 2 * 2 ^ 11 + 1 * 2 ^ 7 + 3) f
    let t0 := run (0x52 * 2 ^ 25 + 6 * 2 ^ 18 + 2 * 2 ^ 11 + 1 * 2 ^ 7) f
    ((split0 (gang0 t3)).pend.map fun p => (p.left, p.writes)) = [(3, [(6 * 64, 0xA4181083)])] ∧ vget (gang0 t3) 6 0 = 0
    ∧ vget (gang0 t0) 6 0 = 0xA4181080 := by decide +kernel

/-- R143: an unaligned lane traps MISALIGN before any lane is performed. -/
theorem test_step_ldg_misaligned :
    let t := run (0x52 * 2 ^ 25 + 6 * 2 ^ 18 + 2 * 2 ^ 11 + 1 * 2 ^ 7) (fun g => userGang (withV [(128 + 9, 2)] g))
    ((part0 t).heldRecords.map fun e => (e.2.code, e.2.lanes, e.2.lowLane)) = [(.misalign, 1#64 <<< 9, 9)] := by decide +kernel

/-- R146: sts.h writes the low half of the register, at the scratchpad address of the lane. -/
theorem test_step_sts :
    let t := run (0x60 * 2 ^ 25 + 6 * 2 ^ 18 + 2 * 2 ^ 11) (fun g => withV [(128, 10), (6 * 64, 0x11223344)] (lane0 g))
    (tget t.crews 0).map (fun w => (w.scratch.read 10, w.scratch.read 11, w.scratch.read 12)) = some (0x44, 0x33, 0) := by decide +kernel

/-- R134: lshfl.xor by 1 exchanges neighbours, read before they are written. -/
theorem test_step_lshfl :
    let t := run (0x48 * 2 ^ 25 + 2 * 2 ^ 18 + 2 * 2 ^ 11 + 3 * 2 ^ 4 + 3)
      (withV ([(128, 10), (129, 11)] ++ (List.range 64).map fun l => (192 + l, 1)))
    (vget (gang0 t) 2 0, vget (gang0 t) 2 1) = (11, 10) := by decide +kernel

/-- R170, R176: mzero enters the queue of the MCC. -/
theorem test_step_mzero :
    let t := runMcc (0x7A * 2 ^ 25 + 3 * 2 ^ 3) id
    (mcc0 t).queue = [.mzero 3] ∧ (mcc0 t).rtc = 1 := by decide +kernel

/-- With nothing due a step of the reset machine takes an act of its own and goes on. -/
theorem test_step_reset : ∃ t, step State.reset = .next t := ⟨_, rfl⟩

end Sys2Proof.Tests
end

section
/-! SUPPORT. From the meaning of an instruction to the claim about it: its checks, its retirement, its trap, the operand forms. -/

namespace Sys2Proof.Machine

/-! ### The checks of the issue, passed -/

section

variable {i : Instr} {cl : Closing} {vs : List Nat} {b : InBody} {pre : State → Nat → Gang → Nat → Split → Prop}
  {post : State → Nat → Gang → Nat → Split → State → Prop} {f : State → Nat → Gang → Nat → Split → Outcome}
  {k : State → Nat → Cohort → Mcc → Outcome}

/-- A gang instruction claims what its effect does, from the state as its issue has left it. -/
theorem onGang_of_gangOp (hx : ∀ s, exec i s = gangOp .opens vs b false s f)
    (hf : ∀ s gid g si sp, tget g.splits si = some sp → pre s gid g si sp →
      ∃ t, f s gid g si sp = .next t ∧ post s gid g si sp t) : OnGang i vs b pre post := by
  intro s gid g si sp hi hc hp
  rw [hx, gangOp_opens (super := false) f hi hc nofun]
  exact hf _ _ _ _ _ hi.split hp

/-- The same of the gang's side of an instruction of both sides. -/
theorem onGang_of_eitherOp (hx : ∀ s, exec i s = eitherOp .opens vs b false s f k)
    (hf : ∀ s gid g si sp, tget g.splits si = some sp → pre s gid g si sp →
      ∃ t, f s gid g si sp = .next t ∧ post s gid g si sp t) : OnGang i vs b pre post := by
  intro s gid g si sp hi hc hp
  rw [hx, eitherOp_gang _ _ _ _ _ _ hi, gangOp_opens (super := false) f hi hc nofun]
  exact hf _ _ _ _ _ hi.split hp

/-- The split that closes its windows is the closed split. -/
theorem tget_closedGang {g : Gang} {si : Nat} {sp : Split} (h : tget g.splits si = some sp) :
    tget (closedGang g si).splits si = some (closedSplit sp) := by
  simp [closedGang, landSplit, h, closedSplit]

/-- A gang instruction that closes its windows claims what its effect does to the gang whose windows have landed. -/
theorem onGangClosing_of_gangOp (hx : ∀ s, exec i s = gangOp .closes vs b false s f)
    (hf : ∀ s gid g si sp, tget g.splits si = some sp → pre s gid g si sp →
      ∃ t, f s gid g si sp = .next t ∧ post s gid g si sp t) : OnGangClosing i vs b pre post := by
  intro s gid g si sp hi hc hp
  rw [hx, gangOp_closes (super := false) f hi hc nofun]
  exact hf _ _ _ _ _ (tget_closedGang hi.split) hp

/-- The same of the gang's side of an instruction of both sides. -/
theorem onGangClosing_of_eitherOp (hx : ∀ s, exec i s = eitherOp .closes vs b false s f k)
    (hf : ∀ s gid g si sp, tget g.splits si = some sp → pre s gid g si sp →
      ∃ t, f s gid g si sp = .next t ∧ post s gid g si sp t) : OnGangClosing i vs b pre post := by
  intro s gid g si sp hi hc hp
  rw [hx, eitherOp_gang _ _ _ _ _ _ hi, gangOp_closes (super := false) f hi hc nofun]
  exact hf _ _ _ _ _ (tget_closedGang hi.split) hp

/-- The MCC's side of an instruction of both sides claims what its effect does. -/
theorem onMcc_of_eitherOp {super : Bool} {pre : State → Nat → Cohort → Mcc → Prop}
    {post : State → Nat → Cohort → Mcc → State → Prop} (hx : ∀ s, exec i s = eitherOp cl vs b super s f k)
    (hk : ∀ s cid c m, tget s.cohorts cid = some c → tget s.mccs cid = some m → pre s cid c m →
      ∃ t, k s cid c m = .next t ∧ post s cid c m t) : OnMcc i pre post := by
  intro s cid c m hi hl hp
  rw [hx, eitherOp_mcc _ _ _ _ _ _ hi hl]
  exact hk _ _ _ _ hi.cohort hi.mcc hp

end

/-! ### Retirement -/

/-- A gang that has written its registers retires towards the next instruction. -/
theorem exists_doneAt (s : State) (gid : Nat) (g : Gang) (si : Nat) (sp : Split) :
    ∃ t, doneAt s gid g si sp = .next t ∧ Retired s t gid g si (nextPc sp.pc) :=
  ⟨_, rfl, retireAt_retired s gid si g _⟩

/-- The retirement of an MCC that its instruction has made `m`, other MCCs left as they are. -/
theorem retireMcc_of_mccs {s : State} {cid : Nat} {c : Cohort} {m : Mcc} {mccs : Tab Mcc} (npc : DWord)
    (hc : tget s.cohorts cid = some c) (hm : tget mccs cid = some m) (ho : ∀ h, h ≠ cid → tget mccs h = tget s.mccs h) :
    MccRetired s (retireMcc { s with mccs := mccs } cid npc) cid c m npc := by
  simp only [retireMcc, hc]
  refine ⟨?_, fun h hne => ?_, ⟨(countRetired_counted _ _ _).clusters, (countRetired_counted _ _ _).parts⟩, rfl⟩
  · simp [countRetired, hm]
  · simp [countRetired, tget_tmod_ne _ _ _ _ hne, ho h hne]

/-- The retirement of an MCC that its instruction has changed by `f`. -/
theorem retireMcc_modMcc {s : State} {cid : Nat} {c : Cohort} {m : Mcc} (f : Mcc → Mcc) (npc : DWord)
    (hc : tget s.cohorts cid = some c) (hm : tget s.mccs cid = some m) :
    MccRetired s (retireMcc (modMcc s cid f) cid npc) cid c (f m) npc :=
  retireMcc_of_mccs npc hc (by simp [hm]) fun _ hne => tget_tmod_ne _ _ _ _ hne

/-- The retirement of an MCC whose instruction leaves its registers. -/
theorem retireMcc_same {s : State} {cid : Nat} {c : Cohort} {m : Mcc} (npc : DWord) (hc : tget s.cohorts cid = some c)
    (hm : tget s.mccs cid = some m) : MccRetired s (retireMcc s cid npc) cid c m npc :=
  retireMcc_of_mccs npc hc hm fun _ _ => rfl

/-! ### Traps -/

/-- A trap that takes no place in the fault buffer parks its gang, once no results are to come. -/
theorem takeTrap_trapped {s : State} {gid si : Nat} {g : Gang} {sp : Split} {i : TrapInfo} (hsp : tget g.splits si = some sp)
    (ho : gangOpen g = false) (hp : takesPlace i = false) : Trapped s (takeTrap s gid g si i 0) gid g si sp i := by
  simp [Trapped, takeTrap, hsp, ho, hp]

theorem takeTrapMcc_trapped {s : State} {cid : Nat} {c : Cohort} {m : Mcc} {i : TrapInfo} (hp : takesPlace i = false) :
    MccTrapped s (takeTrapMcc s cid c m i) cid c m i := by
  simp [MccTrapped, takeTrapMcc, hp]

/-! ### Control transfers -/

theorem tget_leaveLine_ne (g : Gang) {si j : Nat} (h : j ≠ si) : tget (leaveLine g si).splits j = tget g.splits j := by
  simp [leaveLine, tget_tmod_ne _ _ _ _ h]

/-- What stands in the splits of a gang that has left its code line: the splits as they were, but for a line. -/
theorem mem_leaveLine {g : Gang} {si : Nat} {e : Nat × Split} (h : e ∈ (leaveLine g si).splits) :
    ∃ x ∈ g.splits, x.1 = e.1 ∧ e.2 = { x.2 with line := e.2.line } ∧ (e.1 ≠ si → e = x) := by
  simp only [leaveLine, tmod, List.mem_map] at h
  obtain ⟨x, hx, rfl⟩ := h
  by_cases hs : x.1 = si
  · exact ⟨x, hx, by simp [hs]⟩
  · exact ⟨x, hx, by simp [hs]⟩

/-- Where splits stand does not hang on their code lines. -/
theorem movedTo_leaveLine_underway {g : Gang} {si : Nat} {npc : DWord} (h : Underway (movedTo g si npc) si) :
    Underway (movedTo (leaveLine g si) si npc) si := by
  intro e he hs
  simp only [movedTo, tmod, List.mem_map] at he
  obtain ⟨y, hy, rfl⟩ := he
  obtain ⟨x, hx, hk, hl, -⟩ := mem_leaveLine hy
  have hys : y.1 = si := by split at hs <;> exact hs
  have := h (x.1, { x.2 with pc := npc }) (by
    simp only [movedTo, tmod, List.mem_map]
    exact ⟨x, hx, by simp [hk, hys]⟩) (hk.trans hys)
  rw [if_pos hys, hl]
  exact this

/-- A gang that retires from off its code line retires as the gang on it does. -/
theorem GangAfter.of_leaveLine {g g' : Gang} {si : Nat} {npc : DWord} (h : GangAfter (leaveLine g si) g' si npc) :
    GangAfter g g' si npc where
  regs c hc := h.regs c fun e he p hp => by
    obtain ⟨x, hx, -, hl, -⟩ := mem_leaveLine he
    rw [hl] at hp
    exact hc x hx p hp
  flags hf := h.flags fun e he p hp => by
    obtain ⟨x, hx, -, hl, -⟩ := mem_leaveLine he
    rw [hl] at hp
    exact hf x hx p hp
  place hu := by
    rw [h.place (movedTo_leaveLine_underway hu)]
    simp only [leaveLine, tget_tmod_self, Option.map_map, Function.comp_def]
  others j hj hu := by
    rw [h.others j hj fun e he hej => ?_]
    · exact tget_leaveLine_ne g hj
    · obtain ⟨x, hx, -, -, hs⟩ := mem_leaveLine he
      have hxe := hs fun he => hj (hej.symm.trans he)
      exact hu e (hxe ▸ hx) hej
  waiting hn j hj := by
    have hu : Underway (movedTo g si npc) si := fun e he hs => by
      cases hm : atMerge e.2 with
      | false => rfl
      | true => exact absurd hs (hn.2 e he hm).1
    have hr : risingFrom 0 (movedTo (leaveLine g si) si npc).splits = true := by
      have := hn.1
      simp only [movedTo, risingFrom_tmod] at this
      simp only [movedTo, leaveLine, risingFrom_tmod, this]
    have hd : dropKey si (movedTo (leaveLine g si) si npc).splits = dropKey si (movedTo g si npc).splits := by
      simp only [movedTo, leaveLine, dropKey_tmod]
    rw [h.waiting (hn.of hr rfl hd (movedTo_leaveLine_underway hu)) j hj]
    exact tget_leaveLine_ne g hj
  rest := h.rest

/-- A control transfer retires and leaves everything but its place. -/
theorem transferTo_retired (s : State) (gid : Nat) (g : Gang) (si : Nat) (npc : DWord) :
    Retired s (transferTo s gid g si npc) gid g si npc := by
  obtain ⟨⟨g', hg', ha⟩, others, counted, rest⟩ := retireAt_retired s gid si (leaveLine g si) npc
  exact ⟨⟨g', hg', ha.of_leaveLine⟩, others, counted, rest⟩

/-! ### Operand forms -/

/-- A per-strand instruction writes its results to the active strands and does nothing else. -/
theorem writesLanes_of_laneOp {i : Instr} {vs : List Nat} {d : Nat} {f : Gang → Nat → Word}
    (hx : ∀ s, exec i s = laneOp vs d s f) : WritesLanes i vs (some [d]) d fun _ g _ l => f g l :=
  onGang_of_gangOp hx fun _ _ _ _ _ _ _ => exists_doneAt _ _ _ _ _

theorem writesPairs_of_lanePairOp {i : Instr} {vs : List Nat} {d : Nat} {f : Gang → Nat → DWord}
    (hx : ∀ s, exec i s = lanePairOp vs d s f) : WritesPairs i vs (some [d, d + 1]) d fun _ g _ l => f g l :=
  onGang_of_gangOp hx fun _ _ _ _ _ _ _ => exists_doneAt _ _ _ _ _

theorem lanes2_of_intOp2 {mk : Nat → Nat → Nat → Instr} {f : Word → Word → Word}
    (hx : ∀ d a b s, exec (mk d a b) s = intOp2 d a b s f) : Lanes2 mk f :=
  fun d a b => writesLanes_of_laneOp (hx d a b)

theorem lanes3_of_intOp3 {mk : Nat → Nat → Nat → Instr} {f : Word → Word → Word → Word}
    (hx : ∀ d a b s, exec (mk d a b) s = intOp3 d a b s f) : Lanes3 mk f :=
  fun d a b => writesLanes_of_laneOp (hx d a b)

theorem lanes1_of_intOp1 {mk : Nat → Nat → Instr} {f : Word → Word} (hx : ∀ d a s, exec (mk d a) s = intOp1 d a s f) :
    Lanes1 mk f :=
  fun d a => writesLanes_of_laneOp (hx d a)

theorem lanesImm_of_intOp1 {mk : Nat → Nat → Nat → Instr} {f : Word → Nat → Word}
    (hx : ∀ d a i s, exec (mk d a i) s = intOp1 d a s fun x => f x i) : LanesImm mk f :=
  fun d a i => writesLanes_of_laneOp (hx d a i)

theorem pairs2_of_pairOp2 {mk : Nat → Nat → Nat → Instr} {f : DWord → DWord → DWord}
    (hx : ∀ d a b s, exec (mk d a b) s = pairOp2 d a b s f) : Pairs2 mk f :=
  fun d a b => writesPairs_of_lanePairOp (hx d a b)

/-- A uniform instruction writes the k file of either side and does nothing else. -/
theorem makesK_of_kOp {i : Instr} {f : Cells 32 → Cells 32} (hx : ∀ s, exec i s = kOp s f) : MakesK i f :=
  ⟨onGang_of_eitherOp hx fun s gid _ si _ _ _ => ⟨_, rfl, retireAt_retired s gid si _ _⟩,
    onMcc_of_eitherOp hx fun _ _ _ m hc hm _ => ⟨_, rfl, retireMcc_modMcc (fun x => { x with k := f m.k }) _ hc hm⟩⟩

theorem uniform2_of_kOp2 {mk : Nat → Nat → Nat → Instr} {f : Word → Word → Word}
    (hx : ∀ d a b s, exec (mk d a b) s = kOp2 d a b s f) : Uniform2 mk f :=
  fun d a b => makesK_of_kOp (hx d a b)

theorem uniform3_of_kOp3 {mk : Nat → Nat → Nat → Instr} {f : Word → Word → Word → Word}
    (hx : ∀ d a b s, exec (mk d a b) s = kOp3 d a b s f) : Uniform3 mk f :=
  fun d a b => makesK_of_kOp (hx d a b)

end Sys2Proof.Machine
end

section
/-! SUPPORT. The word arithmetic of R84 to R91 in numbers and bits. -/

namespace Sys2Proof.Machine

/-! ### Products (R84, R91) -/

@[simp] theorem toNat_hiWord (x : DWord) : (hiWord x).toNat = x.toNat / 2 ^ 32 := by
  have := x.isLt
  simp only [hiWord, BitVec.toNat_setWidth, BitVec.toNat_ushiftRight, Nat.shiftRight_eq_div_pow]
  omega

/-- The high word of a pair, the pair read as a signed number. -/
theorem hiWord_eq_ofInt (x : DWord) : hiWord x = BitVec.ofInt 32 (x.toInt / 2 ^ 32) := by
  apply BitVec.eq_of_toNat_eq
  have := x.isLt
  rw [toNat_hiWord, BitVec.toNat_ofInt, BitVec.toInt_eq_toNat_cond]
  split <;> omega

theorem toInt_sextW_mul (x y : Word) : (sextW x * sextW y).toInt = x.toInt * y.toInt := by
  have hl := BitVec.le_toInt_mul_toInt (x := x) (y := y)
  have hu := BitVec.toInt_mul_toInt_le (x := x) (y := y)
  rw [BitVec.toInt_mul, sextW, sextW, BitVec.toInt_signExtend_of_le (by omega), BitVec.toInt_signExtend_of_le (by omega)]
  exact Int.bmod_eq_of_le (by omega) (by omega)

theorem toNat_zextW_mul (x y : Word) : (zextW x * zextW y).toNat = x.toNat * y.toNat := by
  have h := BitVec.toNat_mul_toNat_lt (x := x) (y := y)
  rw [BitVec.toNat_mul, zextW, zextW, BitVec.toNat_setWidth_of_le (by omega), BitVec.toNat_setWidth_of_le (by omega)]
  exact Nat.mod_eq_of_lt h

theorem imulhW_eq_ofInt (x y : Word) : imulhW x y = BitVec.ofInt 32 (x.toInt * y.toInt / 2 ^ 32) := by
  rw [imulhW, hiWord_eq_ofInt, toInt_sextW_mul]

theorem imulhuW_eq_ofNat (x y : Word) : imulhuW x y = BitVec.ofNat 32 (x.toNat * y.toNat / 2 ^ 32) := by
  have h := BitVec.toNat_mul_toNat_lt (x := x) (y := y)
  apply BitVec.eq_of_toNat_eq
  rw [imulhuW, toNat_hiWord, toNat_zextW_mul, BitVec.toNat_ofNat]
  omega

theorem toInt_imulwD_signed (x y : Word) : (imulwD .signed x y).toInt = x.toInt * y.toInt := toInt_sextW_mul x y

theorem toNat_imulwD_unsigned (x y : Word) : (imulwD .unsigned x y).toNat = x.toNat * y.toNat := toNat_zextW_mul x y

/-! ### Smaller and larger (R84) -/

theorem toInt_iminW (x y : Word) : (iminW x y).toInt = min x.toInt y.toInt := by
  unfold iminW
  split <;> rename_i h <;> rw [BitVec.slt_iff_toInt_lt] at h <;> omega

theorem toInt_imaxW (x y : Word) : (imaxW x y).toInt = max x.toInt y.toInt := by
  unfold imaxW
  split <;> rename_i h <;> rw [BitVec.slt_iff_toInt_lt] at h <;> omega

theorem toNat_iminuW (x y : Word) : (iminuW x y).toNat = min x.toNat y.toNat := by
  unfold iminuW
  split <;> rename_i h <;> rw [BitVec.ult_iff_toNat_lt] at h <;> omega

/-! ### Shifts and the rotation (R84) -/

/-- A shift by 31 or more leaves copies of the sign. -/
theorem sraW_of_le {x y : Word} (h : 32 ≤ y.toNat) : sraW x y = if x.msb then BitVec.allOnes 32 else 0 := by
  rw [sraW, show min y.toNat 31 = 31 by omega]
  apply BitVec.eq_of_getLsbD_eq
  intro i hi
  have hs : (if 31 + i < 32 then x.getLsbD (31 + i) else x.msb) = x.msb := by
    split
    · rw [show 31 + i = 32 - 1 by omega, BitVec.msb_eq_getLsbD_last]
    · rfl
  rw [BitVec.getLsbD_sshiftRight, hs]
  cases x.msb
  · simp
  · rw [if_pos rfl, BitVec.getLsbD_allOnes]
    simp [hi]

theorem shiftsW_of_le {x y : Word} (h : 32 ≤ y.toNat) : shlW x y = 0 ∧ shrW x y = 0 := by
  simp [shlW, shrW, show ¬y.toNat < 32 by omega]

theorem toNat_shlW {x y : Word} (h : y.toNat < 32) : (shlW x y).toNat = x.toNat * 2 ^ y.toNat % 2 ^ 32 := by
  simp [shlW, h, Nat.shiftLeft_eq]

theorem toNat_shrW {x y : Word} (h : y.toNat < 32) : (shrW x y).toNat = x.toNat / 2 ^ y.toNat := by
  simp [shrW, h, Nat.shiftRight_eq_div_pow]

theorem toInt_sraW {x y : Word} (h : y.toNat < 32) : (sraW x y).toInt = x.toInt / 2 ^ y.toNat := by
  rw [sraW, show min y.toNat 31 = y.toNat by omega, BitVec.toInt_sshiftRight, Int.shiftRight_eq_div_pow]
  simp

/-- Bit `i` goes to bit `i` plus the count, modulo 32. -/
theorem getLsbD_rotW (x y : Word) {i : Nat} (h : i < 32) : (rotW x y).getLsbD ((i + y.toNat) % 32) = x.getLsbD i := by
  have hr : y.toNat % 32 < 32 := Nat.mod_lt _ (by omega)
  rw [rotW, BitVec.getLsbD_rotateLeft_of_le hr, Nat.add_mod, Nat.mod_eq_of_lt h]
  generalize y.toNat % 32 = r at hr
  by_cases hc : i + r < 32
  · simp [Nat.mod_eq_of_lt hc, hc, show ¬i + r < r by omega]
  · have hm : (i + r) % 32 = i + r - 32 := by omega
    simp [hm, show i + r - 32 < r by omega, show 32 - r + (i + r - 32) = i by omega]

/-! ### Differences and counts of bits (R85) -/

theorem toNat_iabsdW (x y : Word) : (iabsdW x y).toNat = (x.toInt - y.toInt).natAbs := by
  have hx := x.isLt
  have hy := y.isLt
  unfold iabsdW
  split <;> rename_i h <;> rw [BitVec.slt_iff_toInt_lt] at h <;> rw [BitVec.toNat_sub] <;>
    rw [BitVec.toInt_eq_toNat_cond, BitVec.toInt_eq_toNat_cond] at * <;> omega

theorem toNat_iabsW (x : Word) : (iabsW x).toNat = x.toInt.natAbs := by
  have hx := x.isLt
  rw [iabsW, BitVec.msb_eq_decide, BitVec.toInt_eq_toNat_cond]
  split <;> rename_i h <;> rw [decide_eq_true_eq] at h
  · rw [BitVec.toNat_sub, show (0 : Word).toNat = 0 from rfl]
    split <;> omega
  · split <;> omega

theorem countOnes_eq_length (x n : Nat) : countOnes x n = ((List.range n).filter fun i => x.testBit i).length := by
  induction n generalizing x with
  | zero => rfl
  | succ n ih =>
    have hs : (fun i => (x / 2).testBit i) = (fun i => x.testBit i) ∘ Nat.succ := by
      funext i; exact (Nat.testBit_succ x i).symm
    rw [countOnes, ih, hs, List.range_succ_eq_map, List.filter_cons, List.filter_map, Nat.testBit_zero]
    by_cases h : x % 2 = 1
    · simp [h]; omega
    · simp [h]; omega

theorem toNat_popcW (x : Word) : (popcW x).toNat = ((List.range 32).filter fun i => x.getLsbD i).length := by
  have hle : ((List.range 32).filter fun i => x.getLsbD i).length ≤ 32 :=
    Nat.le_trans (List.length_filter_le _ _) (Nat.le_of_eq List.length_range)
  rw [popcW, countOnes_eq_length, BitVec.toNat_ofNat]
  exact Nat.mod_eq_of_lt (by simp only [BitVec.testBit_toNat]; omega)

/-- The bits below the trailing zeros are 0, and the next one, if there is one, is 1. -/
theorem trailingZeros_spec (x n : Nat) : trailingZeros x n ≤ n ∧ (∀ i < trailingZeros x n, x.testBit i = false)
    ∧ (trailingZeros x n < n → x.testBit (trailingZeros x n) = true) := by
  induction n generalizing x with
  | zero => exact ⟨Nat.le_refl 0, nofun, nofun⟩
  | succ n ih =>
    obtain ⟨hle, hlow, hbit⟩ := ih (x / 2)
    by_cases h : x % 2 = 1
    · simp [trailingZeros, h]
    · rw [trailingZeros, if_neg h, Nat.add_comm 1]
      refine ⟨by omega, fun i hi => ?_, fun ht => ?_⟩
      · cases i with
        | zero => simp [Nat.testBit_zero, h]
        | succ i => rw [Nat.testBit_succ]; exact hlow i (by omega)
      · rw [Nat.testBit_add_one]; exact hbit (by omega)

/-- ctz of a word: a number up to 32, below which the bits are 0; the bit at it is 1 unless it is 32. -/
theorem ctzW_spec (x : Word) : (ctzW x).toNat ≤ 32 ∧ (∀ i < (ctzW x).toNat, x.getLsbD i = false)
    ∧ ((ctzW x).toNat < 32 → x.getLsbD (ctzW x).toNat = true) := by
  obtain ⟨hle, hlow, hbit⟩ := trailingZeros_spec x.toNat 32
  have ht : (ctzW x).toNat = trailingZeros x.toNat 32 := by
    rw [ctzW, BitVec.toNat_ofNat]
    exact Nat.mod_eq_of_lt (by omega)
  simp only [BitVec.testBit_toNat] at hlow hbit
  rw [ht]
  exact ⟨hle, hlow, hbit⟩

/-- A word other than 0 has its lowest one at its ctz. -/
theorem ctzW_of_ne_zero {x : Word} (h : x ≠ 0) : (ctzW x).toNat < 32 ∧ x.getLsbD (ctzW x).toNat = true
    ∧ ∀ i, i < (ctzW x).toNat → x.getLsbD i = false := by
  obtain ⟨hle, hlow, hbit⟩ := ctzW_spec x
  have hlt : (ctzW x).toNat < 32 := by
    refine Nat.lt_of_not_le fun hc => h (BitVec.eq_of_getLsbD_eq fun i hi => ?_)
    rw [hlow i (by omega)]
    simp
  exact ⟨hlt, hbit hlt, hlow⟩

theorem getLsbD_brevW (x : Word) {i : Nat} (h : i < 32) : (brevW x).getLsbD i = x.getLsbD (31 - i) := by
  rw [brevW, BitVec.getLsbD_reverse, BitVec.getMsbD_eq_getLsbD]
  simp [h]

theorem brevW_zero : brevW 0 = 0 :=
  BitVec.eq_of_getLsbD_eq fun i hi => by rw [getLsbD_brevW 0 hi]; simp

theorem ctzW_zero : ctzW 0 = 32 := rfl

theorem clzW_zero : clzW 0 = 32 := by rw [clzW, brevW_zero, ctzW_zero]

theorem brevW_ne_zero {x : Word} (h : x ≠ 0) : brevW x ≠ 0 := by
  intro hb
  refine h (BitVec.eq_of_getLsbD_eq fun i hi => ?_)
  have := getLsbD_brevW x (i := 31 - i) (by omega)
  rw [show 31 - (31 - i) = i by omega, hb] at this
  rw [← this]
  simp

/-- A word other than 0 has its highest one at 31 less its clz. -/
theorem clzW_of_ne_zero {x : Word} (h : x ≠ 0) : (clzW x).toNat < 32 ∧ x.getLsbD (31 - (clzW x).toNat) = true
    ∧ ∀ i, 31 - (clzW x).toNat < i → x.getLsbD i = false := by
  obtain ⟨hlt, hbit, hlow⟩ := ctzW_of_ne_zero (brevW_ne_zero h)
  refine ⟨hlt, (getLsbD_brevW x hlt).symm.trans hbit, fun i hi => ?_⟩
  by_cases hi32 : i < 32
  · have := hlow (31 - i) (by unfold clzW at hi; omega)
    rwa [getLsbD_brevW x (by omega), show 31 - (31 - i) = i by omega] at this
  · exact BitVec.getLsbD_of_ge x i (by omega)

/-! ### Bit fields (R86) -/

theorem bfPos_eq (y : Word) : bfPos y = y.toNat % 32 := by simp [bfPos, fieldW, fieldN]

theorem bfLen_eq (y : Word) : bfLen y = min (y.toNat / 256 % 64) 32 := by simp [bfLen, fieldW, fieldN]

theorem getLsbD_bfMask (len : Nat) {i : Nat} (h : i < 32) : (bfMask len).getLsbD i = decide (i < len) := by
  rw [bfMask, BitVec.getLsbD_ofNat, Nat.testBit_two_pow_sub_one, decide_eq_true h, Bool.true_and]

/-- A bit of an extracted field: a bit of the source within the field, and above it the field's sign where the descriptor asks. -/
theorem getLsbD_bfeW (x y : Word) {i : Nat} (h : i < 32) : (bfeW x y).getLsbD i =
    if i < bfLen y then x.getLsbD (bfPos y + i) else bfSign y && decide (0 < bfLen y) && x.getLsbD (bfPos y + bfLen y - 1) := by
  have hl : bfLen y ≤ 32 := by rw [bfLen_eq]; omega
  have hv : ∀ j, j < 32 → ((x >>> bfPos y) &&& bfMask (bfLen y)).getLsbD j = (x.getLsbD (bfPos y + j) && decide (j < bfLen y)) := by
    intro j hj
    rw [BitVec.getLsbD_and, BitVec.getLsbD_ushiftRight, getLsbD_bfMask _ hj]
  by_cases h0 : 0 < bfLen y
  · -- the sign bit is the highest bit of the field
    have hsign := hv (bfLen y - 1) (by omega)
    rw [show bfPos y + (bfLen y - 1) = bfPos y + bfLen y - 1 by omega, decide_eq_true (by omega : bfLen y - 1 < bfLen y),
      Bool.and_true] at hsign
    simp only [bfeW, hsign]
    split <;> rename_i hs
    · rw [BitVec.getLsbD_or, hv i h, BitVec.getLsbD_not, getLsbD_bfMask _ h]
      by_cases hi : i < bfLen y <;> simp [hi, h, hs]
    · rw [hv i h]
      by_cases hi : i < bfLen y <;> simp [hi, hs]
  · simp only [bfeW, h0, decide_false, Bool.and_false, Bool.false_and, Bool.false_eq_true, if_false]
    rw [hv i h]
    simp [show ¬i < bfLen y by omega]

/-- A bit of a word with a field inserted: a bit of the source within the field, and of the old value outside. -/
theorem getLsbD_bfiW (x y z : Word) {i : Nat} (h : i < 32) : (bfiW x y z).getLsbD i =
    if bfPos y ≤ i ∧ i < bfPos y + bfLen y then x.getLsbD (i - bfPos y) else z.getLsbD i := by
  simp only [bfiW, BitVec.getLsbD_or, BitVec.getLsbD_and, BitVec.getLsbD_not, BitVec.getLsbD_shiftLeft,
    getLsbD_bfMask _ (show i - bfPos y < 32 by omega), h, decide_true, Bool.true_and]
  by_cases hp : bfPos y ≤ i
  · by_cases hl : i < bfPos y + bfLen y
    · simp [hp, hl, show ¬i < bfPos y by omega, show i - bfPos y < bfLen y by omega]
    · simp [hl, show ¬i - bfPos y < bfLen y by omega]
  · simp [hp, show i < bfPos y by omega]

/-! ### Conditions and immediates (R87, R88) -/

/-- What the conditions of iset and kset say of the numbers that the words hold. -/
theorem isetHolds_iff (x y : Word) : (isetHolds .eq x y = true ↔ x = y) ∧ (isetHolds .ne x y = true ↔ x ≠ y)
    ∧ (isetHolds .lt x y = true ↔ x.toInt < y.toInt) ∧ (isetHolds .le x y = true ↔ x.toInt ≤ y.toInt)
    ∧ (isetHolds .gt x y = true ↔ y.toInt < x.toInt) ∧ (isetHolds .ge x y = true ↔ y.toInt ≤ x.toInt)
    ∧ (isetHolds .ltu x y = true ↔ x.toNat < y.toNat) ∧ (isetHolds .leu x y = true ↔ x.toNat ≤ y.toNat)
    ∧ (isetHolds .gtu x y = true ↔ y.toNat < x.toNat) ∧ (isetHolds .geu x y = true ↔ y.toNat ≤ x.toNat) :=
  ⟨beq_iff_eq, bne_iff_ne, BitVec.slt_iff_toInt_lt, BitVec.sle_iff_toInt_le, BitVec.slt_iff_toInt_lt, BitVec.sle_iff_toInt_le,
    BitVec.ult_iff_toNat_lt, BitVec.ule_iff_toNat_le, BitVec.ult_iff_toNat_lt, BitVec.ule_iff_toNat_le⟩

theorem toInt_sextImm {i : Nat} (h : i < 256) : (sextImm i).toInt = if i < 128 then (i : Int) else (i : Int) - 256 := by
  rw [sextImm, BitVec.toInt_signExtend_of_le (by omega), BitVec.toInt_eq_toNat_cond, BitVec.toNat_ofNat,
    Nat.mod_eq_of_lt (by omega : i < 2 ^ 8)]
  split <;> split <;> omega

theorem toNat_zextImm {i : Nat} (h : i < 32) : (zextImm i).toNat = i := by
  rw [zextImm, BitVec.toNat_ofNat]
  omega

/-! ### Dot products (R90) -/

theorem packedElem_eq (x : Word) (n i : Nat) : packedElem x n i = (x.extractLsb' (n * i) n).toNat := by
  rw [packedElem, fieldW, fieldN, BitVec.extractLsb'_toNat, Nat.shiftRight_eq_div_pow]

theorem signedN_packedElem (x : Word) (n i : Nat) : signedN n (packedElem x n i) = (x.extractLsb' (n * i) n).toInt := by
  rw [signedN, packedElem_eq, BitVec.toInt_eq_toNat_cond]
  simp

/-- A sum gathered from the left is the sum of the list. -/
theorem foldl_add_eq_sum (f : Nat → Int) (l : List Nat) (a : Int) : l.foldl (fun acc i => acc + f i) a = a + (l.map f).sum := by
  induction l generalizing a with
  | nil => simp
  | cons i r ih => rw [List.foldl_cons, ih, List.map_cons, List.sum_cons, Int.add_assoc]

/-- The exact sum of products of signed elements. -/
theorem idotSum_signed (w n : Nat) (x y : Word) : idotSum w n true x y =
    ((List.range n).map fun i => (x.extractLsb' (w * i) w).toInt * (y.extractLsb' (w * i) w).toInt).sum := by
  simp only [idotSum, if_true, signedN_packedElem]
  rw [foldl_add_eq_sum, Int.zero_add]

/-- The exact sum of products of unsigned elements of the first word with signed ones of the second. -/
theorem idotSum_unsigned (w n : Nat) (x y : Word) : idotSum w n false x y =
    ((List.range n).map fun i => ((x.extractLsb' (w * i) w).toNat : Int) * (y.extractLsb' (w * i) w).toInt).sum := by
  simp only [idotSum, Bool.false_eq_true, if_false, signedN_packedElem]
  rw [foldl_add_eq_sum, Int.zero_add]
  simp only [packedElem_eq]

/-- A total clamped to 32 bits is the clamped number. -/
theorem toInt_ofInt_clampInt (t : Int) :
    (BitVec.ofInt 32 (clampInt (-(2 ^ 31)) (2 ^ 31 - 1) t)).toInt = max (-(2 ^ 31)) (min (2 ^ 31 - 1) t) :=
  BitVec.toInt_ofInt_eq_self (by omega) (by unfold clampInt; omega) (by unfold clampInt; omega)

end Sys2Proof.Machine
end

section
/-! SUPPORT. The majors that hold the integer instructions and the reads between the files: the words of theirs that are no instruction. -/

namespace Sys2Proof

/-- A word decodes by its major and its fields (R62). -/
theorem decodeWord_of_major {w m : Nat} (hw : w < 2 ^ 32) (hm : w / 2 ^ 25 = m) :
    decodeWord w = decodeFields m (w / 2 ^ 18 % 128) (w / 2 ^ 11 % 128) (w / 2 ^ 4 % 128) (w % 16) := by
  have h : w / 33554432 % 128 = m := by omega
  show decodeFields (w / 33554432 % 128) (w / 2 ^ 18 % 128) (w / 2 ^ 11 % 128) (w / 2 ^ 4 % 128) (w % 16) = _
  rw [h]

theorem guarded_eq_none {c : Bool} {x : Instr} (h : c = false) : guarded c x = none := by simp [guarded, h]

theorem ev_eq_false {n : Nat} (h : n % 2 = 1) : ev n = false := by simp [ev, h]

/-! ### Codes beyond the tables (R87, R90, R91) -/

theorem isetOf_of_le {f : Nat} (h : 10 ≤ f) : isetOf f = none := by
  obtain ⟨n, rfl⟩ := Nat.exists_eq_add_of_le' h
  rfl

theorem idotOf_of_le {f : Nat} (h : 5 ≤ f) : idotOf f = none := by
  obtain ⟨n, rfl⟩ := Nat.exists_eq_add_of_le' h
  rfl

theorem wideOf_of_le {f : Nat} (h : 2 ≤ f) : wideOf f = none := by
  obtain ⟨n, rfl⟩ := Nat.exists_eq_add_of_le' h
  rfl

/-! ### ialx (R85) -/

/-- The functions 5 to 11 of ialx have a zero b field. -/
theorem decodeIalx_unary {d a b f : Nat} (hl : 5 ≤ f) (hu : f ≤ 11) (hb : b ≠ 0) : decodeIalx d a b f = none := by
  have hg : ∀ x, guarded (b == 0) x = none := fun x => guarded_eq_none (by simpa using hb)
  obtain rfl | rfl | rfl | rfl | rfl | rfl | rfl : f = 5 ∨ f = 6 ∨ f = 7 ∨ f = 8 ∨ f = 9 ∨ f = 10 ∨ f = 11 := by omega
  all_goals exact hg _

/-- The functions 12 to 14 of ialx name even pairs. -/
theorem decodeIalx_pair {d a b f : Nat} (hl : 12 ≤ f) (hu : f ≤ 14) (ho : d % 2 = 1 ∨ a % 2 = 1 ∨ b % 2 = 1) :
    decodeIalx d a b f = none := by
  have hg : ∀ x, guarded (ev d && ev a && ev b) x = none := fun x => guarded_eq_none (by
    rcases ho with h | h | h <;> simp [ev_eq_false h])
  obtain rfl | rfl | rfl : f = 12 ∨ f = 13 ∨ f = 14 := by omega
  all_goals exact hg _

theorem extendedWords : ExtendedWords := by
  refine ⟨fun w hw hm hl hu hb => ?_, fun w hw hm hl hu ho => ?_, fun w hw hm hf ha => ?_, rfl⟩ <;>
    rw [decodeWord_of_major hw hm]
  · exact decodeIalx_unary hl hu hb
  · exact decodeIalx_pair hl hu (by omega)
  · rw [hf]
    exact guarded_eq_none (ev_eq_false (by omega))

/-! ### Compares, immediates, moves and products (R87 to R91) -/

/-- The field f3 of a word's f field, and the imm8 of its fields b and f (R62). -/
theorem word_f3_eq (w : Nat) : w % 16 % 8 = w % 8 := by omega
theorem word_imm8_eq (w : Nat) : w / 2 ^ 4 % 128 * 2 + w % 16 / 8 = w / 8 % 256 := by omega

/-- An immediate word of the majors 0x13 to 0x17 with f3 other than 0 is no instruction. -/
theorem decodeFields_immediate {m d a b f : Nat} (hl : 0x13 ≤ m) (hu : m ≤ 0x17) (hf : f % 8 ≠ 0) :
    decodeFields m d a b f = none := by
  have hg : ∀ c x, guarded (f % 8 == 0 && c) x = none := fun c x => guarded_eq_none (by simp [hf])
  have hg' : ∀ x, guarded (f % 8 == 0) x = none := fun x => guarded_eq_none (by simp [hf])
  obtain rfl | rfl | rfl | rfl | rfl : m = 0x13 ∨ m = 0x14 ∨ m = 0x15 ∨ m = 0x16 ∨ m = 0x17 := by omega
  iterate 4 exact hg' _
  exact hg _ _

/-- A shift by an immediate of 32 or more is no instruction. -/
theorem decodeFields_shift {m d a b f : Nat} (hm : m = 0x17 ∨ m = 0x18) (hi : 32 ≤ b * 2 + f / 8) :
    decodeFields m d a b f = none := by
  have hg : ∀ c x, guarded (c && decide (b * 2 + f / 8 < 32)) x = none := fun c x =>
    guarded_eq_none (by simp [show ¬b * 2 + f / 8 < 32 by omega])
  rcases hm with rfl | rfl
  · exact hg _ _
  · by_cases h0 : f % 8 = 0
    · exact (if_pos h0).trans (hg true _)
    · exact (if_neg h0).trans (hg (f % 8 == 1) _)

/-- The functions of the major 0x18 are 0 and 1. -/
theorem decodeFields_shriKind {d a b f : Nat} (hf : 2 ≤ f % 8) : decodeFields 0x18 d a b f = none :=
  (if_neg (by omega)).trans (guarded_eq_none (by simp [show f % 8 ≠ 1 by omega]))

/-- imulw has two functions and names an even pair. -/
theorem decodeFields_wide {d a b f : Nat} (h : 2 ≤ f ∨ d % 2 = 1) : decodeFields 0x1E d a b f = none := by
  show (if ev d then (wideOf f).map fun g => Instr.imulw g d a b else none) = none
  rcases h with h | h
  · simp [wideOf_of_le h]
  · simp [ev_eq_false h]

theorem formWords : FormWords := by
  refine ⟨fun w hw hm hf => ?_, fun w hw hl hu hf => ?_, fun w hw hm hi => ?_, fun w hw hm hf => ?_, fun w hw hm h => ?_,
    fun w hw hm h => ?_, fun w hw hm hf => ?_, fun w hw hm h => ?_, rfl, rfl, rfl, rfl, rfl, rfl, rfl, rfl, rfl, rfl, rfl, rfl, rfl, rfl⟩
  · rcases hm with hm | hm <;> rw [decodeWord_of_major hw hm] <;> exact congrArg (Option.map _) (isetOf_of_le hf)
  · rw [decodeWord_of_major hw rfl]
    exact decodeFields_immediate hl hu (by rwa [word_f3_eq])
  · rw [decodeWord_of_major hw rfl]
    exact decodeFields_shift hm (by rwa [word_imm8_eq])
  · rw [decodeWord_of_major hw hm]
    exact decodeFields_shriKind (by omega)
  · rw [decodeWord_of_major hw hm]
    exact guarded_eq_none (by simp; omega)
  · have hb : (w / 2 ^ 4 % 128 == 0 && w % 16 == 0) = false := by simp; omega
    rcases hm with hm | hm <;> rw [decodeWord_of_major hw hm] <;> exact guarded_eq_none hb
  · rw [decodeWord_of_major hw hm]
    exact congrArg (Option.map _) (idotOf_of_le hf)
  · rw [decodeWord_of_major hw hm]
    exact decodeFields_wide (by omega)

/-! ### Reads between the files (R95, R96) -/

/-- kvote has three functions, of which the ballot names an even pair. -/
theorem decodeFields_vote {d a b f : Nat} (h : 3 ≤ f ∨ f = 2 ∧ d % 2 = 1) : decodeFields 0x28 d a b f = none := by
  rcases h with h | ⟨rfl, h⟩
  · obtain ⟨n, rfl⟩ := Nat.exists_eq_add_of_le' h
    rfl
  · exact guarded_eq_none (by simp [ev_eq_false h])

theorem uniformReadWords : UniformReadWords := by
  refine ⟨fun w hw hm hf => ?_, fun w hw hm h => ?_, fun w hw hm hf => ?_, rfl, rfl, rfl⟩ <;> rw [decodeWord_of_major hw hm]
  · exact guarded_eq_none (by simpa using hf)
  · exact decodeFields_vote (by omega)
  · exact guarded_eq_none (by simp [hf])

end Sys2Proof
end

section
/-! The integer instructions of strands (R84 to R91): what each writes, and the statements about them. -/

namespace Sys2Proof

open Machine

/-- Every function of ialu is a two-operand instruction of its meaning. -/
theorem integerTwoOperand : IntegerTwoOperand := by
  unfold IntegerTwoOperand
  and_intros <;> exact lanes2_of_intOp2 fun _ _ _ _ => rfl

theorem twoOperandValues : TwoOperandValues := by
  refine ⟨imulhW_eq_ofInt, imulhuW_eq_ofNat, toInt_iminW, toInt_imaxW, toNat_iminuW,
    fun _ _ h => ⟨(shiftsW_of_le h).1, (shiftsW_of_le h).2, sraW_of_le h⟩,
    fun _ _ h => ⟨toNat_shlW h, toNat_shrW h, toInt_sraW h⟩, fun x y _ => getLsbD_rotW x y, fun _ _ => rfl, rfl⟩

/-- The selections of the model, written with `!=`, are those of the statement. -/
theorem select_bne : (fun x y z : Word => if z != 0 then x else y) = fun x y z => if z ≠ 0 then x else y := by
  funext x y z
  simp

theorem integerExtended : IntegerExtended :=
  ⟨lanes3_of_intOp3 fun _ _ _ _ => rfl, lanes2_of_intOp2 fun _ _ _ _ => rfl,
    select_bne ▸ lanes3_of_intOp3 fun _ _ _ _ => rfl, lanes2_of_intOp2 fun _ _ _ _ => rfl,
    lanes3_of_intOp3 fun _ _ _ _ => rfl, lanes1_of_intOp1 fun _ _ _ => rfl, lanes1_of_intOp1 fun _ _ _ => rfl,
    lanes1_of_intOp1 fun _ _ _ => rfl, lanes1_of_intOp1 fun _ _ _ => rfl, lanes1_of_intOp1 fun _ _ _ => rfl,
    lanes1_of_intOp1 fun _ _ _ => rfl, lanes1_of_intOp1 fun _ _ _ => rfl, pairs2_of_pairOp2 fun _ _ _ _ => rfl,
    pairs2_of_pairOp2 fun _ _ _ _ => rfl, pairs2_of_pairOp2 fun _ _ _ _ => rfl,
    fun _ _ _ => writesLanes_of_laneOp fun _ => rfl, uniform2_of_kOp2 fun _ _ _ _ => rfl, uniform3_of_kOp3 fun _ _ _ _ => rfl⟩

theorem extendedValues : ExtendedValues := by
  refine ⟨toNat_iabsdW, toNat_iabsW, toNat_popcW, fun _ => ctzW_of_ne_zero, fun _ => clzW_of_ne_zero, ctzW_zero, clzW_zero,
    fun x _ => getLsbD_brevW x, fun _ _ => rfl, fun x y z pos len hp hl => ?_⟩
  rw [← bfPos_eq] at hp
  rw [← bfLen_eq] at hl
  subst hp hl
  exact ⟨fun _ => getLsbD_bfeW x y, fun _ => getLsbD_bfiW x y z⟩

theorem comparesAndProducts : ComparesAndProducts :=
  ⟨fun _ => lanes2_of_intOp2 fun _ _ _ _ => rfl, fun _ => uniform2_of_kOp2 fun _ _ _ _ => rfl,
    fun _ => lanes3_of_intOp3 fun _ _ _ _ => rfl, fun _ _ _ _ => writesPairs_of_lanePairOp fun _ => rfl⟩

theorem integerImmediates : IntegerImmediates :=
  ⟨lanesImm_of_intOp1 fun _ _ _ _ => rfl, lanesImm_of_intOp1 fun _ _ _ _ => rfl, lanesImm_of_intOp1 fun _ _ _ _ => rfl,
    lanesImm_of_intOp1 fun _ _ _ _ => rfl, lanesImm_of_intOp1 fun _ _ _ _ => rfl, lanesImm_of_intOp1 fun _ _ _ _ => rfl,
    lanesImm_of_intOp1 fun _ _ _ _ => rfl, fun _ => lanesImm_of_intOp1 fun _ _ _ _ => rfl,
    fun _ _ => writesLanes_of_laneOp fun _ => rfl, fun _ _ => writesLanes_of_laneOp fun _ => rfl,
    lanes1_of_intOp1 fun _ _ _ => rfl⟩

theorem formValues : FormValues := by
  refine ⟨isetHolds_iff, fun _ _ => ⟨rfl, rfl, rfl, rfl, rfl, rfl, rfl, rfl⟩, fun _ => toInt_sextImm, fun _ => toNat_zextImm,
    fun x y z t ht => ?_, fun x y z t ht => ?_, fun x y z t ht => ?_, fun x y z t ht => ?_, toInt_imulwD_signed,
    toNat_imulwD_unsigned⟩
  · rw [← idotSum_signed 8 4] at ht
    subst ht
    exact ⟨rfl, toInt_ofInt_clampInt _⟩
  · rw [← idotSum_unsigned 8 4] at ht
    subst ht
    exact toInt_ofInt_clampInt _
  · rw [← idotSum_signed 4 8] at ht
    subst ht
    exact toInt_ofInt_clampInt _
  · rw [← idotSum_unsigned 4 8] at ht
    subst ht
    exact toInt_ofInt_clampInt _

/-- Settles O14: the operand form of each function of ialu, and its arithmetic in numbers and bits. -/
theorem integerResults : Obligations.IntegerResults := ⟨integerTwoOperand, twoOperandValues⟩

/-- Settles O15: the operand form of each function of ialx, its arithmetic in bits, and the guards of its words. -/
theorem integerExtensions : Obligations.IntegerExtensions := ⟨integerExtended, extendedValues, extendedWords⟩

/-- Settles O16: the operand forms of R87 to R91, their arithmetic on exact totals, and the guards of their words. -/
theorem integerForms : Obligations.IntegerForms := ⟨comparesAndProducts, integerImmediates, formValues, formWords⟩

end Sys2Proof
end

section
/-! SUPPORT. What the uniform reads and transfers look at: the TLB's fill, the lanes that vote, the trap of a target. -/

namespace Sys2Proof.Machine

/-! ### Filling a TLB -/

/-- A TLB that takes a leaf is all that changes. -/
theorem tlbFill_frame (s : State) (v : View) (va : DWord) : tlbFill s v va = { s with clusters := (tlbFill s v va).clusters } := by
  unfold tlbFill
  dsimp only
  split <;> rfl

@[simp] theorem tlbFill_mem (s : State) (v : View) (va : DWord) : (tlbFill s v va).mem = s.mem := by rw [tlbFill_frame]
@[simp] theorem tlbFill_cohorts (s : State) (v : View) (va : DWord) : (tlbFill s v va).cohorts = s.cohorts := by rw [tlbFill_frame]
@[simp] theorem tlbFill_mccs (s : State) (v : View) (va : DWord) : (tlbFill s v va).mccs = s.mccs := by rw [tlbFill_frame]

theorem Retired.sameMemory {s t : State} {gid si : Nat} {g : Gang} {npc : DWord} (h : Retired s t gid g si npc) : SameMemory s t := by
  rw [SameMemory, h.rest]

theorem MccRetired.sameMemory {s t : State} {cid : Nat} {c : Cohort} {m : Mcc} {npc : DWord} (h : MccRetired s t cid c m npc) :
    SameMemory s t := by
  rw [SameMemory, h.rest]

theorem SameMemory.of_tlbFill {s t : State} {v : View} {va : DWord} (h : SameMemory (tlbFill s v va) t) : SameMemory s t :=
  Eq.trans h (tlbFill_mem s v va)

/-! ### Votes -/

/-- Some active lane's value is not 0 where the lanes that vote are some. -/
theorem voteLanes_isEmpty (g : Gang) (sp : Split) (a : Nat) :
    (!(voteLanes g sp a).isEmpty) = true ↔ ∃ l ∈ lanesOf sp.mask, vget g a l ≠ 0 := by
  simp [voteLanes]

theorem all_lanes_ne_zero (g : Gang) (sp : Split) (a : Nat) :
    ((lanesOf sp.mask).all fun l => vget g a l != 0) = true ↔ ∀ l ∈ lanesOf sp.mask, vget g a l ≠ 0 := by
  simp

theorem boolW_of_iff {b : Bool} {p : Prop} [Decidable p] (h : b = true ↔ p) : boolW b = if p then 1 else 0 := by
  by_cases hp : p
  · rw [boolW, if_pos (h.mpr hp), if_pos hp]
  · rw [boolW, if_neg fun hb => hp (h.mp hb), if_neg hp]

/-! ### Targets (R74, R101) -/

/-- The trap of a target takes no place in a fault buffer: it is MISALIGN or PERM. -/
theorem targetTrap_place {t : DWord} {e : TrapInfo} (h : targetTrap t = some e) : takesPlace e = false := by
  unfold targetTrap at h
  split at h
  · cases h; rfl
  · split at h
    · cases h; rfl
    · cases h

theorem targetTrap_misaligned {x : DWord} (h : x.toNat % 4 ≠ 0) : targetTrap x = some { plainTrap .misalign with addr := x } := by
  simp [targetTrap, h]

theorem targetTrap_aligned {x : DWord} (h : x.toNat % 4 = 0) :
    targetTrap x = if canonicalVa x then none else some { plainTrap .perm with cause := 3, addr := x } := by
  cases hc : canonicalVa x <;> simp [targetTrap, h, hc]

/-- An address is canonical where its bits from 57 on are its bit 56. -/
theorem canonicalVa_iff (x : DWord) : canonicalVa x = true ↔ ∀ i, 57 ≤ i → i < 64 → x.getLsbD i = x.getLsbD 56 := by
  have hbit : ∀ i, i < 64 → ((x.setWidth 57).signExtend 64).getLsbD i = if i < 57 then x.getLsbD i else x.getLsbD 56 := by
    intro i hi
    rw [BitVec.getLsbD_signExtend, BitVec.msb_eq_getLsbD_last, BitVec.getLsbD_setWidth, BitVec.getLsbD_setWidth]
    by_cases h : i < 57 <;> simp [hi, h]
  rw [canonicalVa, beq_iff_eq]
  constructor
  · intro hx i hl hu
    have := hbit i hu
    rwa [hx, if_neg (by omega)] at this
  · intro h
    refine BitVec.eq_of_getLsbD_eq fun i hi => ?_
    rw [hbit i hi]
    split
    · rfl
    · exact (h i (by omega) hi).symm

end Sys2Proof.Machine
end

section
/-! The reads of the constant table, of a lane and of the votes (R94 to R96). -/

namespace Sys2Proof

open Machine

/-! ### The constant table (R94) -/

/-- A word of the table that is read goes to kd of a gang. -/
theorem kldt_gang (d i : Nat) (w : Word) : OnGang (.kldt d i) [] none
    (fun s _ g _ _ => fetchAt s (gangView g) .table (gangBound s g) (tableAddr s g.range i) = .ok w)
    (fun s gid g si sp t => Retired (tlbFill s (gangView g) (tableAddr s g.range i)) t gid { g with k := cset g.k d w } si (nextPc sp.pc)
      ∧ SameMemory s t) := by
  refine onGang_of_eitherOp (fun _ => rfl) fun s gid g si sp _ hw => ?_
  obtain ⟨t, ht, hr⟩ := exists_doneAt (tlbFill s (gangView g) (tableAddr s g.range i)) gid { g with k := cset g.k d w } si sp
  exact ⟨t, by simpa only [hw] using ht, hr, hr.sameMemory.of_tlbFill⟩

/-- The same on the MCC. -/
theorem kldt_mcc (d i : Nat) (w : Word) : OnMcc (.kldt d i)
    (fun s _ c _ => fetchAt s (mccView s c) .table (cohortBound s c) (tableAddr s c.range i) = .ok w)
    (fun s cid c m t => MccRetired (tlbFill s (mccView s c) (tableAddr s c.range i)) t cid c { m with k := cset m.k d w } (nextPc m.pc)
      ∧ SameMemory s t) := by
  refine onMcc_of_eitherOp (fun _ => rfl) fun s cid c m hc hm hw => ?_
  have hr := retireMcc_modMcc (s := tlbFill s (mccView s c) (tableAddr s c.range i)) (fun x => { x with k := cset m.k d w })
    (nextPc m.pc) ((congrArg (tget · cid) (tlbFill_cohorts ..)).trans hc) ((congrArg (tget · cid) (tlbFill_mccs ..)).trans hm)
  exact ⟨_, by simp only [hw], hr, hr.sameMemory.of_tlbFill⟩

/-- A word of the table that cannot be read traps as that access. -/
theorem kldt_traps (d i : Nat) (e : TrapCode × Nat × DWord) : OnGang (.kldt d i) [] none
    (fun s _ g _ _ => fetchAt s (gangView g) .table (gangBound s g) (tableAddr s g.range i) = .error e
      ∧ takesPlace (accessTrap .table e) = false ∧ gangOpen g = false)
    fun s gid g si sp t => Trapped s t gid g si sp (accessTrap .table e) := by
  refine onGang_of_eitherOp (fun _ => rfl) fun s gid g si sp hsp hp => ?_
  obtain ⟨he, hp, ho⟩ := hp
  exact ⟨_, by simp only [he], takeTrap_trapped hsp ho hp⟩

theorem tableLoads : TableLoads := fun d i w => ⟨kldt_gang d i w, kldt_mcc d i w, kldt_traps d i⟩

/-! ### Lanes and votes (R95, R96) -/

/- The dispatch of these instructions, stated apart: unification does not look through `exec` for a meaning it has yet to find. -/
theorem exec_kread (d a b : Nat) (s : State) : exec (.kread d a b) s = execKread d a b s := rfl
theorem exec_kvoteAny (d a : Nat) (s : State) : exec (.kvoteAny d a) s = execKvoteAny d a s := rfl
theorem exec_kvoteAll (d a : Nat) (s : State) : exec (.kvoteAll d a) s = execKvoteAll d a s := rfl
theorem exec_kfirst (d a : Nat) (s : State) : exec (.kfirst d a) s = execKfirst d a s := rfl

/-- kread copies the lane that K(b) names. -/
theorem kread_writes (d a b : Nat) : OnGang (.kread d a b) [a] none (fun _ _ g _ _ => (cget g.k b).toNat ≤ 63)
    (Makes fun _ g _ => setK g d (vget g a (cget g.k b).toNat)) := by
  refine onGang_of_gangOp (exec_kread d a b) fun s gid g si sp _ hl => ?_
  rw [if_neg (Nat.not_lt.mpr hl)]
  exact exists_doneAt _ _ _ _ _

/-- kread refuses a lane beyond 63. -/
theorem kread_traps (d a b : Nat) : OnGang (.kread d a b) [a] none (fun _ _ g _ _ => 63 < (cget g.k b).toNat ∧ gangOpen g = false)
    fun s gid g si sp t => Trapped s t gid g si sp (plainTrap .invalidParam) := by
  refine onGang_of_gangOp (exec_kread d a b) fun s gid g si sp hsp hp => ?_
  obtain ⟨hl, ho⟩ := hp
  exact ⟨_, if_pos hl, takeTrap_trapped hsp ho rfl⟩

theorem kvoteAny_writes (d a : Nat) : OnGang (.kvoteAny d a) [a] none (fun _ _ _ _ _ => True)
    (Makes fun _ g sp => setK g d (if ∃ l ∈ lanesOf sp.mask, vget g a l ≠ 0 then 1 else 0)) := by
  refine onGang_of_gangOp (exec_kvoteAny d a) fun s gid g si sp _ _ => ?_
  rw [boolW_of_iff (voteLanes_isEmpty g sp a)]
  exact exists_doneAt _ _ _ _ _

theorem kvoteAll_writes (d a : Nat) : OnGang (.kvoteAll d a) [a] none (fun _ _ _ _ _ => True)
    (Makes fun _ g sp => setK g d (if ∀ l ∈ lanesOf sp.mask, vget g a l ≠ 0 then 1 else 0)) := by
  refine onGang_of_gangOp (exec_kvoteAll d a) fun s gid g si sp _ _ => ?_
  rw [boolW_of_iff (all_lanes_ne_zero g sp a)]
  exact exists_doneAt _ _ _ _ _

theorem kvoteBallot_writes (d a : Nat) : OnGang (.kvoteBallot d a) [a] none (fun _ _ _ _ _ => True)
    (Makes fun _ g sp => { g with k := setKPair g.k d (maskOf ((lanesOf sp.mask).filter fun l => vget g a l != 0)) }) :=
  onGang_of_gangOp (fun _ => rfl) fun _ _ _ _ _ _ _ => exists_doneAt _ _ _ _ _

/-- kfirst copies the lowest active lane, and leaves the gang as it is where no lane is active. -/
theorem kfirst_writes (d a : Nat) : OnGang (.kfirst d a) [a] none (fun _ _ _ _ _ => True)
    (Makes fun _ g sp => match lowestLane sp.mask with | some l => setK g d (vget g a l) | none => g) := by
  refine onGang_of_gangOp (exec_kfirst d a) fun s gid g si sp _ _ => ?_
  cases hl : lowestLane sp.mask with
  | none => simpa only [Makes, hl] using exists_doneAt s gid g si sp
  | some l => simpa only [Makes, hl] using exists_doneAt s gid (setK g d (vget g a l)) si sp

theorem uniformFromLanes : UniformFromLanes :=
  ⟨kread_writes, kvoteAny_writes, kvoteAll_writes, kvoteBallot_writes, kfirst_writes, kread_traps⟩

/-- Settles O18: the table load by what the fetch path reads, the lane reads by the lanes they look at, the words by their guards. -/
theorem uniformReads : Obligations.UniformReads := ⟨tableLoads, uniformFromLanes, uniformReadWords⟩

end Sys2Proof
end

section
/-! The uniform branches, calls, returns and indirect jumps (R97, R101). -/

namespace Sys2Proof

open Machine

/- The dispatch of these instructions, as the shapes below need it. -/
theorem exec_brany (a x : Nat) (s : State) : exec (.brany a x) s = execBrany a x s := rfl
theorem exec_brall (a x : Nat) (s : State) : exec (.brall a x) s = execBrall a x s := rfl
theorem exec_call (a x : Nat) (s : State) : exec (.call a x) s = transfer (some a) (fun pc _ => branchTarget pc x) s := rfl
theorem exec_callk (d a : Nat) (s : State) : exec (.callk d a) s = transfer (some d) (fun _ k => kPair k a) s := rfl

/-! ### Branches -/

theorem bra_gang (x : Nat) : OnGangClosing (.bra x) [] (some []) (fun s _ g _ sp => bodyBranchOk s g [branchTarget sp.pc x] = true)
    fun s gid g si sp t => Retired s t gid g si (branchTarget sp.pc x) := by
  refine onGangClosing_of_eitherOp (fun _ => rfl) fun s gid g si sp _ hb => ?_
  rw [if_pos hb]
  exact ⟨_, rfl, transferTo_retired _ _ _ _ _⟩

theorem bra_mcc (x : Nat) : OnMcc (.bra x) (fun _ _ _ _ => True) fun s cid c m t => MccRetired s t cid c m (branchTarget m.pc x) :=
  onMcc_of_eitherOp (fun _ => rfl) fun _ _ _ _ hc hm _ => ⟨_, rfl, retireMcc_same _ hc hm⟩

/-- A branch of a gang on its lanes goes to its target where its condition holds, and else to the next instruction. -/
theorem onGangClosing_of_gangBranch {i : Instr} {hold : Gang → Split → Bool} {vs : List Nat} {x : Nat}
    (hx : ∀ s, exec i s = gangBranch hold vs x s) : OnGangClosing i vs none (fun _ _ _ _ _ => True) fun s gid g si sp t =>
      Retired s t gid g si (if hold g sp then branchTarget sp.pc x else nextPc sp.pc) :=
  onGangClosing_of_gangOp hx fun _ _ _ _ _ _ _ => ⟨_, rfl, transferTo_retired _ _ _ _ _⟩

theorem brany_gang (a x : Nat) : OnGangClosing (.brany a x) [a] none (fun _ _ _ _ _ => True) fun s gid g si sp t =>
    ((∃ l ∈ lanesOf sp.mask, vget g a l ≠ 0) → Retired s t gid g si (branchTarget sp.pc x))
    ∧ ((∀ l ∈ lanesOf sp.mask, vget g a l = 0) → Retired s t gid g si (nextPc sp.pc)) := by
  intro s gid g si sp hi hc _
  obtain ⟨t, ht, hr⟩ := onGangClosing_of_gangBranch (exec_brany a x) s gid g si sp hi hc trivial
  refine ⟨t, ht, fun hsome => ?_, fun hnone => ?_⟩
  · rwa [if_pos ((voteLanes_isEmpty _ _ _).mpr hsome)] at hr
  · rwa [if_neg fun hv => ?_] at hr
    obtain ⟨l, hl, hne⟩ := (voteLanes_isEmpty _ _ _).mp hv
    exact hne (hnone l hl)

theorem brall_gang (a x : Nat) : OnGangClosing (.brall a x) [a] none (fun _ _ _ _ _ => True) fun s gid g si sp t =>
    ((∀ l ∈ lanesOf sp.mask, vget g a l ≠ 0) → Retired s t gid g si (branchTarget sp.pc x))
    ∧ ((∃ l ∈ lanesOf sp.mask, vget g a l = 0) → Retired s t gid g si (nextPc sp.pc)) := by
  intro s gid g si sp hi hc _
  obtain ⟨t, ht, hr⟩ := onGangClosing_of_gangBranch (exec_brall a x) s gid g si sp hi hc trivial
  refine ⟨t, ht, fun hall => ?_, fun ⟨l, hl, hz⟩ => ?_⟩
  · rwa [if_pos ((all_lanes_ne_zero _ _ _).mpr hall)] at hr
  · rwa [if_neg fun hv => (all_lanes_ne_zero _ _ _).mp hv l hl hz] at hr

/-- A branch on a k register goes to its target where its condition holds, and else to the next instruction, on either side. -/
theorem onGangClosing_of_kBranch {i : Instr} {hold : Cells 32 → Bool} {x : Nat} (hx : ∀ s, exec i s = kBranch hold x s) :
    OnGangClosing i [] none (fun _ _ _ _ _ => True) fun s gid g si sp t =>
      Retired s t gid g si (if hold g.k then branchTarget sp.pc x else nextPc sp.pc) :=
  onGangClosing_of_eitherOp hx fun _ _ _ _ _ _ _ => ⟨_, rfl, transferTo_retired _ _ _ _ _⟩

theorem onMcc_of_kBranch {i : Instr} {hold : Cells 32 → Bool} {x : Nat} (hx : ∀ s, exec i s = kBranch hold x s) :
    OnMcc i (fun _ _ _ _ => True) fun s cid c m t => MccRetired s t cid c m (if hold m.k then branchTarget m.pc x else nextPc m.pc) :=
  onMcc_of_eitherOp hx fun _ _ _ _ hc hm _ => ⟨_, rfl, retireMcc_same _ hc hm⟩

/-- bkz and bknz branch where the register is 0, and where it is not. -/
theorem exec_bkz_or_bknz {i : Instr} {a x : Nat} (hi : i = .bkz a x ∨ i = .bknz a x) (s : State) :
    exec i s = kBranch (fun k => decide ((cget k a = 0) = (i = .bkz a x))) x s := by
  rcases hi with rfl | rfl
  · show kBranch (fun k => cget k a == 0) x s = _
    congr 1
    funext k
    rw [Bool.eq_iff_iff]
    simp
  · show kBranch (fun k => cget k a != 0) x s = _
    congr 1
    funext k
    rw [Bool.eq_iff_iff]
    simp

/-! ### Calls, returns and indirect jumps -/

/-- A transfer to a target that is no trap links the next instruction where it links, and goes there. -/
theorem onGangClosing_of_transfer {i : Instr} {link : Option Nat} {target : DWord → Cells 32 → DWord}
    (hx : ∀ s, exec i s = transfer link target s) :
    OnGangClosing i [] none (fun _ _ g _ sp => targetTrap (target sp.pc g.k) = none) fun s gid g si sp t =>
      Retired s t gid { g with k := link.elim g.k fun d => setKPair g.k d (nextPc sp.pc) } si (target sp.pc g.k) := by
  refine onGangClosing_of_eitherOp hx fun s gid g si sp _ ht => ?_
  simp only [ht]
  cases link <;> exact ⟨_, rfl, transferTo_retired _ _ _ _ _⟩

theorem onMcc_of_transfer {i : Instr} {link : Option Nat} {target : DWord → Cells 32 → DWord}
    (hx : ∀ s, exec i s = transfer link target s) :
    OnMcc i (fun _ _ _ m => targetTrap (target m.pc m.k) = none) fun s cid c m t =>
      MccRetired s t cid c { m with k := link.elim m.k fun d => setKPair m.k d (nextPc m.pc) } (target m.pc m.k) := by
  refine onMcc_of_eitherOp hx fun s cid c m hc hm ht => ?_
  simp only [ht]
  cases link <;> exact ⟨_, rfl, retireMcc_modMcc _ _ hc hm⟩

/-- A transfer to a target that is a trap takes that trap, and links nothing. -/
theorem onGangClosing_of_transfer_trap {i : Instr} {link : Option Nat} {target : DWord → Cells 32 → DWord}
    (hx : ∀ s, exec i s = transfer link target s) :
    OnGangClosing i [] none (fun _ _ g _ sp => targetTrap (target sp.pc g.k) ≠ none ∧ gangOpen g = false) fun s gid g si sp t =>
      ∃ e, targetTrap (target sp.pc g.k) = some e ∧ Trapped s t gid g si sp e := by
  refine onGangClosing_of_eitherOp hx fun s gid g si sp hsp hp => ?_
  obtain ⟨ht, ho⟩ := hp
  obtain ⟨e, he⟩ := Option.ne_none_iff_exists'.mp ht
  simp only [he]
  exact ⟨_, rfl, e, rfl, takeTrap_trapped hsp ho (targetTrap_place he)⟩

theorem onMcc_of_transfer_trap {i : Instr} {link : Option Nat} {target : DWord → Cells 32 → DWord}
    (hx : ∀ s, exec i s = transfer link target s) :
    OnMcc i (fun _ _ _ m => targetTrap (target m.pc m.k) ≠ none) fun s cid c m t =>
      ∃ e, targetTrap (target m.pc m.k) = some e ∧ MccTrapped s t cid c m e := by
  refine onMcc_of_eitherOp hx fun s cid c m _ _ ht => ?_
  obtain ⟨e, he⟩ := Option.ne_none_iff_exists'.mp ht
  simp only [he]
  exact ⟨_, rfl, e, rfl, takeTrapMcc_trapped (targetTrap_place he)⟩

theorem exec_jmpk_or_ret {i : Instr} {a : Nat} (hi : i = .jmpk a ∨ i = .ret a) (s : State) :
    exec i s = transfer none (fun _ k => kPair k a) s := by
  rcases hi with rfl | rfl <;> rfl

/-- Settles O30: the branches by their conditions, the transfers by their targets' traps, the traps by the bits of the target. -/
theorem uniformTransfers : Obligations.UniformTransfers := by
  refine ⟨bra_gang, bra_mcc, brany_gang, brall_gang, fun i a x hi => ⟨?_, ?_⟩,
    fun a x => (onGangClosing_of_transfer (exec_call a x) :), fun d a => (onGangClosing_of_transfer (exec_callk d a) :),
    fun i a hi => ⟨(onGangClosing_of_transfer (exec_jmpk_or_ret hi) :), (onGangClosing_of_transfer_trap (exec_jmpk_or_ret hi) :),
      (onMcc_of_transfer_trap (exec_jmpk_or_ret hi) :), (onMcc_of_transfer (exec_jmpk_or_ret hi) :)⟩,
    fun a x => (onMcc_of_transfer (exec_call a x) :), fun d a => (onMcc_of_transfer (exec_callk d a) :),
    fun a x => (onGangClosing_of_transfer_trap (exec_call a x) :), fun a x => (onMcc_of_transfer_trap (exec_call a x) :),
    fun d a => (onGangClosing_of_transfer_trap (exec_callk d a) :), fun d a => (onMcc_of_transfer_trap (exec_callk d a) :),
    rfl, rfl, rfl, fun _ => targetTrap_misaligned, fun x hx => ⟨fun hb => ?_, fun hb => ?_⟩⟩
  · simpa only [decide_eq_true_eq] using onGangClosing_of_kBranch (exec_bkz_or_bknz hi)
  · simpa only [decide_eq_true_eq] using onMcc_of_kBranch (exec_bkz_or_bknz hi)
  · rw [targetTrap_aligned hx, if_pos ((canonicalVa_iff x).mpr hb)]
  · rw [targetTrap_aligned hx, if_neg fun hc => ?_]
    obtain ⟨i, hl, hu, hne⟩ := hb
    exact hne ((canonicalVa_iff x).mp hc i hl hu)

end Sys2Proof
end

section
/-! The divides and special functions, which open windows (R129 to R132). -/

namespace Sys2Proof

open Machine

/-! ### Windows (R29) -/

/-- A long-latency instruction opens a window for its results and retires; its results do not hang on the table of gangs. -/
theorem opensWindow_of_longOp {i : Instr} {vs : List Nat} {d la : Nat} {f : State → Gang → Split → Nat → Word × Flags}
    (hx : ∀ s, exec i s = longOp vs d la s f) (hf : ∀ s gid g, f (setGang s gid g) = f s) : OpensWindow i vs d la f := by
  intro s gid g si sp hi hc
  rw [hx, longOp, gangOp_opens (super := false) _ hi hc nofun, hf]
  exact exists_doneAt _ _ _ _ _

/-- The rounding control of a strand does not hang on the table of gangs. -/
theorem strandCtl_setGang (s : State) (gid : Nat) (g : Gang) : strandCtl (setGang s gid g) = strandCtl s := rfl

theorem dividesOpenWindows : DividesOpenWindows := by
  intro d a b l
  refine ⟨?_, ?_, ?_, ?_, opensWindow_of_longOp (fun _ => rfl) fun s gid g => by rw [strandCtl_setGang]⟩ <;>
    exact opensWindow_of_longOp (fun _ => rfl) fun _ _ _ => rfl

theorem specialFunctions : SpecialFunctions := by
  intro d a l
  and_intros <;> exact opensWindow_of_longOp (fun _ => rfl) fun _ _ _ => rfl

/-! ### Integer divides (R131) -/

theorem divides_zero (x : Word) : divuW x 0 = 0xFFFFFFFF ∧ remuW x 0 = x ∧ idivW x 0 = 0xFFFFFFFF ∧ iremW x 0 = x :=
  ⟨rfl, rfl, rfl, rfl⟩

theorem toNat_unsigned_divides (x : Word) {y : Word} (h : y ≠ 0) :
    (divuW x y).toNat = x.toNat / y.toNat ∧ (remuW x y).toNat = x.toNat % y.toNat := by
  rw [divuW, if_neg h, remuW, if_neg h]
  exact ⟨BitVec.toNat_udiv, BitVec.toNat_umod⟩

/-- The quotient is truncated toward zero, modulo 2^32; the remainder has the sign of the dividend. -/
theorem signed_divides (x : Word) {y : Word} (h : y ≠ 0) :
    idivW x y = BitVec.ofInt 32 (x.toInt.tdiv y.toInt) ∧ (iremW x y).toInt = x.toInt.tmod y.toInt := by
  rw [idivW, if_neg h, iremW, if_neg h]
  refine ⟨BitVec.eq_of_toInt_eq ?_, BitVec.toInt_srem x y⟩
  rw [BitVec.toInt_sdiv, BitVec.toInt_ofInt]

theorem divideCorners : DivideCorners :=
  ⟨divides_zero, fun x _ => toNat_unsigned_divides x, fun x _ => signed_divides x, by decide, by decide, rfl⟩

/-- Settles O22: the windows of the divides and special functions, and the arithmetic of the integer divides. -/
theorem longLatency : Obligations.LongLatency := ⟨dividesOpenWindows, divideCorners, specialFunctions⟩

end Sys2Proof
end

section
/-! The cross-lane instructions, scans and reductions (R133 to R138). -/

namespace Sys2Proof

open Machine

/-! ### Lanes that exchange values (R134 to R136, R138) -/

/- The dispatch of these instructions, as the shapes below need it. -/
theorem exec_lshfl (m : ShflMode) (d a b : Nat) (s : State) :
    exec (.lshfl m d a b) s = crossOp [d, a, b] d s fun g _ l => vget g a (shflSource m l (vget g b l)) := rfl
theorem exec_lrank (d a : Nat) (s : State) : exec (.lrank d a) s =
    crossOp [d, a] d s fun g sp l => BitVec.ofNat 32 ((equalLanes g sp a l).filter (· < l)).length := rfl
theorem exec_lpopm (d a : Nat) (s : State) : exec (.lpopm d a) s =
    crossOp [d, a] d s fun g sp l => BitVec.ofNat 32 ((voteLanes g sp a).filter (· < l)).length := rfl

/-- A cross-lane instruction writes what it makes of the gang before it to the active strands. -/
theorem writesLanes_of_crossOp {i : Instr} {vs : List Nat} {d : Nat} {f : Gang → Split → Nat → Word}
    (hx : ∀ s, exec i s = crossOp vs d s f) : WritesLanes i vs none d fun _ g sp l => f g sp l :=
  onGang_of_gangOp hx fun _ _ _ _ _ _ _ => exists_doneAt _ _ _ _ _

/-- The index of a lane, 6 bits of a word. -/
theorem fieldW_lane (y : Word) : fieldW y 0 6 = y.toNat % 64 := by simp [fieldW, fieldN]

theorem lshflIdx_writes (d a b : Nat) :
    WritesLanes (.lshfl .idx d a b) [d, a, b] none d fun _ g _ l => vget g a ((vget g b l).toNat % 64) := by
  simpa only [shflSource, fieldW_lane] using writesLanes_of_crossOp (exec_lshfl .idx d a b)

theorem lshflXor_writes (d a b : Nat) :
    WritesLanes (.lshfl .xor d a b) [d, a, b] none d fun _ g _ l => vget g a (l ^^^ ((vget g b l).toNat % 64)) := by
  simpa only [shflSource, fieldW_lane] using writesLanes_of_crossOp (exec_lshfl .xor d a b)

/-- lrank counts the equal lanes below its own. -/
theorem lrank_writes (d a : Nat) : WritesLanes (.lrank d a) [d, a] none d fun _ g sp l =>
    BitVec.ofNat 32 (((lanesOf sp.mask).filter fun t => vget g a t == vget g a l && decide (t < l)).length) := by
  simpa only [equalLanes, List.filter_filter, Bool.and_comm] using writesLanes_of_crossOp (exec_lrank d a)

/-- lpopm counts the lanes below its own that hold a value other than 0. -/
theorem lpopm_writes (d a : Nat) : WritesLanes (.lpopm d a) [d, a] none d fun _ g sp l =>
    BitVec.ofNat 32 (((lanesOf sp.mask).filter fun t => vget g a t != 0 && decide (t < l)).length) := by
  simpa only [voteLanes, List.filter_filter, Bool.and_comm] using writesLanes_of_crossOp (exec_lpopm d a)

theorem laneExchanges : LaneExchanges :=
  ⟨lshflIdx_writes, fun d a b => writesLanes_of_crossOp (exec_lshfl .up d a b),
    fun d a b => writesLanes_of_crossOp (exec_lshfl .down d a b), lshflXor_writes,
    fun _ _ _ => writesLanes_of_crossOp fun _ => rfl,
    fun _ _ => onGang_of_gangOp (fun _ => rfl) fun _ _ _ _ _ _ _ => exists_doneAt _ _ _ _ _, lrank_writes, lpopm_writes⟩

/-! ### Scans and reductions (R137) -/

/-- The last accumulator of a scan is the fold of its values. -/
theorem laneScan_last (o : LaneOp) (fl : Bool) (acc : Word) (vs : List Word) :
    (laneScan o fl acc vs).2.1 = vs.foldl (fun x v => (laneCombine o fl x v).1) acc := by
  induction vs generalizing acc with
  | nil => rfl
  | cons v vs ih => exact ih _

theorem laneScan_length (o : LaneOp) (fl : Bool) (acc : Word) (vs : List Word) : (laneScan o fl acc vs).1.length = vs.length := by
  induction vs generalizing acc with
  | nil => rfl
  | cons v vs ih => exact congrArg (· + 1) (ih _)

/-- An entry of a scan: the fold of the values before its own, and of those up to it. -/
theorem laneScan_getElem? (o : LaneOp) (fl : Bool) (acc : Word) (vs : List Word) (i : Nat) (h : i < vs.length) :
    (laneScan o fl acc vs).1[i]? = some ((vs.take i).foldl (fun x v => (laneCombine o fl x v).1) acc,
      (vs.take (i + 1)).foldl (fun x v => (laneCombine o fl x v).1) acc) := by
  induction vs generalizing acc i with
  | nil => exact absurd h (Nat.not_lt_zero i)
  | cons v vs ih =>
    cases i with
    | zero => rfl
    | succ i => exact ih _ i (Nat.lt_of_succ_lt_succ h)

/-- No word is above the largest signed number, nor below the smallest. -/
theorem iminW_ident (v : Word) : iminW 0x7FFFFFFF v = v := by
  have h := BitVec.toInt_lt (x := v)
  exact if_neg fun hs => by
    rw [BitVec.slt_iff_toInt_lt, show (0x7FFFFFFF : Word).toInt = 2 ^ 31 - 1 from rfl] at hs
    omega

theorem imaxW_ident (v : Word) : imaxW 0x80000000 v = v := by
  apply BitVec.eq_of_toInt_eq
  have h := BitVec.le_toInt v
  rw [toInt_imaxW, show (0x80000000 : Word).toInt = -2 ^ 31 from rfl]
  omega

/-- The identity of an integer operation is one. -/
theorem laneCombine_ident {o : LaneOp} (fl : Bool) (v : Word) (hmax : o ≠ .fmax) (hadd : o ≠ .fadd) :
    laneCombine o fl (laneIdent o) v = (v, 0) := by
  cases o with
  | iadd => exact congrArg (·, 0) (BitVec.zero_add v)
  | or => exact congrArg (·, 0) BitVec.zero_or
  | xor => exact congrArg (·, 0) BitVec.zero_xor
  | and => exact congrArg (·, 0) BitVec.allOnes_and
  | imin => exact congrArg (·, 0) (iminW_ident v)
  | imax => exact congrArg (·, 0) (imaxW_ident v)
  | fmax => exact absurd rfl hmax
  | fadd => exact absurd rfl hadd

theorem scansAndReductions : ScansAndReductions :=
  ⟨fun _ _ _ _ => onGang_of_gangOp (fun _ => rfl) fun _ _ _ _ _ _ _ => exists_doneAt _ _ _ _ _,
    fun _ _ _ => onGang_of_gangOp (fun _ => rfl) fun _ _ _ _ _ _ _ => exists_doneAt _ _ _ _ _,
    fun o fl acc vs => ⟨laneScan_last o fl acc vs, laneScan_length o fl acc vs⟩, laneScan_getElem?, fun _ fl v => laneCombine_ident fl v⟩

/-! ### Words -/

theorem shflOf_of_le {f : Nat} (h : 4 ≤ f) : shflOf f = none := by
  obtain ⟨n, rfl⟩ := Nat.exists_eq_add_of_le' h
  rfl

theorem crossLaneWords : CrossLaneWords := by
  refine ⟨fun w hw hm hf => ?_, fun w hw hm h => ?_, fun w hw hm h => ?_, fun w hw hm h => ?_, rfl, rfl, rfl, rfl, rfl⟩
  · rw [decodeWord_of_major hw hm]
    exact congrArg (Option.map _) (shflOf_of_le hf)
  · rw [decodeWord_of_major hw hm]
    refine guarded_eq_none ?_
    rw [word_f3_eq, word_imm8_eq]
    simp
    omega
  · rw [decodeWord_of_major hw hm]
    refine guarded_eq_none ?_
    simp [ev]
    omega
  · have hb : (w / 2 ^ 4 % 128 == 0 && w % 16 == 0) = false := by simp; omega
    rcases hm with hm | hm <;> rw [decodeWord_of_major hw hm] <;> exact guarded_eq_none hb

/-- Settles O26: the exchanges by the sources they read, the scans as folds in lane order, the words by their guards. -/
theorem crossLane : Obligations.CrossLane := ⟨laneExchanges, scansAndReductions, crossLaneWords⟩

end Sys2Proof
end

section
/-! SUPPORT. FP32 words and the order of their values: decoding by the exponent field, zeros, what flush reads (R40, R53, R120). -/

namespace Sys2Proof.Machine

/-! ### The value of a word, by its exponent field (R40) -/

/-- An FP32 word is an infinity or a NaN with the exponent 255, a zero or a subnormal with 0, and a normal number between. -/
theorem fmtDecode_f32 (n : Nat) : fmtDecode fmtF32 n =
    if n / 2 ^ 23 % 256 = 255 then
      (if n % 2 ^ 23 = 0 then .inf (n / 2 ^ 31 % 2 == 1) else .nan (decide (n % 2 ^ 23 < 2 ^ 22)))
    else if n / 2 ^ 23 % 256 = 0 then .num (n / 2 ^ 31 % 2 == 1) (n % 2 ^ 23) (-149)
    else .num (n / 2 ^ 31 % 2 == 1) (2 ^ 23 + n % 2 ^ 23) ((n / 2 ^ 23 % 256 : Nat) - 127 - 23) := rfl

/-- The mantissa of a finite word has its leading one but with the exponent 0. -/
theorem mantissa_lt_iff {n m : Nat} {neg : Bool} {e : Int} (h : fmtDecode fmtF32 n = .num neg m e) :
    m < 2 ^ 23 ↔ n / 2 ^ 23 % 256 = 0 := by
  rw [fmtDecode_f32] at h
  split at h
  · split at h <;> cases h
  · split at h <;> cases h <;> omega

/-- With the exponent 0 a word is a zero or a subnormal of its sign. -/
theorem fmtDecode_f32_low {n : Nat} (h : n / 2 ^ 23 % 256 = 0) :
    fmtDecode fmtF32 n = .num (n / 2 ^ 31 % 2 == 1) (n % 2 ^ 23) (-149) := by
  rw [fmtDecode_f32, if_neg (by omega), if_pos h]

/-- The word of a zero is that of its sign. -/
theorem eq_fmtZero_of_fIsZero {x : Word} (h : fIsZero (fmtDecode fmtF32 x.toNat) = true) :
    x = BitVec.ofNat 32 (fmtZero fmtF32 (fNeg (fmtDecode fmtF32 x.toNat))) := by
  have hx := x.isLt
  cases hv : fmtDecode fmtF32 x.toNat with
  | nan s => rw [hv] at h; cases h
  | inf n => rw [hv] at h; cases h
  | num neg m e =>
    have hm : m = 0 := by simpa [hv, fIsZero] using h
    have hl := (mantissa_lt_iff hv).mp (by omega)
    rw [fmtDecode_f32_low hl] at hv
    cases hv
    apply BitVec.eq_of_toNat_eq
    simp only [fNeg, fmtZero, fmtSign, fmtF32, BitVec.toNat_ofNat, beq_iff_eq]
    split <;> omega

/-- The zero of a sign has the value 0 of that sign. -/
theorem fmtDecode_fmtZero (neg : Bool) : fmtDecode fmtF32 (BitVec.ofNat 32 (fmtZero fmtF32 neg)).toNat = .num neg 0 (-149) := by
  cases neg <;> rfl

/-! ### What flush reads (R53) -/

/-- An operand is the value of its word, but for a subnormal one under flush. -/
theorem op32_num (c : RoundCtl) {x : Word} {neg : Bool} {m : Nat} {e : Int} (h : fmtDecode fmtF32 x.toNat = .num neg m e) :
    op32 c x = if c.flush && decide (m < 2 ^ 23) then .num neg 0 e else .num neg m e := by
  have hk : (fmtF32.kind != .e2m1) = true := rfl
  rw [op32, readFlushed, h, hk, Bool.and_true]
  rfl

theorem op32_inf (c : RoundCtl) {x : Word} {neg : Bool} (h : fmtDecode fmtF32 x.toNat = .inf neg) : op32 c x = .inf neg := by
  rw [op32, readFlushed, h]

theorem op32_nan (c : RoundCtl) {x : Word} {s : Bool} (h : fmtDecode fmtF32 x.toNat = .nan s) : op32 c x = .nan s := by
  rw [op32, readFlushed, h]

/-- Without flush an operand is the value of its word. -/
theorem op32_of_keep {c : RoundCtl} (h : c.flush = false) (x : Word) : op32 c x = fmtDecode fmtF32 x.toNat := by
  cases hv : fmtDecode fmtF32 x.toNat with
  | num neg m e => rw [op32_num c hv, h, Bool.false_and, if_neg Bool.false_ne_true]
  | inf n => exact op32_inf c hv
  | nan s => exact op32_nan c hv

theorem flushBits_of_keep {c : RoundCtl} (h : c.flush = false) (x : Word) : flushBits c x = x := by
  rw [flushBits]
  split <;> simp [h]

/-- A word with the exponent 0 flushed is the zero of its sign. -/
theorem flushedWord_of_low {x : Word} (h : x.toNat / 2 ^ 23 % 256 = 0) :
    flushedWord x = BitVec.ofNat 32 (fmtZero fmtF32 (x.toNat / 2 ^ 31 % 2 == 1)) := by
  rw [flushedWord, if_pos h, show (0x80000000 : Word) = BitVec.twoPow 32 31 from rfl, BitVec.and_twoPow, ← BitVec.testBit_toNat,
    Nat.testBit_eq_decide_div_mod_eq, Bool.beq_eq_decide_eq]
  cases decide (x.toNat / 2 ^ 31 % 2 = 1) <;> rfl

/-- What flush makes of a finite word: of a mantissa without its leading one the zero of its sign, else the word. -/
theorem flushedWord_num {x : Word} {neg : Bool} {m : Nat} {e : Int} (h : fmtDecode fmtF32 x.toNat = .num neg m e) :
    (m < 2 ^ 23 ∧ e = -149 ∧ flushedWord x = BitVec.ofNat 32 (fmtZero fmtF32 neg)) ∨ (¬m < 2 ^ 23 ∧ flushedWord x = x) := by
  by_cases hm : m < 2 ^ 23
  · have hl := (mantissa_lt_iff h).mp hm
    rw [fmtDecode_f32_low hl] at h
    cases h
    exact .inl ⟨hm, rfl, flushedWord_of_low hl⟩
  · exact .inr ⟨hm, if_neg fun hl => hm ((mantissa_lt_iff h).mpr hl)⟩

/-- Flush leaves a word that is no finite number. -/
theorem flushedWord_of_not_finite {x : Word} (h : fIsFinite (fmtDecode fmtF32 x.toNat) = false) : flushedWord x = x := by
  refine if_neg fun hl => ?_
  rw [fmtDecode_f32_low hl] at h
  cases h

/-- With flush an operand is the value of its flushed word. -/
theorem op32_of_flush {c : RoundCtl} (h : c.flush = true) (x : Word) : op32 c x = fmtDecode fmtF32 (flushedWord x).toNat := by
  cases hv : fmtDecode fmtF32 x.toNat with
  | num neg m e =>
    rw [op32_num c hv, h, Bool.true_and]
    rcases flushedWord_num hv with ⟨hm, he, hw⟩ | ⟨hm, hw⟩
    · rw [if_pos (decide_eq_true hm), hw, he, fmtDecode_fmtZero]
    · rw [if_neg (by simpa using hm), hw, hv]
  | inf n => rw [op32_inf c hv, flushedWord_of_not_finite (by rw [hv]; rfl), hv]
  | nan s => rw [op32_nan c hv, flushedWord_of_not_finite (by rw [hv]; rfl), hv]

theorem flushBits_of_flush {c : RoundCtl} (h : c.flush = true) (x : Word) : flushBits c x = flushedWord x := by
  cases hv : fmtDecode fmtF32 x.toNat with
  | num neg m e =>
    rw [flushBits, hv]
    rcases flushedWord_num hv with ⟨hm, -, hw⟩ | ⟨hm, hw⟩
    · rw [hw]
      exact if_pos (by rw [h, Bool.true_and]; exact decide_eq_true hm)
    · rw [hw]
      exact if_neg (by rw [h, Bool.true_and]; simpa using hm)
  | inf n => rw [flushBits, hv, flushedWord_of_not_finite (by rw [hv]; rfl)]
  | nan s => rw [flushBits, hv, flushedWord_of_not_finite (by rw [hv]; rfl)]

/-- A flushed word that is no zero is the word itself. -/
theorem flushedWord_of_not_fIsZero {x : Word} (h : fIsZero (fmtDecode fmtF32 (flushedWord x).toNat) = false) :
    flushedWord x = x := by
  refine if_neg fun hl => ?_
  rw [flushedWord_of_low hl, fmtDecode_fmtZero] at h
  cases h

/-- Flush leaves NaNs as they are. -/
@[simp] theorem fIsNan_op32 (c : RoundCtl) (x : Word) : fIsNan (op32 c x) = nanWord x := by
  rw [nanWord]
  cases hv : fmtDecode fmtF32 x.toNat with
  | num neg m e => rw [op32_num c hv]; split <;> rfl
  | inf n => rw [op32_inf c hv]
  | nan s => rw [op32_nan c hv]

theorem fIsSnan_op32 (c : RoundCtl) (x : Word) : fIsSnan (op32 c x) = fIsSnan (fmtDecode fmtF32 x.toNat) := by
  cases hv : fmtDecode fmtF32 x.toNat with
  | num neg m e => rw [op32_num c hv]; split <;> rfl
  | inf n => rw [op32_inf c hv]
  | nan s => rw [op32_nan c hv]

@[simp] theorem op32_fmtZero (c : RoundCtl) (neg : Bool) : op32 c (BitVec.ofNat 32 (fmtZero fmtF32 neg)) = .num neg 0 (-149) := by
  rw [op32_num c (fmtDecode_fmtZero neg), ite_self]

/-! ### The order (R120) -/

theorem fMinExp_pair_comm (x y : FVal) : fMinExp [x, y] = fMinExp [y, x] := by
  cases hx : fIsFinite x && !fIsZero x <;> cases hy : fIsFinite y && !fIsZero y <;>
    simp [fMinExp, hx, hy, Int.min_comm]

/-- Of two values at most one is less than the other. -/
theorem fLt_asymm {a b : FVal} (h : fLt a b = true) : fLt b a = false := by
  cases a with
  | nan s => cases h
  | inf n =>
    cases b <;> simp_all [fLt]
  | num n m e =>
    cases b with
    | nan s => cases h
    | inf k => simp_all [fLt]
    | num k p f =>
      simp only [fLt] at h ⊢
      rw [fMinExp_pair_comm (.num k p f)]
      simp only [decide_eq_true_eq, decide_eq_false_iff_not] at h ⊢
      omega

theorem fLt_irrefl (a : FVal) : fLt a a = false := by
  cases h : fLt a a with
  | false => rfl
  | true => exact h.symm.trans (fLt_asymm h)

/-- What is neither less nor greater than a zero is a zero. -/
theorem fIsZero_of_not_fLt {a b : FVal} (ha : fIsZero a = true) (hb : fIsNan b = false) (hab : fLt a b = false)
    (hba : fLt b a = false) : fIsZero b = true := by
  cases a with
  | nan s => cases ha
  | inf n => cases ha
  | num n m e =>
    cases b with
    | nan s => cases hb
    | inf k => exact absurd (hba : k = false) (by simpa [fLt] using hab)
    | num k p f =>
      cases hz : fIsZero (.num k p f) with
      | true => rfl
      | false =>
        have hp : p ≠ 0 := by simpa [fIsZero] using hz
        rw [fLt, fMinExp_pair_comm] at hba
        simp only [fLt, ha, hz, if_true, Bool.false_eq_true, if_false, decide_eq_false_iff_not, fScaled] at hab hba
        have hpos := Nat.mul_pos (Nat.pos_of_ne_zero hp) (Nat.two_pow_pos (f - fMinExp [.num n m e, .num k p f]).toNat)
        generalize p * 2 ^ (f - fMinExp [.num n m e, .num k p f]).toNat = q at hab hba hpos
        cases k <;> simp only [Bool.false_eq_true, if_true, if_false] at hab hba <;> omega

/-! ### fmin and fmax (R119) -/

/-- The order by which fmin takes the first of two values, and fmax the other way round. -/
def precedes (larger : Bool) (a b : FVal) : Bool := if larger then fLt b a else fLt a b

theorem precedes_asymm {k : Bool} {a b : FVal} (h : precedes k a b = true) : precedes k b a = false := by
  cases k <;> exact fLt_asymm h

theorem fIsZero_of_not_precedes {k : Bool} {a b : FVal} (ha : fIsZero a = true) (hb : fIsNan b = false)
    (hab : precedes k a b = false) (hba : precedes k b a = false) : fIsZero b = true := by
  cases k
  · exact fIsZero_of_not_fLt ha hb hab hba
  · exact fIsZero_of_not_fLt ha hb hba hab

/-- The flags of fmin and fmax come from signalling NaNs alone. -/
theorem fminmax32_flags (k : Bool) (c : RoundCtl) (x y : Word) : (fminmax32 k c x y).2 =
    if fIsSnan (fmtDecode fmtF32 x.toNat) || fIsSnan (fmtDecode fmtF32 y.toNat) then flInvalid else 0 := by
  rw [← fIsSnan_op32 c, ← fIsSnan_op32 c]
  simp only [fminmax32, apply_ite Prod.snd, ite_self]
  rfl

theorem fminmax32_nans (k : Bool) (c : RoundCtl) {x y : Word} (hx : nanWord x = true) (hy : nanWord y = true) :
    (fminmax32 k c x y).1 = 0x7FC00000 := by
  simp [fminmax32, fIsNan_op32, hx, hy, nanF32]

theorem fminmax32_nan_left (k : Bool) {c : RoundCtl} {x y : Word} (hf : c.flush = false) (hx : nanWord x = true)
    (hy : nanWord y = false) : (fminmax32 k c x y).1 = y := by
  simp [fminmax32, fIsNan_op32, hx, hy, flushBits_of_keep hf]

theorem fminmax32_nan_right (k : Bool) {c : RoundCtl} {x y : Word} (hf : c.flush = false) (hx : nanWord x = true)
    (hy : nanWord y = false) : (fminmax32 k c y x).1 = y := by
  simp [fminmax32, fIsNan_op32, hx, hy, flushBits_of_keep hf]

/-- Two zeros give the zero of the smaller or the larger sign. -/
theorem fminmax32_zeros (k : Bool) (c : RoundCtl) (p q : Bool) :
    (fminmax32 k c (BitVec.ofNat 32 (fmtZero fmtF32 p)) (BitVec.ofNat 32 (fmtZero fmtF32 q))).1 =
      BitVec.ofNat 32 (fmtZero fmtF32 (if k then p && q else p || q)) := by
  simp only [fminmax32, op32_fmtZero]
  cases p <;> cases q <;> rfl

/-- The operand that precedes the other is chosen; of two zeros the sign decides, and of equal values the first is taken. -/
theorem fminmax32_numbers (k : Bool) {c : RoundCtl} {x y : Word} (hf : c.flush = false) (hx : nanWord x = false)
    (hy : nanWord y = false) {a b : FVal} (ha : a = fmtDecode fmtF32 x.toNat) (hb : b = fmtDecode fmtF32 y.toNat) :
    (fminmax32 k c x y).1 = if precedes k a b then x else if precedes k b a then y
      else if fIsZero a then BitVec.ofNat 32 (fmtZero fmtF32 (if k then fNeg a && fNeg b else fNeg a || fNeg b)) else x := by
  have hna : fIsNan a = false := ha ▸ hx
  have hnb : fIsNan b = false := hb ▸ hy
  simp only [fminmax32, op32_of_keep hf, flushBits_of_keep hf, ← ha, ← hb, hna, hnb, Bool.false_and, Bool.false_eq_true, if_false,
    apply_ite Prod.fst]
  cases k with
  | false => rfl
  | true =>
    cases hab : fLt a b with
    | true => simp [precedes, hab, fLt_asymm hab]
    | false => simp [precedes, hab]

/-- The sign that two zeros give is that of one of them. -/
theorem zeroSign_eq (k p q : Bool) : (if k then p && q else p || q) = p ∨ (if k then p && q else p || q) = q := by
  revert k p q
  decide

/-- Two operands that are no NaN: the result is one of them, and the other does not precede it. -/
theorem fminmax32_of_numbers (k : Bool) {c : RoundCtl} {x y : Word} (hf : c.flush = false) (hx : nanWord x = false)
    (hy : nanWord y = false) {a b : FVal} (ha : a = fmtDecode fmtF32 x.toNat) (hb : b = fmtDecode fmtF32 y.toNat) :
    ((fminmax32 k c x y).1 = x ∧ precedes k b a = false) ∨ ((fminmax32 k c x y).1 = y ∧ precedes k a b = false) := by
  rw [fminmax32_numbers k hf hx hy ha hb]
  cases hab : precedes k a b with
  | true => exact .inl ⟨rfl, precedes_asymm hab⟩
  | false =>
    cases hba : precedes k b a with
    | true => exact .inr ⟨rfl, rfl⟩
    | false =>
      cases hz : fIsZero a with
      | false => exact .inl ⟨rfl, rfl⟩
      | true =>
        have hzb : fIsZero b = true := fIsZero_of_not_precedes hz (hb ▸ hy) hab hba
        have ex : x = BitVec.ofNat 32 (fmtZero fmtF32 (fNeg a)) := ha ▸ eq_fmtZero_of_fIsZero (ha ▸ hz)
        have ey : y = BitVec.ofNat 32 (fmtZero fmtF32 (fNeg b)) := hb ▸ eq_fmtZero_of_fIsZero (hb ▸ hzb)
        exact (zeroSign_eq k (fNeg a) (fNeg b)).imp (fun hs => ⟨by simp [hs, ← ex], rfl⟩) fun hs => ⟨by simp [hs, ← ey], rfl⟩

/-- Neither operand precedes the result of two numbers. -/
theorem not_precedes_fminmax32 (k : Bool) {c : RoundCtl} {x y : Word} (hf : c.flush = false) (hx : nanWord x = false)
    (hy : nanWord y = false) :
    precedes k (fmtDecode fmtF32 x.toNat) (fmtDecode fmtF32 (fminmax32 k c x y).1.toNat) = false
    ∧ precedes k (fmtDecode fmtF32 y.toNat) (fmtDecode fmtF32 (fminmax32 k c x y).1.toNat) = false := by
  have hirrefl : ∀ a, precedes k a a = false := fun a => by cases k <;> exact fLt_irrefl a
  rcases fminmax32_of_numbers k hf hx hy rfl rfl with ⟨hr, hp⟩ | ⟨hr, hp⟩ <;> rw [hr]
  · exact ⟨hirrefl _, hp⟩
  · exact ⟨hp, hirrefl _⟩

/-- With flush fmin and fmax are those of the flushed words. -/
theorem fminmax32_of_flush (k : Bool) {c : RoundCtl} (x y : Word) (hf : c.flush = true) :
    fminmax32 k c x y = fminmax32 k { c with flush := false } (flushedWord x) (flushedWord y) := by
  simp only [fminmax32, op32_of_flush hf, flushBits_of_flush hf, op32_of_keep (c := { c with flush := false }) rfl,
    flushBits_of_keep (c := { c with flush := false }) rfl, apply_ite flushedWord]
  cases hz : fIsZero (fmtDecode fmtF32 (flushedWord x).toNat) with
  | true => simp only [if_true]
  | false => rw [flushedWord_of_not_fIsZero hz]

/-! ### fset (R120) -/

theorem fset32_lt_eq_zero {c : RoundCtl} {x y : Word} (hf : c.flush = false)
    (h : fLt (fmtDecode fmtF32 x.toNat) (fmtDecode fmtF32 y.toNat) = false) : (fset32 .lt c x y).1 = 0 := by
  simp [fset32, op32_of_keep hf, h, boolW]

/-- Of two numbers one is less, or they are equal. -/
theorem fset32_trichotomy (c : RoundCtl) {x y : Word} (hx : nanWord x = false) (hy : nanWord y = false) :
    (fset32 .lt c x y).1 + (fset32 .eq c x y).1 + (fset32 .lt c y x).1 = 1 := by
  simp only [fset32, fEq, fIsNan_op32, hx, hy, Bool.or_false, Bool.not_false, Bool.true_and]
  cases hab : fLt (op32 c x) (op32 c y) with
  | true => rw [fLt_asymm hab]; rfl
  | false => cases fLt (op32 c y) (op32 c x) <;> rfl

end Sys2Proof.Machine
end

section
/-! The minima and maxima of FP32 numbers, and their order (R119, R120). -/

namespace Sys2Proof

open Machine

/- The dispatch of these instructions, as the shape below needs it. -/
theorem exec_fmin (d a b : Nat) (s : State) : exec (.fmin d a b) s = floatOp2 d a b s (fminmax32 false) := rfl
theorem exec_fmax (d a b : Nat) (s : State) : exec (.fmax d a b) s = floatOp2 d a b s (fminmax32 true) := rfl

/-- A floating-point instruction writes its results and ORs its flags into fpf. -/
theorem writesFloats_of_floatOp {i : Instr} {vs : List Nat} {d : Nat} {f : State → Gang → Split → Nat → Word × Flags}
    (hx : ∀ s, exec i s = floatOp vs d s f) : WritesFloats i vs (some [d]) d f :=
  onGang_of_gangOp hx fun _ _ _ _ _ _ _ => exists_doneAt _ _ _ _ _

theorem floats2_of_floatOp2 {mk : Nat → Nat → Nat → Instr} {f : RoundCtl → Word → Word → Word × Flags}
    (hx : ∀ d a b s, exec (mk d a b) s = floatOp2 d a b s f) : Floats2 mk f :=
  fun d a b => writesFloats_of_floatOp (hx d a b)

/-- Settles O25: one operand is chosen, which the other does not precede; NaNs, zeros and flush apart. -/
theorem minimaAndOrder : Obligations.MinimaAndOrder := by
  refine ⟨floats2_of_floatOp2 exec_fmin, floats2_of_floatOp2 exec_fmax, fun k c x y hf hx hy => ?_, fun c x y hf hx hy => ?_,
    fun k c x y hf hx hy => ⟨fminmax32_nan_left k hf hx hy, fminmax32_nan_right k hf hx hy⟩,
    fun c => ⟨fminmax32_zeros false c false true, fminmax32_zeros true c true false, fminmax32_zeros false c true false,
      fminmax32_zeros true c false true⟩,
    fun k c _ _ => fminmax32_nans k c, fminmax32_flags, fun k _ x y => fminmax32_of_flush k x y,
    fun c _ _ => fset32_trichotomy c⟩
  · exact (fminmax32_of_numbers k hf hx hy rfl rfl).imp And.left And.left
  · obtain ⟨hminx, hminy⟩ := not_precedes_fminmax32 false hf hx hy
    obtain ⟨hmaxx, hmaxy⟩ := not_precedes_fminmax32 true hf hx hy
    exact ⟨fset32_lt_eq_zero hf hminx, fset32_lt_eq_zero hf hminy, fset32_lt_eq_zero hf hmaxx, fset32_lt_eq_zero hf hmaxy⟩

end Sys2Proof
end
